-- ==== Sys2Proof/Word.lean ====
section
/-! DEFINITION. The word types of the machine (R3) and their plainest arithmetic. -/

namespace Sys2Proof

/-- A doubleword, the width of an `x` register. -/
abbrev Word := BitVec 64

/-- A halfword: a head or one unit of a tail (R241). -/
abbrev Half := BitVec 16

/-- A byte. -/
abbrev Byte := BitVec 8

/-- A 64-byte line, byte 0 in the low bits (R241). -/
abbrev Line := BitVec 512

/-- The contents of a vector register, byte 0 in the low bits (R148). -/
abbrev VBits := BitVec 8192

/-- One bit for each byte of a vector register, and a predicate register (R10). -/
abbrev PBits := BitVec 1024

/-- The contents of a 128-byte sector, byte 0 in the low bits. -/
abbrev Sector := BitVec 1024

/-- One bit for each byte of a sector. -/
abbrev SMask := BitVec 128

end Sys2Proof
end

