-- ==== Sys2Proof/Config.lean ====
section
/-! DEFINITION. What one device fixes and the values the spec leaves open. A free value is an opaque constant: nothing
in the package can tell what it is, so a statement about it holds for every value. -/

namespace Sys2Proof

/-- The value of a matrix accumulator element whose sum includes a poisoned byte or cell (R354: its value is unspecified). -/
opaque Config.freeAcc : Nat → BitVec 32

/-- The bytes that a Gale peer returns to a remote load (R86): another device's memory. -/
opaque Config.freeGale : Nat → BitVec 1024

/-- The signature bytes of a quote behind its leaf index (R32): the identity key is in the fuses and the spec gives no key. -/
opaque Config.freeQuote : Nat → BitVec 8

/-- The bytes of a poisoned result that the spec gives no value. -/
opaque Config.freePoison : Nat → BitVec 1024

/-- Whether the peer of a Gale port loses an access because its own translation fails (R86): another device's tables. DESIGN CHOICE, safe (log 21). -/
opaque Config.galeLost : Nat → Bool

/-- Whether the word written to the life-cycle request register carries an authorisation signed under the root key for its target state
and the device id (R34): the spec prints neither the key nor the place of the authorisation. -/
opaque Config.lcAuth : BitVec 256 → BitVec 64 → BitVec 64 → Bool

/-- What `clid` reads on a supervisor core: R131 gives the register to the cores of clusters only. -/
opaque Config.supCluster : Nat → BitVec 4

/-- The root key digest and the identity seed that the step from BLANK to PROVISIONED burns (R34). DESIGN CHOICE, safe (log 3). -/
opaque Config.provisionKey : BitVec 256
/-- See `provisionKey`. -/
opaque Config.provisionSeed : BitVec 256

/-- The number of hypervisor calls of R102. -/
def Config.hcallCount : Nat := 6

/-- The monitor version that call 0x00 of R102 returns. DESIGN CHOICE, safe (log 3). -/
opaque Config.monitorVersion : BitVec 64

end Sys2Proof
end

