-- ==== Sys2Proof/Syntax.lean ====
section
/-! DEFINITION. The syntax of the machine: every row of the opcode table is a constructor of `Instr`.
The first part are the encoded instructions of R266 to R277; the second part are the events of the device, which
have no encoding and which the step runs as moves of their own. -/

namespace Sys2Proof

/-- An `x` source field (R246): the W bit of R136 and the register number. -/
structure Src where
  w : Bool
  r : BitVec 5
  deriving DecidableEq, Repr

/-- A scalar register as a destination (R246). -/
abbrev Reg := BitVec 5
/-- A vector register number (R272). -/
abbrev VR := BitVec 5
/-- A predicate register number (R272). -/
abbrev PR := BitVec 4

/-- The element types (R277). -/
inductive ETy where
  | i8 | i16 | i32 | i64 | n8 | n16 | n32 | n64 | e4m3 | e5m2 | f16 | bf16 | f32 | f64 | mx8
  deriving DecidableEq, Repr

/-- The rounding field (R248); `dyn` is code 0, the mode in `frm`. -/
inductive Rm where
  | dyn | rne | rmm | rtz | rup | rdn
  deriving DecidableEq, Repr

/-- The out-of-range policies (R68). -/
inductive Pol where
  | poison | zero | clamp | skip
  deriving DecidableEq, Repr

/-- The branch conditions (R248). -/
inductive Cond where
  | eq | ne | lt | ge | ltn | gen
  deriving DecidableEq, Repr

/-- The scopes (R186). -/
inductive Scope where
  | seq | core | cl | die | dev | sys | rc
  deriving DecidableEq, Repr

/-- The fence kinds (R273). -/
inductive FKind where
  | acq | rel | full
  deriving DecidableEq, Repr

/-- The widths of `sext` and `zext` (R273). -/
inductive Wid where
  | b | h | w
  deriving DecidableEq, Repr

/-- The sub-operations of `amo` (R332). -/
inductive AmoOp where
  | add | and | or | xor | min | max | minn | maxn | swap | cas | fadd
  deriving DecidableEq, Repr

/-- The relations of `fcmp` (R282). -/
inductive FcmpOp where
  | eq | lt | le | un
  deriving DecidableEq, Repr

/-- The relations of `vcmp` (R319). -/
inductive VcmpOp where
  | eq | ne | lt | le | gt | ge | un
  deriving DecidableEq, Repr

/-- The operations of `plog` (R313). -/
inductive PlogOp where
  | and | or | xor | andn | orn | nand | nor | xnor
  deriving DecidableEq, Repr

/-- The operations of `vred` and `vscan` (R327). -/
inductive RedOp where
  | add | min | max | and | or | xor
  deriving DecidableEq, Repr

/-- The operations of the bank adders (R67, R275). -/
inductive BankOp where
  | add | min | max
  deriving DecidableEq, Repr

/-- The operations of `vspamo` (R346). -/
inductive SpOp where
  | add | min | max | and | or | xor | swap
  deriving DecidableEq, Repr

/-- The knot formats of `tbset` (R378). -/
inductive KnotFmt where
  | bf16 | f16 | f32
  deriving DecidableEq, Repr

/-- The destination of `cpy`, `sgath` and `sgred` (R276): an address in an `x` register, or a circular buffer. -/
inductive SDst where
  | x (s : Src)
  | cb (n : BitVec 4)
  deriving DecidableEq, Repr

/-- The sequencers of a side (R131). -/
inductive Role where
  | P | M | S
  deriving DecidableEq, Repr

/-- A sequencer of the device: side number `k` is die `k / 256`, core `(k / 2) mod 128`, side `k mod 2` (R131); supervisor
core `n` is core `n mod 8` of die `n / 8` (R76). -/
inductive SeqId where
  | side (k : BitVec 10) (r : Role)
  | sup (n : BitVec 5)
  deriving DecidableEq, Repr

/-- A place in an SRAM that an error is found in (R161, R219): a line buffer sector of a core's L1, an L2 sector of a
die, a scratchpad granule, a DRAM sector, one copy of a barrier or semaphore counter of a cluster (R230), or an entry of a core's index
scratchpad (R377). -/
inductive SramLoc where
  | l1 (core : BitVec 10) (i : BitVec 12)
  | l2 (die : BitVec 2) (i : BitVec 16)
  | spad (core : BitVec 9) (granule : BitVec 16)
  | dram (mpa : BitVec 39)
  | vote (cluster : BitVec 6) (n : BitVec 7) (copy : BitVec 2)
  | index (core : BitVec 9) (n : BitVec 12)
  deriving DecidableEq, Repr

/-- What a held beat of a lane comes to (R154, R155): two of three results or a second reading of a source agree, all three results of the
lane under check differ, or a source of the lane stays unreadable. -/
inductive LaneEnd where
  | agree | differ | unread
  deriving DecidableEq, Repr

/-- The instructions and events of the opcode table, one constructor for each row. Operand names: `d` destination, `a b c`
sources in field order, `pg` governing predicate, `ts` the explicit element type of tsel (R248), `wait` the token mask of R249,
`rm` the rounding field. -/
inductive Instr where
  | nop
  | add (d : Reg) (a b : Src)
  | sub (d : Reg) (a b : Src)
  | and (d : Reg) (a b : Src)
  | or (d : Reg) (a b : Src)
  | xor (d : Reg) (a b : Src)
  | sll (d : Reg) (a b : Src)
  | srl (d : Reg) (a b : Src)
  | sra (d : Reg) (a b : Src)
  | slt (d : Reg) (a b : Src)
  | sltn (d : Reg) (a b : Src)
  | min (d : Reg) (a b : Src)
  | max (d : Reg) (a b : Src)
  | minn (d : Reg) (a b : Src)
  | maxn (d : Reg) (a b : Src)
  | addi (d : Reg) (a : Src) (imm : BitVec 26)
  | andi (d : Reg) (a : Src) (imm : BitVec 26)
  | ori (d : Reg) (a : Src) (imm : BitVec 26)
  | xori (d : Reg) (a : Src) (imm : BitVec 26)
  | slli (d : Reg) (a : Src) (n : BitVec 6)
  | srli (d : Reg) (a : Src) (n : BitVec 6)
  | srai (d : Reg) (a : Src) (n : BitVec 6)
  | slti (d : Reg) (a : Src) (imm : BitVec 26)
  | li (d : Reg) (imm : BitVec 40)
  | lpc (d : Reg) (lines : BitVec 27) (slot : BitVec 5)
  | mul (d : Reg) (a b : Src)
  | mulh (d : Reg) (a b : Src)
  | mulhn (d : Reg) (a b : Src)
  | div (d : Reg) (a b : Src)
  | divn (d : Reg) (a b : Src)
  | rem (d : Reg) (a b : Src)
  | remn (d : Reg) (a b : Src)
  | clz (d : Reg) (a : Src)
  | ctz (d : Reg) (a : Src)
  | popc (d : Reg) (a : Src)
  | sext (d : Reg) (a : Src) (wd : Wid)
  | zext (d : Reg) (a : Src) (wd : Wid)
  | bfx (d : Reg) (a : Src) (pos len1 : BitVec 6)
  | bfi (d : Reg) (a b : Src) (pos len1 : BitVec 6)
  | mv (d : Reg) (a : Src)
  | sel (d : Reg) (a b c : Src)
  | addsh (d : Reg) (a b : Src) (sh : BitVec 2)
  | fadd (d : Reg) (a b : Src) (t : ETy) (rm : Rm)
  | fsub (d : Reg) (a b : Src) (t : ETy) (rm : Rm)
  | fmul (d : Reg) (a b : Src) (t : ETy) (rm : Rm)
  | fma (d : Reg) (a b c : Src) (t : ETy) (rm : Rm)
  | fdiv (d : Reg) (a b : Src) (t : ETy) (rm : Rm)
  | fsqrt (d : Reg) (a : Src) (t : ETy) (rm : Rm)
  | fmin (d : Reg) (a b : Src) (t : ETy)
  | fmax (d : Reg) (a b : Src) (t : ETy)
  | fcmp (d : Reg) (a b : Src) (t : ETy) (c : FcmpOp)
  | fcvt (d : Reg) (a : Src) (t s : ETy) (rm : Rm)
  | fclass (d : Reg) (a : Src) (t : ETy)
  | ld (d : Reg) (a : Src) (sz : BitVec 2) (n : Bool) (off : BitVec 19)
  | st (v a : Src) (sz : BitVec 2) (off : BitVec 19)
  | lda (d : Reg) (a : Src) (sz : BitVec 2) (n : Bool) (sc : Scope) (off : BitVec 19)
  | stl (v a : Src) (sz : BitVec 2) (sc : Scope) (off : BitVec 19)
  | amo (d : Reg) (a b c : Src) (op : AmoOp) (dbl : Bool)
  | pf (a : Src) (wr : Bool) (off : BitVec 19)
  | b (c : Cond) (x y : Src) (lines : BitVec 15) (slot : BitVec 5)
  | bi (c : Cond) (x : Src) (imm : BitVec 16) (lines : BitVec 21) (slot : BitVec 5)
  | j (lines : BitVec 27) (slot : BitVec 5)
  | jal (d : Reg) (lines : BitVec 27) (slot : BitVec 5)
  | jr (a : Src)
  | jalr (d : Reg) (a : Src)
  | loop (a : Src) (lines : BitVec 7) (slot : BitVec 5)
  | loopi (n : BitVec 20) (lines : BitVec 7) (slot : BitVec 5)
  | lbrk
  | lix (d : Reg) (k : BitVec 3)
  | fork (a b : Src)
  | rdv
  | tkwait (d : Reg) (tk : BitVec 3)
  | tkwaitClear (d : Reg) (tk : BitVec 3)
  | barArrive (a : Src)
  | barWait (a : Src)
  | barArrivewait (a : Src)
  | barArrivebytes (a b : Src)
  | semUp (a : Src)
  | semDown (a : Src)
  | fence (sc : Scope) (k : FKind)
  | fenceCommit
  | qfence (mask : BitVec 8)
  | spawn (d : Reg) (a b : Src)
  | spawnInc (d : Reg) (a b : Src)
  | cont (d : Reg) (a : Src)
  | endUnit
  | cancel (d : Reg) (a : Src) (k : BitVec 3)
  | yield
  | mbput (m : BitVec 3) (a : Src)
  | mbget (d : Reg) (m : BitVec 3)
  | trap (imm : BitVec 26)
  | bkpt (imm : BitVec 26)
  | eret
  | hcall
  | idle
  | crd (d : Reg) (cr : BitVec 12)
  | crw (d : Reg) (cr : BitVec 12) (a : Src)
  | crset (d : Reg) (cr : BitVec 12) (a : Src)
  | crclr (d : Reg) (cr : BitVec 12) (a : Src)
  | ainvPage (a b : Src)
  | ainvAsn (a : Src)
  | ainvPart (a : Src)
  | harv (a b : Src) (f : BitVec 4)
  | vqsave (a : Src)
  | vqload (a : Src)
  | vsave (a : Src)
  | vrest (a : Src)
  | setvl (d : Reg) (a : Src) (t : ETy)
  | vsetvt (v : BitVec 8)
  | vspec
  | vcommit
  | vbrk (d a : PR) (pg : PR) (excl : Bool)
  | pset (d : PR) (pg : PR) (v : Bool)
  | plog (d a b : PR) (pg : PR) (op : PlogOp)
  | pnot (d a : PR) (pg : PR)
  | pfirst (d : Reg) (a : PR) (pg : PR)
  | pcnt (d : Reg) (a : PR) (pg : PR)
  | pmv (d a : PR) (pg : PR)
  | vbind (d : VR) (sp : BitVec 3)
  | vadd (d a b : VR) (pg : PR) (ts : Option ETy) (rm : Rm)
  | vsub (d a b : VR) (pg : PR) (ts : Option ETy) (rm : Rm)
  | vmul (d a b : VR) (pg : PR) (ts : Option ETy) (rm : Rm)
  | vmulh (d a b : VR) (pg : PR) (ts : Option ETy)
  | vdiv (d a b : VR) (pg : PR) (ts : Option ETy)
  | vrem (d a b : VR) (pg : PR) (ts : Option ETy)
  | vmin (d a b : VR) (pg : PR) (ts : Option ETy)
  | vmax (d a b : VR) (pg : PR) (ts : Option ETy)
  | vand (d a b : VR) (pg : PR) (ts : Option ETy)
  | vor (d a b : VR) (pg : PR) (ts : Option ETy)
  | vxor (d a b : VR) (pg : PR) (ts : Option ETy)
  | vsll (d a b : VR) (pg : PR) (ts : Option ETy)
  | vsrl (d a b : VR) (pg : PR) (ts : Option ETy)
  | vsra (d a b : VR) (pg : PR) (ts : Option ETy)
  | vabs (d a : VR) (pg : PR) (ts : Option ETy)
  | vneg (d a : VR) (pg : PR) (ts : Option ETy)
  | vfma (d a b c : VR) (pg : PR) (ts : Option ETy) (rm : Rm)
  | vfms (d a b c : VR) (pg : PR) (ts : Option ETy) (rm : Rm)
  | vfnma (d a b c : VR) (pg : PR) (ts : Option ETy) (rm : Rm)
  | vfdiv (d a b : VR) (pg : PR) (ts : Option ETy) (rm : Rm)
  | vfsqrt (d a : VR) (pg : PR) (ts : Option ETy) (rm : Rm)
  | vcmp (d : PR) (a b : VR) (pg : PR) (ts : Option ETy) (c : VcmpOp)
  | vsel (d a b : VR) (c : PR) (pg : PR) (ts : Option ETy)
  | vcvt (d a : VR) (pg : PR) (ts : Option ETy) (s : ETy) (rm : Rm)
  | vdot (d a b c : VR) (pg : PR) (ts : Option ETy) (s : ETy) (rm : Rm)
  | vclass (d a : VR) (pg : PR) (ts : Option ETy)
  | vmv (d a : VR) (pg : PR) (ts : Option ETy)
  | vrecpe (d a : VR) (pg : PR) (ts : Option ETy)
  | vsadd (d a b : VR) (pg : PR) (ts : Option ETy)
  | vssub (d a b : VR) (pg : PR) (ts : Option ETy)
  | vperm (d a b : VR) (pg : PR) (ts : Option ETy)
  | vslide (d a : VR) (x : Src) (pg : PR) (ts : Option ETy) (up : Bool)
  | vcompress (d a : VR) (pg : PR) (ts : Option ETy)
  | vexpand (d a : VR) (pg : PR) (ts : Option ETy)
  | vsplat (d : VR) (x : Src) (pg : PR) (ts : Option ETy)
  | vins (d : VR) (x i : Src) (ts : Option ETy)
  | vext (d : Reg) (a : VR) (i : Src) (ts : Option ETy)
  | vred (d a b : VR) (pg : PR) (ts : Option ETy) (op : RedOp) (rm : Rm)
  | vscan (d a : VR) (pg : PR) (ts : Option ETy) (op : RedOp) (excl : Bool) (rm : Rm)
  | vrank (d : VR) (a : PR) (x : Src) (pg : PR) (ts : Option ETy)
  | vld (d : VR) (a : Src) (pg : PR) (ts : Option ETy) (wait : BitVec 8) (dec : Bool)
  | vlds (d : VR) (a s : Src) (pg : PR) (ts : Option ETy) (wait : BitVec 8) (dec : Bool)
  | vldx (d : VR) (a : Src) (i : VR) (n : Src) (pg : PR) (ts : Option ETy) (wait : BitVec 8) (pol : Pol) (dec p : Bool)
  | vldff (d : VR) (a : Src) (pg : PR) (ts : Option ETy) (wait : BitVec 8)
  | vst (v : VR) (a : Src) (pg : PR) (ts : Option ETy) (wait : BitVec 8)
  | vstNf (v : VR) (a n : Src) (pg : PR) (ts : Option ETy) (wait : BitVec 8)
  | vsts (v : VR) (a s : Src) (pg : PR) (ts : Option ETy) (wait : BitVec 8)
  | vstx (v : VR) (a : Src) (i : VR) (n : Src) (pg : PR) (ts : Option ETy) (wait : BitVec 8) (pol : Pol)
  | vscadd (a : Src) (i v : VR) (n : Src) (pg : PR) (ts : Option ETy) (wait : BitVec 8) (pol : Pol) (op : BankOp)
  | vspld (d : VR) (a : Src) (i : VR) (pg : PR) (ts : Option ETy) (wait : BitVec 8)
  | vspst (v : VR) (a : Src) (i : VR) (pg : PR) (ts : Option ETy) (wait : BitVec 8)
  | vspamo (d : VR) (a : Src) (i c : VR) (pg : PR) (ts : Option ETy) (wait : BitVec 8) (op : SpOp)
  | vpf (a : Src) (s : Option Src) (pg : PR) (ts : Option ETy) (wait : BitVec 8) (wr : Bool)
  | xins (d : PR) (k v : VR) (pg : PR) (ts : Option ETy)
  | xlkp (d k : VR) (f : PR) (pg : PR) (ts : Option ETy)
  | xacc (d : PR) (k v : VR) (pg : PR) (ts : Option ETy) (rm : Rm)
  | xdel (d : PR) (k : VR) (pg : PR) (ts : Option ETy)
  | xdrain (k v : VR) (ts : Option ETy)
  | xclr
  | xcnt (d : Reg)
  | tbset (a n h : Src) (f : KnotFmt)
  | vtint (d a : VR) (pg : PR) (ts : Option ETy) (rm : Rm)
  | vtlkp (d a : VR) (pg : PR) (ts : Option ETy) (rm : Rm)
  | mld (a : Src) (t : ETy) (wait : BitVec 8) (bank : Bool)
  | mldFr (a : Src) (wait : BitVec 8) (bank : Bool)
  | mmac (d : BitVec 2) (a : Src) (t : ETy) (wait : BitVec 8) (bank : Bool)
  | mmacStaged (d : BitVec 2) (a : Src) (t : ETy) (wait : BitVec 8) (bank : Bool) (sc : BitVec 2)
  | mzero (d : BitVec 2) (wait : BitVec 8)
  | mst (d : BitVec 2) (a : Src) (t : ETy) (wait : BitVec 8)
  | mrd (d : BitVec 2) (a : Src) (t : ETy) (wait : BitVec 8)
  | mcfg (d : Reg) (a : Src) (wait : BitVec 8)
  | cpy (d : SDst) (ly tk : BitVec 3) (fo : Option (BitVec 2)) (wait : BitVec 8)
  | sbind (sp ly : BitVec 3) (wait : BitVec 8)
  | sgath (d : SDst) (ly tk : BitVec 3) (a b c : Src) (it : ETy) (wait : BitVec 8) (pol : Pol) (p : Bool)
  | sgred (d : SDst) (ly tk : BitVec 3) (a b c : Src) (it : ETy) (wait : BitVec 8) (pol : Pol) (op : BankOp)
  | sscadd (d : Src) (ly tk : BitVec 3) (a b c : Src) (it : ETy) (wait : BitVec 8) (pol : Pol) (op : BankOp)
  | cbinit (d : Reg) (cb : BitVec 4) (a : Src) (wait : BitVec 8)
  | cbget (d : Reg) (cb : BitVec 4) (wait : BitVec 8)
  | cbput (cb : BitVec 4) (wait : BitVec 8)
  | lyset (ly : BitVec 3) (a : Src) (sel : BitVec 6) (wait : BitVec 8)
  | lyld (ly : BitVec 3) (a : Src) (wait : BitVec 8)
  | lyst (ly : BitVec 3) (a : Src) (wait : BitVec 8)
  | txenc (a : Src) (final : Bool)
  | txdec (a : Src) (final : Bool)
  | txmask (a : Src)
  | txstep (a : Src)
  | txsave (a : Src)
  | txload (a : Src)
  -- The events: no encoding stands for them.
  | heldStoreEnterL1 (side : BitVec 10)
  | mldExecute (side : BitVec 10)
  | mmacExecute (side : BitVec 10)
  | textCommandExecute (side : BitVec 10)
  | copyGroupLanding (side : BitVec 10) (i : BitVec 8)
  | streamOperationStart (side : BitVec 10)
  | streamOperationFinish (side : BitVec 10)
  | streamPortFetch (side : BitVec 10) (sp : BitVec 3)
  | lineFetch (q : SeqId)
  | interruptTake (q : SeqId)
  | probeCompletion (i : BitVec 8)
  | loadDataArrival (i : BitVec 8)
  | bankUpdateApply (die : BitVec 2) (ch : BitVec 5)
  | batchCloseTimeout (die : BitVec 2)
  | batchApply (die : BitVec 2) (i : BitVec 8)
  | remoteReadServe (i : BitVec 8)
  | hostWindowAccess (i : BitVec 8)
  | bootRom
  | dieReset (die : BitVec 2)
  | rollback (pid : BitVec 4)
  | submit (vd : BitVec 6)
  | requestCancel (vd : BitVec 6)
  | query (vd : BitVec 6)
  | attest (w : BitVec 7)
  | requestNop (w : BitVec 7)
  | wipeComplete (die : BitVec 2)
  | dieRejoin (die : BitVec 2)
  | unitStart (side : BitVec 10)
  | unitResume (side : BitVec 10)
  | gangStart (side : BitVec 10)
  | refill (die : BitVec 2)
  | boostEnd (die : BitVec 2) (vd : BitVec 6)
  | allowanceExhausted (die : BitVec 2) (vd : BitVec 6)
  | preemptionLanding (side : BitVec 10)
  | cancelLanding (side : BitVec 10)
  | completionWrite (w : BitVec 7)
  | laneRetirement (core : BitVec 9) (lane : BitVec 4)
  | lifeCycleRequest (target : BitVec 2)
  | l1Fill (side : BitVec 10) (va : Word)
  | writeBack (fromL2 : Bool) (u : BitVec 10) (i : BitVec 12)
  | frostWriteBack (die : BitVec 2) (i : BitVec 12)
  | galeRemoteAccess (port : BitVec 4) (off : BitVec 44) (wr : Bool) (v : Word)
  | hostWindowCompletion (i : BitVec 8) (ok : Bool) (v : BitVec 1024)
  | galeCrcRetransmit (port : BitVec 4)
  | galeRetryLimit (port : BitVec 4)
  | galeLossOfLock (port : BitVec 4)
  | linkTrained (port : BitVec 4) (peer : BitVec 16)
  | portEnable (port : BitVec 4)
  | portClearCounts (port : BitVec 4)
  | portLostClear (port : BitVec 4)
  | boundaryFailure (b : BitVec 2)
  | islandSwitchOn (i : BitVec 5)
  | islandSwitchOff (i : BitVec 5)
  | islandRefusedClear (i : BitVec 5)
  | powerWindow (above : Bool)
  | deviceReset
  | dieContainment (die : BitVec 2)
  | sramError (at_ : SramLoc) (fixed : Bool)
  | laneReexecution (core : BitVec 9) (lane : BitVec 4) (beat : BitVec 3) (res : LaneEnd)
  | preemptRequest (side : BitVec 10)
  | notifyWrite (w : BitVec 7) (v : Word)
  | hostirqClear (w : BitVec 7) (v : Word)
  | irqmaskWrite (w : BitVec 7) (v : Word)
  | functionLevelReset (w : BitVec 7)
  | unsupportedRequest (w : BitVec 7)
  | hcallVersion (q : SeqId)
  | hcallAsnTable (q : SeqId)
  | hcallFormatRange (q : SeqId)
  | hcallQuote (q : SeqId)
  | hcallGalePort (q : SeqId)
  | hcallVirtualDevice (q : SeqId)
  | pipeownWrite (core : BitVec 9) (v : Word)
  | vtypeWrite (q : SeqId) (v : Word)
  | vlWrite (q : SeqId) (v : Word)
  | frmWrite (q : SeqId) (v : Word)
  | asnWrite (q : SeqId) (v : Word)
  | vdirtyWrite (q : SeqId) (v : Word)
  | capselWrite (q : SeqId) (v : Word)
  | registerWrite (mpa : BitVec 52) (v : Word)
  | powerLoss
  deriving DecidableEq, Repr

end Sys2Proof
end

