-- ==== Sys2Proof/WellFormed.lean ====
section
/-! DEFINITION. The checks on an instruction's fields that its encoding must pass (step 5 of R250): no reserved code and no
value outside the set a field names (R271 to R277). For an event, the ranges of its numbers. -/

namespace Sys2Proof

/-- The size of an element in bytes (R277). -/
def ETy.size : ETy → Nat
  | .i8 | .n8 | .e4m3 | .e5m2 | .mx8 => 1
  | .i16 | .n16 | .f16 | .bf16 => 2
  | .i32 | .n32 | .f32 => 4
  | .i64 | .n64 | .f64 => 8

/-- The integer types, class I of R301. -/
def ETy.isInt : ETy → Bool
  | .i8 | .i16 | .i32 | .i64 | .n8 | .n16 | .n32 | .n64 => true
  | _ => false

/-- The two's complement integer types. -/
def ETy.isSigned : ETy → Bool
  | .i8 | .i16 | .i32 | .i64 => true
  | _ => false

/-- Class F of R301: the float types that vector arithmetic and scalar arithmetic take. -/
def ETy.isF : ETy → Bool
  | .f16 | .bf16 | .f32 | .f64 => true
  | _ => false

/-- The float types 8 to 13 of R283. -/
def ETy.isFloat : ETy → Bool
  | .e4m3 | .e5m2 | .f16 | .bf16 | .f32 | .f64 => true
  | _ => false

/-- The field of a scalar source that an instruction does not take (R271). -/
def Src.none : Src := ⟨false, 0⟩

/-- The control register numbers that R298 assigns. -/
def crAssigned (n : BitVec 12) : Bool :=
  let k := n.toNat
  k ≤ 0x006 && k != 7 || (0x008 ≤ k && k ≤ 0x00b) || (0x010 ≤ k && k ≤ 0x012) || (0x020 ≤ k && k ≤ 0x027)
    || (0x030 ≤ k && k ≤ 0x032) || k == 0x040 || k == 0x041 || (0x0f0 ≤ k && k ≤ 0x0f5)
    || (0x100 ≤ k && k ≤ 0x105) || (0x110 ≤ k && k ≤ 0x115) || (0x120 ≤ k && k ≤ 0x125)

/-- At least two of the five queues are named and no reserved bit is set (R195, R273). -/
def qmaskOk (m : BitVec 8) : Bool :=
  m.extractLsb' 5 3 == 0 && m != 0 && (m &&& (m - 1)) != 0

/-- Length and position of a bit field stay inside the register (R273). -/
def fieldOk (pos len1 : BitVec 6) : Bool := pos.toNat + len1.toNat + 1 ≤ 64

/-- A core number of the device with a data cache of its own: compute cores first, then the supervisor cores. -/
def coreKeyOk (k : BitVec 10) : Bool := k.toNat < 544

/-- A client window number: the virtual devices, then the physical function (R85). -/
def windowOk (w : BitVec 7) : Bool := w.toNat ≤ 64

/-- The fields of the instruction pass step 5 of R250. -/
def Instr.wf : Instr → Bool
  | .bfx _ _ p l | .bfi _ _ _ p l => fieldOk p l
  | .fadd _ _ _ t _ | .fsub _ _ _ t _ | .fmul _ _ _ t _ | .fma _ _ _ _ t _ | .fdiv _ _ _ t _ | .fsqrt _ _ t _
  | .fmin _ _ _ t | .fmax _ _ _ t | .fcmp _ _ _ t _ | .fclass _ _ t => t.isF
  | .fcvt _ _ t s _ => t != .mx8 && s != .mx8 && (t.isFloat || s.isFloat)
  | .ld _ _ sz n _ | .lda _ _ sz n _ _ => !(n && sz == 3)
  | .amo _ _ _ c op _ => op == .cas || c == Src.none
  | .lix _ k => k.toNat < 6
  | .cancel _ _ k => k.toNat < 5
  | .qfence m => qmaskOk m
  | .crd _ n | .crw _ n _ | .crset _ n _ | .crclr _ n _ => crAssigned n
  | .vbrk d _ _ _ | .pset d _ _ | .plog d _ _ _ _ | .pnot d _ _ | .pmv d _ _ => d != 0
  | .vcmp d _ _ _ ts c => d != 0 && !(c == .un && (ts.map ETy.isInt).getD false)
  | .xins d _ _ _ _ | .xacc d _ _ _ _ _ | .xdel d _ _ _ => d != 0
  | .xlkp _ _ f _ _ => f != 0
  | .vpf _ s _ _ _ _ => s != some Src.none
  | .lyset _ _ k _ => k.toNat ≤ 40
  | .writeBack l2 u _ => if l2 then u.toNat < 4 else coreKeyOk u
  | .sramError (.l1 c _) _ => coreKeyOk c
  | .attest w | .requestNop w | .completionWrite w | .unsupportedRequest w => windowOk w
  | .notifyWrite w _ | .hostirqClear w _ | .irqmaskWrite w _ => windowOk w
  | _ => true

end Sys2Proof
end

