-- ==== Sys2Proof/Decode.lean ====
section
/-! DEFINITION. Instruction lines (R241, R242), the decoder (R245 to R248, R266 to R277) and the encoder written from the same
tables. The decoder is total: it answers an instruction or, for any head and tail that steps 2, 3 and 5 of R250 reject, none. -/

namespace Sys2Proof

/-! ## Code sets -/

/-- Element type codes (R277). -/
def ETy.toBits : ETy → BitVec 4
  | .i8 => 0 | .i16 => 1 | .i32 => 2 | .i64 => 3 | .n8 => 4 | .n16 => 5 | .n32 => 6 | .n64 => 7
  | .e4m3 => 8 | .e5m2 => 9 | .f16 => 10 | .bf16 => 11 | .f32 => 12 | .f64 => 13 | .mx8 => 14

/-- The type of a code; 15 is reserved. -/
def ETy.ofBits (b : BitVec 4) : Option ETy :=
  match b.toNat with
  | 0 => some .i8 | 1 => some .i16 | 2 => some .i32 | 3 => some .i64 | 4 => some .n8 | 5 => some .n16 | 6 => some .n32
  | 7 => some .n64 | 8 => some .e4m3 | 9 => some .e5m2 | 10 => some .f16 | 11 => some .bf16 | 12 => some .f32
  | 13 => some .f64 | 14 => some .mx8 | _ => none

/-- Rounding codes (R248); 6 and 7 are reserved. -/
def Rm.toBits : Rm → BitVec 3
  | .dyn => 0 | .rne => 1 | .rmm => 2 | .rtz => 3 | .rup => 4 | .rdn => 5

/-- The code set read backwards. -/
def Rm.ofBits (b : BitVec 3) : Option Rm :=
  match b.toNat with
  | 0 => some .dyn | 1 => some .rne | 2 => some .rmm | 3 => some .rtz | 4 => some .rup | 5 => some .rdn | _ => none

/-- Out-of-range policy codes (R68). -/
def Pol.toBits : Pol → BitVec 2
  | .poison => 0 | .zero => 1 | .clamp => 2 | .skip => 3

/-- The code set read backwards. -/
def Pol.ofBits (b : BitVec 2) : Option Pol :=
  match b.toNat with
  | 0 => some .poison | 1 => some .zero | 2 => some .clamp | _ => some .skip

/-- Branch condition codes (R248); 6 and 7 are reserved. -/
def Cond.toBits : Cond → BitVec 3
  | .eq => 0 | .ne => 1 | .lt => 2 | .ge => 3 | .ltn => 4 | .gen => 5

/-- The code set read backwards. -/
def Cond.ofBits (b : BitVec 3) : Option Cond :=
  match b.toNat with
  | 0 => some .eq | 1 => some .ne | 2 => some .lt | 3 => some .ge | 4 => some .ltn | 5 => some .gen | _ => none

/-- Scope codes (R186); 7 is reserved. -/
def Scope.toBits : Scope → BitVec 3
  | .seq => 0 | .core => 1 | .cl => 2 | .die => 3 | .dev => 4 | .sys => 5 | .rc => 6

/-- The code set read backwards. -/
def Scope.ofBits (b : BitVec 3) : Option Scope :=
  match b.toNat with
  | 0 => some .seq | 1 => some .core | 2 => some .cl | 3 => some .die | 4 => some .dev | 5 => some .sys | 6 => some .rc | _ => none

/-- Fence kind codes (R273); 0 is reserved. -/
def FKind.toBits : FKind → BitVec 2
  | .acq => 1 | .rel => 2 | .full => 3

/-- The code set read backwards. -/
def FKind.ofBits (b : BitVec 2) : Option FKind :=
  match b.toNat with
  | 1 => some .acq | 2 => some .rel | 3 => some .full | _ => none

/-- Width codes of `sext` and `zext` (R273); 3 is reserved. -/
def Wid.toBits : Wid → BitVec 2
  | .b => 0 | .h => 1 | .w => 2

/-- The code set read backwards. -/
def Wid.ofBits (b : BitVec 2) : Option Wid :=
  match b.toNat with
  | 0 => some .b | 1 => some .h | 2 => some .w | _ => none

/-- Sub-operations of `amo` (R274); 11 to 15 are reserved. -/
def AmoOp.toBits : AmoOp → BitVec 4
  | .add => 0 | .and => 1 | .or => 2 | .xor => 3 | .min => 4 | .max => 5 | .minn => 6 | .maxn => 7 | .swap => 8 | .cas => 9 | .fadd => 10

/-- The code set read backwards. -/
def AmoOp.ofBits (b : BitVec 4) : Option AmoOp :=
  match b.toNat with
  | 0 => some .add | 1 => some .and | 2 => some .or | 3 => some .xor | 4 => some .min | 5 => some .max | 6 => some .minn | 7 => some .maxn | 8 => some .swap | 9 => some .cas | 10 => some .fadd | _ => none

/-- Relations of `fcmp` (R274); 4 to 7 are reserved. -/
def FcmpOp.toBits : FcmpOp → BitVec 3
  | .eq => 0 | .lt => 1 | .le => 2 | .un => 3

/-- The code set read backwards. -/
def FcmpOp.ofBits (b : BitVec 3) : Option FcmpOp :=
  match b.toNat with
  | 0 => some .eq | 1 => some .lt | 2 => some .le | 3 => some .un | _ => none

/-- Relations of `vcmp` (R275); 7 is reserved. -/
def VcmpOp.toBits : VcmpOp → BitVec 3
  | .eq => 0 | .ne => 1 | .lt => 2 | .le => 3 | .gt => 4 | .ge => 5 | .un => 6

/-- The code set read backwards. -/
def VcmpOp.ofBits (b : BitVec 3) : Option VcmpOp :=
  match b.toNat with
  | 0 => some .eq | 1 => some .ne | 2 => some .lt | 3 => some .le | 4 => some .gt | 5 => some .ge | 6 => some .un | _ => none

/-- Operations of `plog` (R275). -/
def PlogOp.toBits : PlogOp → BitVec 3
  | .and => 0 | .or => 1 | .xor => 2 | .andn => 3 | .orn => 4 | .nand => 5 | .nor => 6 | .xnor => 7

/-- The code set read backwards. -/
def PlogOp.ofBits (b : BitVec 3) : Option PlogOp :=
  match b.toNat with
  | 0 => some .and | 1 => some .or | 2 => some .xor | 3 => some .andn | 4 => some .orn | 5 => some .nand | 6 => some .nor | _ => some .xnor

/-- Operations of `vred` and `vscan` (R275); 6 and 7 are reserved. -/
def RedOp.toBits : RedOp → BitVec 3
  | .add => 0 | .min => 1 | .max => 2 | .and => 3 | .or => 4 | .xor => 5

/-- The code set read backwards. -/
def RedOp.ofBits (b : BitVec 3) : Option RedOp :=
  match b.toNat with
  | 0 => some .add | 1 => some .min | 2 => some .max | 3 => some .and | 4 => some .or | 5 => some .xor | _ => none

/-- Operations of the bank adders (R275, R276); 3 is reserved. -/
def BankOp.toBits : BankOp → BitVec 2
  | .add => 0 | .min => 1 | .max => 2

/-- The code set read backwards. -/
def BankOp.ofBits (b : BitVec 2) : Option BankOp :=
  match b.toNat with
  | 0 => some .add | 1 => some .min | 2 => some .max | _ => none

/-- Operations of `vspamo` (R275); 7 is reserved. -/
def SpOp.toBits : SpOp → BitVec 3
  | .add => 0 | .min => 1 | .max => 2 | .and => 3 | .or => 4 | .xor => 5 | .swap => 6

/-- The code set read backwards. -/
def SpOp.ofBits (b : BitVec 3) : Option SpOp :=
  match b.toNat with
  | 0 => some .add | 1 => some .min | 2 => some .max | 3 => some .and | 4 => some .or | 5 => some .xor | 6 => some .swap | _ => none

/-- Knot formats of `tbset` (R275); 3 is reserved. -/
def KnotFmt.toBits : KnotFmt → BitVec 2
  | .bf16 => 0 | .f16 => 1 | .f32 => 2

/-- The code set read backwards. -/
def KnotFmt.ofBits (b : BitVec 2) : Option KnotFmt :=
  match b.toNat with
  | 0 => some .bf16 | 1 => some .f16 | 2 => some .f32 | _ => none

/-- A scalar source field (R246): W above the register number. -/
def Src.toBits (s : Src) : BitVec 6 := BitVec.ofBool s.w ++ s.r

/-- A scalar source field read. -/
def Src.ofBits (b : BitVec 6) : Src := ⟨b.getLsbD 5, b.extractLsb' 0 5⟩

/-- The tsel field (R248): a clear top bit takes the type of `vtype`, and the code below it must then be zero. -/
def tselBits : Option ETy → BitVec 5
  | none => 0
  | some t => 1#1 ++ t.toBits

/-- The tsel field read. -/
def tselOf (b : BitVec 5) : Option (Option ETy) :=
  if b.getLsbD 4 then (ETy.ofBits (b.extractLsb' 0 4)).map some else if b == 0 then some none else none

/-- A one-bit field as a truth value. -/
def bit (b : BitVec 1) : Bool := b == 1#1

/-- Answer the value when the condition holds. -/
def Option.when {α : Type} (c : Bool) (a : α) : Option α := if c then some a else none

/-! ## The encoder -/

/-- The bits of one instruction: its head and its tail, the tail in the low `16 * tl` bits (R241, R245). -/
structure Enc where
  head : BitVec 16
  tail : BitVec 48
  deriving DecidableEq, Repr

/-- A head (R245). -/
def mkHead (tl : BitVec 2) (op : BitVec 8) (d : BitVec 6) : BitVec 16 := tl ++ op ++ d

/-- Format N (R247). -/
def encN (op : BitVec 8) (f : BitVec 6) : Option Enc := some ⟨mkHead 0 op f, 0⟩
/-- Format B (R247). -/
def encB (op : BitVec 8) (d a b : BitVec 6) (f : BitVec 4) : Option Enc :=
  some ⟨mkHead 1 op d, 0#32 ++ a ++ b ++ f⟩
/-- Format I (R247). -/
def encI (op : BitVec 8) (d a : BitVec 6) (imm : BitVec 26) : Option Enc :=
  some ⟨mkHead 2 op d, 0#16 ++ a ++ imm⟩
/-- Format D (R247). -/
def encD (op : BitVec 8) (d a b c : BitVec 6) (f : BitVec 14) : Option Enc :=
  some ⟨mkHead 2 op d, 0#16 ++ a ++ b ++ c ++ f⟩
/-- Format M (R247). -/
def encM (op : BitVec 8) (d a : BitVec 6) (f : BitVec 7) (imm : BitVec 19) : Option Enc :=
  some ⟨mkHead 2 op d, 0#16 ++ a ++ f ++ imm⟩
/-- Format K (R247). -/
def encK (op : BitVec 8) (d : BitVec 6) (imm : BitVec 40) : Option Enc :=
  some ⟨mkHead 3 op d, imm ++ 0#8⟩
/-- Format G (R247). -/
def encG (op : BitVec 8) (c : BitVec 3) (a b : BitVec 6) (lines : BitVec 15) (slot : BitVec 5) : Option Enc :=
  some ⟨mkHead 2 op (0#3 ++ c), 0#16 ++ a ++ b ++ lines ++ slot⟩
/-- Format H (R247). -/
def encH (op : BitVec 8) (c : BitVec 3) (a : BitVec 6) (imm : BitVec 16) (lines : BitVec 21) (slot : BitVec 5) : Option Enc :=
  some ⟨mkHead 3 op (0#3 ++ c), a ++ imm ++ lines ++ slot⟩
/-- Format J (R247). -/
def encJ (op : BitVec 8) (d : BitVec 6) (lines : BitVec 27) (slot : BitVec 5) : Option Enc :=
  some ⟨mkHead 2 op d, 0#16 ++ lines ++ slot⟩
/-- Format L (R247). -/
def encL (op : BitVec 8) (d : BitVec 6) (f : BitVec 20) (lines : BitVec 7) (slot : BitVec 5) : Option Enc :=
  some ⟨mkHead 2 op d, 0#16 ++ f ++ lines ++ slot⟩
/-- Format V (R247). -/
def encV (op : BitVec 8) (d a b c : BitVec 6) (pg : BitVec 4) (tsel : BitVec 5) (wait : BitVec 8) (pol : BitVec 2)
    (rm : BitVec 3) (f : BitVec 8) : Option Enc :=
  some ⟨mkHead 3 op d, a ++ b ++ c ++ pg ++ tsel ++ wait ++ pol ++ rm ++ f⟩
/-- Format E (R247). -/
def encE (op : BitVec 8) (d a b c : BitVec 6) (ty : BitVec 4) (tk ly : BitVec 3) (wait : BitVec 8) (pol : BitVec 2)
    (f : BitVec 10) : Option Enc :=
  some ⟨mkHead 3 op d, a ++ b ++ c ++ ty ++ tk ++ ly ++ wait ++ pol ++ f⟩

/-- A destination or vector register number in a 6-bit field. -/
def z5 (r : BitVec 5) : BitVec 6 := 0#1 ++ r
/-- A predicate or circular buffer number in a 6-bit field. -/
def z4 (r : BitVec 4) : BitVec 6 := 0#2 ++ r
/-- A mailbox or port number in a 6-bit field. -/
def z3 (r : BitVec 3) : BitVec 6 := 0#3 ++ r
/-- An accumulator number in a 6-bit field. -/
def z2 (r : BitVec 2) : BitVec 6 := 0#4 ++ r
/-- A truth value as a bit. -/
def b1 (b : Bool) : BitVec 1 := BitVec.ofBool b

/-- The destination field of `cpy`, `sgath` and `sgred` (R276). -/
def SDst.bits : SDst → BitVec 6
  | .x s => s.toBits
  | .cb n => z4 n
/-- Whether the destination is a circular buffer (f10 [3], R276). -/
def SDst.isCb : SDst → Bool
  | .x _ => false
  | .cb _ => true
/-- The destination read from its field and the flag of f10 [3]. -/
def SDst.ofBits (d : BitVec 6) (cb : Bool) : Option SDst :=
  if cb then (if d.extractLsb' 4 2 == 0 then some (.cb (d.extractLsb' 0 4)) else none) else some (.x (Src.ofBits d))

/-- The follow-on bits of `cpy` (R276): present, then the slot. -/
def foBits : Option (BitVec 2) → BitVec 3
  | none => 0
  | some s => 1#1 ++ s
/-- The follow-on bits read. -/
def foOf (b : BitVec 3) : Option (Option (BitVec 2)) :=
  if b.getLsbD 2 then some (some (b.extractLsb' 0 2)) else if b == 0 then some none else none
/-- The optional stride field of `vpf` (R337): the value 0 names no register. -/
def osrcBits : Option Src → BitVec 6
  | none => 0
  | some s => s.toBits
/-- The optional stride field read. -/
def osrcOf (b : BitVec 6) : Option Src := if b == 0 then none else some (Src.ofBits b)

/-- The encoding of an instruction (R266, R271 to R276); an event has none. -/
def encode : Instr → Option Enc
  | .nop => encN 0x01 0
  | .add d a b => encB 0x02 (z5 d) a.toBits b.toBits 0
  | .sub d a b => encB 0x03 (z5 d) a.toBits b.toBits 0
  | .and d a b => encB 0x04 (z5 d) a.toBits b.toBits 0
  | .or d a b => encB 0x05 (z5 d) a.toBits b.toBits 0
  | .xor d a b => encB 0x06 (z5 d) a.toBits b.toBits 0
  | .sll d a b => encB 0x07 (z5 d) a.toBits b.toBits 0
  | .srl d a b => encB 0x08 (z5 d) a.toBits b.toBits 0
  | .sra d a b => encB 0x09 (z5 d) a.toBits b.toBits 0
  | .slt d a b => encB 0x0a (z5 d) a.toBits b.toBits 0
  | .sltn d a b => encB 0x0b (z5 d) a.toBits b.toBits 0
  | .min d a b => encB 0x0c (z5 d) a.toBits b.toBits 0
  | .max d a b => encB 0x0d (z5 d) a.toBits b.toBits 0
  | .minn d a b => encB 0x0e (z5 d) a.toBits b.toBits 0
  | .maxn d a b => encB 0x0f (z5 d) a.toBits b.toBits 0
  | .addi d a imm => encI 0x10 (z5 d) a.toBits imm
  | .andi d a imm => encI 0x11 (z5 d) a.toBits imm
  | .ori d a imm => encI 0x12 (z5 d) a.toBits imm
  | .xori d a imm => encI 0x13 (z5 d) a.toBits imm
  | .slli d a n => encI 0x14 (z5 d) a.toBits (0#20 ++ n)
  | .srli d a n => encI 0x15 (z5 d) a.toBits (0#20 ++ n)
  | .srai d a n => encI 0x16 (z5 d) a.toBits (0#20 ++ n)
  | .slti d a imm => encI 0x17 (z5 d) a.toBits imm
  | .li d imm => encK 0x18 (z5 d) imm
  | .lpc d lines slot => encJ 0x19 (z5 d) lines slot
  | .mul d a b => encB 0x1a (z5 d) a.toBits b.toBits 0
  | .mulh d a b => encB 0x1b (z5 d) a.toBits b.toBits 0
  | .mulhn d a b => encB 0x1c (z5 d) a.toBits b.toBits 0
  | .div d a b => encB 0x1d (z5 d) a.toBits b.toBits 0
  | .divn d a b => encB 0x1e (z5 d) a.toBits b.toBits 0
  | .rem d a b => encB 0x1f (z5 d) a.toBits b.toBits 0
  | .remn d a b => encB 0x20 (z5 d) a.toBits b.toBits 0
  | .clz d a => encB 0x21 (z5 d) a.toBits 0 0
  | .ctz d a => encB 0x22 (z5 d) a.toBits 0 0
  | .popc d a => encB 0x23 (z5 d) a.toBits 0 0
  | .sext d a wd => encB 0x24 (z5 d) a.toBits 0 (0#2 ++ wd.toBits)
  | .zext d a wd => encB 0x25 (z5 d) a.toBits 0 (0#2 ++ wd.toBits)
  | .bfx d a pos len1 => encI 0x26 (z5 d) a.toBits (0#14 ++ len1 ++ pos)
  | .bfi d a b pos len1 => encD 0x27 (z5 d) a.toBits b.toBits 0 (0#2 ++ len1 ++ pos)
  | .mv d a => encB 0x28 (z5 d) a.toBits 0 0
  | .sel d a b c => encD 0x29 (z5 d) a.toBits b.toBits c.toBits 0
  | .addsh d a b sh => encB 0x2a (z5 d) a.toBits b.toBits (0#2 ++ sh)
  | .fadd d a b t rm => encD 0x30 (z5 d) a.toBits b.toBits 0 (t.toBits ++ rm.toBits ++ 0#7)
  | .fsub d a b t rm => encD 0x31 (z5 d) a.toBits b.toBits 0 (t.toBits ++ rm.toBits ++ 0#7)
  | .fmul d a b t rm => encD 0x32 (z5 d) a.toBits b.toBits 0 (t.toBits ++ rm.toBits ++ 0#7)
  | .fma d a b c t rm => encD 0x33 (z5 d) a.toBits b.toBits c.toBits (t.toBits ++ rm.toBits ++ 0#7)
  | .fdiv d a b t rm => encD 0x34 (z5 d) a.toBits b.toBits 0 (t.toBits ++ rm.toBits ++ 0#7)
  | .fsqrt d a t rm => encD 0x35 (z5 d) a.toBits 0 0 (t.toBits ++ rm.toBits ++ 0#7)
  | .fmin d a b t => encD 0x36 (z5 d) a.toBits b.toBits 0 (t.toBits ++ 0#10)
  | .fmax d a b t => encD 0x37 (z5 d) a.toBits b.toBits 0 (t.toBits ++ 0#10)
  | .fcmp d a b t c => encD 0x38 (z5 d) a.toBits b.toBits 0 (t.toBits ++ 0#3 ++ c.toBits ++ 0#4)
  | .fcvt d a t s rm => encD 0x39 (z5 d) a.toBits 0 0 (t.toBits ++ rm.toBits ++ 0#3 ++ s.toBits)
  | .fclass d a t => encD 0x3a (z5 d) a.toBits 0 0 (t.toBits ++ 0#10)
  | .ld d a sz n off => encM 0x40 (z5 d) a.toBits (0#4 ++ b1 n ++ sz) off
  | .st v a sz off => encM 0x41 v.toBits a.toBits (0#5 ++ sz) off
  | .lda d a sz n sc off => encM 0x42 (z5 d) a.toBits (sc.toBits ++ 0#1 ++ b1 n ++ sz) off
  | .stl v a sz sc off => encM 0x43 v.toBits a.toBits (sc.toBits ++ 0#2 ++ sz) off
  | .amo d a b c op dbl => encD 0x44 (z5 d) a.toBits b.toBits c.toBits (op.toBits ++ 1#1 ++ b1 dbl ++ 0#8)
  | .pf a wr off => encM 0x45 0 a.toBits (0#6 ++ b1 wr) off
  | .b c x y lines slot => encG 0x50 c.toBits x.toBits y.toBits lines slot
  | .bi c x imm lines slot => encH 0x51 c.toBits x.toBits imm lines slot
  | .j lines slot => encJ 0x52 0 lines slot
  | .jal d lines slot => encJ 0x53 (z5 d) lines slot
  | .jr a => encB 0x54 0 a.toBits 0 0
  | .jalr d a => encB 0x55 (z5 d) a.toBits 0 0
  | .loop a lines slot => encL 0x56 a.toBits 0 lines slot
  | .loopi n lines slot => encL 0x57 0 n lines slot
  | .lbrk => encN 0x58 0
  | .lix d k => encB 0x59 (z5 d) 0 0 (0#1 ++ k)
  | .fork a b => encB 0x60 0 a.toBits b.toBits 0
  | .rdv => encN 0x61 0
  | .tkwait d tk => encB 0x62 (z5 d) 0 0 (0#1 ++ tk)
  | .tkwaitClear d tk => encB 0x62 (z5 d) 0 0 (1#1 ++ tk)
  | .barArrive a => encB 0x63 0 a.toBits 0 (0#2 ++ 0#2)
  | .barWait a => encB 0x63 0 a.toBits 0 (0#2 ++ 1#2)
  | .barArrivewait a => encB 0x63 0 a.toBits 0 (0#2 ++ 2#2)
  | .barArrivebytes a b => encB 0x63 0 a.toBits b.toBits (0#2 ++ 3#2)
  | .semUp a => encB 0x64 0 a.toBits 0 (0#3 ++ 0#1)
  | .semDown a => encB 0x64 0 a.toBits 0 (0#3 ++ 1#1)
  | .fence sc k => encN 0x65 (0#1 ++ k.toBits ++ sc.toBits)
  | .fenceCommit => encN 0x65 54#6
  | .qfence mask => encI 0x66 0 0 (0#18 ++ mask)
  | .spawn d a b => encB 0x67 (z5 d) a.toBits b.toBits (0#3 ++ 0#1)
  | .spawnInc d a b => encB 0x67 (z5 d) a.toBits b.toBits (0#3 ++ 1#1)
  | .cont d a => encB 0x68 (z5 d) a.toBits 0 0
  | .endUnit => encN 0x69 0
  | .cancel d a k => encB 0x6a (z5 d) a.toBits 0 (0#1 ++ k)
  | .yield => encN 0x6b 0
  | .mbput m a => encB 0x6c (z3 m) a.toBits 0 0
  | .mbget d m => encB 0x6d (z5 d) (z3 m) 0 0
  | .trap imm => encI 0x70 0 0 imm
  | .eret => encN 0x71 0
  | .hcall => encN 0x72 0
  | .crd d cr => encI 0x73 (z5 d) 0 (0#14 ++ cr)
  | .crw d cr a => encI 0x74 (z5 d) a.toBits (0#14 ++ cr)
  | .crset d cr a => encI 0x75 (z5 d) a.toBits (0#14 ++ cr)
  | .crclr d cr a => encI 0x76 (z5 d) a.toBits (0#14 ++ cr)
  | .ainvPage a b => encB 0x77 0 a.toBits b.toBits (0#2 ++ 0#2)
  | .ainvAsn a => encB 0x77 0 a.toBits 0 (0#2 ++ 1#2)
  | .ainvPart a => encB 0x77 0 a.toBits 0 (0#2 ++ 2#2)
  | .harv a b f => encB 0x78 0 a.toBits b.toBits f
  | .idle => encN 0x79 0
  | .vqsave a => encB 0x7a 0 a.toBits 0 0
  | .vqload a => encB 0x7b 0 a.toBits 0 0
  | .vsave a => encB 0x7c 0 a.toBits 0 0
  | .vrest a => encB 0x7d 0 a.toBits 0 0
  | .bkpt imm => encI 0x7e 0 0 imm
  | .setvl d a t => encB 0x80 (z5 d) a.toBits 0 t.toBits
  | .vsetvt v => encI 0x81 0 0 (0#18 ++ v)
  | .vspec => encN 0x82 0
  | .vcommit => encN 0x83 0
  | .vbrk d a pg excl => encV 0x84 (z4 d) (z4 a) 0 0 pg 0 0 0 0 (0#7 ++ b1 excl)
  | .pset d pg v => encV 0x85 (z4 d) 0 0 0 pg 0 0 0 0 (0#7 ++ b1 v)
  | .plog d a b pg op => encV 0x86 (z4 d) (z4 a) (z4 b) 0 pg 0 0 0 0 (0#5 ++ op.toBits)
  | .pnot d a pg => encV 0x87 (z4 d) (z4 a) 0 0 pg 0 0 0 0 0
  | .pfirst d a pg => encV 0x88 (z5 d) (z4 a) 0 0 pg 0 0 0 0 0
  | .pcnt d a pg => encV 0x89 (z5 d) (z4 a) 0 0 pg 0 0 0 0 0
  | .pmv d a pg => encV 0x8a (z4 d) (z4 a) 0 0 pg 0 0 0 0 0
  | .vbind d sp => encV 0x8b (z5 d) (z3 sp) 0 0 0 0 0 0 0 0
  | .vadd d a b pg ts rm => encV 0x90 (z5 d) (z5 a) (z5 b) 0 pg (tselBits ts) 0 0 rm.toBits 0
  | .vsub d a b pg ts rm => encV 0x91 (z5 d) (z5 a) (z5 b) 0 pg (tselBits ts) 0 0 rm.toBits 0
  | .vmul d a b pg ts rm => encV 0x92 (z5 d) (z5 a) (z5 b) 0 pg (tselBits ts) 0 0 rm.toBits 0
  | .vmulh d a b pg ts => encV 0x93 (z5 d) (z5 a) (z5 b) 0 pg (tselBits ts) 0 0 0 0
  | .vdiv d a b pg ts => encV 0x94 (z5 d) (z5 a) (z5 b) 0 pg (tselBits ts) 0 0 0 0
  | .vrem d a b pg ts => encV 0x95 (z5 d) (z5 a) (z5 b) 0 pg (tselBits ts) 0 0 0 0
  | .vmin d a b pg ts => encV 0x96 (z5 d) (z5 a) (z5 b) 0 pg (tselBits ts) 0 0 0 0
  | .vmax d a b pg ts => encV 0x97 (z5 d) (z5 a) (z5 b) 0 pg (tselBits ts) 0 0 0 0
  | .vand d a b pg ts => encV 0x98 (z5 d) (z5 a) (z5 b) 0 pg (tselBits ts) 0 0 0 0
  | .vor d a b pg ts => encV 0x99 (z5 d) (z5 a) (z5 b) 0 pg (tselBits ts) 0 0 0 0
  | .vxor d a b pg ts => encV 0x9a (z5 d) (z5 a) (z5 b) 0 pg (tselBits ts) 0 0 0 0
  | .vsll d a b pg ts => encV 0x9b (z5 d) (z5 a) (z5 b) 0 pg (tselBits ts) 0 0 0 0
  | .vsrl d a b pg ts => encV 0x9c (z5 d) (z5 a) (z5 b) 0 pg (tselBits ts) 0 0 0 0
  | .vsra d a b pg ts => encV 0x9d (z5 d) (z5 a) (z5 b) 0 pg (tselBits ts) 0 0 0 0
  | .vabs d a pg ts => encV 0x9e (z5 d) (z5 a) 0 0 pg (tselBits ts) 0 0 0 0
  | .vneg d a pg ts => encV 0x9f (z5 d) (z5 a) 0 0 pg (tselBits ts) 0 0 0 0
  | .vfma d a b c pg ts rm => encV 0xa0 (z5 d) (z5 a) (z5 b) (z5 c) pg (tselBits ts) 0 0 rm.toBits 0
  | .vfms d a b c pg ts rm => encV 0xa1 (z5 d) (z5 a) (z5 b) (z5 c) pg (tselBits ts) 0 0 rm.toBits 0
  | .vfnma d a b c pg ts rm => encV 0xa2 (z5 d) (z5 a) (z5 b) (z5 c) pg (tselBits ts) 0 0 rm.toBits 0
  | .vfdiv d a b pg ts rm => encV 0xa3 (z5 d) (z5 a) (z5 b) 0 pg (tselBits ts) 0 0 rm.toBits 0
  | .vfsqrt d a pg ts rm => encV 0xa4 (z5 d) (z5 a) 0 0 pg (tselBits ts) 0 0 rm.toBits 0
  | .vcmp d a b pg ts c => encV 0xa5 (z4 d) (z5 a) (z5 b) 0 pg (tselBits ts) 0 0 0 (0#5 ++ c.toBits)
  | .vsel d a b c pg ts => encV 0xa6 (z5 d) (z5 a) (z5 b) (z4 c) pg (tselBits ts) 0 0 0 0
  | .vcvt d a pg ts s rm => encV 0xa7 (z5 d) (z5 a) 0 0 pg (tselBits ts) 0 0 rm.toBits (0#4 ++ s.toBits)
  | .vdot d a b c pg ts s rm => encV 0xa8 (z5 d) (z5 a) (z5 b) (z5 c) pg (tselBits ts) 0 0 rm.toBits (0#4 ++ s.toBits)
  | .vclass d a pg ts => encV 0xa9 (z5 d) (z5 a) 0 0 pg (tselBits ts) 0 0 0 0
  | .vmv d a pg ts => encV 0xaa (z5 d) (z5 a) 0 0 pg (tselBits ts) 0 0 0 0
  | .vrecpe d a pg ts => encV 0xab (z5 d) (z5 a) 0 0 pg (tselBits ts) 0 0 0 0
  | .vsadd d a b pg ts => encV 0xac (z5 d) (z5 a) (z5 b) 0 pg (tselBits ts) 0 0 0 0
  | .vssub d a b pg ts => encV 0xad (z5 d) (z5 a) (z5 b) 0 pg (tselBits ts) 0 0 0 0
  | .vperm d a b pg ts => encV 0xb0 (z5 d) (z5 a) (z5 b) 0 pg (tselBits ts) 0 0 0 0
  | .vslide d a x pg ts up => encV 0xb1 (z5 d) (z5 a) x.toBits 0 pg (tselBits ts) 0 0 0 (0#7 ++ b1 up)
  | .vcompress d a pg ts => encV 0xb2 (z5 d) (z5 a) 0 0 pg (tselBits ts) 0 0 0 0
  | .vexpand d a pg ts => encV 0xb3 (z5 d) (z5 a) 0 0 pg (tselBits ts) 0 0 0 0
  | .vsplat d x pg ts => encV 0xb4 (z5 d) x.toBits 0 0 pg (tselBits ts) 0 0 0 0
  | .vins d x i ts => encV 0xb5 (z5 d) x.toBits i.toBits 0 0 (tselBits ts) 0 0 0 0
  | .vext d a i ts => encV 0xb6 (z5 d) (z5 a) i.toBits 0 0 (tselBits ts) 0 0 0 0
  | .vred d a b pg ts op rm => encV 0xb7 (z5 d) (z5 a) (z5 b) 0 pg (tselBits ts) 0 0 rm.toBits (0#5 ++ op.toBits)
  | .vscan d a pg ts op excl rm => encV 0xb8 (z5 d) (z5 a) 0 0 pg (tselBits ts) 0 0 rm.toBits (0#4 ++ b1 excl ++ op.toBits)
  | .vrank d a x pg ts => encV 0xb9 (z5 d) (z4 a) x.toBits 0 pg (tselBits ts) 0 0 0 0
  | .vld d a pg ts wait dec => encV 0xc0 (z5 d) a.toBits 0 0 pg (tselBits ts) wait 0 0 (0#7 ++ b1 dec)
  | .vlds d a s pg ts wait dec => encV 0xc1 (z5 d) a.toBits s.toBits 0 pg (tselBits ts) wait 0 0 (0#7 ++ b1 dec)
  | .vldx d a i n pg ts wait pol dec p => encV 0xc2 (z5 d) a.toBits (z5 i) n.toBits pg (tselBits ts) wait pol.toBits 0 (0#6 ++ b1 p ++ b1 dec)
  | .vldff d a pg ts wait => encV 0xc3 (z5 d) a.toBits 0 0 pg (tselBits ts) wait 0 0 0
  | .vst v a pg ts wait => encV 0xc4 (z5 v) a.toBits 0 0 pg (tselBits ts) wait 0 0 (0#7 ++ 0#1)
  | .vstNf v a n pg ts wait => encV 0xc4 (z5 v) a.toBits n.toBits 0 pg (tselBits ts) wait 0 0 (0#7 ++ 1#1)
  | .vsts v a s pg ts wait => encV 0xc5 (z5 v) a.toBits s.toBits 0 pg (tselBits ts) wait 0 0 0
  | .vstx v a i n pg ts wait pol => encV 0xc6 (z5 v) a.toBits (z5 i) n.toBits pg (tselBits ts) wait pol.toBits 0 0
  | .vscadd a i v n pg ts wait pol op => encV 0xc7 (z5 v) a.toBits (z5 i) n.toBits pg (tselBits ts) wait pol.toBits 0 (0#6 ++ op.toBits)
  | .vspld d a i pg ts wait => encV 0xc8 (z5 d) a.toBits (z5 i) 0 pg (tselBits ts) wait 0 0 0
  | .vspst v a i pg ts wait => encV 0xc9 (z5 v) a.toBits (z5 i) 0 pg (tselBits ts) wait 0 0 0
  | .vspamo d a i c pg ts wait op => encV 0xca (z5 d) a.toBits (z5 i) (z5 c) pg (tselBits ts) wait 0 0 (0#5 ++ op.toBits)
  | .vpf a s pg ts wait wr => encV 0xcb 0 a.toBits (osrcBits s) 0 pg (tselBits ts) wait 0 0 (0#7 ++ b1 wr)
  | .xins d k v pg ts => encV 0xd0 (z4 d) (z5 k) (z5 v) 0 pg (tselBits ts) 0 0 0 0
  | .xlkp d k f pg ts => encV 0xd1 (z5 d) (z5 k) 0 (z4 f) pg (tselBits ts) 0 0 0 0
  | .xacc d k v pg ts rm => encV 0xd2 (z4 d) (z5 k) (z5 v) 0 pg (tselBits ts) 0 0 rm.toBits 0
  | .xdel d k pg ts => encV 0xd3 (z4 d) (z5 k) 0 0 pg (tselBits ts) 0 0 0 0
  | .xdrain k v ts => encV 0xd4 (z5 k) (z5 v) 0 0 0 (tselBits ts) 0 0 0 0
  | .xclr => encV 0xd5 0 0 0 0 0 0 0 0 0 0
  | .xcnt d => encV 0xd6 (z5 d) 0 0 0 0 0 0 0 0 0
  | .tbset a n h f => encV 0xd8 0 a.toBits n.toBits h.toBits 0 0 0 0 0 (0#6 ++ f.toBits)
  | .vtint d a pg ts rm => encV 0xd9 (z5 d) (z5 a) 0 0 pg (tselBits ts) 0 0 rm.toBits 0
  | .vtlkp d a pg ts rm => encV 0xda (z5 d) (z5 a) 0 0 pg (tselBits ts) 0 0 rm.toBits 0
  | .mld a t wait bank => encE 0xe0 0 a.toBits 0 0 t.toBits 0 0 wait 0 (0#8 ++ 0#1 ++ b1 bank)
  | .mldFr a wait bank => encE 0xe0 0 a.toBits 0 0 0 0 0 wait 0 (0#8 ++ 1#1 ++ b1 bank)
  | .mmac d a t wait bank => encE 0xe1 (z2 d) a.toBits 0 0 t.toBits 0 0 wait 0 (0#8 ++ 0#1 ++ b1 bank)
  | .mmacStaged d a t wait bank sc => encE 0xe1 (z2 d) a.toBits 0 0 t.toBits 0 0 wait 0 (0#6 ++ sc ++ 1#1 ++ b1 bank)
  | .mzero d wait => encE 0xe2 (z2 d) 0 0 0 0 0 0 wait 0 0
  | .mst d a t wait => encE 0xe3 (z2 d) a.toBits 0 0 t.toBits 0 0 wait 0 0
  | .mrd d a t wait => encE 0xe4 (z2 d) a.toBits 0 0 t.toBits 0 0 wait 0 0
  | .mcfg d a wait => encE 0xe5 (z5 d) a.toBits 0 0 0 0 0 wait 0 0
  | .cpy d ly tk fo wait => encE 0xe8 d.bits 0 0 0 0 tk ly wait 0 (0#6 ++ b1 d.isCb ++ foBits fo)
  | .sbind sp ly wait => encE 0xe9 (z3 sp) 0 0 0 0 0 ly wait 0 0
  | .sgath d ly tk a b c it wait pol p => encE 0xea d.bits a.toBits b.toBits c.toBits it.toBits tk ly wait pol.toBits (0#6 ++ b1 d.isCb ++ 0#2 ++ b1 p)
  | .sgred d ly tk a b c it wait pol op => encE 0xeb d.bits a.toBits b.toBits c.toBits it.toBits tk ly wait pol.toBits (0#6 ++ b1 d.isCb ++ 0#1 ++ op.toBits)
  | .sscadd d ly tk a b c it wait pol op => encE 0xec d.toBits a.toBits b.toBits c.toBits it.toBits tk ly wait pol.toBits (0#8 ++ op.toBits)
  | .cbinit d cb a wait => encE 0xed (z5 d) a.toBits (z4 cb) 0 0 0 0 wait 0 0
  | .cbget d cb wait => encE 0xee (z5 d) 0 (z4 cb) 0 0 0 0 wait 0 0
  | .cbput cb wait => encE 0xef 0 0 (z4 cb) 0 0 0 0 wait 0 0
  | .lyset ly a sel wait => encE 0xf0 0 a.toBits 0 0 0 0 ly wait 0 (0#4 ++ sel)
  | .lyld ly a wait => encE 0xf1 0 a.toBits 0 0 0 0 ly wait 0 0
  | .lyst ly a wait => encE 0xf2 0 a.toBits 0 0 0 0 ly wait 0 0
  | .txenc a final => encE 0xf4 0 a.toBits 0 0 0 0 0 0 0 (0#9 ++ b1 final)
  | .txdec a final => encE 0xf5 0 a.toBits 0 0 0 0 0 0 0 (0#9 ++ b1 final)
  | .txmask a => encE 0xf6 0 a.toBits 0 0 0 0 0 0 0 0
  | .txstep a => encE 0xf7 0 a.toBits 0 0 0 0 0 0 0 0
  | .txsave a => encE 0xf8 0 a.toBits 0 0 0 0 0 0 0 0
  | .txload a => encE 0xf9 0 a.toBits 0 0 0 0 0 0 0 0
  | .heldStoreEnterL1 .. | .mldExecute .. | .mmacExecute .. | .textCommandExecute ..
  | .lineFetch .. | .interruptTake .. | .probeCompletion .. | .loadDataArrival ..
  | .l1Fill .. | .writeBack .. | .frostWriteBack .. | .bankUpdateApply ..
  | .batchCloseTimeout .. | .batchApply .. | .remoteReadServe .. | .galeRemoteAccess ..
  | .hostWindowAccess .. | .hostWindowCompletion .. | .galeCrcRetransmit .. | .galeRetryLimit ..
  | .galeLossOfLock .. | .linkTrained .. | .portEnable .. | .portClearCounts ..
  | .portLostClear .. | .boundaryFailure .. | .islandSwitchOn .. | .islandSwitchOff ..
  | .islandRefusedClear .. | .powerWindow .. | .deviceReset | .dieReset ..
  | .wipeComplete .. | .dieRejoin .. | .bootRom | .lifeCycleRequest ..
  | .dieContainment .. | .rollback .. | .sramError .. | .laneReexecution ..
  | .laneRetirement .. | .unitStart .. | .unitResume .. | .gangStart ..
  | .refill .. | .boostEnd .. | .allowanceExhausted .. | .preemptRequest ..
  | .preemptionLanding .. | .cancelLanding .. | .copyGroupLanding .. | .streamOperationStart ..
  | .streamOperationFinish .. | .streamPortFetch .. | .submit .. | .requestCancel ..
  | .query .. | .attest .. | .requestNop .. | .completionWrite ..
  | .notifyWrite .. | .hostirqClear .. | .irqmaskWrite .. | .functionLevelReset ..
  | .unsupportedRequest .. | .hcallVersion .. | .hcallAsnTable .. | .hcallFormatRange ..
  | .hcallQuote .. | .hcallGalePort .. | .hcallVirtualDevice .. | .pipeownWrite ..
  | .vtypeWrite .. | .vlWrite .. | .frmWrite .. | .asnWrite ..
  | .vdirtyWrite .. | .capselWrite .. | .registerWrite .. | .powerLoss => none

/-! ## The decoder -/

/-- A field of the tail. -/
def fld (t : BitVec 48) (lo n : Nat) : BitVec n := t.extractLsb' lo n
/-- A 6-bit field that names a register below 32: bit 5 must be zero (R272). -/
def reg5 (b : BitVec 6) : Option (BitVec 5) := if b.extractLsb' 5 1 == 0 then some (b.extractLsb' 0 5) else none
/-- A 6-bit field that names one of 16 registers. -/
def reg4 (b : BitVec 6) : Option (BitVec 4) := if b.extractLsb' 4 2 == 0 then some (b.extractLsb' 0 4) else none
/-- A 6-bit field that names one of 8 registers. -/
def reg3 (b : BitVec 6) : Option (BitVec 3) := if b.extractLsb' 3 3 == 0 then some (b.extractLsb' 0 3) else none
/-- A 6-bit field that names one of 4 accumulators. -/
def reg2 (b : BitVec 6) : Option (BitVec 2) := if b.extractLsb' 2 4 == 0 then some (b.extractLsb' 0 2) else none

/-- The opcodes 0x00 to 0x0f: the fields of one head and tail, or none when step 5 of R250 fails. -/
def dec0 (lo : BitVec 4) (dd : BitVec 6) (tl : BitVec 48) : Option Instr :=
  match lo.toNat with
  | 1 => if dd == 0 then some .nop else none
  | 2 => if fld tl 0 4 == 0 then (reg5 dd).bind fun d => some (.add d (Src.ofBits (fld tl 10 6)) (Src.ofBits (fld tl 4 6))) else none
  | 3 => if fld tl 0 4 == 0 then (reg5 dd).bind fun d => some (.sub d (Src.ofBits (fld tl 10 6)) (Src.ofBits (fld tl 4 6))) else none
  | 4 => if fld tl 0 4 == 0 then (reg5 dd).bind fun d => some (.and d (Src.ofBits (fld tl 10 6)) (Src.ofBits (fld tl 4 6))) else none
  | 5 => if fld tl 0 4 == 0 then (reg5 dd).bind fun d => some (.or d (Src.ofBits (fld tl 10 6)) (Src.ofBits (fld tl 4 6))) else none
  | 6 => if fld tl 0 4 == 0 then (reg5 dd).bind fun d => some (.xor d (Src.ofBits (fld tl 10 6)) (Src.ofBits (fld tl 4 6))) else none
  | 7 => if fld tl 0 4 == 0 then (reg5 dd).bind fun d => some (.sll d (Src.ofBits (fld tl 10 6)) (Src.ofBits (fld tl 4 6))) else none
  | 8 => if fld tl 0 4 == 0 then (reg5 dd).bind fun d => some (.srl d (Src.ofBits (fld tl 10 6)) (Src.ofBits (fld tl 4 6))) else none
  | 9 => if fld tl 0 4 == 0 then (reg5 dd).bind fun d => some (.sra d (Src.ofBits (fld tl 10 6)) (Src.ofBits (fld tl 4 6))) else none
  | 10 => if fld tl 0 4 == 0 then (reg5 dd).bind fun d => some (.slt d (Src.ofBits (fld tl 10 6)) (Src.ofBits (fld tl 4 6))) else none
  | 11 => if fld tl 0 4 == 0 then (reg5 dd).bind fun d => some (.sltn d (Src.ofBits (fld tl 10 6)) (Src.ofBits (fld tl 4 6))) else none
  | 12 => if fld tl 0 4 == 0 then (reg5 dd).bind fun d => some (.min d (Src.ofBits (fld tl 10 6)) (Src.ofBits (fld tl 4 6))) else none
  | 13 => if fld tl 0 4 == 0 then (reg5 dd).bind fun d => some (.max d (Src.ofBits (fld tl 10 6)) (Src.ofBits (fld tl 4 6))) else none
  | 14 => if fld tl 0 4 == 0 then (reg5 dd).bind fun d => some (.minn d (Src.ofBits (fld tl 10 6)) (Src.ofBits (fld tl 4 6))) else none
  | 15 => if fld tl 0 4 == 0 then (reg5 dd).bind fun d => some (.maxn d (Src.ofBits (fld tl 10 6)) (Src.ofBits (fld tl 4 6))) else none
  | _ => none

/-- The opcodes 0x10 to 0x1f: the fields of one head and tail, or none when step 5 of R250 fails. -/
def dec1 (lo : BitVec 4) (dd : BitVec 6) (tl : BitVec 48) : Option Instr :=
  match lo.toNat with
  | 0 => (reg5 dd).bind fun d => some (.addi d (Src.ofBits (fld tl 26 6)) ((fld tl 0 26)))
  | 1 => (reg5 dd).bind fun d => some (.andi d (Src.ofBits (fld tl 26 6)) ((fld tl 0 26)))
  | 2 => (reg5 dd).bind fun d => some (.ori d (Src.ofBits (fld tl 26 6)) ((fld tl 0 26)))
  | 3 => (reg5 dd).bind fun d => some (.xori d (Src.ofBits (fld tl 26 6)) ((fld tl 0 26)))
  | 4 => if fld tl 6 20 == 0 then (reg5 dd).bind fun d => some (.slli d (Src.ofBits (fld tl 26 6)) ((fld tl 0 6))) else none
  | 5 => if fld tl 6 20 == 0 then (reg5 dd).bind fun d => some (.srli d (Src.ofBits (fld tl 26 6)) ((fld tl 0 6))) else none
  | 6 => if fld tl 6 20 == 0 then (reg5 dd).bind fun d => some (.srai d (Src.ofBits (fld tl 26 6)) ((fld tl 0 6))) else none
  | 7 => (reg5 dd).bind fun d => some (.slti d (Src.ofBits (fld tl 26 6)) ((fld tl 0 26)))
  | 8 => if fld tl 0 8 == 0 then (reg5 dd).bind fun d => some (.li d ((fld tl 8 40))) else none
  | 9 => (reg5 dd).bind fun d => some (.lpc d ((fld tl 5 27)) ((fld tl 0 5)))
  | 10 => if fld tl 0 4 == 0 then (reg5 dd).bind fun d => some (.mul d (Src.ofBits (fld tl 10 6)) (Src.ofBits (fld tl 4 6))) else none
  | 11 => if fld tl 0 4 == 0 then (reg5 dd).bind fun d => some (.mulh d (Src.ofBits (fld tl 10 6)) (Src.ofBits (fld tl 4 6))) else none
  | 12 => if fld tl 0 4 == 0 then (reg5 dd).bind fun d => some (.mulhn d (Src.ofBits (fld tl 10 6)) (Src.ofBits (fld tl 4 6))) else none
  | 13 => if fld tl 0 4 == 0 then (reg5 dd).bind fun d => some (.div d (Src.ofBits (fld tl 10 6)) (Src.ofBits (fld tl 4 6))) else none
  | 14 => if fld tl 0 4 == 0 then (reg5 dd).bind fun d => some (.divn d (Src.ofBits (fld tl 10 6)) (Src.ofBits (fld tl 4 6))) else none
  | 15 => if fld tl 0 4 == 0 then (reg5 dd).bind fun d => some (.rem d (Src.ofBits (fld tl 10 6)) (Src.ofBits (fld tl 4 6))) else none
  | _ => none

/-- The opcodes 0x20 to 0x2f: the fields of one head and tail, or none when step 5 of R250 fails. -/
def dec2 (lo : BitVec 4) (dd : BitVec 6) (tl : BitVec 48) : Option Instr :=
  match lo.toNat with
  | 0 => if fld tl 0 4 == 0 then (reg5 dd).bind fun d => some (.remn d (Src.ofBits (fld tl 10 6)) (Src.ofBits (fld tl 4 6))) else none
  | 1 => if fld tl 4 6 == 0 && fld tl 0 4 == 0 then (reg5 dd).bind fun d => some (.clz d (Src.ofBits (fld tl 10 6))) else none
  | 2 => if fld tl 4 6 == 0 && fld tl 0 4 == 0 then (reg5 dd).bind fun d => some (.ctz d (Src.ofBits (fld tl 10 6))) else none
  | 3 => if fld tl 4 6 == 0 && fld tl 0 4 == 0 then (reg5 dd).bind fun d => some (.popc d (Src.ofBits (fld tl 10 6))) else none
  | 4 => if fld tl 4 6 == 0 && fld tl 2 2 == 0 then (reg5 dd).bind fun d => (Wid.ofBits (fld tl 0 2)).bind fun wd => some (.sext d (Src.ofBits (fld tl 10 6)) wd) else none
  | 5 => if fld tl 4 6 == 0 && fld tl 2 2 == 0 then (reg5 dd).bind fun d => (Wid.ofBits (fld tl 0 2)).bind fun wd => some (.zext d (Src.ofBits (fld tl 10 6)) wd) else none
  | 6 => if fld tl 12 14 == 0 then (reg5 dd).bind fun d => some (.bfx d (Src.ofBits (fld tl 26 6)) ((fld tl 0 6)) ((fld tl 6 6))) else none
  | 7 => if fld tl 14 6 == 0 && fld tl 12 2 == 0 then (reg5 dd).bind fun d => some (.bfi d (Src.ofBits (fld tl 26 6)) (Src.ofBits (fld tl 20 6)) ((fld tl 0 6)) ((fld tl 6 6))) else none
  | 8 => if fld tl 4 6 == 0 && fld tl 0 4 == 0 then (reg5 dd).bind fun d => some (.mv d (Src.ofBits (fld tl 10 6))) else none
  | 9 => if fld tl 0 14 == 0 then (reg5 dd).bind fun d => some (.sel d (Src.ofBits (fld tl 26 6)) (Src.ofBits (fld tl 20 6)) (Src.ofBits (fld tl 14 6))) else none
  | 10 => if fld tl 2 2 == 0 then (reg5 dd).bind fun d => some (.addsh d (Src.ofBits (fld tl 10 6)) (Src.ofBits (fld tl 4 6)) ((fld tl 0 2))) else none
  | _ => none

/-- The opcodes 0x30 to 0x3f: the fields of one head and tail, or none when step 5 of R250 fails. -/
def dec3 (lo : BitVec 4) (dd : BitVec 6) (tl : BitVec 48) : Option Instr :=
  match lo.toNat with
  | 0 => if fld tl 14 6 == 0 && fld tl 0 7 == 0 then (reg5 dd).bind fun d => (ETy.ofBits (fld tl 10 4)).bind fun t => (Rm.ofBits (fld tl 7 3)).bind fun rm => some (.fadd d (Src.ofBits (fld tl 26 6)) (Src.ofBits (fld tl 20 6)) t rm) else none
  | 1 => if fld tl 14 6 == 0 && fld tl 0 7 == 0 then (reg5 dd).bind fun d => (ETy.ofBits (fld tl 10 4)).bind fun t => (Rm.ofBits (fld tl 7 3)).bind fun rm => some (.fsub d (Src.ofBits (fld tl 26 6)) (Src.ofBits (fld tl 20 6)) t rm) else none
  | 2 => if fld tl 14 6 == 0 && fld tl 0 7 == 0 then (reg5 dd).bind fun d => (ETy.ofBits (fld tl 10 4)).bind fun t => (Rm.ofBits (fld tl 7 3)).bind fun rm => some (.fmul d (Src.ofBits (fld tl 26 6)) (Src.ofBits (fld tl 20 6)) t rm) else none
  | 3 => if fld tl 0 7 == 0 then (reg5 dd).bind fun d => (ETy.ofBits (fld tl 10 4)).bind fun t => (Rm.ofBits (fld tl 7 3)).bind fun rm => some (.fma d (Src.ofBits (fld tl 26 6)) (Src.ofBits (fld tl 20 6)) (Src.ofBits (fld tl 14 6)) t rm) else none
  | 4 => if fld tl 14 6 == 0 && fld tl 0 7 == 0 then (reg5 dd).bind fun d => (ETy.ofBits (fld tl 10 4)).bind fun t => (Rm.ofBits (fld tl 7 3)).bind fun rm => some (.fdiv d (Src.ofBits (fld tl 26 6)) (Src.ofBits (fld tl 20 6)) t rm) else none
  | 5 => if fld tl 20 6 == 0 && fld tl 14 6 == 0 && fld tl 0 7 == 0 then (reg5 dd).bind fun d => (ETy.ofBits (fld tl 10 4)).bind fun t => (Rm.ofBits (fld tl 7 3)).bind fun rm => some (.fsqrt d (Src.ofBits (fld tl 26 6)) t rm) else none
  | 6 => if fld tl 14 6 == 0 && fld tl 0 10 == 0 then (reg5 dd).bind fun d => (ETy.ofBits (fld tl 10 4)).bind fun t => some (.fmin d (Src.ofBits (fld tl 26 6)) (Src.ofBits (fld tl 20 6)) t) else none
  | 7 => if fld tl 14 6 == 0 && fld tl 0 10 == 0 then (reg5 dd).bind fun d => (ETy.ofBits (fld tl 10 4)).bind fun t => some (.fmax d (Src.ofBits (fld tl 26 6)) (Src.ofBits (fld tl 20 6)) t) else none
  | 8 => if fld tl 14 6 == 0 && fld tl 0 4 == 0 && fld tl 7 3 == 0 then (reg5 dd).bind fun d => (ETy.ofBits (fld tl 10 4)).bind fun t => (FcmpOp.ofBits (fld tl 4 3)).bind fun c => some (.fcmp d (Src.ofBits (fld tl 26 6)) (Src.ofBits (fld tl 20 6)) t c) else none
  | 9 => if fld tl 20 6 == 0 && fld tl 14 6 == 0 && fld tl 4 3 == 0 then (reg5 dd).bind fun d => (ETy.ofBits (fld tl 10 4)).bind fun t => (Rm.ofBits (fld tl 7 3)).bind fun rm => (ETy.ofBits (fld tl 0 4)).bind fun s => some (.fcvt d (Src.ofBits (fld tl 26 6)) t s rm) else none
  | 10 => if fld tl 20 6 == 0 && fld tl 14 6 == 0 && fld tl 0 10 == 0 then (reg5 dd).bind fun d => (ETy.ofBits (fld tl 10 4)).bind fun t => some (.fclass d (Src.ofBits (fld tl 26 6)) t) else none
  | _ => none

/-- The opcodes 0x40 to 0x4f: the fields of one head and tail, or none when step 5 of R250 fails. -/
def dec4 (lo : BitVec 4) (dd : BitVec 6) (tl : BitVec 48) : Option Instr :=
  match lo.toNat with
  | 0 => if fld tl 22 4 == 0 then (reg5 dd).bind fun d => some (.ld d (Src.ofBits (fld tl 26 6)) ((fld tl 19 2)) (bit (fld tl 21 1)) ((fld tl 0 19))) else none
  | 1 => if fld tl 21 5 == 0 then some (.st (Src.ofBits dd) (Src.ofBits (fld tl 26 6)) ((fld tl 19 2)) ((fld tl 0 19))) else none
  | 2 => if fld tl 22 1 == 0 then (reg5 dd).bind fun d => (Scope.ofBits (fld tl 23 3)).bind fun sc => some (.lda d (Src.ofBits (fld tl 26 6)) ((fld tl 19 2)) (bit (fld tl 21 1)) sc ((fld tl 0 19))) else none
  | 3 => if fld tl 21 2 == 0 then (Scope.ofBits (fld tl 23 3)).bind fun sc => some (.stl (Src.ofBits dd) (Src.ofBits (fld tl 26 6)) ((fld tl 19 2)) sc ((fld tl 0 19))) else none
  | 4 => if fld tl 9 1 == 1 && fld tl 0 8 == 0 then (reg5 dd).bind fun d => (AmoOp.ofBits (fld tl 10 4)).bind fun op => some (.amo d (Src.ofBits (fld tl 26 6)) (Src.ofBits (fld tl 20 6)) (Src.ofBits (fld tl 14 6)) op (bit (fld tl 8 1))) else none
  | 5 => if dd == 0 && fld tl 20 6 == 0 then some (.pf (Src.ofBits (fld tl 26 6)) (bit (fld tl 19 1)) ((fld tl 0 19))) else none
  | _ => none

/-- The opcodes 0x50 to 0x5f: the fields of one head and tail, or none when step 5 of R250 fails. -/
def dec5 (lo : BitVec 4) (dd : BitVec 6) (tl : BitVec 48) : Option Instr :=
  match lo.toNat with
  | 0 => if dd.extractLsb' 3 3 == 0 then (Cond.ofBits (dd.extractLsb' 0 3)).bind fun c => some (.b c (Src.ofBits (fld tl 26 6)) (Src.ofBits (fld tl 20 6)) ((fld tl 5 15)) ((fld tl 0 5))) else none
  | 1 => if dd.extractLsb' 3 3 == 0 then (Cond.ofBits (dd.extractLsb' 0 3)).bind fun c => some (.bi c (Src.ofBits (fld tl 42 6)) ((fld tl 26 16)) ((fld tl 5 21)) ((fld tl 0 5))) else none
  | 2 => if dd == 0 then some (.j ((fld tl 5 27)) ((fld tl 0 5))) else none
  | 3 => (reg5 dd).bind fun d => some (.jal d ((fld tl 5 27)) ((fld tl 0 5)))
  | 4 => if dd == 0 && fld tl 4 6 == 0 && fld tl 0 4 == 0 then some (.jr (Src.ofBits (fld tl 10 6))) else none
  | 5 => if fld tl 4 6 == 0 && fld tl 0 4 == 0 then (reg5 dd).bind fun d => some (.jalr d (Src.ofBits (fld tl 10 6))) else none
  | 6 => if fld tl 12 20 == 0 then some (.loop (Src.ofBits dd) ((fld tl 5 7)) ((fld tl 0 5))) else none
  | 7 => if dd == 0 then some (.loopi ((fld tl 12 20)) ((fld tl 5 7)) ((fld tl 0 5))) else none
  | 8 => if dd == 0 then some .lbrk else none
  | 9 => if fld tl 10 6 == 0 && fld tl 4 6 == 0 && fld tl 3 1 == 0 then (reg5 dd).bind fun d => some (.lix d ((fld tl 0 3))) else none
  | _ => none

/-- The opcodes 0x60 to 0x6f: the fields of one head and tail, or none when step 5 of R250 fails. -/
def dec6 (lo : BitVec 4) (dd : BitVec 6) (tl : BitVec 48) : Option Instr :=
  match lo.toNat with
  | 0 => if dd == 0 && fld tl 0 4 == 0 then some (.fork (Src.ofBits (fld tl 10 6)) (Src.ofBits (fld tl 4 6))) else none
  | 1 => if dd == 0 then some .rdv else none
  | 2 => (if fld tl 10 6 == 0 && fld tl 4 6 == 0 && fld tl 3 1 == 0 then (reg5 dd).bind fun d => some (.tkwait d ((fld tl 0 3))) else none) <|>
    (if fld tl 10 6 == 0 && fld tl 4 6 == 0 && fld tl 3 1 == 1 then (reg5 dd).bind fun d => some (.tkwaitClear d ((fld tl 0 3))) else none)
  | 3 => (((if dd == 0 && fld tl 4 6 == 0 && fld tl 0 2 == 0 && fld tl 2 2 == 0 then some (.barArrive (Src.ofBits (fld tl 10 6))) else none) <|>
    (if dd == 0 && fld tl 4 6 == 0 && fld tl 0 2 == 1 && fld tl 2 2 == 0 then some (.barWait (Src.ofBits (fld tl 10 6))) else none)) <|>
    (if dd == 0 && fld tl 4 6 == 0 && fld tl 0 2 == 2 && fld tl 2 2 == 0 then some (.barArrivewait (Src.ofBits (fld tl 10 6))) else none)) <|>
    (if dd == 0 && fld tl 0 2 == 3 && fld tl 2 2 == 0 then some (.barArrivebytes (Src.ofBits (fld tl 10 6)) (Src.ofBits (fld tl 4 6))) else none)
  | 4 => (if dd == 0 && fld tl 4 6 == 0 && fld tl 0 1 == 0 && fld tl 1 3 == 0 then some (.semUp (Src.ofBits (fld tl 10 6))) else none) <|>
    (if dd == 0 && fld tl 4 6 == 0 && fld tl 0 1 == 1 && fld tl 1 3 == 0 then some (.semDown (Src.ofBits (fld tl 10 6))) else none)
  | 5 => (if dd.extractLsb' 5 1 == 0 then (Scope.ofBits (dd.extractLsb' 0 3)).bind fun sc => (FKind.ofBits (dd.extractLsb' 3 2)).bind fun k => some (.fence sc k) else none) <|>
    (if dd.extractLsb' 0 6 == 54 then some .fenceCommit else none)
  | 6 => if dd == 0 && fld tl 26 6 == 0 && fld tl 8 18 == 0 then some (.qfence ((fld tl 0 8))) else none
  | 7 => (if fld tl 0 1 == 0 && fld tl 1 3 == 0 then (reg5 dd).bind fun d => some (.spawn d (Src.ofBits (fld tl 10 6)) (Src.ofBits (fld tl 4 6))) else none) <|>
    (if fld tl 0 1 == 1 && fld tl 1 3 == 0 then (reg5 dd).bind fun d => some (.spawnInc d (Src.ofBits (fld tl 10 6)) (Src.ofBits (fld tl 4 6))) else none)
  | 8 => if fld tl 4 6 == 0 && fld tl 0 4 == 0 then (reg5 dd).bind fun d => some (.cont d (Src.ofBits (fld tl 10 6))) else none
  | 9 => if dd == 0 then some .endUnit else none
  | 10 => if fld tl 4 6 == 0 && fld tl 3 1 == 0 then (reg5 dd).bind fun d => some (.cancel d (Src.ofBits (fld tl 10 6)) ((fld tl 0 3))) else none
  | 11 => if dd == 0 then some .yield else none
  | 12 => if fld tl 4 6 == 0 && fld tl 0 4 == 0 then (reg3 dd).bind fun m => some (.mbput m (Src.ofBits (fld tl 10 6))) else none
  | 13 => if fld tl 4 6 == 0 && fld tl 0 4 == 0 then (reg5 dd).bind fun d => (reg3 (fld tl 10 6)).bind fun m => some (.mbget d m) else none
  | _ => none

/-- The opcodes 0x70 to 0x7f: the fields of one head and tail, or none when step 5 of R250 fails. -/
def dec7 (lo : BitVec 4) (dd : BitVec 6) (tl : BitVec 48) : Option Instr :=
  match lo.toNat with
  | 0 => if dd == 0 && fld tl 26 6 == 0 then some (.trap ((fld tl 0 26))) else none
  | 1 => if dd == 0 then some .eret else none
  | 2 => if dd == 0 then some .hcall else none
  | 3 => if fld tl 26 6 == 0 && fld tl 12 14 == 0 then (reg5 dd).bind fun d => some (.crd d ((fld tl 0 12))) else none
  | 4 => if fld tl 12 14 == 0 then (reg5 dd).bind fun d => some (.crw d ((fld tl 0 12)) (Src.ofBits (fld tl 26 6))) else none
  | 5 => if fld tl 12 14 == 0 then (reg5 dd).bind fun d => some (.crset d ((fld tl 0 12)) (Src.ofBits (fld tl 26 6))) else none
  | 6 => if fld tl 12 14 == 0 then (reg5 dd).bind fun d => some (.crclr d ((fld tl 0 12)) (Src.ofBits (fld tl 26 6))) else none
  | 7 => ((if dd == 0 && fld tl 0 2 == 0 && fld tl 2 2 == 0 then some (.ainvPage (Src.ofBits (fld tl 10 6)) (Src.ofBits (fld tl 4 6))) else none) <|>
    (if dd == 0 && fld tl 4 6 == 0 && fld tl 0 2 == 1 && fld tl 2 2 == 0 then some (.ainvAsn (Src.ofBits (fld tl 10 6))) else none)) <|>
    (if dd == 0 && fld tl 4 6 == 0 && fld tl 0 2 == 2 && fld tl 2 2 == 0 then some (.ainvPart (Src.ofBits (fld tl 10 6))) else none)
  | 8 => if dd == 0 then some (.harv (Src.ofBits (fld tl 10 6)) (Src.ofBits (fld tl 4 6)) ((fld tl 0 4))) else none
  | 9 => if dd == 0 then some .idle else none
  | 10 => if dd == 0 && fld tl 4 6 == 0 && fld tl 0 4 == 0 then some (.vqsave (Src.ofBits (fld tl 10 6))) else none
  | 11 => if dd == 0 && fld tl 4 6 == 0 && fld tl 0 4 == 0 then some (.vqload (Src.ofBits (fld tl 10 6))) else none
  | 12 => if dd == 0 && fld tl 4 6 == 0 && fld tl 0 4 == 0 then some (.vsave (Src.ofBits (fld tl 10 6))) else none
  | 13 => if dd == 0 && fld tl 4 6 == 0 && fld tl 0 4 == 0 then some (.vrest (Src.ofBits (fld tl 10 6))) else none
  | 14 => if dd == 0 && fld tl 26 6 == 0 then some (.bkpt ((fld tl 0 26))) else none
  | _ => none

/-- The opcodes 0x80 to 0x8f: the fields of one head and tail, or none when step 5 of R250 fails. -/
def dec8 (lo : BitVec 4) (dd : BitVec 6) (tl : BitVec 48) : Option Instr :=
  match lo.toNat with
  | 0 => if fld tl 4 6 == 0 then (reg5 dd).bind fun d => (ETy.ofBits (fld tl 0 4)).bind fun t => some (.setvl d (Src.ofBits (fld tl 10 6)) t) else none
  | 1 => if dd == 0 && fld tl 26 6 == 0 && fld tl 8 18 == 0 then some (.vsetvt ((fld tl 0 8))) else none
  | 2 => if dd == 0 then some .vspec else none
  | 3 => if dd == 0 then some .vcommit else none
  | 4 => if fld tl 36 6 == 0 && fld tl 30 6 == 0 && fld tl 21 5 == 0 && fld tl 13 8 == 0 && fld tl 11 2 == 0 && fld tl 8 3 == 0 && fld tl 1 7 == 0 then (reg4 dd).bind fun d => (reg4 (fld tl 42 6)).bind fun a => some (.vbrk d a ((fld tl 26 4)) (bit (fld tl 0 1))) else none
  | 5 => if fld tl 42 6 == 0 && fld tl 36 6 == 0 && fld tl 30 6 == 0 && fld tl 21 5 == 0 && fld tl 13 8 == 0 && fld tl 11 2 == 0 && fld tl 8 3 == 0 && fld tl 1 7 == 0 then (reg4 dd).bind fun d => some (.pset d ((fld tl 26 4)) (bit (fld tl 0 1))) else none
  | 6 => if fld tl 30 6 == 0 && fld tl 21 5 == 0 && fld tl 13 8 == 0 && fld tl 11 2 == 0 && fld tl 8 3 == 0 && fld tl 3 5 == 0 then (reg4 dd).bind fun d => (reg4 (fld tl 42 6)).bind fun a => (reg4 (fld tl 36 6)).bind fun b => (PlogOp.ofBits (fld tl 0 3)).bind fun op => some (.plog d a b ((fld tl 26 4)) op) else none
  | 7 => if fld tl 36 6 == 0 && fld tl 30 6 == 0 && fld tl 21 5 == 0 && fld tl 13 8 == 0 && fld tl 11 2 == 0 && fld tl 8 3 == 0 && fld tl 0 8 == 0 then (reg4 dd).bind fun d => (reg4 (fld tl 42 6)).bind fun a => some (.pnot d a ((fld tl 26 4))) else none
  | 8 => if fld tl 36 6 == 0 && fld tl 30 6 == 0 && fld tl 21 5 == 0 && fld tl 13 8 == 0 && fld tl 11 2 == 0 && fld tl 8 3 == 0 && fld tl 0 8 == 0 then (reg5 dd).bind fun d => (reg4 (fld tl 42 6)).bind fun a => some (.pfirst d a ((fld tl 26 4))) else none
  | 9 => if fld tl 36 6 == 0 && fld tl 30 6 == 0 && fld tl 21 5 == 0 && fld tl 13 8 == 0 && fld tl 11 2 == 0 && fld tl 8 3 == 0 && fld tl 0 8 == 0 then (reg5 dd).bind fun d => (reg4 (fld tl 42 6)).bind fun a => some (.pcnt d a ((fld tl 26 4))) else none
  | 10 => if fld tl 36 6 == 0 && fld tl 30 6 == 0 && fld tl 21 5 == 0 && fld tl 13 8 == 0 && fld tl 11 2 == 0 && fld tl 8 3 == 0 && fld tl 0 8 == 0 then (reg4 dd).bind fun d => (reg4 (fld tl 42 6)).bind fun a => some (.pmv d a ((fld tl 26 4))) else none
  | 11 => if fld tl 36 6 == 0 && fld tl 30 6 == 0 && fld tl 26 4 == 0 && fld tl 21 5 == 0 && fld tl 13 8 == 0 && fld tl 11 2 == 0 && fld tl 8 3 == 0 && fld tl 0 8 == 0 then (reg5 dd).bind fun d => (reg3 (fld tl 42 6)).bind fun sp => some (.vbind d sp) else none
  | _ => none

/-- The opcodes 0x90 to 0x9f: the fields of one head and tail, or none when step 5 of R250 fails. -/
def dec9 (lo : BitVec 4) (dd : BitVec 6) (tl : BitVec 48) : Option Instr :=
  match lo.toNat with
  | 0 => if fld tl 30 6 == 0 && fld tl 13 8 == 0 && fld tl 11 2 == 0 && fld tl 0 8 == 0 then (reg5 dd).bind fun d => (reg5 (fld tl 42 6)).bind fun a => (reg5 (fld tl 36 6)).bind fun b => (tselOf (fld tl 21 5)).bind fun ts => (Rm.ofBits (fld tl 8 3)).bind fun rm => some (.vadd d a b ((fld tl 26 4)) ts rm) else none
  | 1 => if fld tl 30 6 == 0 && fld tl 13 8 == 0 && fld tl 11 2 == 0 && fld tl 0 8 == 0 then (reg5 dd).bind fun d => (reg5 (fld tl 42 6)).bind fun a => (reg5 (fld tl 36 6)).bind fun b => (tselOf (fld tl 21 5)).bind fun ts => (Rm.ofBits (fld tl 8 3)).bind fun rm => some (.vsub d a b ((fld tl 26 4)) ts rm) else none
  | 2 => if fld tl 30 6 == 0 && fld tl 13 8 == 0 && fld tl 11 2 == 0 && fld tl 0 8 == 0 then (reg5 dd).bind fun d => (reg5 (fld tl 42 6)).bind fun a => (reg5 (fld tl 36 6)).bind fun b => (tselOf (fld tl 21 5)).bind fun ts => (Rm.ofBits (fld tl 8 3)).bind fun rm => some (.vmul d a b ((fld tl 26 4)) ts rm) else none
  | 3 => if fld tl 30 6 == 0 && fld tl 13 8 == 0 && fld tl 11 2 == 0 && fld tl 8 3 == 0 && fld tl 0 8 == 0 then (reg5 dd).bind fun d => (reg5 (fld tl 42 6)).bind fun a => (reg5 (fld tl 36 6)).bind fun b => (tselOf (fld tl 21 5)).bind fun ts => some (.vmulh d a b ((fld tl 26 4)) ts) else none
  | 4 => if fld tl 30 6 == 0 && fld tl 13 8 == 0 && fld tl 11 2 == 0 && fld tl 8 3 == 0 && fld tl 0 8 == 0 then (reg5 dd).bind fun d => (reg5 (fld tl 42 6)).bind fun a => (reg5 (fld tl 36 6)).bind fun b => (tselOf (fld tl 21 5)).bind fun ts => some (.vdiv d a b ((fld tl 26 4)) ts) else none
  | 5 => if fld tl 30 6 == 0 && fld tl 13 8 == 0 && fld tl 11 2 == 0 && fld tl 8 3 == 0 && fld tl 0 8 == 0 then (reg5 dd).bind fun d => (reg5 (fld tl 42 6)).bind fun a => (reg5 (fld tl 36 6)).bind fun b => (tselOf (fld tl 21 5)).bind fun ts => some (.vrem d a b ((fld tl 26 4)) ts) else none
  | 6 => if fld tl 30 6 == 0 && fld tl 13 8 == 0 && fld tl 11 2 == 0 && fld tl 8 3 == 0 && fld tl 0 8 == 0 then (reg5 dd).bind fun d => (reg5 (fld tl 42 6)).bind fun a => (reg5 (fld tl 36 6)).bind fun b => (tselOf (fld tl 21 5)).bind fun ts => some (.vmin d a b ((fld tl 26 4)) ts) else none
  | 7 => if fld tl 30 6 == 0 && fld tl 13 8 == 0 && fld tl 11 2 == 0 && fld tl 8 3 == 0 && fld tl 0 8 == 0 then (reg5 dd).bind fun d => (reg5 (fld tl 42 6)).bind fun a => (reg5 (fld tl 36 6)).bind fun b => (tselOf (fld tl 21 5)).bind fun ts => some (.vmax d a b ((fld tl 26 4)) ts) else none
  | 8 => if fld tl 30 6 == 0 && fld tl 13 8 == 0 && fld tl 11 2 == 0 && fld tl 8 3 == 0 && fld tl 0 8 == 0 then (reg5 dd).bind fun d => (reg5 (fld tl 42 6)).bind fun a => (reg5 (fld tl 36 6)).bind fun b => (tselOf (fld tl 21 5)).bind fun ts => some (.vand d a b ((fld tl 26 4)) ts) else none
  | 9 => if fld tl 30 6 == 0 && fld tl 13 8 == 0 && fld tl 11 2 == 0 && fld tl 8 3 == 0 && fld tl 0 8 == 0 then (reg5 dd).bind fun d => (reg5 (fld tl 42 6)).bind fun a => (reg5 (fld tl 36 6)).bind fun b => (tselOf (fld tl 21 5)).bind fun ts => some (.vor d a b ((fld tl 26 4)) ts) else none
  | 10 => if fld tl 30 6 == 0 && fld tl 13 8 == 0 && fld tl 11 2 == 0 && fld tl 8 3 == 0 && fld tl 0 8 == 0 then (reg5 dd).bind fun d => (reg5 (fld tl 42 6)).bind fun a => (reg5 (fld tl 36 6)).bind fun b => (tselOf (fld tl 21 5)).bind fun ts => some (.vxor d a b ((fld tl 26 4)) ts) else none
  | 11 => if fld tl 30 6 == 0 && fld tl 13 8 == 0 && fld tl 11 2 == 0 && fld tl 8 3 == 0 && fld tl 0 8 == 0 then (reg5 dd).bind fun d => (reg5 (fld tl 42 6)).bind fun a => (reg5 (fld tl 36 6)).bind fun b => (tselOf (fld tl 21 5)).bind fun ts => some (.vsll d a b ((fld tl 26 4)) ts) else none
  | 12 => if fld tl 30 6 == 0 && fld tl 13 8 == 0 && fld tl 11 2 == 0 && fld tl 8 3 == 0 && fld tl 0 8 == 0 then (reg5 dd).bind fun d => (reg5 (fld tl 42 6)).bind fun a => (reg5 (fld tl 36 6)).bind fun b => (tselOf (fld tl 21 5)).bind fun ts => some (.vsrl d a b ((fld tl 26 4)) ts) else none
  | 13 => if fld tl 30 6 == 0 && fld tl 13 8 == 0 && fld tl 11 2 == 0 && fld tl 8 3 == 0 && fld tl 0 8 == 0 then (reg5 dd).bind fun d => (reg5 (fld tl 42 6)).bind fun a => (reg5 (fld tl 36 6)).bind fun b => (tselOf (fld tl 21 5)).bind fun ts => some (.vsra d a b ((fld tl 26 4)) ts) else none
  | 14 => if fld tl 36 6 == 0 && fld tl 30 6 == 0 && fld tl 13 8 == 0 && fld tl 11 2 == 0 && fld tl 8 3 == 0 && fld tl 0 8 == 0 then (reg5 dd).bind fun d => (reg5 (fld tl 42 6)).bind fun a => (tselOf (fld tl 21 5)).bind fun ts => some (.vabs d a ((fld tl 26 4)) ts) else none
  | 15 => if fld tl 36 6 == 0 && fld tl 30 6 == 0 && fld tl 13 8 == 0 && fld tl 11 2 == 0 && fld tl 8 3 == 0 && fld tl 0 8 == 0 then (reg5 dd).bind fun d => (reg5 (fld tl 42 6)).bind fun a => (tselOf (fld tl 21 5)).bind fun ts => some (.vneg d a ((fld tl 26 4)) ts) else none
  | _ => none

/-- The opcodes 0xa0 to 0xaf: the fields of one head and tail, or none when step 5 of R250 fails. -/
def deca (lo : BitVec 4) (dd : BitVec 6) (tl : BitVec 48) : Option Instr :=
  match lo.toNat with
  | 0 => if fld tl 13 8 == 0 && fld tl 11 2 == 0 && fld tl 0 8 == 0 then (reg5 dd).bind fun d => (reg5 (fld tl 42 6)).bind fun a => (reg5 (fld tl 36 6)).bind fun b => (reg5 (fld tl 30 6)).bind fun c => (tselOf (fld tl 21 5)).bind fun ts => (Rm.ofBits (fld tl 8 3)).bind fun rm => some (.vfma d a b c ((fld tl 26 4)) ts rm) else none
  | 1 => if fld tl 13 8 == 0 && fld tl 11 2 == 0 && fld tl 0 8 == 0 then (reg5 dd).bind fun d => (reg5 (fld tl 42 6)).bind fun a => (reg5 (fld tl 36 6)).bind fun b => (reg5 (fld tl 30 6)).bind fun c => (tselOf (fld tl 21 5)).bind fun ts => (Rm.ofBits (fld tl 8 3)).bind fun rm => some (.vfms d a b c ((fld tl 26 4)) ts rm) else none
  | 2 => if fld tl 13 8 == 0 && fld tl 11 2 == 0 && fld tl 0 8 == 0 then (reg5 dd).bind fun d => (reg5 (fld tl 42 6)).bind fun a => (reg5 (fld tl 36 6)).bind fun b => (reg5 (fld tl 30 6)).bind fun c => (tselOf (fld tl 21 5)).bind fun ts => (Rm.ofBits (fld tl 8 3)).bind fun rm => some (.vfnma d a b c ((fld tl 26 4)) ts rm) else none
  | 3 => if fld tl 30 6 == 0 && fld tl 13 8 == 0 && fld tl 11 2 == 0 && fld tl 0 8 == 0 then (reg5 dd).bind fun d => (reg5 (fld tl 42 6)).bind fun a => (reg5 (fld tl 36 6)).bind fun b => (tselOf (fld tl 21 5)).bind fun ts => (Rm.ofBits (fld tl 8 3)).bind fun rm => some (.vfdiv d a b ((fld tl 26 4)) ts rm) else none
  | 4 => if fld tl 36 6 == 0 && fld tl 30 6 == 0 && fld tl 13 8 == 0 && fld tl 11 2 == 0 && fld tl 0 8 == 0 then (reg5 dd).bind fun d => (reg5 (fld tl 42 6)).bind fun a => (tselOf (fld tl 21 5)).bind fun ts => (Rm.ofBits (fld tl 8 3)).bind fun rm => some (.vfsqrt d a ((fld tl 26 4)) ts rm) else none
  | 5 => if fld tl 30 6 == 0 && fld tl 13 8 == 0 && fld tl 11 2 == 0 && fld tl 8 3 == 0 && fld tl 3 5 == 0 then (reg4 dd).bind fun d => (reg5 (fld tl 42 6)).bind fun a => (reg5 (fld tl 36 6)).bind fun b => (tselOf (fld tl 21 5)).bind fun ts => (VcmpOp.ofBits (fld tl 0 3)).bind fun c => some (.vcmp d a b ((fld tl 26 4)) ts c) else none
  | 6 => if fld tl 13 8 == 0 && fld tl 11 2 == 0 && fld tl 8 3 == 0 && fld tl 0 8 == 0 then (reg5 dd).bind fun d => (reg5 (fld tl 42 6)).bind fun a => (reg5 (fld tl 36 6)).bind fun b => (reg4 (fld tl 30 6)).bind fun c => (tselOf (fld tl 21 5)).bind fun ts => some (.vsel d a b c ((fld tl 26 4)) ts) else none
  | 7 => if fld tl 36 6 == 0 && fld tl 30 6 == 0 && fld tl 13 8 == 0 && fld tl 11 2 == 0 && fld tl 4 4 == 0 then (reg5 dd).bind fun d => (reg5 (fld tl 42 6)).bind fun a => (tselOf (fld tl 21 5)).bind fun ts => (Rm.ofBits (fld tl 8 3)).bind fun rm => (ETy.ofBits (fld tl 0 4)).bind fun s => some (.vcvt d a ((fld tl 26 4)) ts s rm) else none
  | 8 => if fld tl 13 8 == 0 && fld tl 11 2 == 0 && fld tl 4 4 == 0 then (reg5 dd).bind fun d => (reg5 (fld tl 42 6)).bind fun a => (reg5 (fld tl 36 6)).bind fun b => (reg5 (fld tl 30 6)).bind fun c => (tselOf (fld tl 21 5)).bind fun ts => (Rm.ofBits (fld tl 8 3)).bind fun rm => (ETy.ofBits (fld tl 0 4)).bind fun s => some (.vdot d a b c ((fld tl 26 4)) ts s rm) else none
  | 9 => if fld tl 36 6 == 0 && fld tl 30 6 == 0 && fld tl 13 8 == 0 && fld tl 11 2 == 0 && fld tl 8 3 == 0 && fld tl 0 8 == 0 then (reg5 dd).bind fun d => (reg5 (fld tl 42 6)).bind fun a => (tselOf (fld tl 21 5)).bind fun ts => some (.vclass d a ((fld tl 26 4)) ts) else none
  | 10 => if fld tl 36 6 == 0 && fld tl 30 6 == 0 && fld tl 13 8 == 0 && fld tl 11 2 == 0 && fld tl 8 3 == 0 && fld tl 0 8 == 0 then (reg5 dd).bind fun d => (reg5 (fld tl 42 6)).bind fun a => (tselOf (fld tl 21 5)).bind fun ts => some (.vmv d a ((fld tl 26 4)) ts) else none
  | 11 => if fld tl 36 6 == 0 && fld tl 30 6 == 0 && fld tl 13 8 == 0 && fld tl 11 2 == 0 && fld tl 8 3 == 0 && fld tl 0 8 == 0 then (reg5 dd).bind fun d => (reg5 (fld tl 42 6)).bind fun a => (tselOf (fld tl 21 5)).bind fun ts => some (.vrecpe d a ((fld tl 26 4)) ts) else none
  | 12 => if fld tl 30 6 == 0 && fld tl 13 8 == 0 && fld tl 11 2 == 0 && fld tl 8 3 == 0 && fld tl 0 8 == 0 then (reg5 dd).bind fun d => (reg5 (fld tl 42 6)).bind fun a => (reg5 (fld tl 36 6)).bind fun b => (tselOf (fld tl 21 5)).bind fun ts => some (.vsadd d a b ((fld tl 26 4)) ts) else none
  | 13 => if fld tl 30 6 == 0 && fld tl 13 8 == 0 && fld tl 11 2 == 0 && fld tl 8 3 == 0 && fld tl 0 8 == 0 then (reg5 dd).bind fun d => (reg5 (fld tl 42 6)).bind fun a => (reg5 (fld tl 36 6)).bind fun b => (tselOf (fld tl 21 5)).bind fun ts => some (.vssub d a b ((fld tl 26 4)) ts) else none
  | _ => none

/-- The opcodes 0xb0 to 0xbf: the fields of one head and tail, or none when step 5 of R250 fails. -/
def decb (lo : BitVec 4) (dd : BitVec 6) (tl : BitVec 48) : Option Instr :=
  match lo.toNat with
  | 0 => if fld tl 30 6 == 0 && fld tl 13 8 == 0 && fld tl 11 2 == 0 && fld tl 8 3 == 0 && fld tl 0 8 == 0 then (reg5 dd).bind fun d => (reg5 (fld tl 42 6)).bind fun a => (reg5 (fld tl 36 6)).bind fun b => (tselOf (fld tl 21 5)).bind fun ts => some (.vperm d a b ((fld tl 26 4)) ts) else none
  | 1 => if fld tl 30 6 == 0 && fld tl 13 8 == 0 && fld tl 11 2 == 0 && fld tl 8 3 == 0 && fld tl 1 7 == 0 then (reg5 dd).bind fun d => (reg5 (fld tl 42 6)).bind fun a => (tselOf (fld tl 21 5)).bind fun ts => some (.vslide d a (Src.ofBits (fld tl 36 6)) ((fld tl 26 4)) ts (bit (fld tl 0 1))) else none
  | 2 => if fld tl 36 6 == 0 && fld tl 30 6 == 0 && fld tl 13 8 == 0 && fld tl 11 2 == 0 && fld tl 8 3 == 0 && fld tl 0 8 == 0 then (reg5 dd).bind fun d => (reg5 (fld tl 42 6)).bind fun a => (tselOf (fld tl 21 5)).bind fun ts => some (.vcompress d a ((fld tl 26 4)) ts) else none
  | 3 => if fld tl 36 6 == 0 && fld tl 30 6 == 0 && fld tl 13 8 == 0 && fld tl 11 2 == 0 && fld tl 8 3 == 0 && fld tl 0 8 == 0 then (reg5 dd).bind fun d => (reg5 (fld tl 42 6)).bind fun a => (tselOf (fld tl 21 5)).bind fun ts => some (.vexpand d a ((fld tl 26 4)) ts) else none
  | 4 => if fld tl 36 6 == 0 && fld tl 30 6 == 0 && fld tl 13 8 == 0 && fld tl 11 2 == 0 && fld tl 8 3 == 0 && fld tl 0 8 == 0 then (reg5 dd).bind fun d => (tselOf (fld tl 21 5)).bind fun ts => some (.vsplat d (Src.ofBits (fld tl 42 6)) ((fld tl 26 4)) ts) else none
  | 5 => if fld tl 30 6 == 0 && fld tl 26 4 == 0 && fld tl 13 8 == 0 && fld tl 11 2 == 0 && fld tl 8 3 == 0 && fld tl 0 8 == 0 then (reg5 dd).bind fun d => (tselOf (fld tl 21 5)).bind fun ts => some (.vins d (Src.ofBits (fld tl 42 6)) (Src.ofBits (fld tl 36 6)) ts) else none
  | 6 => if fld tl 30 6 == 0 && fld tl 26 4 == 0 && fld tl 13 8 == 0 && fld tl 11 2 == 0 && fld tl 8 3 == 0 && fld tl 0 8 == 0 then (reg5 dd).bind fun d => (reg5 (fld tl 42 6)).bind fun a => (tselOf (fld tl 21 5)).bind fun ts => some (.vext d a (Src.ofBits (fld tl 36 6)) ts) else none
  | 7 => if fld tl 30 6 == 0 && fld tl 13 8 == 0 && fld tl 11 2 == 0 && fld tl 3 5 == 0 then (reg5 dd).bind fun d => (reg5 (fld tl 42 6)).bind fun a => (reg5 (fld tl 36 6)).bind fun b => (tselOf (fld tl 21 5)).bind fun ts => (Rm.ofBits (fld tl 8 3)).bind fun rm => (RedOp.ofBits (fld tl 0 3)).bind fun op => some (.vred d a b ((fld tl 26 4)) ts op rm) else none
  | 8 => if fld tl 36 6 == 0 && fld tl 30 6 == 0 && fld tl 13 8 == 0 && fld tl 11 2 == 0 && fld tl 4 4 == 0 then (reg5 dd).bind fun d => (reg5 (fld tl 42 6)).bind fun a => (tselOf (fld tl 21 5)).bind fun ts => (Rm.ofBits (fld tl 8 3)).bind fun rm => (RedOp.ofBits (fld tl 0 3)).bind fun op => some (.vscan d a ((fld tl 26 4)) ts op (bit (fld tl 3 1)) rm) else none
  | 9 => if fld tl 30 6 == 0 && fld tl 13 8 == 0 && fld tl 11 2 == 0 && fld tl 8 3 == 0 && fld tl 0 8 == 0 then (reg5 dd).bind fun d => (reg4 (fld tl 42 6)).bind fun a => (tselOf (fld tl 21 5)).bind fun ts => some (.vrank d a (Src.ofBits (fld tl 36 6)) ((fld tl 26 4)) ts) else none
  | _ => none

/-- The opcodes 0xc0 to 0xcf: the fields of one head and tail, or none when step 5 of R250 fails. -/
def decc (lo : BitVec 4) (dd : BitVec 6) (tl : BitVec 48) : Option Instr :=
  match lo.toNat with
  | 0 => if fld tl 36 6 == 0 && fld tl 30 6 == 0 && fld tl 11 2 == 0 && fld tl 8 3 == 0 && fld tl 1 7 == 0 then (reg5 dd).bind fun d => (tselOf (fld tl 21 5)).bind fun ts => some (.vld d (Src.ofBits (fld tl 42 6)) ((fld tl 26 4)) ts ((fld tl 13 8)) (bit (fld tl 0 1))) else none
  | 1 => if fld tl 30 6 == 0 && fld tl 11 2 == 0 && fld tl 8 3 == 0 && fld tl 1 7 == 0 then (reg5 dd).bind fun d => (tselOf (fld tl 21 5)).bind fun ts => some (.vlds d (Src.ofBits (fld tl 42 6)) (Src.ofBits (fld tl 36 6)) ((fld tl 26 4)) ts ((fld tl 13 8)) (bit (fld tl 0 1))) else none
  | 2 => if fld tl 8 3 == 0 && fld tl 2 6 == 0 then (reg5 dd).bind fun d => (reg5 (fld tl 36 6)).bind fun i => (tselOf (fld tl 21 5)).bind fun ts => (Pol.ofBits (fld tl 11 2)).bind fun pol => some (.vldx d (Src.ofBits (fld tl 42 6)) i (Src.ofBits (fld tl 30 6)) ((fld tl 26 4)) ts ((fld tl 13 8)) pol (bit (fld tl 0 1)) (bit (fld tl 1 1))) else none
  | 3 => if fld tl 36 6 == 0 && fld tl 30 6 == 0 && fld tl 11 2 == 0 && fld tl 8 3 == 0 && fld tl 0 8 == 0 then (reg5 dd).bind fun d => (tselOf (fld tl 21 5)).bind fun ts => some (.vldff d (Src.ofBits (fld tl 42 6)) ((fld tl 26 4)) ts ((fld tl 13 8))) else none
  | 4 => (if fld tl 36 6 == 0 && fld tl 30 6 == 0 && fld tl 11 2 == 0 && fld tl 8 3 == 0 && fld tl 0 1 == 0 && fld tl 1 7 == 0 then (reg5 dd).bind fun v => (tselOf (fld tl 21 5)).bind fun ts => some (.vst v (Src.ofBits (fld tl 42 6)) ((fld tl 26 4)) ts ((fld tl 13 8))) else none) <|>
    (if fld tl 30 6 == 0 && fld tl 11 2 == 0 && fld tl 8 3 == 0 && fld tl 0 1 == 1 && fld tl 1 7 == 0 then (reg5 dd).bind fun v => (tselOf (fld tl 21 5)).bind fun ts => some (.vstNf v (Src.ofBits (fld tl 42 6)) (Src.ofBits (fld tl 36 6)) ((fld tl 26 4)) ts ((fld tl 13 8))) else none)
  | 5 => if fld tl 30 6 == 0 && fld tl 11 2 == 0 && fld tl 8 3 == 0 && fld tl 0 8 == 0 then (reg5 dd).bind fun v => (tselOf (fld tl 21 5)).bind fun ts => some (.vsts v (Src.ofBits (fld tl 42 6)) (Src.ofBits (fld tl 36 6)) ((fld tl 26 4)) ts ((fld tl 13 8))) else none
  | 6 => if fld tl 8 3 == 0 && fld tl 0 8 == 0 then (reg5 dd).bind fun v => (reg5 (fld tl 36 6)).bind fun i => (tselOf (fld tl 21 5)).bind fun ts => (Pol.ofBits (fld tl 11 2)).bind fun pol => some (.vstx v (Src.ofBits (fld tl 42 6)) i (Src.ofBits (fld tl 30 6)) ((fld tl 26 4)) ts ((fld tl 13 8)) pol) else none
  | 7 => if fld tl 8 3 == 0 && fld tl 2 6 == 0 then (reg5 dd).bind fun v => (reg5 (fld tl 36 6)).bind fun i => (tselOf (fld tl 21 5)).bind fun ts => (Pol.ofBits (fld tl 11 2)).bind fun pol => (BankOp.ofBits (fld tl 0 2)).bind fun op => some (.vscadd (Src.ofBits (fld tl 42 6)) i v (Src.ofBits (fld tl 30 6)) ((fld tl 26 4)) ts ((fld tl 13 8)) pol op) else none
  | 8 => if fld tl 30 6 == 0 && fld tl 11 2 == 0 && fld tl 8 3 == 0 && fld tl 0 8 == 0 then (reg5 dd).bind fun d => (reg5 (fld tl 36 6)).bind fun i => (tselOf (fld tl 21 5)).bind fun ts => some (.vspld d (Src.ofBits (fld tl 42 6)) i ((fld tl 26 4)) ts ((fld tl 13 8))) else none
  | 9 => if fld tl 30 6 == 0 && fld tl 11 2 == 0 && fld tl 8 3 == 0 && fld tl 0 8 == 0 then (reg5 dd).bind fun v => (reg5 (fld tl 36 6)).bind fun i => (tselOf (fld tl 21 5)).bind fun ts => some (.vspst v (Src.ofBits (fld tl 42 6)) i ((fld tl 26 4)) ts ((fld tl 13 8))) else none
  | 10 => if fld tl 11 2 == 0 && fld tl 8 3 == 0 && fld tl 3 5 == 0 then (reg5 dd).bind fun d => (reg5 (fld tl 36 6)).bind fun i => (reg5 (fld tl 30 6)).bind fun c => (tselOf (fld tl 21 5)).bind fun ts => (SpOp.ofBits (fld tl 0 3)).bind fun op => some (.vspamo d (Src.ofBits (fld tl 42 6)) i c ((fld tl 26 4)) ts ((fld tl 13 8)) op) else none
  | 11 => if dd == 0 && fld tl 30 6 == 0 && fld tl 11 2 == 0 && fld tl 8 3 == 0 && fld tl 1 7 == 0 then (tselOf (fld tl 21 5)).bind fun ts => some (.vpf (Src.ofBits (fld tl 42 6)) (osrcOf (fld tl 36 6)) ((fld tl 26 4)) ts ((fld tl 13 8)) (bit (fld tl 0 1))) else none
  | _ => none

/-- The opcodes 0xd0 to 0xdf: the fields of one head and tail, or none when step 5 of R250 fails. -/
def decd (lo : BitVec 4) (dd : BitVec 6) (tl : BitVec 48) : Option Instr :=
  match lo.toNat with
  | 0 => if fld tl 30 6 == 0 && fld tl 13 8 == 0 && fld tl 11 2 == 0 && fld tl 8 3 == 0 && fld tl 0 8 == 0 then (reg4 dd).bind fun d => (reg5 (fld tl 42 6)).bind fun k => (reg5 (fld tl 36 6)).bind fun v => (tselOf (fld tl 21 5)).bind fun ts => some (.xins d k v ((fld tl 26 4)) ts) else none
  | 1 => if fld tl 36 6 == 0 && fld tl 13 8 == 0 && fld tl 11 2 == 0 && fld tl 8 3 == 0 && fld tl 0 8 == 0 then (reg5 dd).bind fun d => (reg5 (fld tl 42 6)).bind fun k => (reg4 (fld tl 30 6)).bind fun f => (tselOf (fld tl 21 5)).bind fun ts => some (.xlkp d k f ((fld tl 26 4)) ts) else none
  | 2 => if fld tl 30 6 == 0 && fld tl 13 8 == 0 && fld tl 11 2 == 0 && fld tl 0 8 == 0 then (reg4 dd).bind fun d => (reg5 (fld tl 42 6)).bind fun k => (reg5 (fld tl 36 6)).bind fun v => (tselOf (fld tl 21 5)).bind fun ts => (Rm.ofBits (fld tl 8 3)).bind fun rm => some (.xacc d k v ((fld tl 26 4)) ts rm) else none
  | 3 => if fld tl 36 6 == 0 && fld tl 30 6 == 0 && fld tl 13 8 == 0 && fld tl 11 2 == 0 && fld tl 8 3 == 0 && fld tl 0 8 == 0 then (reg4 dd).bind fun d => (reg5 (fld tl 42 6)).bind fun k => (tselOf (fld tl 21 5)).bind fun ts => some (.xdel d k ((fld tl 26 4)) ts) else none
  | 4 => if fld tl 36 6 == 0 && fld tl 30 6 == 0 && fld tl 26 4 == 0 && fld tl 13 8 == 0 && fld tl 11 2 == 0 && fld tl 8 3 == 0 && fld tl 0 8 == 0 then (reg5 dd).bind fun k => (reg5 (fld tl 42 6)).bind fun v => (tselOf (fld tl 21 5)).bind fun ts => some (.xdrain k v ts) else none
  | 5 => if dd == 0 && fld tl 42 6 == 0 && fld tl 36 6 == 0 && fld tl 30 6 == 0 && fld tl 26 4 == 0 && fld tl 21 5 == 0 && fld tl 13 8 == 0 && fld tl 11 2 == 0 && fld tl 8 3 == 0 && fld tl 0 8 == 0 then some .xclr else none
  | 6 => if fld tl 42 6 == 0 && fld tl 36 6 == 0 && fld tl 30 6 == 0 && fld tl 26 4 == 0 && fld tl 21 5 == 0 && fld tl 13 8 == 0 && fld tl 11 2 == 0 && fld tl 8 3 == 0 && fld tl 0 8 == 0 then (reg5 dd).bind fun d => some (.xcnt d) else none
  | 8 => if dd == 0 && fld tl 26 4 == 0 && fld tl 21 5 == 0 && fld tl 13 8 == 0 && fld tl 11 2 == 0 && fld tl 8 3 == 0 && fld tl 2 6 == 0 then (KnotFmt.ofBits (fld tl 0 2)).bind fun f => some (.tbset (Src.ofBits (fld tl 42 6)) (Src.ofBits (fld tl 36 6)) (Src.ofBits (fld tl 30 6)) f) else none
  | 9 => if fld tl 36 6 == 0 && fld tl 30 6 == 0 && fld tl 13 8 == 0 && fld tl 11 2 == 0 && fld tl 0 8 == 0 then (reg5 dd).bind fun d => (reg5 (fld tl 42 6)).bind fun a => (tselOf (fld tl 21 5)).bind fun ts => (Rm.ofBits (fld tl 8 3)).bind fun rm => some (.vtint d a ((fld tl 26 4)) ts rm) else none
  | 10 => if fld tl 36 6 == 0 && fld tl 30 6 == 0 && fld tl 13 8 == 0 && fld tl 11 2 == 0 && fld tl 0 8 == 0 then (reg5 dd).bind fun d => (reg5 (fld tl 42 6)).bind fun a => (tselOf (fld tl 21 5)).bind fun ts => (Rm.ofBits (fld tl 8 3)).bind fun rm => some (.vtlkp d a ((fld tl 26 4)) ts rm) else none
  | _ => none

/-- The opcodes 0xe0 to 0xef: the fields of one head and tail, or none when step 5 of R250 fails. -/
def dece (lo : BitVec 4) (dd : BitVec 6) (tl : BitVec 48) : Option Instr :=
  match lo.toNat with
  | 0 => (if dd == 0 && fld tl 36 6 == 0 && fld tl 30 6 == 0 && fld tl 23 3 == 0 && fld tl 20 3 == 0 && fld tl 10 2 == 0 && fld tl 1 1 == 0 && fld tl 2 8 == 0 then (ETy.ofBits (fld tl 26 4)).bind fun t => some (.mld (Src.ofBits (fld tl 42 6)) t ((fld tl 12 8)) (bit (fld tl 0 1))) else none) <|>
    (if dd == 0 && fld tl 36 6 == 0 && fld tl 30 6 == 0 && fld tl 26 4 == 0 && fld tl 23 3 == 0 && fld tl 20 3 == 0 && fld tl 10 2 == 0 && fld tl 1 1 == 1 && fld tl 2 8 == 0 then some (.mldFr (Src.ofBits (fld tl 42 6)) ((fld tl 12 8)) (bit (fld tl 0 1))) else none)
  | 1 => (if fld tl 36 6 == 0 && fld tl 30 6 == 0 && fld tl 23 3 == 0 && fld tl 20 3 == 0 && fld tl 10 2 == 0 && fld tl 1 1 == 0 && fld tl 2 8 == 0 then (reg2 dd).bind fun d => (ETy.ofBits (fld tl 26 4)).bind fun t => some (.mmac d (Src.ofBits (fld tl 42 6)) t ((fld tl 12 8)) (bit (fld tl 0 1))) else none) <|>
    (if fld tl 36 6 == 0 && fld tl 30 6 == 0 && fld tl 23 3 == 0 && fld tl 20 3 == 0 && fld tl 10 2 == 0 && fld tl 1 1 == 1 && fld tl 4 6 == 0 then (reg2 dd).bind fun d => (ETy.ofBits (fld tl 26 4)).bind fun t => some (.mmacStaged d (Src.ofBits (fld tl 42 6)) t ((fld tl 12 8)) (bit (fld tl 0 1)) ((fld tl 2 2))) else none)
  | 2 => if fld tl 42 6 == 0 && fld tl 36 6 == 0 && fld tl 30 6 == 0 && fld tl 26 4 == 0 && fld tl 23 3 == 0 && fld tl 20 3 == 0 && fld tl 10 2 == 0 && fld tl 0 10 == 0 then (reg2 dd).bind fun d => some (.mzero d ((fld tl 12 8))) else none
  | 3 => if fld tl 36 6 == 0 && fld tl 30 6 == 0 && fld tl 23 3 == 0 && fld tl 20 3 == 0 && fld tl 10 2 == 0 && fld tl 0 10 == 0 then (reg2 dd).bind fun d => (ETy.ofBits (fld tl 26 4)).bind fun t => some (.mst d (Src.ofBits (fld tl 42 6)) t ((fld tl 12 8))) else none
  | 4 => if fld tl 36 6 == 0 && fld tl 30 6 == 0 && fld tl 23 3 == 0 && fld tl 20 3 == 0 && fld tl 10 2 == 0 && fld tl 0 10 == 0 then (reg2 dd).bind fun d => (ETy.ofBits (fld tl 26 4)).bind fun t => some (.mrd d (Src.ofBits (fld tl 42 6)) t ((fld tl 12 8))) else none
  | 5 => if fld tl 36 6 == 0 && fld tl 30 6 == 0 && fld tl 26 4 == 0 && fld tl 23 3 == 0 && fld tl 20 3 == 0 && fld tl 10 2 == 0 && fld tl 0 10 == 0 then (reg5 dd).bind fun d => some (.mcfg d (Src.ofBits (fld tl 42 6)) ((fld tl 12 8))) else none
  | 8 => if fld tl 42 6 == 0 && fld tl 36 6 == 0 && fld tl 30 6 == 0 && fld tl 26 4 == 0 && fld tl 10 2 == 0 && fld tl 4 6 == 0 then (SDst.ofBits dd (bit (fld tl 3 1))).bind fun d => (foOf (fld tl 0 3)).bind fun fo => some (.cpy d ((fld tl 20 3)) ((fld tl 23 3)) fo ((fld tl 12 8))) else none
  | 9 => if fld tl 42 6 == 0 && fld tl 36 6 == 0 && fld tl 30 6 == 0 && fld tl 26 4 == 0 && fld tl 23 3 == 0 && fld tl 10 2 == 0 && fld tl 0 10 == 0 then (reg3 dd).bind fun sp => some (.sbind sp ((fld tl 20 3)) ((fld tl 12 8))) else none
  | 10 => if fld tl 1 2 == 0 && fld tl 4 6 == 0 then (SDst.ofBits dd (bit (fld tl 3 1))).bind fun d => (ETy.ofBits (fld tl 26 4)).bind fun it => (Pol.ofBits (fld tl 10 2)).bind fun pol => some (.sgath d ((fld tl 20 3)) ((fld tl 23 3)) (Src.ofBits (fld tl 42 6)) (Src.ofBits (fld tl 36 6)) (Src.ofBits (fld tl 30 6)) it ((fld tl 12 8)) pol (bit (fld tl 0 1))) else none
  | 11 => if fld tl 2 1 == 0 && fld tl 4 6 == 0 then (SDst.ofBits dd (bit (fld tl 3 1))).bind fun d => (ETy.ofBits (fld tl 26 4)).bind fun it => (Pol.ofBits (fld tl 10 2)).bind fun pol => (BankOp.ofBits (fld tl 0 2)).bind fun op => some (.sgred d ((fld tl 20 3)) ((fld tl 23 3)) (Src.ofBits (fld tl 42 6)) (Src.ofBits (fld tl 36 6)) (Src.ofBits (fld tl 30 6)) it ((fld tl 12 8)) pol op) else none
  | 12 => if fld tl 2 8 == 0 then (ETy.ofBits (fld tl 26 4)).bind fun it => (Pol.ofBits (fld tl 10 2)).bind fun pol => (BankOp.ofBits (fld tl 0 2)).bind fun op => some (.sscadd (Src.ofBits dd) ((fld tl 20 3)) ((fld tl 23 3)) (Src.ofBits (fld tl 42 6)) (Src.ofBits (fld tl 36 6)) (Src.ofBits (fld tl 30 6)) it ((fld tl 12 8)) pol op) else none
  | 13 => if fld tl 30 6 == 0 && fld tl 26 4 == 0 && fld tl 23 3 == 0 && fld tl 20 3 == 0 && fld tl 10 2 == 0 && fld tl 0 10 == 0 then (reg5 dd).bind fun d => (reg4 (fld tl 36 6)).bind fun cb => some (.cbinit d cb (Src.ofBits (fld tl 42 6)) ((fld tl 12 8))) else none
  | 14 => if fld tl 42 6 == 0 && fld tl 30 6 == 0 && fld tl 26 4 == 0 && fld tl 23 3 == 0 && fld tl 20 3 == 0 && fld tl 10 2 == 0 && fld tl 0 10 == 0 then (reg5 dd).bind fun d => (reg4 (fld tl 36 6)).bind fun cb => some (.cbget d cb ((fld tl 12 8))) else none
  | 15 => if dd == 0 && fld tl 42 6 == 0 && fld tl 30 6 == 0 && fld tl 26 4 == 0 && fld tl 23 3 == 0 && fld tl 20 3 == 0 && fld tl 10 2 == 0 && fld tl 0 10 == 0 then (reg4 (fld tl 36 6)).bind fun cb => some (.cbput cb ((fld tl 12 8))) else none
  | _ => none

/-- The opcodes 0xf0 to 0xff: the fields of one head and tail, or none when step 5 of R250 fails. -/
def decf (lo : BitVec 4) (dd : BitVec 6) (tl : BitVec 48) : Option Instr :=
  match lo.toNat with
  | 0 => if dd == 0 && fld tl 36 6 == 0 && fld tl 30 6 == 0 && fld tl 26 4 == 0 && fld tl 23 3 == 0 && fld tl 10 2 == 0 && fld tl 6 4 == 0 then some (.lyset ((fld tl 20 3)) (Src.ofBits (fld tl 42 6)) ((fld tl 0 6)) ((fld tl 12 8))) else none
  | 1 => if dd == 0 && fld tl 36 6 == 0 && fld tl 30 6 == 0 && fld tl 26 4 == 0 && fld tl 23 3 == 0 && fld tl 10 2 == 0 && fld tl 0 10 == 0 then some (.lyld ((fld tl 20 3)) (Src.ofBits (fld tl 42 6)) ((fld tl 12 8))) else none
  | 2 => if dd == 0 && fld tl 36 6 == 0 && fld tl 30 6 == 0 && fld tl 26 4 == 0 && fld tl 23 3 == 0 && fld tl 10 2 == 0 && fld tl 0 10 == 0 then some (.lyst ((fld tl 20 3)) (Src.ofBits (fld tl 42 6)) ((fld tl 12 8))) else none
  | 4 => if dd == 0 && fld tl 36 6 == 0 && fld tl 30 6 == 0 && fld tl 26 4 == 0 && fld tl 23 3 == 0 && fld tl 20 3 == 0 && fld tl 12 8 == 0 && fld tl 10 2 == 0 && fld tl 1 9 == 0 then some (.txenc (Src.ofBits (fld tl 42 6)) (bit (fld tl 0 1))) else none
  | 5 => if dd == 0 && fld tl 36 6 == 0 && fld tl 30 6 == 0 && fld tl 26 4 == 0 && fld tl 23 3 == 0 && fld tl 20 3 == 0 && fld tl 12 8 == 0 && fld tl 10 2 == 0 && fld tl 1 9 == 0 then some (.txdec (Src.ofBits (fld tl 42 6)) (bit (fld tl 0 1))) else none
  | 6 => if dd == 0 && fld tl 36 6 == 0 && fld tl 30 6 == 0 && fld tl 26 4 == 0 && fld tl 23 3 == 0 && fld tl 20 3 == 0 && fld tl 12 8 == 0 && fld tl 10 2 == 0 && fld tl 0 10 == 0 then some (.txmask (Src.ofBits (fld tl 42 6))) else none
  | 7 => if dd == 0 && fld tl 36 6 == 0 && fld tl 30 6 == 0 && fld tl 26 4 == 0 && fld tl 23 3 == 0 && fld tl 20 3 == 0 && fld tl 12 8 == 0 && fld tl 10 2 == 0 && fld tl 0 10 == 0 then some (.txstep (Src.ofBits (fld tl 42 6))) else none
  | 8 => if dd == 0 && fld tl 36 6 == 0 && fld tl 30 6 == 0 && fld tl 26 4 == 0 && fld tl 23 3 == 0 && fld tl 20 3 == 0 && fld tl 12 8 == 0 && fld tl 10 2 == 0 && fld tl 0 10 == 0 then some (.txsave (Src.ofBits (fld tl 42 6))) else none
  | 9 => if dd == 0 && fld tl 36 6 == 0 && fld tl 30 6 == 0 && fld tl 26 4 == 0 && fld tl 23 3 == 0 && fld tl 20 3 == 0 && fld tl 12 8 == 0 && fld tl 10 2 == 0 && fld tl 0 10 == 0 then some (.txload (Src.ofBits (fld tl 42 6))) else none
  | _ => none

/-- The tail length of an opcode (R266, R267), or none when the opcode is unassigned (R268). -/
def opTl (op : BitVec 8) : Option (BitVec 2) :=
  let hi := op.toNat / 16
  let lo := op.toNat % 16
  match hi with
  | 0 => if lo == 1 then some 0 else if (2 ≤ lo && lo ≤ 15) then some 1 else none
  | 1 => if (10 ≤ lo && lo ≤ 15) then some 1 else if (0 ≤ lo && lo ≤ 7) || lo == 9 then some 2 else if lo == 8 then some 3 else none
  | 2 => if (0 ≤ lo && lo ≤ 5) || lo == 8 || lo == 10 then some 1 else if lo == 6 || lo == 7 || lo == 9 then some 2 else none
  | 3 => if (0 ≤ lo && lo ≤ 10) then some 2 else none
  | 4 => if (0 ≤ lo && lo ≤ 5) then some 2 else none
  | 5 => if lo == 8 then some 0 else if lo == 4 || lo == 5 || lo == 9 then some 1 else if lo == 0 || lo == 2 || lo == 3 || lo == 6 || lo == 7 then some 2 else if lo == 1 then some 3 else none
  | 6 => if lo == 1 || lo == 5 || lo == 9 || lo == 11 then some 0 else if lo == 0 || (2 ≤ lo && lo ≤ 4) || (7 ≤ lo && lo ≤ 8) || lo == 10 || (12 ≤ lo && lo ≤ 13) then some 1 else if lo == 6 then some 2 else none
  | 7 => if lo == 1 || lo == 2 || lo == 9 then some 0 else if (7 ≤ lo && lo ≤ 8) || (10 ≤ lo && lo ≤ 13) then some 1 else if lo == 0 || (3 ≤ lo && lo ≤ 6) || lo == 14 then some 2 else none
  | 8 => if lo == 2 || lo == 3 then some 0 else if lo == 0 then some 1 else if lo == 1 then some 2 else if (4 ≤ lo && lo ≤ 11) then some 3 else none
  | 9 => if (0 ≤ lo && lo ≤ 15) then some 3 else none
  | 10 => if (0 ≤ lo && lo ≤ 13) then some 3 else none
  | 11 => if (0 ≤ lo && lo ≤ 9) then some 3 else none
  | 12 => if (0 ≤ lo && lo ≤ 11) then some 3 else none
  | 13 => if (0 ≤ lo && lo ≤ 6) || (8 ≤ lo && lo ≤ 10) then some 3 else none
  | 14 => if (0 ≤ lo && lo ≤ 5) || (8 ≤ lo && lo ≤ 15) then some 3 else none
  | _ => if (0 ≤ lo && lo ≤ 2) || (4 ≤ lo && lo ≤ 9) then some 3 else none

/-- The decoder on a head and its tail: steps 2, 3 and 5 of R250. -/
def decodeFields (op : BitVec 8) (d : BitVec 6) (t : BitVec 48) : Option Instr :=
  let lo : BitVec 4 := op.extractLsb' 0 4
  match (op.extractLsb' 4 4).toNat with
  | 0 => dec0 lo d t | 1 => dec1 lo d t | 2 => dec2 lo d t | 3 => dec3 lo d t | 4 => dec4 lo d t | 5 => dec5 lo d t
  | 6 => dec6 lo d t | 7 => dec7 lo d t | 8 => dec8 lo d t | 9 => dec9 lo d t | 10 => deca lo d t | 11 => decb lo d t
  | 12 => decc lo d t | 13 => decd lo d t | 14 => dece lo d t | _ => decf lo d t

/-- The instruction that a head and its tail encode (R245 to R248, R250): an assigned opcode, the tail length of that opcode, no
nonzero unassigned bit and no reserved code. -/
def decode (e : Enc) : Option Instr :=
  let op : BitVec 8 := e.head.extractLsb' 6 8
  let tl : BitVec 2 := e.head.extractLsb' 14 2
  if opTl op == some tl then
    (decodeFields op (e.head.extractLsb' 0 6) e.tail).bind fun i => Option.when i.wf i
  else none

/-! ## Instruction lines -/

/-- Halfword `i` of a line (R241). -/
def Line.half (l : Line) (i : Nat) : Half := l.extractLsb' (16 * i) 16

/-- The instruction count of a line's header (R241). -/
def Line.count (l : Line) : Nat := ((l.half 0).extractLsb' 11 5).toNat

/-- The tail length that a head states (R245). -/
def headTl (h : Half) : Nat := (h.extractLsb' 14 2).toNat

/-- The tail halfwords of the instructions before slot `k` (S of R241). -/
def Line.tailsBefore (l : Line) : Nat → Nat
  | 0 => 0
  | 1 => 0
  | k + 2 => l.tailsBefore (k + 1) + headTl (l.half (k + 1))

/-- All halfwords from `a` on, `n` of them, are zero. -/
def Line.zeroRun (l : Line) (a : Nat) : Nat → Bool
  | 0 => true
  | n + 1 => l.half a == 0 && l.zeroRun (a + 1) n

/-- A line is valid (R242). -/
def Line.valid (l : Line) : Bool :=
  let n := l.count
  let total := l.tailsBefore (n + 1)
  (l.half 0).extractLsb' 0 11 == 0 && 1 ≤ n && n ≤ 31 && 1 + n + total ≤ 32 && l.zeroRun (n + 1) (31 - total - n)

/-- Tail halfword `j` of slot `k`, the low one first (R241); beyond the written tail length it is zero. -/
def Line.tailHalf (l : Line) (k j : Nat) : Half :=
  if j < headTl (l.half k) then l.half (31 - l.tailsBefore k - j) else 0

/-- The head and tail of slot `k` of a line (R241). -/
def Line.slot (l : Line) (k : Nat) : Enc :=
  ⟨l.half k, l.tailHalf k 2 ++ l.tailHalf k 1 ++ l.tailHalf k 0⟩

/-- A line that holds one instruction in slot 1 (R241). -/
def Line.ofEnc (e : Enc) : Line :=
  let tl := headTl e.head
  let put (j : Nat) (h : Half) : Line := if j < tl then (h.setWidth 512) <<< (16 * (31 - j)) else 0
  0x0800#512 ||| ((e.head.setWidth 512) <<< 16)
    ||| put 0 (e.tail.extractLsb' 0 16) ||| put 1 (e.tail.extractLsb' 16 16) ||| put 2 (e.tail.extractLsb' 32 16)

/-- The head and tail of a word of the opcode table. The table writes an instruction with its head in the highest 16 bits and
the tail below it. -/
def tableEnc (nbits w : Nat) : Enc :=
  ⟨BitVec.ofNat 16 (w / 2 ^ (nbits - 16)), BitVec.ofNat 48 (w % 2 ^ (nbits - 16))⟩

/-- The instruction the decoder reads from a word of the opcode table. -/
def decodeTableWord (nbits w : Nat) : Option Instr := decode (tableEnc nbits w)

end Sys2Proof
end

