-- ==== Sys2Proof/Machine/State.lean ====
section
/-! DEFINITION. The state of the machine as plain data: the DRAM of the package, the device around it, and the list that says
which agent moves next. Every structure names the rule of the spec that gives it; a default is the value after a device reset. -/

namespace Sys2Proof.Machine
open Sys2Proof

/-- Who raises it: `step`, when the turns list names an encoded instruction as an event of the device. It is safe: such a list is no
order of moves that the hardware could make. -/
inductive Fault where
  | notAnEvent
  deriving DecidableEq, Repr

/-- Who raises it: an arm of `exec` for an instruction that has no meaning yet. It is safe: the run stops. -/
inductive Refusal where
  | notModelled (mnemonic : String)
  deriving DecidableEq, Repr

/-- A sparse array: the entries are sorted by key, and a key that is not listed holds the default of its user. -/
abbrev Tbl (α : Type) := List (Nat × α)

/-! ## Sequencers (R131 to R137, R286) -/

/-- The privilege levels (R78). -/
inductive Level where
  | U | S | M
  deriving DecidableEq, Repr

/-- What a sequencer does: idle, running, held in reset before the boot ROM releases it (R28), running the boot ROM, or stopped
for good by a double fault or a failed boot (R207, R28). -/
inductive Run where
  | idle | run | held | boot | halted
  deriving DecidableEq, Repr

/-- An `x` register with its full/empty and poison bits (R135, R138). -/
structure XReg where
  val : Word := 0
  full : Bool := true
  pois : Bool := false
  deriving DecidableEq, Repr

/-- An entry of the loop stack (R286). -/
structure LoopEnt where
  start : Word
  fin : Word
  count : Word
  index : Word
  ctx : BitVec 2
  deriving DecidableEq, Repr

/-- The line a sequencer executes from (R243). -/
structure LineBuf where
  base : Word
  bits : Line
  deriving DecidableEq, Repr

/-- A sequencer: its PC, registers, loop stack (innermost first), capsel, level, and where it stands. `waiting` says that it waits at an
instruction at which it may land (R221); `due` is the tval of the empty-register trap that its instruction has met and that waits for its
producers (R136, R137), `stopping` that its trap waits for those of the side's other sequencers (R142), `iter` that it stands where an iteration of its innermost loop has ended
(R221), and `yielding` that its unit has asked for its own pre-emption and goes no further (R128). -/
structure Seq where
  run : Run := .idle
  level : Level := .U
  inU : Bool := false
  pc : Word := 0
  line : Option LineBuf := none
  x : Tbl XReg := []
  ls : List LoopEnt := []
  capsel : Word := 0
  waiting : Bool := false
  due : Option Word := none
  stopping : Bool := false
  barArrived : Bool := false
  iter : Bool := false
  yielding : Bool := false
  deriving DecidableEq, Repr

/-- The trap registers of one level (R210), and the serial number of the attribution entry whose deferred fault the level has taken last
(R214). -/
structure TrapRegs where
  cause : Word := 0
  tval : Word := 0
  epc : Word := 0
  tstat : Word := 0
  tvec : Word := 0
  qframe : Word := 0
  entry : Option Nat := none
  deriving DecidableEq, Repr

/-- The trap registers of the three levels (R210). -/
structure TrapSet where
  u : TrapRegs := {}
  s : TrapRegs := {}
  m : TrapRegs := {}
  deriving DecidableEq, Repr

/-! ## Sides (R131) -/

/-- A vector register with its poison, one bit for each byte (R148, R219). -/
structure VReg where
  val : VBits := 0
  pois : PBits := 0
  deriving DecidableEq, Repr

/-- A mailbox and the sequencers that wait to empty it with the registers that they will fill, and those that
wait to fill it, in the order they began to wait (R139). -/
structure Mailbox where
  val : Word := 0
  full : Bool := false
  pois : Bool := false
  getters : List (Role × Reg) := []
  putters : List Role := []
  deriving DecidableEq, Repr

/-- An entry of the vector queue (R143): its PC, its instruction and head, and its captured scalar operands with poison. -/
structure VqEntry where
  pc : Word
  head : Half
  ins : Instr
  ops : List (Word × Bool)
  tick : Nat
  lvl : Level
  deriving DecidableEq, Repr

/-- A queue frame that `vqload` has loaded (R213): the resume PC and the entries. -/
structure QFrame where
  resume : Word
  entries : List VqEntry
  deriving DecidableEq, Repr

/-- One element of a held store (R202): its index, address, bytes and poison.
DEDUCED, safe (log 58). -/
structure HeldEl where
  e : Nat
  va : Word
  val : Word
  pois : Bool
  deriving DecidableEq, Repr

/-- A held store instruction (R202, R311): its PC, level, element size, elements, and for `vst.nf` the progress address. -/
structure HeldStore where
  pc : Word
  lvl : Level
  es : Nat
  els : List HeldEl
  nf : Option Word
  deriving DecidableEq, Repr

/-- The add of a `vst.nf` that waits for the stores it covers (R343): the address of its progress word, the count, and the serial number
below which P's attribution entries must have gone. -/
structure NfAdd where
  va : Word
  n : Nat
  lvl : Level
  serial : Nat
  deriving DecidableEq, Repr

/-- One write of a vector register inside a strip (R309): which bytes it wrote, their values and poison, the element size. -/
structure StripWrite where
  v : VR
  es : Nat
  mask : PBits
  val : VBits
  pois : PBits
  deriving DecidableEq, Repr

/-- A strip as the queue sees it (R306 to R310). `lim` is the limit once the strip is resolved; `saved` holds the registers as they
stood at the `vspec`; `pe` is the lowest kept poison element; `fl` holds for each flag the lowest element that raised it. -/
structure Strip where
  lim : Option Nat := none
  saved : Tbl VReg := []
  writes : List StripWrite := []
  nwrites : Nat := 0
  pe : Option Nat := none
  fl : Tbl Nat := []
  deriving DecidableEq, Repr

/-- An entry of the store attribution table (R54); `sh` is the log2 of the size of its page. `fail` is the cause and reason once its probe has failed
(R55); `told` says that a delivery has happened since, so that the next drain point retries it (R214). -/
structure AttEnt where
  q : BitVec 2
  pc : Word
  first : Nat
  last : Nat
  va : Word
  sh : Nat
  serial : Nat
  lvl : Level
  pid : BitVec 4
  asn : BitVec 16
  fail : Option (BitVec 8 × BitVec 4)
  told : Bool
  deriving DecidableEq, Repr

/-- A marker set that `qfence` placed (R195): entries of the named queues with a later tick wait for those with an earlier one. -/
structure Marker where
  tick : Nat
  mask : BitVec 8
  deriving DecidableEq, Repr

/-- The unit a side runs (R104 to R106): its record, launch, gang bits and rank, barrier, join record, virtual device, class, the
context image it owns, and the cycle it started. -/
structure UnitInfo where
  rec_ : BitVec 256
  launch : Nat
  gang : Bool
  rank : Nat
  size : Nat
  bar : Nat
  join : Word
  vd : Nat
  cls : Nat
  img : Nat
  started : Nat
  deriving DecidableEq, Repr

/-- A text context (R181, R182). -/
structure TextCtx where
  held : List Byte := []
  ca : BitVec 12 := 0
  pend : List Byte := []
  cg : BitVec 18 := 0
  stack : List (BitVec 12) := []
  deriving DecidableEq, Repr

/-- The text commands that enter the T queue (R380). -/
inductive TKind where
  | enc | dec | mask | step
  deriving DecidableEq, Repr

/-- A text command accepted into the T queue with its parameters as read (R381). -/
structure TCmd where
  kind : TKind
  final : Bool
  block : Word
  params : List Byte
  asn : BitVec 16
  lvl : Level
  tick : Nat
  deriving DecidableEq, Repr

/-- The weights of the matrix commands (R350, R353, R357). -/
inductive MKind where
  | mld (t : ETy) (bank : Bool)
  | mldFr (bank : Bool)
  | mmac (a : BitVec 2) (t : ETy) (bank : Bool)
  | mzero (a : BitVec 2)
  | mst (a : BitVec 2) (t : ETy)
  | mrd (a : BitVec 2) (t : ETy)
  deriving DecidableEq, Repr

/-- A matrix command with the shape and slice count it captured (R349, R353). -/
structure MCmd where
  kind : MKind
  addr : Word
  m : Nat
  n : Nat
  slices : Nat
  asn : BitVec 16
  lvl : Level
  tick : Nat
  pc : Word
  deriving DecidableEq, Repr

/-- A side (R131). `open_` is the strip as P's program order sees it, `strip` as the queue sees it; `unwound` holds the acceptance
numbers of entries that stand in a queue frame and are to be reissued, with whether they belong to the X queue, `vlast` the bytes that its last vector instruction wrote. `vstale` says
that the context that vown names has gone and a new one has its image (R106, R227), `saveFor` for which image another side waits for a `vsave`
here and whether it has been made (R227), `landed` that an interrupt or a cancellation has landed and the stream engine stands still until
the side is back at U (R222), `cancelTold` that the unit has taken 0x19 and runs no further (R120). -/
structure Side where
  p : Seq := {}
  m : Seq := {}
  s : Seq := {}
  v : Tbl VReg := []
  pr : Tbl PBits := []
  mb : Tbl Mailbox := []
  vl : BitVec 11 := 0
  vtype : BitVec 8 := 0
  vstart : BitVec 11 := 0
  exi : BitVec 11 := 0
  ffi : BitVec 11 := 0
  vdirty : BitVec 32 := 0
  vown : Word := 0
  fflags : BitVec 5 := 0
  frm : BitVec 3 := 1
  fenable : BitVec 5 := 0
  bythr : BitVec 48 := 0
  stsup : Word := 0
  oorct : Word := 0
  poict : Word := 0
  asn : BitVec 16 := 0
  pid : Option (BitVec 4) := none
  trap : TrapSet := {}
  vq : List VqEntry := []
  frame : Option QFrame := none
  open_ : Bool := false
  strip : Option Strip := none
  held : List HeldStore := []
  leaving : List HeldStore := []
  adds : List NfAdd := []
  bind : List (VR × BitVec 3) := []
  att : List AttEnt := []
  serial : Nat := 0
  marks : List Marker := []
  unwound : List (Nat × Bool) := []
  tick : Nat := 0
  unit : Option UnitInfo := none
  needImg : Bool := false
  phase : Nat := 0
  arrived : Bool := false
  vlast : List (VR × PBits) := []
  text : TextCtx := {}
  tq : List TCmd := []
  tstop : Option (BitVec 8 × BitVec 4 × Word) := none
  written : BitVec 256 := 0
  irq : List (BitVec 8) := []
  preempt : Bool := false
  cancelled : Bool := false
  cancelTold : Bool := false
  landed : Bool := false
  vstale : Bool := false
  saveFor : Option (Nat × Bool) := none
  yielded : Bool := false
  deriving DecidableEq, Repr

/-! ## Caches and translation (R50, R158 to R162) -/

/-- An entry of a rights cache (R50); `sh` is the log2 of the page size, and `s2` with `s2sh` the stage 2 page that the translation
goes through, by which `ainv` and `harv` at M find it (R59, R297).
DEDUCED, unsafe (log 29). -/
structure Rights where
  pid : BitVec 4
  asn : BitVec 16
  page : Nat
  sh : Nat
  rd : Bool
  wp : Bool
  w : Bool
  x : Bool
  u : Bool
  home : BitVec 2
  frost : Bool
  s2 : Nat
  s2sh : Nat
  deriving DecidableEq, Repr

/-- A sector of an L1 (R158, R159). `sec` is VA[56:7]; `have_` are the bytes present; `mask` the bytes stores have written;
`held` the sequencer group (a side, or 1024 plus a supervisor core) whose unconfirmed stores it holds, and `parts` the serial numbers of the
attribution entries of those stores, with the bytes that each of them wrote last (R53 to R55). -/
structure L1Sec where
  pid : BitVec 4
  asn : BitVec 16
  sec : Nat
  data : Sector
  have_ : SMask
  mask : SMask
  held : Option Nat
  pois : Bool
  parts : List (Nat × SMask) := []
  deriving DecidableEq, Repr

/-- A sector of an L2 (R160, R161). -/
structure L2Sec where
  pid : BitVec 4
  asn : BitVec 16
  sec : Nat
  data : Sector
  have_ : SMask
  mask : SMask
  pois : Bool
  tag : Option (BitVec 3 × Nat)
  remote : Bool
  imark : Bool
  pinned : Bool
  deriving DecidableEq, Repr

/-- A sector of an instruction cache (R162). -/
structure ISec where
  pid : BitVec 4
  asn : BitVec 16
  sec : Nat
  data : Sector
  pois : Bool
  deriving DecidableEq, Repr

/-! ## The engines of a core (R167 to R180) -/

/-- An entry of the index scratchpad (R167). -/
structure IxEnt where
  key : BitVec 32
  val : Word
  deriving DecidableEq, Repr

/-- The index scratchpad and the table of the side that owns IDX (R167, R169, R176). `bad` holds the entries with an uncorrectable error, valid or
not, with the index of its error log entry (R377). -/
structure IxState where
  ents : Tbl IxEnt := []
  bad : List (Nat × Word) := []
  cursor : Nat := 0
  knots : List (BitVec 32) := []
  x0 : BitVec 32 := 0
  h : BitVec 32 := 0
  usedIx : Bool := false
  usedTab : Bool := false
  deriving DecidableEq, Repr

/-- A staged-command slot (R179). -/
inductive Slot where
  | empty
  | staged (c : MCmd)
  | armed
  deriving DecidableEq, Repr

/-- The matrix engine of the side that owns MX (R177 to R179, R349). Accumulator element (r, c) of a_i has number 8192 i + 256 r + c;
weight cell (k, c) number 256 k + c; exponent (g, c) number 256 g + c. -/
structure MxState where
  shape : Word := 0xff1f
  acc : Tbl (BitVec 32) := []
  accPois : Tbl Bool := []
  cells : Tbl (BitVec 12) := []
  bad : Tbl Bool := []
  exps : Tbl (BitVec 8) := []
  rowbuf : List Byte := []
  slots : Tbl Slot := []
  mq : List MCmd := []
  dirtyAcc : BitVec 4 := 0
  dirtyBank : BitVec 2 := 0
  deriving DecidableEq, Repr

/-- A scoreboard token (R172). -/
structure Token where
  oor : Nat := 0
  pois : Nat := 0
  done : Nat := 0
  status : BitVec 4 := 0
  pend : Nat := 0
  backlog : Nat := 0
  cause : BitVec 8 := 0
  ckind : BitVec 4 := 0
  creason : BitVec 4 := 0
  resume : Nat := 0
  tvalHi : Word := 0
  deriving DecidableEq, Repr

/-- A stream pattern that a port yields (R174, R366): the captured record, and where and under which rights it is read. -/
structure Pattern where
  rec_ : BitVec 768
  asn : BitVec 16
  lvl : Level
  tick : Nat
  deriving DecidableEq, Repr

/-- An element that a port has fetched: its bytes with their poison, and what the view makes of them (R315). -/
structure PortEl where
  raw : List (Byte × Bool)
  dec : List (Byte × Bool)
  deriving DecidableEq, Repr

/-- A stream port (R174): its patterns, the current one first, the next element to fetch, and the elements fetched ahead; `skip` bytes of the
first of them have been taken. -/
structure SPort where
  pats : List Pattern := []
  next : Nat := 0
  buf : List PortEl := []
  skip : Nat := 0
  deriving DecidableEq, Repr

/-- The stream operations that a token counts (R172, R364, R367). -/
inductive SKind where
  | cpy
  | sgath (p : Bool)
  | sgred (op : BankOp)
  | sscadd (op : BankOp)
  deriving DecidableEq, Repr

/-- A stream command in the S queue. `b` is its current operation (batch or bag) of `ops`, `pos` its next element or index position,
`slot` the slot of its circular buffer that the operation has claimed; `cache` holds the sectors that the batch has read (R61), and
`acc` the rows of the bag combined so far (R369). -/
structure SOp where
  kind : SKind
  rec_ : BitVec 768
  dst : Option Word
  cb : Option (BitVec 4)
  tk : BitVec 3
  fo : Option (BitVec 2)
  idx : Word
  n : Nat
  bsz : Nat
  it : ETy
  pol : Pol
  ops : Nat
  b : Nat
  pos : Nat
  slot : Option Nat
  cache : List (Word × Sector × Bool)
  acc : Option (List (Nat × Bool))
  started : Bool
  landed : Bool
  faulted : Bool
  asn : BitVec 16
  lvl : Level
  tick : Nat
  deriving DecidableEq, Repr

/-- A byte barrier bound to a token (R293); `addr` is the linear offset of its count word. -/
structure ByteBar where
  tk : BitVec 3
  addr : Nat
  target : Nat
  since : Nat
  deriving DecidableEq, Repr

/-- A circular buffer (R170): bits [31:0] of its descriptor, and its four counts, which the descriptor shows modulo 256. `landed` holds
the claimed slots that are completely written while an older one is not (R171).
DESIGN CHOICE, safe (log 76). -/
structure CBuf where
  desc : BitVec 32 := 0
  claimed : Nat := 0
  filled : Nat := 0
  taken : Nat := 0
  freed : Nat := 0
  landed : List Nat := []
  deriving DecidableEq, Repr

/-- The stream engine of the side that owns SX (R170 to R174, R359). -/
structure SxState where
  tok : Tbl Token := []
  sp : Tbl SPort := []
  ly : Tbl (BitVec 768) := []
  cb : Tbl CBuf := []
  sq : List SOp := []
  bars : List ByteBar := []
  deriving DecidableEq, Repr

/-- A beat that the chaining interlock holds for a lane (R154, R155), and what its re-execution comes to. -/
structure LaneHold where
  lane : Nat
  beat : Nat
  res : LaneEnd
  deriving DecidableEq, Repr

/-- A core (R131): the pipe owners, scratchpad (byte number 16384 * slice + offset) with poison per 4 bytes, the caches, the
rights cache, the checking lane's count, the held beats of its next vector instruction, correction events, lanes with an
uncorrectable event and the retired lane (R152 to R156), and the engines. A supervisor core uses the caches only. -/
structure Core where
  pipeown : BitVec 8 := 0
  spad : Tbl Byte := []
  spois : Tbl Bool := []
  l1 : List L1Sec := []
  ic : List ISec := []
  rc : List Rights := []
  nchk : Nat := 0
  holds : List LaneHold := []
  laneEv : List (Nat × Nat) := []
  laneUnc : List Nat := []
  retired : Option Nat := none
  ix : IxState := {}
  mx : MxState := {}
  sx : SxState := {}
  deriving DecidableEq, Repr

/-- A supervisor core (R76). -/
structure Sup where
  seq : Seq := { run := .held, level := .M }
  fflags : BitVec 5 := 0
  frm : BitVec 3 := 1
  fenable : BitVec 5 := 0
  asn : BitVec 16 := 0
  pid : Option (BitVec 4) := none
  trap : TrapSet := {}
  irq : List (BitVec 8) := []
  att : List AttEnt := []
  serial : Nat := 0
  deriving DecidableEq, Repr

/-! ## A cluster's counters (R230, R292, R294) -/

/-- A counter in three copies (R230). -/
structure Tri where
  a : Nat := 0
  b : Nat := 0
  c : Nat := 0
  deriving DecidableEq, Repr

/-- A counter of a cluster in three copies (R230), the sequencers that wait on it in the order they began, those that a failed vote
still traps with their tval, and the tval for the next one to use it. -/
structure Voted where
  cnt : Tri := {}
  waiters : List SeqId := []
  traps : List (SeqId × Word) := []
  next : Option Word := none
  deriving DecidableEq, Repr

/-- A hardware barrier (R292): taken by a gang, its participant count, arrived count and phase. `recs` holds by rank the records of the
members that have been pre-empted while others still run (R118), `back` says that they go to the back (R128). -/
structure Barrier where
  used : Bool := false
  parts : Nat := 0
  phase : Nat := 0
  arr : Voted := {}
  recs : Tbl (BitVec 256) := []
  back : Bool := false
  deriving DecidableEq, Repr

/-- A semaphore (R294): its partition and its count. -/
structure Sem where
  pid : Option (BitVec 4) := none
  cnt : Voted := {}
  deriving DecidableEq, Repr

/-- A cluster: its barriers and semaphores, and the context that its text engine served last (R181). -/
structure Cluster where
  bars : Tbl Barrier := []
  sems : Tbl Sem := []
  served : Nat := 15
  deriving DecidableEq, Repr

/-! ## Dies (R38, R64, R67, R83, R121, R197, R232) -/

/-- A partition context of a translation front (R83). -/
structure PCtx where
  root2 : Nat := 0
  asBase : Nat := 0
  asnCount : Nat := 0
  home : BitVec 2 := 0
  en : Bool := false
  deriving DecidableEq, Repr

/-- A format range register (R64). -/
structure FmtRange where
  base : Word := 0
  limit : Word := 0
  scale : Word := 0
  deriving DecidableEq, Repr

/-- A pair of the frame-owner table (R49), with the size of its page and its stage 2 page, as in `Rights`. -/
structure Owner where
  frame : Nat
  pid : BitVec 4
  asn : BitVec 16
  vpn : Nat
  w : Bool
  sh : Nat
  s2 : Nat
  s2sh : Nat
  deriving DecidableEq, Repr

/-- A translation that a translation front caches (R40), with its stage 2 page as in `Rights`. -/
structure TcEnt where
  pid : BitVec 4
  asn : BitVec 16
  vpn : Nat
  frame : Nat
  rd : Bool
  w : Bool
  x : Bool
  u : Bool
  home : BitVec 2
  frost : Bool
  sh : Nat
  s2 : Nat
  s2sh : Nat
  deriving DecidableEq, Repr

/-- An update for a bank adder (R67); `src` is the side and the acceptance number of the `vscadd` that sent it (R195). A release at recovery
scope that waits for it marks it `forced` (R75). -/
structure BankUpd where
  mpa : Nat
  ty : ETy
  op : BankOp
  val : Word
  pois : Bool
  tok : Option (BitVec 10 × BitVec 3)
  frost : Bool
  pid : BitVec 4
  src : Option (Nat × Nat) := none
  forced : Bool := false
  deriving DecidableEq, Repr

/-- A write of a causal batch (R198): masked sector bytes, or a bank update. `forced` says that a release at recovery scope covers it, so that
its undo entry may use the reserve of the log (R75). -/
inductive BWrite where
  | sec (mpa : Nat) (data : Sector) (mask : SMask) (pois frost : Bool) (pid : BitVec 4) (forced : Bool)
  | upd (u : BankUpd)
  deriving DecidableEq, Repr

/-- A closed batch on its way to a die (R198). -/
structure Batch where
  src : BitVec 2
  stamp : List Nat
  ws : List BWrite
  deriving DecidableEq, Repr

/-- A line in the combining buffer of a channel (R67): line number `mpa / 1024`. -/
structure CombLine where
  line : Nat
  data : VBits
  pois : BitVec 8
  deriving DecidableEq, Repr

/-- An entry of the error log (R232). -/
structure LogEnt where
  kind : BitVec 8
  where_ : BitVec 16
  cyc : Word
  addr : Word
  detail : Word
  deriving DecidableEq, Repr

/-- What a die's scheduler keeps for one virtual device (R121 to R124). -/
structure VdSched where
  allow : Int := 0
  idleSince : Option Nat := some 0
  boostEnd : Option Nat := none
  deriving DecidableEq, Repr

/-- The scheduler of a die (R121 to R130). `front` holds, for class c of device v under number 4 v + c, the records that the die has
found at the front and that are still in the ring: since which cycle, and the record's running count; `hold` gives the device a side is held for; `last` the device that the
die chose last; `gwait` the partition, device and class of each gang that waits for sides (R117). -/
structure Sched where
  vds : Tbl VdSched := []
  front : Tbl (List (Nat × Nat)) := []
  hold : Tbl Nat := []
  last : Nat := 63
  gwait : List (BitVec 4 × Nat × Nat) := []
  nextRefill : Nat := 0
  deriving DecidableEq, Repr

/-- A die. `aliased` is the record of its last alias fault: the new mapping and the recorded one (R49). `rstReq` says that its containment logic has requested a die reset (R233); `seen` is the greatest value of each clock component
that the replies to its remote reads and atomics have carried (R199). -/
structure Die where
  cyc : Word := 0
  rstReq : Bool := false
  resetting : Bool := false
  wiping : Bool := false
  vc : Tbl Nat := []
  seen : Tbl Nat := []
  batch : List BWrite := []
  batchAge : Nat := 0
  rx : List Batch := []
  l2 : List L2Sec := []
  pinOver : Tbl Nat := []
  upds : List BankUpd := []
  comb : List CombLine := []
  own : List Owner := []
  aliased : Option (Owner × Owner) := none
  ownCap : Nat := 8388608
  tc : List TcEnt := []
  ctx : Tbl PCtx := []
  groot : Nat := 0
  grootOn : Bool := false
  fmt : Tbl FmtRange := []
  frostOn : Bool := false
  frostBase : Nat := 0
  frostLimit : Nat := 0
  log : List LogEnt := []
  logLost : Nat := 0
  islOn : BitVec 8 := 0xff
  islState : BitVec 8 := 0xff
  islRefused : BitVec 8 := 0
  sched : Sched := {}
  deriving DecidableEq, Repr

/-! ## Package, host and partitions -/

/-- A Gale port (R17), with the count of failed retransmissions of the flit in hand (R16). -/
structure GalePort where
  peer : BitVec 16 := 0
  dropped : Nat := 0
  poisoned : Nat := 0
  retries : BitVec 8 := 0
  lost : Bool := false
  up : Bool := false
  en : Bool := false
  fails : Nat := 0
  pid : Option (BitVec 4) := none
  deriving DecidableEq, Repr

/-- An access to a Gale peer or through a host window that is not yet acknowledged (R16, R87, R201). `addr` is the offset at the peer or
the host address. `who` is the register that a scalar load fills; a read of a sector for the elements of another load has none, and `ans` holds
its answer until its instruction takes it. `grp`, `pc`, `tick` and, for stores, `no` say which access of which sequencer group it belongs to,
and `els` how many of its elements take their bytes from it (R16, R61). A load with `acq` is an acquire, and `rel` names the sequencer whose
`stl` is complete with the acknowledgement (R330). -/
structure ExtReq where
  host : Bool
  port : Nat
  addr : Nat
  n : Nat
  wr : Bool
  val : Word
  pid : BitVec 4
  who : Option (SeqId × Reg × Bool)
  issued : Bool
  grp : Nat
  pc : Word
  tick : Nat
  acq : Bool := false
  rel : Option SeqId := none
  ans : Option (Sector × Bool) := none
  no : Nat := 0
  els : Nat := 1
  deriving DecidableEq, Repr

/-- A remote read that waits for the owning die's clock (R199): the value fixed when it is served fills register `d` of `who`. `tick` is the
side's acceptance number at its issue, `home` the attribute of the page (R62). An acquire (`acq`) of scope `sc` holds its value in `got` until its die's clock is at or past the
clock that the reply carried, which `clock` then holds. -/
structure RemoteRead where
  die : BitVec 2
  clock : List Nat
  who : SeqId
  d : Reg
  sz : Nat
  zx : Bool
  pid : Option (BitVec 4)
  asn : BitVec 16
  va : Word
  tick : Nat
  acq : Option Scope := none
  got : Option (Word × Bool) := none
  home : BitVec 2 := 0
  deriving DecidableEq, Repr

/-- A client window (R90, R91). `mem` holds the bytes of the rings and the inline data by offset; `off` says that the host has disabled the
function (R87). -/
structure Window where
  ident : Word := 0
  err : BitVec 4 := 0
  unassigned : Bool := true
  halted : Bool := false
  ready : Bool := false
  rqtail : BitVec 16 := 0
  cphead : BitVec 16 := 0
  reqhead : BitVec 7 := 0
  cpltail : BitVec 8 := 0
  hostirq : BitVec 3 := 0
  irqmask : BitVec 3 := 0
  hwbase : Word := 0
  epoch : BitVec 32 := 0
  mem : Tbl Byte := []
  cplPass : Nat := 0
  msix : List (BitVec 1) := []
  flr : Bool := false
  off : Bool := false
  deriving DecidableEq, Repr

/-- A completion that waits for room in its ring (R93, R97); `epoch` is the one in which the job of a SUBMIT was submitted. -/
structure Compl where
  w : Nat
  tag : BitVec 32
  status : BitVec 8
  epoch : Option (BitVec 32)
  noIrq : Bool
  job : Word
  units : Word
  cause : Word
  deriving DecidableEq, Repr

/-- A job that the supervisor image made from a SUBMIT (R98): its counter records, what its completion needs, and the dies that hold a copy of its
line in the image's list (R405). -/
structure Job where
  id : Nat
  vd : Nat
  pid : BitVec 4
  ppa : Nat
  tag : BitVec 32
  noIrq : Bool
  epoch : BitVec 32
  full : Bool
  mute : Bool
  cancels : List (BitVec 32)
  copies : BitVec 4 := 0
  deriving DecidableEq, Repr

/-- What the partition table says of a virtual device (R89, R111). -/
structure VdCfg where
  pid : Option (BitVec 4) := none
  weight : Nat := 0
  cap : Nat := 0
  qblock : Nat := 0
  notify : BitVec 5 := 0
  commit : Bool := false
  deriving DecidableEq, Repr

/-- One layer of an XMSS^MT signature (R30): the one-time signature and the authentication path. -/
structure XmssLayer where
  ots : List (List Byte)
  auth : List (List Byte)
  deriving DecidableEq, Repr

/-- An XMSS^MT signature as RFC 8391 lays it out (R30): its leaf index, randomness, and layers from the bottom up. -/
structure XmssSig where
  idx : Nat := 0
  rand : List Byte := []
  layers : List XmssLayer := []
  deriving DecidableEq, Repr

/-- The signer of an image (R28, R30): its public key, which is a parameter set, a root and a seed, and its signature. -/
structure Signer where
  oid : BitVec 32 := 0
  root : List Byte := []
  seed : List Byte := []
  sig : XmssSig := {}
  deriving DecidableEq, Repr

/-- What the partition table and the grants say of a partition (R36, R79): its capability entries in walk order, its supervisor
image, the memory its image makes records in, its recovery point, and the units that had not ended at the last commit, which a
rollback runs again (R236): virtual device, class and record; and the jobs that existed at that commit (R405). `key` is the key digest against
which the monitor verifies the image, with its `signer` (R30); `dies` is the mask of the dies that it uses, as it stood at its boot (R36), `cfg` and `tables` are the partition context and the stage 2 table entries, by
machine address, that the monitor's configuration gives it (R83, R405). -/
structure Part where
  on : Bool := false
  caps : List Word := []
  image : List Byte := []
  entry : Word := 0
  heap : Nat := 0
  quoteOk : Bool := false
  rpc : BitVec 48 := 0
  rpi : BitVec 48 := 1
  fmtMask : BitVec 16 := 0
  outst : List (Nat × Nat × BitVec 256) := []
  jobsAt : List Nat := []
  key : BitVec 256 := 0
  signer : Signer := {}
  dies : BitVec 4 := 0
  cfg : PCtx := {}
  tables : Tbl Word := []
  deriving DecidableEq, Repr

/-- The kinds of image that the life-cycle states accept (R33). -/
inductive ImgKind where
  | manufacturing | monitor | analysis
  deriving DecidableEq, Repr

/-- The partition table of the monitor's signed configuration (R79): the partitions, the virtual devices, and which partition owns each side,
supervisor core, Gale port, text engine and semaphore, semaphore n of cluster c under number 64 c + n (R294). -/
structure PartTable where
  parts : Tbl Part := []
  vds : Tbl VdCfg := []
  sides : Tbl (BitVec 4) := []
  sups : Tbl (BitVec 4) := []
  ports : Tbl (BitVec 4) := []
  text : Tbl (BitVec 4) := []
  sems : Tbl (BitVec 4) := []
  deriving DecidableEq, Repr

/-- An image in a slot of the boot flash (R28, R30): whether it can be read and copied, whether its header is well formed, its security version and
kind, its signer, its bytes and entry, and the partition table of its configuration (R79).
PRESUMED, unsafe (log 20). -/
structure FlashImg where
  readable : Bool
  headerOk : Bool
  signer : Signer
  version : Nat
  kind : ImgKind
  copyOk : Bool
  bytes : List Byte
  entry : Word
  table : PartTable := {}
  deriving DecidableEq, Repr

/-- The fuses (R31, R33), with the features that are fused on (R36): every feature of its table (DESIGN CHOICE, unsafe, log 2). -/
structure Fuses where
  lcs : BitVec 2 := 0
  rootKey : BitVec 256 := 0
  seed : BitVec 256 := 0
  minVersion : Nat := 0
  burnt : Nat := 0
  devId : Word := 0
  caps : List Word := [0x000101000000000f, 0x0010010000000010, 0x0011010000000007, 0x0012010000000000, 0x0013010000000000, 0x001401000000ffff,
    0x0015010000000002, 0x0016010000000000, 0x0017010000000010]
  deriving DecidableEq, Repr

/-- A translation probe in flight for a store (R53): one for each page of a core; `vpn` counts pages of size `2 ^ sh`. -/
structure Probe where
  core : Nat
  pid : BitVec 4
  asn : BitVec 16
  sh : Nat
  vpn : Nat
  deriving DecidableEq, Repr

/-- A value on its way to an empty register (R135). -/
structure Arrival where
  q : SeqId
  d : Reg
  val : Word
  pois : Bool
  deriving DecidableEq, Repr

/-- The device without its DRAM bytes. `poison` lists the poisoned DRAM sectors (`mpa / 128`), `cur` names the sequencer that
moves, `vqNow` the vector queue entry being performed, `head` the head of the instruction in hand, `fresh` counts the free
values taken, `stores` the moves that have stored beyond the package, `rollPend` the partitions that a die reset
leaves to be rolled back (R235), `lcReq` the life-cycle request register (R34), `monEntry` and `monDigest` the entry and the digest of the monitor
image that runs (R28, R32), `rom` how far the boot ROM has come (R29), `ended` the counter records of jobs in the order in which they completed (R93), `given` the number of jobs made
for each virtual device, `textPid` the partition that owns the text engine of each cluster (R79), `gangs` the records of each gang that was pre-empted together, which start again together (R118). -/
structure Dev where
  sides : Tbl Side := []
  cores : Tbl Core := []
  sups : Tbl Sup := []
  clusters : Tbl Cluster := []
  dies : Tbl Die := []
  poison : List Nat := []
  probes : List Probe := []
  arrivals : List Arrival := []
  remote : List RemoteRead := []
  ext : List ExtReq := []
  ports : Tbl GalePort := []
  bdown : BitVec 4 := 0
  throttle : Nat := 0
  windows : Tbl Window := []
  compls : List Compl := []
  jobs : List Job := []
  vds : Tbl VdCfg := []
  parts : Tbl Part := []
  rollPend : List (BitVec 4) := []
  flashA : Option FlashImg := none
  flashB : Option FlashImg := none
  fuses : Fuses := {}
  lcReq : Word := 0
  lcPend : Option (BitVec 2) := none
  quoteBlock : Option Nat := none
  quoteLeaf : Nat := 0
  monEntry : Word := 0
  monDigest : BitVec 256 := 0
  rom : Nat := 0
  ended : List (BitVec 4 × Nat) := []
  given : Tbl Nat := []
  textPid : Tbl (Option (BitVec 4)) := []
  gangs : List (BitVec 4 × List (BitVec 256)) := []
  cur : SeqId := .sup 0
  vqNow : Option (BitVec 10 × VqEntry) := none
  head : Half := 0
  fresh : Nat := 0
  stores : Nat := 0
  deriving DecidableEq, Repr

/-- A move of the machine that is listed in advance: an event of the opcode table, one instruction of a sequencer, the head of a
side's vector queue, or `n` cycles of a die's counter. -/
inductive Turn where
  | event (i : Instr)
  | seq (q : SeqId)
  | vq (side : BitVec 10)
  | elapse (die : BitVec 2) (n : BitVec 32)
  deriving DecidableEq, Repr

/-- The machine: the bytes of DRAM, the device, and the moves listed in advance (an empty list leaves the order to `step`). -/
structure State where
  mem : List Host.Cell
  dev : Dev
  turns : List Turn
  deriving DecidableEq, Repr

/-- The device right after a device reset (R24, R27, R28): every storage zero, supervisor core 0 of die 0 in the boot ROM, every
other supervisor core held, every side idle. -/
def Dev.reset : Dev :=
  { sups := [(0, { seq := { run := .boot, level := .M } })]
    windows := [(64, { ident := 0x7a3e010000000000, unassigned := false })] }

/-- The machine right after a device reset: DRAM reads zero everywhere (R24, R27).
DESIGN CHOICE, unsafe (log 2); DESIGN CHOICE, unsafe (log 19). -/
def State.reset : State := { mem := [], dev := Dev.reset, turns := [] }

end Sys2Proof.Machine
end

