-- ==== Sys2Proof/Machine/Memory.lean ====
section
/-! DEFINITION. DRAM as a list of (address, byte) pairs in one canonical form, sparse tables, and the working machine on which
the meanings are written: it reads the DRAM it started from and keeps a journal of what it writes. -/

namespace Sys2Proof.Machine
open Sys2Proof

/-! ## DRAM (R12, R39): addresses are machine physical addresses below 2^39 -/

/-- What an address that is not listed reads as: a wipe leaves zero (R24, R27). -/
def Memory.default : Byte := 0

/-- One byte of memory. -/
def Memory.read : List Host.Cell → Nat → Byte
  | [], _ => Memory.default
  | (a, b) :: r, x => if a = x then b else Memory.read r x

/-- Store one byte, keeping addresses rising and listing no byte equal to the default. -/
def Memory.write : List Host.Cell → Nat → Byte → List Host.Cell
  | [], x, v => if v = Memory.default then [] else [(x, v)]
  | (a, b) :: r, x, v =>
    if x < a then (if v = Memory.default then (a, b) :: r else (x, v) :: (a, b) :: r)
    else if a = x then (if v = Memory.default then r else (x, v) :: r)
    else (a, b) :: Memory.write r x v

/-- The canonical form: addresses strictly rising above `lo`, no listed byte equal to the default. -/
def Memory.wfFrom : Nat → List Host.Cell → Bool
  | _, [] => true
  | lo, (a, b) :: r => decide (lo ≤ a) && decide (b ≠ Memory.default) && Memory.wfFrom (a + 1) r

/-- The canonical form of a memory. -/
def Memory.wf (m : List Host.Cell) : Bool := Memory.wfFrom 0 m

/-- Zero every byte from `lo` up to and without `hi` (R27). -/
def Memory.wipe (lo hi : Nat) (m : List Host.Cell) : List Host.Cell :=
  m.filter fun c => !(lo ≤ c.1 && c.1 < hi)

/-- Store `n` bytes of a little-endian value (R3). -/
def Memory.writeN (m : List Host.Cell) (a : Nat) (v : Nat) : Nat → List Host.Cell
  | 0 => m
  | n + 1 => Memory.writeN (Memory.write m a (BitVec.ofNat 8 v)) (a + 1) (v / 256) n

/-- One entry of the journal: bytes stored, or a range zeroed. -/
inductive MemOp where
  | put (a n v : Nat)
  | wipe (lo hi : Nat)
  deriving DecidableEq, Repr

/-- Apply one entry of the journal. -/
def MemOp.apply (m : List Host.Cell) : MemOp → List Host.Cell
  | .put a n v => Memory.writeN m a v n
  | .wipe lo hi => Memory.wipe lo hi m

/-- Apply a journal, newest entry first in the list. -/
def applyLog (m : List Host.Cell) : List MemOp → List Host.Cell
  | [] => m
  | o :: r => o.apply (applyLog m r)

/-- A byte through the journal. -/
def readLog (m : List Host.Cell) : List MemOp → Nat → Byte
  | [], x => Memory.read m x
  | .put a n v :: r, x => if a ≤ x && x < a + n then BitVec.ofNat 8 (v / 256 ^ (x - a)) else readLog m r x
  | .wipe lo hi :: r, x => if lo ≤ x && x < hi then 0 else readLog m r x

/-! ## Sparse tables -/

/-- The entry of a key, or the default. -/
def Tbl.get {α : Type} (dflt : α) : Tbl α → Nat → α
  | [], _ => dflt
  | (j, v) :: r, k => if j = k then v else Tbl.get dflt r k

/-- Set the entry of a key. -/
def Tbl.set {α : Type} : Tbl α → Nat → α → Tbl α
  | [], k, v => [(k, v)]
  | (j, w) :: r, k, v => if k < j then (k, v) :: (j, w) :: r else if j = k then (k, v) :: r else (j, w) :: Tbl.set r k v

theorem Tbl.get_set_self {α : Type} (d : α) (t : Tbl α) (k : Nat) (v : α) : (Tbl.set t k v).get d k = v := by
  induction t with
  | nil => simp [Tbl.set, Tbl.get]
  | cons p r ih =>
    obtain ⟨j, w⟩ := p
    by_cases h1 : k < j
    · simp [Tbl.set, Tbl.get, h1]
    · by_cases h2 : j = k
      · simp [Tbl.set, Tbl.get, h2]
      · simp [Tbl.set, Tbl.get, h1, h2, ih]

theorem Tbl.get_set_ne {α : Type} (d : α) (t : Tbl α) (k j : Nat) (v : α) (h : j ≠ k) :
    (Tbl.set t k v).get d j = Tbl.get d t j := by
  induction t with
  | nil => simp [Tbl.set, Tbl.get, h.symm]
  | cons p r ih =>
    obtain ⟨i, w⟩ := p
    by_cases h1 : k < i
    · simp [Tbl.set, Tbl.get, h1, h.symm]
    · by_cases h2 : i = k
      · simp [Tbl.set, Tbl.get, h2, h.symm]
      · simp [Tbl.set, Tbl.get, h1, h2, ih]

/-- Put an element into a sorted list, behind those that it does not precede. -/
def insertBy {α : Type} (lt : α → α → Bool) (x : α) : List α → List α
  | [] => [x]
  | y :: r => if lt x y then x :: y :: r else y :: insertBy lt x r
/-- Sort a list; equal elements keep their order. -/
def sortBy {α : Type} (lt : α → α → Bool) (l : List α) : List α := l.foldl (fun a x => insertBy lt x a) []

/-! ## The working machine -/

/-- The machine inside one step: the DRAM the step started from, the journal of its stores, and the device. `stall` says that the move
cannot be performed now, because a write finds no room in an undo log (R75), a fill no way (R57), a batch no place (R197) or a read
beyond the package no answer: it waits, with nothing changed but that the reads in `sent` have gone out. `link` says which port has logged a link event in this move (R16), `took` which answers of reads beyond the package it has taken
(R61), and `stNo` the number of its store beyond the package. -/
structure Mach where
  base : List Host.Cell
  log : List MemOp
  dev : Dev
  stall : Bool := false
  sent : List ExtReq := []
  link : Option Nat := none
  took : List ExtReq := []
  stNo : Option Nat := none
  deriving DecidableEq, Repr

/-- The machine as the meanings see it. -/
def State.mach (s : State) : Mach := { base := s.mem, log := [], dev := s.dev }

/-- The answer `next` with the machine that a meaning leaves: the DRAM takes its journal, and the listed moves stay. -/
def Mach.answer (m : Mach) (s : State) : Host.Outcome State Fault Refusal :=
  .next { mem := applyLog s.mem m.log, dev := m.dev, turns := s.turns }

/-- Run a meaning on a state. A move that must wait leaves everything as it is, but that the reads beyond the package have gone out. -/
def run (f : Mach → Mach) (s : State) : Host.Outcome State Fault Refusal :=
  let m := f s.mach
  if m.stall then .next { s with dev := { s.dev with ext := s.dev.ext ++ m.sent } } else m.answer s

/-- The move cannot be performed now: it waits.
DEDUCED, safe (log 141). -/
def Mach.stalls (m : Mach) : Mach := { m with stall := true }
/-- The machine of an effect that has room, or a move that waits. -/
def Mach.must (m : Mach) (o : Option Mach) : Mach := o.getD m.stalls

/-- A byte of DRAM. -/
def Mach.byte (m : Mach) (a : Nat) : Byte := readLog m.base m.log a

/-- `n` bytes of DRAM as a little-endian number (R3). -/
def Mach.rd (m : Mach) (a : Nat) : Nat → Nat
  | 0 => 0
  | n + 1 => (m.byte a).toNat + 256 * m.rd (a + 1) n

/-- Store `n` bytes of DRAM. -/
def Mach.wr (m : Mach) (a n v : Nat) : Mach := { m with log := .put a n (v % 256 ^ n) :: m.log }

/-- Change the device. -/
def Mach.withDev (m : Mach) (f : Dev → Dev) : Mach := { m with dev := f m.dev }

/-- A side. -/
def Mach.side (m : Mach) (k : Nat) : Side := m.dev.sides.get {} k
/-- Set a side. -/
def Mach.setSide (m : Mach) (k : Nat) (s : Side) : Mach := { m with dev := { m.dev with sides := m.dev.sides.set k s } }
/-- Change a side. -/
def Mach.modSide (m : Mach) (k : Nat) (f : Side → Side) : Mach := m.setSide k (f (m.side k))
/-- A core, or the caches of a supervisor core. -/
def Mach.core (m : Mach) (c : Nat) : Core := m.dev.cores.get {} c
/-- Set a core. -/
def Mach.setCore (m : Mach) (k : Nat) (c : Core) : Mach := { m with dev := { m.dev with cores := m.dev.cores.set k c } }
/-- Change a core. -/
def Mach.modCore (m : Mach) (k : Nat) (f : Core → Core) : Mach := m.setCore k (f (m.core k))
/-- A supervisor core. -/
def Mach.sup (m : Mach) (n : Nat) : Sup := m.dev.sups.get {} n
/-- Set a supervisor core. -/
def Mach.setSup (m : Mach) (n : Nat) (u : Sup) : Mach := { m with dev := { m.dev with sups := m.dev.sups.set n u } }
/-- Change a supervisor core. -/
def Mach.modSup (m : Mach) (n : Nat) (f : Sup → Sup) : Mach := m.setSup n (f (m.sup n))
/-- A die. -/
def Mach.die (m : Mach) (d : Nat) : Die := m.dev.dies.get {} d
/-- Set a die. -/
def Mach.setDie (m : Mach) (d : Nat) (x : Die) : Mach := { m with dev := { m.dev with dies := m.dev.dies.set d x } }
/-- Change a die. -/
def Mach.modDie (m : Mach) (d : Nat) (f : Die → Die) : Mach := m.setDie d (f (m.die d))
/-- A cluster. -/
def Mach.cluster (m : Mach) (c : Nat) : Cluster := m.dev.clusters.get {} c
/-- Change a cluster. -/
def Mach.modCluster (m : Mach) (c : Nat) (f : Cluster → Cluster) : Mach :=
  { m with dev := { m.dev with clusters := m.dev.clusters.set c (f (m.cluster c)) } }
/-- A Gale port. -/
def Mach.port (m : Mach) (p : Nat) : GalePort := m.dev.ports.get {} p
/-- Change a Gale port. -/
def Mach.modPort (m : Mach) (p : Nat) (f : GalePort → GalePort) : Mach :=
  { m with dev := { m.dev with ports := m.dev.ports.set p (f (m.port p)) } }
/-- A client window that nothing has set: its ident names the virtual device (R91). -/
def Window.fresh (w : Nat) : Window := { ident := 0x7a3d010000000000 + BitVec.ofNat 64 (w * 2 ^ 32) }
/-- What the partition table says of a virtual device. -/
def Mach.vd (m : Mach) (v : Nat) : VdCfg := m.dev.vds.get {} v
/-- A client window. Its ident and status.unassigned show what the partition table says of the virtual device (R89, R91). -/
def Mach.win (m : Mach) (w : Nat) : Window :=
  let x := m.dev.windows.get (Window.fresh w) w
  if w < 64 then
    let pid := (m.vd w).pid
    { x with ident := (Window.fresh w).ident + (pid.getD 0).setWidth 64 * 2 ^ 28, unassigned := pid.isNone }
  else x
/-- Change a client window. -/
def Mach.modWin (m : Mach) (w : Nat) (f : Window → Window) : Mach :=
  { m with dev := { m.dev with windows := m.dev.windows.set w (f (m.win w)) } }
/-- A partition. -/
def Mach.part (m : Mach) (p : Nat) : Part := m.dev.parts.get {} p
/-- Change a partition. -/
def Mach.modPart (m : Mach) (p : Nat) (f : Part → Part) : Mach :=
  { m with dev := { m.dev with parts := m.dev.parts.set p (f (m.part p)) } }

/-! ## Sequencers -/

/-- The sequencer of a side by role. -/
def Side.seq (s : Side) : Role → Seq
  | .P => s.p
  | .M => s.m
  | .S => s.s
/-- Set the sequencer of a side. -/
def Side.setSeq (s : Side) (r : Role) (q : Seq) : Side :=
  match r with
  | .P => { s with p := q }
  | .M => { s with m := q }
  | .S => { s with s := q }

/-- A sequencer. -/
def Mach.seq (m : Mach) : SeqId → Seq
  | .side k r => (m.side k.toNat).seq r
  | .sup n => (m.sup n.toNat).seq
/-- Set a sequencer. -/
def Mach.setSeq (m : Mach) (q : SeqId) (x : Seq) : Mach :=
  match q with
  | .side k r => m.modSide k.toNat fun s => s.setSeq r x
  | .sup n => m.modSup n.toNat fun u => { u with seq := x }
/-- Change a sequencer. -/
def Mach.modSeq (m : Mach) (q : SeqId) (f : Seq → Seq) : Mach := m.setSeq q (f (m.seq q))

/-- The sequencer that moves. -/
def Mach.me (m : Mach) : Seq := m.seq m.dev.cur
/-- Change the sequencer that moves. -/
def Mach.modMe (m : Mach) (f : Seq → Seq) : Mach := m.modSeq m.dev.cur f

/-- The side of a sequencer, or none on a supervisor core. -/
def sideOf : SeqId → Option Nat
  | .side k _ => some k.toNat
  | .sup _ => none
/-- The side of the sequencer that moves; a supervisor core has none and reads the number 1024. -/
def Mach.myNo (m : Mach) : Nat := (sideOf m.dev.cur).getD 1024
/-- The side of the sequencer that moves. -/
def Mach.mySide (m : Mach) : Side := m.side m.myNo
/-- Change the side of the sequencer that moves. -/
def Mach.modMySide (m : Mach) (f : Side → Side) : Mach :=
  match m.dev.cur with
  | .side k _ => m.modSide k.toNat f
  | .sup _ => m
/-- The core (by cache number) of a sequencer: compute cores 0 to 511, then the supervisor cores (R131, R76).
PRESUMED, unsafe (log 14). -/
def coreKey : SeqId → Nat
  | .side k _ => k.toNat / 2
  | .sup n => 512 + n.toNat
/-- The die of a core by cache number. -/
def dieOfCore (c : Nat) : Nat := if c < 512 then c / 128 else (c - 512) / 8
/-- The die of a sequencer. -/
def dieOf (q : SeqId) : Nat := dieOfCore (coreKey q)
/-- The cluster of a side, counted over the package. -/
def clusterOf (side : Nat) : Nat := side / 16
/-- The core of the side that moves. -/
def Mach.myCore (m : Mach) : Core := m.core (coreKey m.dev.cur)
/-- Change the core of the side that moves. -/
def Mach.modMyCore (m : Mach) (f : Core → Core) : Mach := m.modCore (coreKey m.dev.cur) f
/-- The partition of a sequencer (R79). -/
def Mach.pidOf (m : Mach) : SeqId → Option (BitVec 4)
  | .side k _ => (m.side k.toNat).pid
  | .sup n => (m.sup n.toNat).pid
/-- The address space a sequencer runs in (R299). -/
def Mach.asnOf (m : Mach) : SeqId → BitVec 16
  | .side k _ => (m.side k.toNat).asn
  | .sup n => (m.sup n.toNat).asn
/-- The trap registers a sequencer uses (R210). -/
def Mach.trapOf (m : Mach) : SeqId → TrapSet
  | .side k _ => (m.side k.toNat).trap
  | .sup n => (m.sup n.toNat).trap
/-- Set the trap registers a sequencer uses. -/
def Mach.setTrap (m : Mach) (q : SeqId) (t : TrapSet) : Mach :=
  match q with
  | .side k _ => m.modSide k.toNat fun s => { s with trap := t }
  | .sup n => m.modSup n.toNat fun u => { u with trap := t }
/-- The trap registers of one level. -/
def TrapSet.get (t : TrapSet) : Level → TrapRegs
  | .U => t.u
  | .S => t.s
  | .M => t.m
/-- Set the trap registers of one level. -/
def TrapSet.set (t : TrapSet) (l : Level) (r : TrapRegs) : TrapSet :=
  match l with
  | .U => { t with u := r }
  | .S => { t with s := r }
  | .M => { t with m := r }
/-- The code of a level (R78). -/
def Level.code : Level → Nat
  | .U => 0
  | .S => 1
  | .M => 2
/-- The level of a code; 3 is read as M. -/
def Level.ofCode : Nat → Level
  | 0 => .U
  | 1 => .S
  | _ => .M

/-- Post an interrupt to a supervisor core (R211); several of one source before it is taken are one. -/
def Mach.irqSup (m : Mach) (n : Nat) (src : BitVec 8) : Mach :=
  m.modSup n fun u => { u with irq := if u.irq.contains src then u.irq else u.irq ++ [src] }
/-- Post an interrupt to a side. -/
def Mach.irqSide (m : Mach) (k : Nat) (src : BitVec 8) : Mach :=
  m.modSide k fun u => { u with irq := if u.irq.contains src then u.irq else u.irq ++ [src] }
/-- The supervisor cores of a partition, lowest number first. -/
def Mach.supsOf (m : Mach) (p : BitVec 4) : List Nat := (List.range 32).filter fun n => (m.sup n).pid == some p
/-- Interrupt the first supervisor core of a partition. -/
def Mach.irqPart (m : Mach) (p : BitVec 4) (src : BitVec 8) : Mach :=
  match m.supsOf p with
  | n :: _ => m.irqSup n src
  | [] => m

/-- Where the newest entry of a die's error log stands (R232): a full log is overwritten in a ring. -/
def Die.logLast (d : Die) : Nat := if d.logLost = 0 then d.log.length - 1 else (d.logLost - 1) % 1024

/-- Write an entry to a die's error log and interrupt its monitor core (R232): at most 1,024 entries, the oldest overwritten in its place. -/
def Mach.logErr (m : Mach) (d : Nat) (kind : BitVec 8) (place : BitVec 16) (addr detail : Word) : Mach :=
  let e : LogEnt := ⟨kind, place, (m.die d).cyc, addr, detail⟩
  let m := m.modDie d fun x =>
    if x.log.length < 1024 then { x with log := x.log ++ [e] } else { x with log := x.log.set (x.logLost % 1024) e, logLost := x.logLost + 1 }
  let m := m.irqSup (8 * d) 0x06
  if kind == 0x09 || kind == 0x0a then m.irqSup (8 * d) 0x07 else m

end Sys2Proof.Machine
end

