-- ==== Sys2Proof/Machine/Channel.lean ====
section
/-! DEFINITION. The channels of DRAM: byte masks, the Frost range and its undo log (R69 to R75), the combining buffers (R67), and what
reaches a frame in the order of its channel (R40). -/

namespace Sys2Proof.Machine
open Sys2Proof

/-- The die that owns a frame (R39). -/
def dieOfMpa (mpa : Nat) : Nat := mpa / 2 ^ 37 % 4

/-- A DRAM sector is poisoned. -/
def Mach.poisonAt (m : Mach) (mpa : Nat) : Bool := m.dev.poison.contains (mpa / 128)

/-- Set or clear the poison of a DRAM sector. -/
def Mach.setPoison (m : Mach) (mpa : Nat) (p : Bool) : Mach :=
  m.withDev fun d =>
    let s := mpa / 128
    let rest := d.poison.filter (· != s)
    { d with poison := if p then s :: rest else rest }

/-! ## Byte masks -/

/-- `n` bytes from byte `lo` on. -/
def byteMask (lo n : Nat) : SMask := BitVec.ofNat 128 ((2 ^ n - 1) * 2 ^ lo)
/-- Every byte of a sector. -/
def fullMask : SMask := BitVec.allOnes 128
/-- The bits of the first `n` bytes that a mask names. -/
def spread (m : Nat) : Nat → Nat
  | 0 => 0
  | n + 1 => spread m n + (if m.testBit n then 255 * 2 ^ (8 * n) else 0)
/-- The bits of a sector that a byte mask names. -/
def bitsOf (m : SMask) : Sector := if m = fullMask then BitVec.allOnes 1024 else BitVec.ofNat 1024 (spread m.toNat 128)
/-- Take the masked bytes from `new` and the rest from `old`. -/
def mergeSec (old new : Sector) (m : SMask) : Sector :=
  if m = fullMask then new else if m = 0 then old else let b := bitsOf m; (new &&& b) ||| (old &&& ~~~b)

/-! ## The undo log (R70 to R75) -/

/-- One bit of the CRC-64 of ECMA-182 (R71). -/
def crcStep (c : BitVec 64) : BitVec 64 := if c.getLsbD 63 then (c <<< 1) ^^^ 0x42f0e1eba9ea3693 else c <<< 1
/-- One byte of the CRC-64. -/
def crcByte (c : BitVec 64) (b : Byte) : BitVec 64 :=
  let c := c ^^^ (b.setWidth 64 <<< 56)
  crcStep (crcStep (crcStep (crcStep (crcStep (crcStep (crcStep (crcStep c)))))))
/-- The CRC-64 of a list of bytes, from `c` on. -/
def crc64 (c : BitVec 64) (bs : List Byte) : BitVec 64 := bs.foldl crcByte c
/-- The bytes of a little-endian number. -/
def leBytes (v : Nat) : Nat → List Byte
  | 0 => []
  | n + 1 => BitVec.ofNat 8 v :: leBytes (v / 256) n
/-- Bytes of DRAM as a list. -/
def Mach.bytes (m : Mach) (a n : Nat) : List Byte := leBytes (m.rd a n) n

/-! ### The Frost range -/

/-- The control frame of a die's Frost range (R69, R70). -/
def Die.ctlFrame (d : Die) : Nat := d.frostBase / 65536 * 65536
/-- A die has a Frost range: enabled, and larger than the control frame and the log (R69). -/
def Die.hasFrost (d : Die) : Bool := d.frostOn && 65536 + 2 ^ 31 ≤ (d.frostLimit / 65536 + 1) * 65536 - d.ctlFrame
/-- A frost leaf names a frame in its die's Frost range (R43, R69). -/
def Mach.inFrost (m : Mach) (mpa : Nat) : Bool :=
  let d := m.die (dieOfMpa mpa)
  mpa < 2 ^ 39 && d.hasFrost && d.frostBase / 65536 ≤ mpa / 65536 && mpa / 65536 ≤ d.frostLimit / 65536

/-! ### The log -/

/-- The place of a log entry (R70). -/
def Die.logAt (d : Die) (s : Nat) : Nat := d.ctlFrame + 65536 + 256 * (s % 2 ^ 23)

/-- Reclaim log space from the oldest end, `n` entries at most, up to the first whose stamp is above its partition's rpc (R75). -/
def Mach.logReclaim (m : Mach) (d : Nat) : Nat → Mach
  | 0 => m
  | n + 1 =>
    let x := m.die d
    let old := m.rd (x.ctlFrame + 0x800) 8
    let nxt := m.rd (x.ctlFrame + 0x808) 8
    if nxt ≤ old then m
    else
      let a := x.logAt old
      if (m.part (m.rd (a + 6) 1 % 16)).rpc.toNat < m.rd a 6 then m
      else (m.wr (x.ctlFrame + 0x800) 8 (old + 1)).logReclaim d n

/-- The entries of a die's log that are live. -/
def Mach.logLive (m : Mach) (d : Nat) : Nat := let x := m.die d; m.rd (x.ctlFrame + 0x808) 8 - m.rd (x.ctlFrame + 0x800) 8
/-- Reclaim all the log space of a die that can be had (R75). -/
def Mach.logFree (m : Mach) (d : Nat) : Mach := m.logReclaim d (m.logLive d)

/-- The bytes of an undo entry around its CRC (R71). -/
def undoBody (stamp pid kind mpa seq : Nat) : List Byte :=
  leBytes stamp 6 ++ leBytes pid 1 ++ leBytes kind 1 ++ leBytes mpa 8 ++ leBytes seq 8 ++ leBytes 0 96

/-- Write an undo entry that holds the sector's DRAM contents (R71, R72). None when the log has no room for it: the last half is
for the write-backs that a recovery-scope release forces (R75).
DESIGN CHOICE, safe (log 38). -/
def Mach.undoLog (m : Mach) (mpa : Nat) (pid : BitVec 4) (forced : Bool) : Option Mach :=
  let d := dieOfMpa mpa
  let m := m.logFree d
  let x := m.die d
  let nxt := m.rd (x.ctlFrame + 0x808) 8
  if (if forced then 2 ^ 23 else 2 ^ 22) ≤ m.logLive d then none
  else
    let s := mpa / 128 * 128
    let a := x.logAt nxt
    let body := undoBody (m.part pid.toNat).rpi.toNat pid.toNat (if m.poisonAt s then 2 else 1) s nxt
    let data := m.rd s 128
    let crc := crc64 (crc64 0 body) (leBytes data 128)
    let bodyN := body.foldr (fun b n => b.toNat + 256 * n) 0
    some ((((m.wr a 120 bodyN).wr (a + 120) 8 crc.toNat).wr (a + 128) 128 data).wr (x.ctlFrame + 0x808) 8 (nxt + 1))

/-! ## Channels (R40, R67): the owning die -/

/-- The channel of a line on its die (DESIGN CHOICE, safe, log 16). -/
def channelOf (mpa : Nat) : Nat := mpa / 1024 % 32

/-- Write a buffered line back to DRAM (R67). -/
def Mach.combFlush (m : Mach) (mpa : Nat) : Mach :=
  let d := dieOfMpa mpa
  let x := m.die d
  match x.comb.find? (·.line == mpa / 1024) with
  | none => m
  | some c =>
    let m := m.setDie d { x with comb := x.comb.filter (·.line != mpa / 1024) }
    let m := m.wr (c.line * 1024) 1024 c.data.toNat
    (List.range 8).foldl (fun m i => if c.pois.getLsbD i then m.setPoison (c.line * 1024 + 128 * i) true else m) m

/-- `n` bytes of one line as a read at its channel finds them: a buffered line is written back first, so they are its buffered bytes
(R67). The walker reads tables so (R46). -/
def Mach.rdChan (m : Mach) (a n : Nat) : Nat :=
  match (m.die (dieOfMpa a)).comb.find? (·.line == a / 1024) with
  | none => m.rd a n
  | some c => c.data.toNat / 2 ^ (8 * (a % 1024)) % 256 ^ n

/-- Read a sector at its channel. -/
def Mach.chanRead (m : Mach) (mpa : Nat) : (Sector × Bool) × Mach :=
  let m := m.combFlush mpa
  let s := mpa / 128 * 128
  ((BitVec.ofNat 1024 (m.rd s 128), m.poisonAt s), m)

/-- The runs of masked bytes, written one by one. -/
def Mach.wrMask (m : Mach) (a : Nat) (data : Sector) (mask : SMask) : Mach :=
  if mask = fullMask then m.wr a 128 data.toNat
  else (List.range 128).foldl (fun m i => if mask.getLsbD i then m.wr (a + i) 1 (data.toNat / 2 ^ (8 * i)) else m) m

/-- Write masked bytes of a sector at its channel (R40, R72, R219): a Frost sector is logged first; poison follows the data. -/
def Mach.chanWrite (m : Mach) (mpa : Nat) (data : Sector) (mask : SMask) (pois frost : Bool) (pid : BitVec 4) (forced : Bool) :
    Option Mach :=
  let m := m.combFlush mpa
  let s := mpa / 128 * 128
  let m? := if frost then m.undoLog s pid forced else some m
  m?.map fun m =>
    let m := m.wrMask s data mask
    if pois then m.setPoison s true else if mask = fullMask then m.setPoison s false else m

/-- Store `n` bytes of a number at their channels, sector by sector (R72, R219). -/
def Mach.chanPut (m : Mach) (mpa n v : Nat) (frost : Bool) (pid : BitVec 4) : Option Mach :=
  (List.range ((mpa % 128 + n + 127) / 128)).foldl (fun m? i => m?.bind fun m =>
    let s := mpa / 128 * 128 + 128 * i
    let lo := max mpa s
    let hi := min (mpa + n) (s + 128)
    m.chanWrite s (BitVec.ofNat 1024 (v / 256 ^ (lo - mpa) % 256 ^ (hi - lo) * 2 ^ (8 * (lo - s)))) (byteMask (lo - s) (hi - lo)) false
      frost pid false) (some m)

end Sys2Proof.Machine
end

