-- ==== Sys2Proof/Machine/Crypto.lean ====
section
/-! DEFINITION. The hash and the signatures of images (R28, R30, R32): SHAKE256 of FIPS 202 and the verification of XMSS^MT of RFC 8391 with
n = 32 and w = 16, which the spec names. PRESUMED, unsafe (log 20): both are taken from those standards. -/

namespace Sys2Proof.Machine
open Sys2Proof

/-! ## SHAKE256 -/

/-- The round constants of Keccak-f[1600]. -/
def keccakRc : List (BitVec 64) :=
  [0x0000000000000001, 0x0000000000008082, 0x800000000000808a, 0x8000000080008000, 0x000000000000808b, 0x0000000080000001, 0x8000000080008081,
    0x8000000000008009, 0x000000000000008a, 0x0000000000000088, 0x0000000080008009, 0x000000008000000a]
  ++ [0x000000008000808b, 0x800000000000008b, 0x8000000000008089, 0x8000000000008003, 0x8000000000008002, 0x8000000000000080, 0x000000000000800a,
    0x800000008000000a, 0x8000000080008081, 0x8000000000008080, 0x0000000080000001, 0x8000000080008008]
/-- The rotation of each lane; lane (x, y) has number x + 5 y. -/
def keccakRot : List Nat := [0, 1, 62, 28, 27, 36, 44, 6, 55, 20, 3, 10, 43, 25, 39, 41, 45, 15, 21, 8, 18, 2, 61, 56, 14]

/-- One round: theta, rho with pi, chi, iota. -/
def keccakRound (a : List (BitVec 64)) (rc : BitVec 64) : List (BitVec 64) :=
  let at_ := fun (l : List (BitVec 64)) (i : Nat) => l.getD i 0
  let c := (List.range 5).map fun x => at_ a x ^^^ at_ a (x + 5) ^^^ at_ a (x + 10) ^^^ at_ a (x + 15) ^^^ at_ a (x + 20)
  let d := (List.range 5).map fun x => at_ c ((x + 4) % 5) ^^^ (at_ c ((x + 1) % 5)).rotateLeft 1
  let t := (List.range 25).map fun i => at_ a i ^^^ at_ d (i % 5)
  let b := (List.range 25).map fun i =>
    let j := (i % 5 + 3 * (i / 5)) % 5 + 5 * (i % 5)
    (at_ t j).rotateLeft (keccakRot.getD j 0)
  (List.range 25).map fun i =>
    let row := i / 5 * 5
    let v := at_ b i ^^^ (~~~(at_ b (row + (i + 1) % 5)) &&& at_ b (row + (i + 2) % 5))
    if i = 0 then v ^^^ rc else v

/-- The permutation Keccak-f[1600]. -/
def keccak (a : List (BitVec 64)) : List (BitVec 64) := keccakRc.foldl keccakRound a

/-- A little-endian number from bytes. -/
def leNat (l : List Byte) : Nat := l.foldr (fun b n => b.toNat + 256 * n) 0
/-- The bytes of a big-endian number. -/
def beBytes (v n : Nat) : List Byte := (leBytes v n).reverse

/-- Take the bytes into the sponge, 136 at a time; the last block is padded. -/
def shakeAbsorb : Nat → List Byte → List (BitVec 64) → List (BitVec 64)
  | 0, _, a => a
  | n + 1, l, a =>
    let mix := fun (bs : List Byte) => keccak ((List.range 25).map fun i =>
      a.getD i 0 ^^^ (if i < 17 then BitVec.ofNat 64 (leNat ((bs.drop (8 * i)).take 8)) else 0))
    if l.length < 136 then
      let pad := if l.length = 135 then [0x9f] else [0x1f] ++ List.replicate (134 - l.length) 0 ++ [0x80]
      mix (l ++ pad)
    else shakeAbsorb n (l.drop 136) (mix (l.take 136))

/-- SHAKE256 with 256 bits of output; byte 0 is the least significant (R3). -/
def shake256 (l : List Byte) : BitVec 256 :=
  let a := shakeAbsorb (l.length / 136 + 1) l (List.replicate 25 0)
  (a.getD 3 0 ++ a.getD 2 0) ++ (a.getD 1 0 ++ a.getD 0 0)

/-! ## XMSS^MT -/

/-- The hash functions of RFC 8391: 0 for F, 1 for H, 2 for H_msg, 3 for PRF. -/
def xHash (k : Nat) (key msg : List Byte) : List Byte := leBytes (shake256 (beBytes k 32 ++ key ++ msg)).toNat 32
/-- Bytewise exclusive or. -/
def xXor (a b : List Byte) : List Byte := List.zipWith (· ^^^ ·) a b

/-- A hash address: its layer, tree, type, three words that depend on the type, and keyAndMask. -/
structure Adrs where
  layer : Nat
  tree : Nat
  kind : Nat
  a : Nat := 0
  b : Nat := 0
  c : Nat := 0
  deriving DecidableEq, Repr

/-- The 32 bytes of an address. -/
def Adrs.bytes (x : Adrs) (mask : Nat) : List Byte :=
  beBytes x.layer 4 ++ beBytes x.tree 8 ++ beBytes x.kind 4 ++ beBytes x.a 4 ++ beBytes x.b 4 ++ beBytes x.c 4 ++ beBytes mask 4
/-- A key or mask of an address. -/
def Adrs.prf (x : Adrs) (seed : List Byte) (mask : Nat) : List Byte := xHash 3 seed (x.bytes mask)

/-- The chaining function: `s` steps from step `i` on. -/
def xChain (seed : List Byte) (ad : Adrs) (x : List Byte) (i : Nat) : Nat → List Byte
  | 0 => x
  | s + 1 =>
    let ad' := { ad with c := i + s }
    xHash 0 (ad'.prf seed 0) (xXor (xChain seed ad x i s) (ad'.prf seed 1))
/-- The randomised hash of two nodes. -/
def xPair (seed : List Byte) (ad : Adrs) (l r : List Byte) : List Byte :=
  xHash 1 (ad.prf seed 0) (xXor l (ad.prf seed 1) ++ xXor r (ad.prf seed 2))

/-- The 64 digits of a hash in base 16 and the three of their checksum. -/
def xDigits (m : List Byte) : List Nat :=
  let ds := (m.flatMap fun b => [b.toNat / 16, b.toNat % 16]).take 64
  let c := ds.foldl (fun n d => n + (15 - d)) 0
  ds ++ [c / 256 % 16, c / 16 % 16, c % 16]

/-- One level of an L-tree: pairs are hashed, and an odd last node goes up as it is. -/
def xLevel (seed : List Byte) (ad : Adrs) (i : Nat) : List (List Byte) → List (List Byte)
  | l :: r :: t => xPair seed { ad with c := i } l r :: xLevel seed ad (i + 1) t
  | l => l
/-- The root of an L-tree. -/
def xLtree (seed : List Byte) (ad : Adrs) (h : Nat) : Nat → List (List Byte) → List Byte
  | 0, l => l.headD []
  | n + 1, l => if l.length ≤ 1 then l.headD [] else xLtree seed ad (h + 1) n (xLevel seed { ad with b := h } 0 l)
/-- The root of a hash tree from a leaf and its authentication path. -/
def xRoot (seed : List Byte) (ad : Adrs) (idx k : Nat) (node : List Byte) : List (List Byte) → List Byte
  | [] => node
  | a :: r =>
    let ad' := { ad with b := k, c := idx / 2 ^ (k + 1) }
    xRoot seed ad idx (k + 1) (if idx / 2 ^ k % 2 = 0 then xPair seed ad' node a else xPair seed ad' a node) r

/-- The ends of the chains that a one-time signature of `m` leads to. -/
def xEnds (seed : List Byte) (ad : Adrs) (m : List Byte) (ots : List (List Byte)) : List (List Byte) :=
  (ots.zip (xDigits m)).zipIdx.map fun (x : (List Byte × Nat) × Nat) => xChain seed { ad with b := x.2 } x.1.1 x.1.2 (15 - x.1.2)
/-- The root of a tree from the signature of `m` with its leaf `idx`. -/
def xRootFrom (seed : List Byte) (layer tree idx : Nat) (m : List Byte) (y : XmssLayer) : List Byte :=
  let leaf := xLtree seed { layer := layer, tree := tree, kind := 1, a := idx } 0 8
    (xEnds seed { layer := layer, tree := tree, kind := 0, a := idx } m y.ots)
  xRoot seed { layer := layer, tree := tree, kind := 2 } idx 0 leaf y.auth

/-- The root that a signature leads to, layer by layer: the root of a tree is the message that the layer above signs. -/
def xTop (seed : List Byte) (layer idx : Nat) (m : List Byte) : List XmssLayer → List Byte
  | [] => m
  | y :: r => xTop seed (layer + 1) (idx / 1024) (xRootFrom seed layer (idx / 1024) (idx % 1024) m y) r

/-- The parameter sets that R30 accepts, by their numbers in a public key: the height and the layers. -/
def xmssSet (oid : BitVec 32) : Option (Nat × Nat) :=
  match oid.toNat with
  | 0x29 => some (20, 2)
  | 0x2c => some (40, 4)
  | 0x2f => some (60, 6)
  | _ => none

/-- The public key of a signer (R28): its parameter set, root and seed. -/
def Signer.key (g : Signer) : List Byte := beBytes g.oid.toNat 4 ++ g.root ++ g.seed
/-- A signature has the form that its parameter set gives it. -/
def Signer.shaped (g : Signer) (h d : Nat) : Bool :=
  g.sig.idx < 2 ^ h && g.sig.layers.length == d && g.sig.layers.all fun y => y.ots.length == 67 && y.auth.length == 10

/-- A signature over a message verifies (R30). -/
def Signer.verifies (g : Signer) (msg : List Byte) : Bool :=
  match xmssSet g.oid with
  | none => false
  | some (h, d) =>
    g.shaped h d && xTop g.seed 0 g.sig.idx (xHash 2 (g.sig.rand ++ g.root ++ beBytes g.sig.idx 32) msg) g.sig.layers == g.root

end Sys2Proof.Machine
end

