-- ==== Sys2Proof/Machine/Trans.lean ====
section
/-! DEFINITION. Addresses: the machine physical map (R84, R85), the two-stage walk (R42 to R47), the alias rule (R49), the translation
cache (R40) and the rights caches (R50 to R53). -/

namespace Sys2Proof.Machine
open Sys2Proof

/-- Who makes an access: its partition (none for the monitor, DEDUCED, unsafe, log 26), address space, level, core, the group that owns its
unconfirmed stores (a side, or 1024 plus a supervisor core), and die. -/
structure Acc where
  pid : Option (BitVec 4)
  asn : BitVec 16
  lvl : Level
  core : Nat
  grp : Nat
  deriving DecidableEq, Repr

/-- The die an access starts on. -/
def Acc.die (a : Acc) : Nat := dieOfCore a.core

/-- The access of a sequencer. -/
def Mach.accOf (m : Mach) (q : SeqId) : Acc :=
  { pid := m.pidOf q, asn := m.asnOf q, lvl := (m.seq q).level, core := coreKey q
    grp := match q with | .side k _ => k.toNat | .sup n => 1024 + n.toNat }

/-- The access of the sequencer that moves. -/
def Mach.myAcc (m : Mach) : Acc := m.accOf m.dev.cur

/-- The partition id that tags an access; the monitor's own accesses are tagged 0. -/
def Acc.tagPid (a : Acc) : BitVec 4 := a.pid.getD 0

/-- A virtual address is canonical (R41). -/
def canonical (va : Word) : Bool := va.extractLsb' 57 7 == 0 && !va.getLsbD 56 || va.extractLsb' 57 7 == 127 && va.getLsbD 56

/-- The address space that tags an access: 0xffff in the global window (R48). -/
def asnTag (asn : BitVec 16) (va : Nat) : BitVec 16 :=
  if 0x00fe000000000000 ≤ va && va ≤ 0x00fe00ffffffffff then 0xffff else asn

/-- The significant bits of a virtual address. -/
def va57 (va : Word) : Nat := va.toNat % 2 ^ 57

/-! ## The machine physical map -/

/-- The regions of R84. -/
inductive Region where
  | dram
  | dev (die page off : Nat)
  | gale (port off : Nat)
  | host (vd off : Nat)
  | reserved
  deriving DecidableEq, Repr

/-- The region of a machine physical address (R84). -/
def region (mpa : Nat) : Region :=
  match mpa / 2 ^ 48 with
  | 0 => if mpa < 2 ^ 39 then .dram else .reserved
  | 1 => if mpa / 2 ^ 39 % 512 = 0 then .dev (mpa / 2 ^ 37 % 4) (mpa / 2 ^ 16 % 2 ^ 21) (mpa % 2 ^ 16) else .reserved
  | 4 => .gale (mpa / 2 ^ 44 % 16) (mpa % 2 ^ 44)
  | 8 => .host (mpa / 2 ^ 42 % 64) (mpa % 2 ^ 42)
  | _ => .reserved

/-- The assigned pages of device register space (R85). -/
def pageAssigned (die page : Nat) : Bool :=
  page ≤ 1 || (0x10 ≤ page && page ≤ 0x13) || (die == 0 && 0x100 ≤ page && page ≤ 0x140)

/-- The place of a die in the ring (R11). -/
def ringPos : Nat → Nat
  | 0 => 0
  | 1 => 1
  | 3 => 2
  | _ => 3

/-- Boundary `i` joins ring places `i` and `i + 1`; the boundaries from place `a` on, `n` of them, are up. -/
def boundariesUp (down : BitVec 4) (a : Nat) : Nat → Bool
  | 0 => true
  | n + 1 => !down.getLsbD (a % 4) && boundariesUp down (a + 1) n

/-- The die at a place of the ring (R11). -/
def ringDie : Nat → Nat
  | 0 => 0
  | 1 => 1
  | 2 => 3
  | _ => 2

/-- The die-to-die island of a die is powered (R19). -/
def Mach.d2dOn (m : Mach) (d : Nat) : Bool := (m.die d).islState.getLsbD 6

/-- The boundaries from ring place `a` on, `n` of them, are up, and every die between two of them stands in the ring (R13, R27). -/
def Mach.pathUp (m : Mach) (a : Nat) : Nat → Bool
  | 0 => true
  | n + 1 => boundariesUp m.dev.bdown a 1
      && (n == 0 || (m.d2dOn (ringDie ((a + 1) % 4)) && !(m.die (ringDie ((a + 1) % 4))).resetting)) && m.pathUp (a + 1) n

/-- A request from die `a` comes to die `b`: a path leads there (R13, R18), and `b` does not reset (R27, R234). -/
def Mach.path (m : Mach) (a b : Nat) : Bool :=
  let pa := ringPos a
  let pb := ringPos b
  let cw := (pb + 4 - pa) % 4
  !(m.die b).resetting && (a == b || (m.d2dOn a && m.d2dOn b && (m.pathUp pa cw || m.pathUp pb ((4 - cw) % 4))))

/-- A request from die `a` is served by the memory of die `b`: it comes there, and the memory interface is powered (R19, R21). -/
def Mach.reach (m : Mach) (a b : Nat) : Bool := (m.die b).islState.getLsbD 5 && m.path a b

/-! ## Table entries (R43) -/

/-- A bit of a table entry. -/
def ebit (e : Word) (i : Nat) : Bool := e.getLsbD i
/-- The address bits [51:8] of an entry. -/
def eaddr (e : Word) : Nat := e.toNat % 2 ^ 52 / 256 * 256

/-- A valid entry is malformed (R43). `sh` is the log2 of what the entry covers, `st2` says the stage. -/
def entBad (st2 : Bool) (sh : Nat) (e : Word) : Bool :=
  let t := ebit e 1
  ebit e 52 || e.extractLsb' 4 4 != 0 || (ebit e 59 && (!st2 || t)) || (ebit e 56 && (st2 || t))
    || (t && e.extractLsb' 57 2 != 0) || (!t && 39 ≤ sh) || (t && sh == 16)
    || (!t && eaddr e % 2 ^ sh != 0) || (t && 21 < sh && eaddr e % 4096 != 0)

/-- A leaf that a walk has found: the address of the entry, the entry, the log2 of its page, and whether the entry itself lies in a Frost
page. -/
structure Leaf where
  ea : Nat
  ent : Word
  sh : Nat
  frost : Bool
  deriving DecidableEq, Repr

/-- The index shifts and widths of the levels (R42). -/
def walkLevels : List (Nat × Nat) := [(48, 9), (39, 9), (30, 9), (21, 9), (16, 5)]

/-- Descend through the levels (R42). `fetch` reads an entry at an address of the stage's own table space and answers its machine
physical address and whether that is a Frost frame; `nm` and `mal` are the reasons for an unmapped and a malformed entry. -/
def descend (fetch : Nat → Except (BitVec 4) (Nat × Bool × Word)) (st2 : Bool) (nm mal : BitVec 4) (va : Nat) :
    List (Nat × Nat) → Nat → Except (BitVec 4) Leaf
  | [], _ => .error mal
  | (sh, w) :: r, node =>
    match fetch (node + 8 * (va / 2 ^ sh % 2 ^ w)) with
    | .error x => .error x
    | .ok (ea, frost, e) =>
      if !ebit e 0 then .error nm
      else if entBad st2 sh e then .error mal
      else if ebit e 1 then descend fetch st2 nm mal va r (eaddr e)
      else .ok ⟨ea, e, sh, frost⟩

/-- A table entry in DRAM, read by the walker of a die: a table on a die that no path leads to fails the walk (R18, R56). -/
def Mach.tabEnt (m : Mach) (die a : Nat) (frost : Bool) : Except (BitVec 4) (Nat × Bool × Word) :=
  if 2 ^ 39 ≤ a then .error 3
  else if !m.reach die (dieOfMpa a) then .error 7
  else .ok (a, frost, BitVec.ofNat 64 (m.rdChan a 8))

/-- The stage 2 walk of a partition physical address (R42, R43): the machine physical address and the leaf. DEDUCED, unsafe (log 142): a
large Frost leaf is malformed for the 64 KiB frames of it that lie outside the range. -/
def Mach.stage2 (m : Mach) (die : Nat) (c : PCtx) (ppa : Nat) : Except (BitVec 4) (Nat × Leaf) :=
  if 2 ^ 52 ≤ ppa then .error 3
  else
    let fetch := fun a => m.tabEnt die a false
    match descend fetch true 3 3 ppa walkLevels c.root2 with
    | .error x => .error x
    | .ok l =>
      let mpa := eaddr l.ent + ppa % 2 ^ l.sh
      if ebit l.ent 59 && !m.inFrost mpa then .error 3 else .ok (mpa, l)

/-- A translation (R44): the frame address, both leaves, the rights of each stage, home attribute, Frost bit, page size. -/
structure Tr where
  mpa : Nat
  l1 : Leaf
  l2 : Leaf
  home : BitVec 2
  frost : Bool
  sh : Nat
  deriving DecidableEq, Repr

/-- The partition physical page of stage 2 that a translation goes through: its number and the log2 of its size. -/
def Tr.s2 (t : Tr) (va : Nat) : Nat × Nat := ((eaddr t.l1.ent + va % 2 ^ t.l1.sh) / 2 ^ t.l2.sh, t.l2.sh)
/-- The effective write right. -/
def Tr.wp (t : Tr) : Bool := ebit t.l1.ent 54 && ebit t.l2.ent 54
/-- The effective read right. -/
def Tr.rd (t : Tr) : Bool := ebit t.l1.ent 53 && ebit t.l2.ent 53
/-- The effective execute right. -/
def Tr.x (t : Tr) : Bool := ebit t.l1.ent 55 && ebit t.l2.ent 55
/-- The effective u bit. -/
def Tr.u (t : Tr) : Bool := ebit t.l1.ent 56
/-- Both leaves have d set. -/
def Tr.d (t : Tr) : Bool := ebit t.l1.ent 3 && ebit t.l2.ent 3

/-- The partition context of a die (R83). -/
def Mach.pctx (m : Mach) (die : Nat) (pid : BitVec 4) : PCtx := (m.die die).ctx.get {} pid.toNat

/-- The level 0 node of a stage 1 walk (R47, R48). -/
def Mach.root1 (m : Mach) (die : Nat) (c : PCtx) (asn : BitVec 16) : Except (BitVec 4) Nat :=
  if asn = 0xffff then (if (m.die die).grootOn then .ok (m.die die).groot else .error 0)
  else if c.asnCount ≤ asn.toNat then .error 0
  else match m.stage2 die c (c.asBase + 8 * asn.toNat) with
    | .error x => .error x
    | .ok (a, l) => match m.tabEnt die a (ebit l.ent 59) with
      | .error x => .error x
      | .ok (_, _, e) =>
        if !ebit e 0 then .error 0
        else if e.extractLsb' 52 12 != 0 || e.extractLsb' 1 11 != 0 then .error 2
        else .ok (e.toNat % 2 ^ 52 / 4096 * 4096)

/-- An entry of a stage 1 table, which lies in partition physical space (R42, R46). -/
def Mach.tab1 (m : Mach) (die : Nat) (c : PCtx) (a : Nat) : Except (BitVec 4) (Nat × Bool × Word) :=
  match m.stage2 die c a with
  | .error x => .error x
  | .ok (p, l) => m.tabEnt die p (ebit l.ent 59)

/-- The two-stage walk of a virtual address (R42, R44, R84), with the reason of R56 when it fails. -/
def Mach.walk (m : Mach) (die : Nat) (pid : BitVec 4) (asn : BitVec 16) (va : Nat) : Except (BitVec 4) Tr :=
  let c := m.pctx die pid
  if !c.en then .error 3
  else match m.root1 die c asn with
    | .error x => .error x
    | .ok root =>
      match descend (m.tab1 die c) false 0 2 va walkLevels root with
      | .error x => .error x
      | .ok l1 =>
        match m.stage2 die c (eaddr l1.ent + va % 2 ^ l1.sh) with
        | .error x => .error x
        | .ok (mpa, l2) =>
          let h1 := l1.ent.extractLsb' 57 2
          let h2 := l2.ent.extractLsb' 57 2
          let ok := match region mpa with
            | .dram => m.reach die (dieOfMpa mpa)
            | .dev d p _ => pageAssigned d p
            | .reserved => false
            | _ => true
          if !ok then .error (if region mpa = .dram then 7 else 3)
          else .ok { mpa := mpa, l1 := l1, l2 := l2
                     home := if region mpa = .dram then (if h1.toNat < h2.toNat then h2 else h1) else 3
                     frost := ebit l2.ent 59, sh := min l1.sh l2.sh }

/-- Two pairs of the frame-owner table stand together (R49): in one address space a frame has one page; in the global window it has one
page under every partition, and none outside; in two address spaces it is not writable. DEDUCED, unsafe (log 143): the same ASN of two
partitions is two address spaces. -/
def Owner.agrees (o n : Owner) : Bool :=
  if o.asn == 0xffff && n.asn == 0xffff then o.vpn == n.vpn
  else if o.asn == 0xffff || n.asn == 0xffff then false
  else if o.pid == n.pid && o.asn == n.asn then o.vpn == n.vpn
  else !o.w && !n.w
/-- The recorded pair that a new one breaks the alias rule with (R49). -/
def aliasOf (os : List Owner) (n : Owner) : Option Owner := os.find? fun o => o.frame == n.frame && !o.agrees n

/-- The pair of the frame-owner table that a translation makes (R49). -/
def Tr.owner (t : Tr) (pid : BitVec 4) (asn : BitVec 16) (va : Nat) : Owner :=
  ⟨t.mpa / 65536, pid, asn, va / 65536, t.wp, t.sh, (t.s2 va).1, (t.s2 va).2⟩

/-- Record a pair in the frame-owner table of the die that owns the frame (R49).
DESIGN CHOICE, unsafe (log 24). -/
def Mach.ownPair (m : Mach) (pid : BitVec 4) (asn : BitVec 16) (va : Nat) (t : Tr) : Except (BitVec 4) Mach :=
  if 2 ^ 39 ≤ t.mpa then .ok m
  else
    let dd := dieOfMpa t.mpa
    let n := t.owner pid asn va
    let d := m.die dd
    if (aliasOf d.own n).isSome then .error 5
    else
      let rest := d.own.filter fun o => !(o.frame == n.frame && o.pid == pid && o.asn == asn)
      if rest.length = d.own.length && d.ownCap ≤ d.own.length then .error 6
      else .ok (m.setDie dd { d with own := n :: rest })

/-- Write a table entry at its channel (R40, R67, R72): a buffered line goes back first, and a Frost sector is logged. -/
def Mach.putEnt (m : Mach) (pid : BitVec 4) (l : Leaf) (v : Nat) : Mach :=
  let m := m.combFlush l.ea
  (if l.frost then m.must (m.undoLog l.ea pid false) else m).wr l.ea 8 v
/-- Or bits into a table entry at its channel (R45). -/
def Mach.orEnt (m : Mach) (pid : BitVec 4) (l : Leaf) (bits : Nat) : Mach :=
  let e := m.rdChan l.ea 8
  if e ||| bits = e then m else m.putEnt pid l (e ||| bits)

/-- A walk that produces a translation (R45, R49): accessed bits, the owner pair, the translation cache.
DESIGN CHOICE, unsafe (log 11). -/
def Mach.xlate (m : Mach) (die : Nat) (pid : BitVec 4) (asn : BitVec 16) (va : Nat) : Except (BitVec 4) (Tr × Mach) :=
  match m.walk die pid asn va with
  | .error x => .error x
  | .ok t =>
    match m.ownPair pid asn va t with
    | .error x => .error x
    | .ok m =>
      let m := (m.orEnt pid t.l1 4).orEnt pid t.l2 4
      let e : TcEnt := { pid := pid, asn := asn, vpn := va / 65536, frame := t.mpa / 65536, rd := t.rd, w := t.wp, x := t.x, u := t.u,
                         home := t.home, frost := t.frost, sh := t.sh, s2 := (t.s2 va).1, s2sh := (t.s2 va).2 }
      .ok (t, m.modDie die fun d =>
        { d with tc := e :: (d.tc.filter fun o => !(o.pid == pid && o.asn == asn && o.vpn == va / 65536)).take 1023 })

/-! ## Rights caches (R50) -/

/-- The cause of a failed translation: alias faults have their own (R49, R207). -/
def causeOf (reason : BitVec 4) : BitVec 8 := if reason = 5 then 0x0b else 0x09

/-- What a rights check answers: the entry, a wait, or a fault with its cause and reason. -/
inductive Chk where
  | ok (r : Rights)
  | wait
  | fault (cause : BitVec 8) (reason : BitVec 4)
  deriving DecidableEq, Repr

/-- The kinds of access of R253. -/
inductive AccKind where
  | fetch | read | write
  deriving DecidableEq, Repr

/-- The rights of the monitor's own accesses, which name machine physical addresses (DEDUCED, unsafe, log 26). -/
def monRights (va : Nat) : Rights :=
  { pid := 0, asn := 0, page := va / 65536, sh := 16, rd := true, wp := true, w := true, x := true, u := false
    home := 3, frost := false, s2 := va / 65536, s2sh := 16 }

/-- The entry of a rights cache that covers an address. -/
def Core.rights (c : Core) (pid : BitVec 4) (asn : BitVec 16) (va : Nat) : Option Rights :=
  c.rc.find? fun r => r.pid == pid && r.asn == asn && va / 2 ^ r.sh == r.page

/-- Put an entry into a rights cache of 512 entries. -/
def Core.putRights (c : Core) (r : Rights) : Core :=
  { c with rc := r :: (c.rc.filter fun o => !(o.pid == r.pid && o.asn == r.asn && o.page == r.page && o.sh == r.sh)).take 511 }

/-- The entry that a walker's reply gives (R50); `conf` says that the reply confirmed a store. -/
def Tr.rights (t : Tr) (pid : BitVec 4) (asn : BitVec 16) (va : Nat) (conf : Bool) : Rights :=
  { pid := pid, asn := asn, page := va / 2 ^ t.sh, sh := t.sh, rd := t.rd, wp := t.wp, w := t.wp && (conf || t.d), x := t.x, u := t.u
    home := t.home, frost := t.frost, s2 := (t.s2 va).1, s2sh := (t.s2 va).2 }

/-- An entry that lets a level make an access: the right, and u at level U (R51). -/
def Rights.allows (r : Rights) (lvl : Level) (k : AccKind) : Bool :=
  (lvl != .U || r.u) && (match k with | .fetch => r.x | .read => r.rd | .write => r.wp)

/-- The check of a load, a fetch or an atomic (R51): a hit without the right is a rights fault; a miss waits for its probe, and a failed probe
is a translation fault. A walk that gives a translation sets its accessed bits, though the right is missing (R45). On the miss a right that
stage 2 lacks has reason 4 (DEDUCED, unsafe, log 12). -/
def Mach.check (m : Mach) (a : Acc) (va : Word) (k : AccKind) : Chk × Mach :=
  match a.pid with
  | none => (.ok (monRights (va.toNat % 2 ^ 52)), m)
  | some pid =>
    if !canonical va then (.fault 0x09 1, m)
    else
      let v := va57 va
      let asn := asnTag a.asn v
      match (m.core a.core).rights pid asn v with
      | some r => (if r.allows a.lvl k then .ok r else .fault 0x08 0, m)
      | none =>
        match m.xlate a.die pid asn v with
        | .error x => (.fault (causeOf x) x, m)
        | .ok (t, m') =>
          let r := t.rights pid asn v false
          let need := match k with | .fetch => 55 | .read => 53 | .write => 54
          if r.allows a.lvl k then (.ok r, m'.modCore a.core (·.putRights r))
          else if !ebit t.l2.ent need then (.fault 0x09 4, m') else (.fault 0x08 0, m')

/-- The probe of a store that must be confirmed (R53, R55): d set in both leaves and w in the entry, or the failure. A walk that gives a
translation sets its accessed bits in either case (R45). -/
def Mach.confirm (m : Mach) (core : Nat) (pid : BitVec 4) (asn : BitVec 16) (lvl : Level) (va : Nat) :
    Except (BitVec 8 × BitVec 4) Rights × Mach :=
  match m.xlate (dieOfCore core) pid asn va with
  | .error x => (.error (causeOf x, x), m)
  | .ok (t, m') =>
    if !ebit t.l1.ent 54 || (lvl == .U && !t.u) then (.error (0x08, 0), m')
    else if !ebit t.l2.ent 54 then (.error (0x09, 4), m')
    else
      let m' := (m'.orEnt pid t.l1 8).orEnt pid t.l2 8
      let r := t.rights pid asn va true
      (.ok r, m'.modCore core (·.putRights r))

/-- The check of an access that needs write right at once and waits for its probe: `amo`, `vscadd`, engines, `lyst` (R333, R348). -/
def Mach.checkWrite (m : Mach) (a : Acc) (va : Word) : Chk × Mach :=
  match a.pid with
  | none => (.ok (monRights (va.toNat % 2 ^ 52)), m)
  | some pid =>
    if !canonical va then (.fault 0x09 1, m)
    else
      let v := va57 va
      let asn := asnTag a.asn v
      match (m.core a.core).rights pid asn v with
      | some r =>
        if !r.allows a.lvl .write then (.fault 0x08 0, m)
        else if r.w then (.ok r, m)
        else match m.confirm a.core pid asn a.lvl v with
          | (.error (c, x), m) => (.fault c x, m)
          | (.ok r, m) => (.ok r, m)
      | none => match m.confirm a.core pid asn a.lvl v with
          | (.error (c, x), m) => (.fault c x, m)
          | (.ok r, m) => (.ok r, m)

/-- The frame of an address whose rights check has passed: the translation cache, else a walk (R40, R58). None when the mapping
has gone. -/
def Mach.frameOf (m : Mach) (die : Nat) (pid : Option (BitVec 4)) (asn : BitVec 16) (va : Nat) : Option (Nat × Bool) × Mach :=
  match pid with
  | none => (some (va % 2 ^ 52, false), m)
  | some pid =>
    match (m.die die).tc.find? fun o => o.pid == pid && o.asn == asn && o.vpn == va / 65536 with
    | some e => (some (e.frame * 65536 + va % 65536, e.frost), m)
    | none =>
      match m.xlate die pid asn va with
      | .ok (t, m) => (some (t.mpa, t.frost), m)
      | .error _ => (none, m)

/-- The frame of an address breaks the rule of R49, or the frame-owner table has no room for it: the reason, when the walk of that frame finds
it. Each 64 KiB frame of a large page has a walk of its own, also where the rights cache hits. -/
def Mach.frameBad (m : Mach) (die : Nat) (pid : Option (BitVec 4)) (asn : BitVec 16) (va : Nat) : Option (BitVec 4) :=
  match pid with
  | none => none
  | some p =>
    if (m.die die).tc.any fun o => o.pid == p && o.asn == asn && o.vpn == va / 65536 then none
    else match m.walk die p asn va with
      | .error _ => none
      | .ok t => match m.ownPair p asn va t with
        | .error x => some x
        | .ok _ => none

/-- A stage 2 access, never cached: trap areas, images, records (R103, R210, R297). The DRAM address and whether its page is a Frost page;
the monitor names machine addresses. -/
def Mach.ppaOf (m : Mach) (die : Nat) (pid : Option (BitVec 4)) (ppa : Nat) : Option (Nat × Bool) :=
  match pid with
  | none => if ppa < 2 ^ 39 && m.reach die (dieOfMpa ppa) then some (ppa, false) else none
  | some p =>
    let c := m.pctx die p
    if !c.en then none
    else match m.stage2 die c ppa with
      | .ok (a, l) => if a < 2 ^ 39 && m.reach die (dieOfMpa a) then some (a, ebit l.ent 59) else none
      | .error _ => none

/-- An access finds its translation gone, or no path to its die: the event that a die logs (R18, R58). `n` goes into the detail. -/
def Mach.goneEvent (m : Mach) (die : Nat) (pid : Option (BitVec 4)) (asn : BitVec 16) (va n : Nat) : Mach :=
  match pid with
  | none => m.logErr die 0x0a 0 (BitVec.ofNat 64 va) (BitVec.ofNat 64 n)
  | some p => match m.walk die p asn va with
    | .error 7 => m.logErr die 0x08 0 (BitVec.ofNat 64 va) 1
    | _ => m.logErr die 0x0a 0 (BitVec.ofNat 64 va) (BitVec.ofNat 64 n)

end Sys2Proof.Machine
end

