-- ==== Sys2Proof/Machine/Io.lean ====
section
/-! DEFINITION. Device register space (R17, R20, R64, R83, R85, R91) and the regions beyond the package (R86, R87). The offsets inside
pages 0x0 and 0x1 are the model's own (DESIGN CHOICE, unsafe, log 15). -/

namespace Sys2Proof.Machine
open Sys2Proof

/-- Bits `[lo + n - 1 : lo]` of a doubleword as a number. -/
def wbits (w : Word) (lo n : Nat) : Nat := w.toNat / 2 ^ lo % 2 ^ n
/-- A truth value as a number. -/
def nb (b : Bool) : Nat := if b then 1 else 0
/-- A number as a doubleword. -/
def w64 (n : Nat) : Word := BitVec.ofNat 64 n

/-- The status register of a Gale port (R17). -/
def GalePort.status (p : GalePort) : Word :=
  w64 ((if p.up then p.peer.toNat else 0) * 2 ^ 48 + p.dropped % 65536 * 2 ^ 32 + p.poisoned % 65536 * 2 ^ 16
    + p.retries.toNat * 2 ^ 8 + nb p.lost * 4 + nb p.up * 2 + nb p.en)

/-- A pattern read as two's complement. -/
def sgn (w n : Nat) : Int := if n % 2 ^ w < 2 ^ (w - 1) then (n % 2 ^ w : Nat) else (n % 2 ^ w : Nat) - (2 ^ w : Nat)

/-- A loaded value extended to a register (R329): sign-extended, or zero-extended for `.n`. -/
def extLd (sz : Nat) (n : Bool) (v : Nat) : Word := if n then w64 (v % 256 ^ sz) else BitVec.ofInt 64 (sgn (8 * sz) v)

/-- The bytes of a poisoned result to which the spec gives no value: a free value (DESIGN CHOICE, safe, log 1). -/
def Mach.poisonVal (m : Mach) (n : Nat) : Nat × Mach :=
  ((Config.freePoison m.dev.fresh).toNat % 256 ^ n, m.withDev fun d => { d with fresh := d.fresh + 1 })

/-- The group of a read whose unit has gone: nothing takes its answer. -/
def noGroup : Nat := 4096
/-- Two requests beyond the package belong to one access: the stores of one move, or the reads of one instruction. -/
def ExtReq.same (a b : ExtReq) : Bool :=
  a.wr == b.wr && a.grp == b.grp && (if a.wr then a.no == b.no else a.who == b.who && a.pc == b.pc && a.tick == b.tick)
/-- The accesses that some requests belong to: the first request of each, and how many of its elements there are. -/
def accesses (es : List ExtReq) : List (ExtReq × Nat) :=
  es.foldl (fun l e =>
    if l.any (fun x => x.1.same e) then l.map (fun x => if x.1.same e then (x.1, x.2 + e.els) else x) else l ++ [(e, e.els)]) []
/-- A request beyond the package fills a register of a sequencer that `f` names. -/
def ExtReq.fills (f : SeqId → Bool) (e : ExtReq) : Bool := match e.who with | some (w, _, _) => f w | none => false
/-- A request of a sequencer that `f` names whose unit has gone: its answer fills nothing, and no `stl` waits for it. -/
def ExtReq.leave (f : SeqId → Bool) (e : ExtReq) : ExtReq :=
  { e with who := if e.fills f then none else e.who, grp := if e.fills f then noGroup else e.grp, rel := if e.rel.any f then none else e.rel }
/-- The elements of some requests. -/
def elements (es : List ExtReq) : Nat := (es.map (·.els)).foldl (· + ·) 0
/-- The die of the group that makes an access: a side, a supervisor core, or a die's own traffic. -/
def grpDie (grp : Nat) : Nat := if grp < 1024 then grp / 256 else if grp < 2048 then (grp - 1024) / 8 % 4 else grp % 4

/-- The place of a Gale port in the error log (R232). DESIGN CHOICE, unsafe (log 159): its port field is the port's number on its die. -/
def portPlace (p : Nat) : BitVec 16 := BitVec.ofNat 16 (p % 4 * 256)

/-- A link event for `n` elements of an access (R16, R232). The elements of one move that the same port loses make one event.
DEDUCED, unsafe (log 144). -/
def Mach.linkEvent (m : Mach) (p addr n : Nat) : Mach :=
  if m.link = some p then
    m.modDie (p / 4) fun d => match d.log[d.logLast]? with
      | some e => { d with log := d.log.set d.logLast { e with detail := e.detail + w64 n } }
      | none => d
  else { m.logErr (p / 4) 0x08 (portPlace p) (w64 addr) (w64 n) with link := some p }

/-- The link goes down (R16): stores in flight are dropped, the elements of reads that have not arrived are poisoned, an event is logged for
each access, the owner is interrupted.
DEDUCED, safe (log 128). -/
def Mach.portDown (m : Mach) (p : Nat) : Mach :=
  let fl := m.dev.ext.filter fun e => !e.host && e.port == p && e.ans.isNone
  let g := m.port p
  let m := m.modPort p fun g =>
    { g with up := false, en := false, peer := 0, fails := 0, lost := g.lost || !fl.isEmpty
             dropped := min 65535 (g.dropped + elements (fl.filter (·.wr)))
             poisoned := min 65535 (g.poisoned + elements (fl.filter (!·.wr))) }
  let m := m.withDev fun d => { d with ext := d.ext.filter fun e => e.host || e.port != p || e.ans.isSome }
  let m := fl.foldl (fun m e =>
    let (v, m) := m.poisonVal e.n
    match e.who with
    | none => if e.wr || e.grp == noGroup then m else m.withDev fun d => { d with ext := d.ext ++ [{ e with ans := some (BitVec.ofNat 1024 v, true) }] }
    | some (q, r, z) => m.withDev fun d => { d with arrivals := d.arrivals ++ [⟨q, r, extLd e.n z v, true⟩] }) m
  let m := (accesses fl).foldl (fun m x => m.logErr (p / 4) 0x08 (portPlace p) (w64 x.1.addr) (w64 x.2)) m
  let m := if fl.isEmpty then m.logErr (p / 4) 0x08 (portPlace p) 0 0 else m
  match g.pid with
  | some q => m.irqPart q 0x05
  | none => m

/-- Write the enable bit of a port (R16, R17): setting it retrains a port that a partition owns; clearing it takes it down (R14). DESIGN
CHOICE, unsafe (log 145): a 1 written on a port that no partition owns, which R14 holds down, leaves `en` 0. -/
def Mach.portSetEn (m : Mach) (p : Nat) (en : Bool) : Mach :=
  let g := m.port p
  if en then (if g.pid.isSome && !g.en then m.modPort p fun g => { g with en := true, fails := 0 } else m)
  else if g.up then m.portDown p else m.modPort p fun g => { g with en := false }

/-- A write to a port status register (R17). -/
def Mach.portWrite (m : Mach) (p : Nat) (v : Word) : Mach :=
  let m := if v.getLsbD 3 then m.modPort p fun g => { g with dropped := 0, poisoned := 0, retries := 0 } else m
  let m := if v.getLsbD 2 then m.modPort p fun g => { g with lost := false } else m
  m.portSetEn p (v.getLsbD 0)

/-- The island control register (R20). -/
def Die.islReg (d : Die) : Word :=
  w64 (d.islRefused.toNat * 2 ^ 16 + d.islState.toNat * 2 ^ 8 + 128 + d.islOn.toNat % 128)

/-- The DRAM rows of a die's Frost range (R21, R69): first and end address, or an empty range. -/
def Die.frostRows (d : Die) : Nat × Nat :=
  if d.hasFrost then (d.frostBase / 65536 * 65536, d.frostLimit / 65536 * 65536 + 65536) else (0, 0)

/-- Wipe the DRAM of a die outside its Frost rows (R21, R24): bytes and poison. -/
def Mach.wipeDram (m : Mach) (d : Nat) (keepFrost : Bool) : Mach :=
  let lo := d * 2 ^ 37
  let hi := lo + 2 ^ 37
  let (a, b) := if keepFrost then (m.die d).frostRows else (0, 0)
  let m := if a < b then { m with log := .wipe (max lo b) hi :: .wipe lo (min a hi) :: m.log } else { m with log := .wipe lo hi :: m.log }
  m.withDev fun x => { x with poison := x.poison.filter fun s => dieOfMpa (s * 128) != d || (a ≤ s * 128 && s * 128 < b) }

/-- A side with all storage wiped; the partition table still gives it to its partition (R79).
DEDUCED, safe (log 97). -/
def Side.wiped (s : Side) : Side := { pid := s.pid }
/-- A supervisor core with all storage wiped, held; the partition table still gives it to its partition (R79). -/
def Sup.wiped (u : Sup) : Sup := { pid := u.pid }

/-- What is on its way to storage that is lost goes with it (R21, R234): values for the sequencers `on`, probes of the cores, and the reads of the
groups `grp`. -/
def Dev.forgetWays (d : Dev) (on : SeqId → Bool) (core grp : Nat → Bool) : Dev :=
  { d with
    probes := d.probes.filter fun p => !core p.core
    arrivals := d.arrivals.filter fun a => !on a.q
    remote := d.remote.filter fun r => !on r.who
    ext := (d.ext.filter fun e => !(e.ans.isSome && grp e.grp)).map fun e =>
      let e := e.leave on
      if !e.wr && grp e.grp then { e with grp := noGroup } else e }
/-- A write of a batch without the token of a side that is lost.
DEDUCED, unsafe (log 101). -/
def BWrite.unTok (lost : Nat → Bool) : BWrite → BWrite
  | .upd u => .upd { u with tok := match u.tok with | some (k, t) => if lost k.toNat then none else some (k, t) | none => none }
  | w => w
/-- What is on its way to the dies reports to no token of a side that is lost (R21, R234). -/
def Die.unTok (lost : Nat → Bool) (d : Die) : Die :=
  { d with rx := d.rx.map fun b => { b with ws := b.ws.map (BWrite.unTok lost) }
           batch := d.batch.map (BWrite.unTok lost)
           upds := d.upds.map fun u => match BWrite.unTok lost (.upd u) with | .upd u => u | _ => u }
/-- A cluster with all storage wiped; the partition table still gives its semaphores to their partitions (R79, R294). -/
def Cluster.wiped (c : Cluster) : Cluster := { sems := c.sems.map fun (n, x) => (n, { pid := x.pid }) }

/-- Island `i` of die `d` comes up with its storage wiped (R19, R21, R27), or loses its state. The registers of the Frost range stay with the
rows that the always-on island keeps (DEDUCED, unsafe, log 98). -/
def Mach.islandWipe (m : Mach) (d i : Nat) : Mach :=
  if i < 4 then
    let cl := fun c => 16 * d + 4 * i ≤ c && c < 16 * d + 4 * i + 4
    let side := fun (k : Nat) => k < 1024 && cl (k / 16)
    m.withDev fun x =>
      let x := x.forgetWays (fun q => (sideOf q).any side) (fun c => c < 512 && cl (c / 8)) side
      { x with cores := x.cores.filter fun c => !(c.1 < 512 && cl (c.1 / 8))
               sides := x.sides.map fun (k, s) => if side k then (k, s.wiped) else (k, s)
               clusters := x.clusters.map fun (c, y) => (c, if cl c then y.wiped else y)
               dies := x.dies.map fun (k, y) => (k, y.unTok side) }
  else if i = 4 then
    let m := (List.range 4).foldl (fun m p => if (m.port (4 * d + p)).up then m.portDown (4 * d + p) else m) m
    let m := m.modDie d fun x => { x with l2 := [], pinOver := [] }
    let core := fun (c : Nat) => 512 ≤ c && dieOfCore c == d
    m.withDev fun x =>
      let x := x.forgetWays (fun q => (sideOf q).isNone && dieOf q == d) core fun g => 1024 ≤ g && g < 2048 && (g - 1024) / 8 == d
      { x with cores := x.cores.filter fun c => !core c.1
               sups := x.sups.map fun (n, u) => if n / 8 = d then (n, u.wiped) else (n, u)
               windows := if d = 0 then [] else x.windows }
  else if i = 5 then
    let m := m.modDie d fun x =>
      { x with comb := [], upds := [], tc := [], own := [], aliased := none, ctx := [], fmt := [], groot := 0, grootOn := false }
    m.wipeDram d true
  else m.modDie d fun x => { x with batch := [], rx := [] }

/-- Another die holds a translation to a frame of die `d` (R21). -/
def Mach.foreignFrames (m : Mach) (d : Nat) : Bool :=
  (List.range 4).any fun e => e != d && (m.die e).tc.any fun t => dieOfMpa (t.frame * 65536) == d

/-- The hardware refuses to switch an island off (R21). DESIGN CHOICE, unsafe (log 158): another die is powered while one of its islands 0 to 6
is. -/
def Mach.islandRefuses (m : Mach) (d i : Nat) : Bool :=
  let st := (m.die d).islState
  ((i == 4 || i == 5) && st.extractLsb' 0 4 != 0) || (i == 5 && m.foreignFrames d)
    || (i == 6 && (List.range 4).any fun e => e != d && (m.die e).islState.extractLsb' 0 7 != 0)

/-- Switch an island on (R21). DESIGN CHOICE, unsafe (log 146): the supervisor cores of a die whose island 4 comes up are held, as R28
holds them after a device reset. -/
def Mach.islandOn (m : Mach) (d i : Nat) : Mach :=
  if 7 ≤ i || (m.die d).islState.getLsbD i then m
  else (m.islandWipe d i).modDie d fun x =>
    { x with islState := x.islState ||| (1#8 <<< i), islOn := x.islOn ||| (1#8 <<< i) }

/-- A request to switch an island off: performed or refused (R21); `refused` says how the last request went (R20). DESIGN CHOICE, unsafe
(log 147): after a refusal the on bit reads 1 again. -/
def Mach.islandOff (m : Mach) (d i : Nat) : Mach :=
  if 7 ≤ i || !(m.die d).islState.getLsbD i then m
  else if m.islandRefuses d i then
    m.modDie d fun x => { x with islRefused := x.islRefused ||| (1#8 <<< i), islOn := x.islOn ||| (1#8 <<< i) }
  else (m.islandWipe d i).modDie d fun x =>
    { x with islState := x.islState &&& ~~~(1#8 <<< i), islOn := x.islOn &&& ~~~(1#8 <<< i), islRefused := x.islRefused &&& ~~~(1#8 <<< i) }

/-- A write to the island control register (R20). DESIGN CHOICE, unsafe (log 148): the bits are performed in ascending order. -/
def Mach.islWrite (m : Mach) (d : Nat) (v : Word) : Mach :=
  let m := m.modDie d fun x => { x with islRefused := x.islRefused &&& ~~~(v.extractLsb' 16 8) }
  (List.range 7).foldl (fun m i => if v.getLsbD i then m.islandOn d i else m.islandOff d i) m

/-- A doubleword of the translation front's page: partition contexts (R83), format ranges (R64), Frost range (R69), global root (R48). -/
def Die.tfRead (d : Die) (off : Nat) : Word :=
  if off < 0x200 then
    let c := d.ctx.get {} (off / 32)
    match off / 8 % 4 with
    | 0 => w64 (c.root2 % 2 ^ 52)
    | 1 => w64 (c.asBase % 2 ^ 52)
    | 2 => w64 (c.asnCount % 65536 + c.home.toNat * 2 ^ 16 + nb c.en * 2 ^ 24)
    | _ => 0
  else if off < 0x380 then
    let f := d.fmt.get {} ((off - 0x200) / 24)
    match (off - 0x200) / 8 % 3 with
    | 0 => f.base
    | 1 => f.limit
    | _ => f.scale
  else if off = 0x400 then w64 (d.frostBase + nb d.frostOn)
  else if off = 0x408 then w64 d.frostLimit
  else if off = 0x410 then w64 (d.groot + nb d.grootOn)
  else 0

/-- A write to the translation front's page; reserved bits are ignored (R6). -/
def Die.tfWrite (d : Die) (off : Nat) (v : Word) : Die :=
  if off < 0x200 then
    let c := d.ctx.get {} (off / 32)
    let c := match off / 8 % 4 with
      | 0 => { c with root2 := wbits v 12 40 * 4096 }
      | 1 => { c with asBase := wbits v 12 40 * 4096 }
      | 2 => { c with asnCount := wbits v 0 16, home := BitVec.ofNat 2 (wbits v 16 2), en := v.getLsbD 24 }
      | _ => c
    { d with ctx := d.ctx.set (off / 32) c }
  else if off < 0x380 then
    let i := (off - 0x200) / 24
    let f := d.fmt.get {} i
    let f := match (off - 0x200) / 8 % 3 with
      | 0 => { f with base := w64 (wbits v 16 36 * 65536 + wbits v 0 4) }
      | 1 => { f with limit := w64 (wbits v 16 36 * 65536) }
      | _ => { f with scale := w64 (wbits v 7 45 * 128) }
    { d with fmt := d.fmt.set i f }
  else if off = 0x400 then { d with frostBase := wbits v 16 36 * 65536, frostOn := v.getLsbD 0 }
  else if off = 0x408 then { d with frostLimit := wbits v 16 36 * 65536 }
  else if off = 0x410 then { d with groot := wbits v 12 40 * 4096, grootOn := v.getLsbD 0 }
  else d

/-- A doubleword of the error log area of die `k` (R232). -/
def Die.logRead (d : Die) (k i : Nat) : Word :=
  match d.log[i / 4]? with
  | none => 0
  | some e => match i % 4 with
    | 0 => w64 (e.kind.toNat + k * 2 ^ 8 + e.where_.toNat * 2 ^ 16)
    | 1 => e.cyc
    | 2 => e.addr
    | _ => e.detail

/-! ## Client windows (R90, R91) -/

/-- The status word of a window (R91). -/
def Window.status (w : Window) : Word :=
  w64 (w.err.toNat * 16 + nb w.unassigned * 8 + nb w.halted * 4 + nb w.ready * 2)

/-- A doubleword of the control page (R91). -/
def Window.ctrl (w : Window) (off : Nat) : Word :=
  match off / 8 with
  | 0 => w.ident
  | 1 => w.status
  | 2 => w64 (w.cphead.toNat * 65536 + w.rqtail.toNat)
  | 3 => w.reqhead.setWidth 64
  | 4 => w.cpltail.setWidth 64
  | 5 => w.hostirq.setWidth 64
  | 6 => w.irqmask.setWidth 64
  | 7 => w.hwbase
  | 8 => w.epoch.setWidth 64
  | _ => 0

/-- A byte of a window. -/
def Window.byte (w : Window) (off : Nat) : Byte :=
  if off < 0x1000 then BitVec.ofNat 8 ((w.ctrl off).toNat / 256 ^ (off % 8)) else w.mem.get 0 off

/-- `n` bytes of a window as a number. -/
def Window.rd (w : Window) (off : Nat) : Nat → Nat
  | 0 => 0
  | n + 1 => (w.byte off).toNat + 256 * w.rd (off + 1) n

/-- Store `n` bytes above the control page. -/
def Window.wrMem (w : Window) (off v : Nat) : Nat → Window
  | 0 => w
  | n + 1 => { w with mem := w.mem.set off (BitVec.ofNat 8 v) }.wrMem (off + 1) (v / 256) n

/-- Set the causes of hostirq; a message goes out for each unmasked bit that rises (R94): vector 0 for cpl, 1 for err and epoch. -/
def Window.raise (w : Window) (bits : BitVec 3) : Window :=
  let new := bits &&& ~~~w.hostirq &&& ~~~w.irqmask
  let msgs : List (BitVec 1) := (if new.getLsbD 0 then [0] else []) ++ (if new.getLsbD 1 then [1] else []) ++ (if new.getLsbD 2 then [1] else [])
  { w with hostirq := w.hostirq ||| bits, msix := w.msix ++ msgs }

/-- A store of the device's own software to a window's control page (R90): it writes the device-owned fields. -/
def Window.devWrite (w : Window) (off : Nat) (v : Word) : Window :=
  match off / 8 with
  | 0 => { w with ident := w64 (v.toNat / 2 ^ 28 * 2 ^ 28) }
  | 1 => { w with err := v.extractLsb' 4 4, unassigned := v.getLsbD 3, halted := v.getLsbD 2, ready := v.getLsbD 1, flr := w.flr && !v.getLsbD 1 }
  | 2 => { w with cphead := v.extractLsb' 16 16, rqtail := v.extractLsb' 0 16 }
  | 3 => { w with reqhead := v.extractLsb' 0 7 }
  | 4 => { w with cpltail := v.extractLsb' 0 8 }
  | 5 => w.raise (v.extractLsb' 0 3)
  | 6 => { w with irqmask := v.extractLsb' 0 3 }
  | 7 => { w with hwbase := w64 (wbits v 42 22 * 2 ^ 42 + wbits v 0 1) }
  | 8 => { w with epoch := v.extractLsb' 0 32 }
  | _ => w

/-! ## Reads and writes of device pages (R85) -/

/-- The window of a device page. -/
def pageWindow (page : Nat) : Nat := page - 0x100

/-- A read of device register space: the value, and the machine when an access event is logged (R85). -/
def Mach.devRead (m : Mach) (die page off n : Nat) : Nat × Mach :=
  if 0x100 ≤ page then ((m.win (pageWindow page)).rd off n, m)
  else if n ≠ 8 || off % 8 ≠ 0 then (0, m.logErr die 0x0a 0 (w64 (page * 65536 + off)) 0)
  else
    let d := m.die die
    let v : Word :=
      if page = 0 then
        if off < 32 then (m.port (4 * die + off / 8)).status
        else if off = 0x20 then d.islReg
        else if off = 0x28 && die = 0 then m.dev.lcReq
        else if off = 0x7ff8 then w64 d.logLost
        else if 0x8000 ≤ off then d.logRead die ((off - 0x8000) / 8)
        else 0
      else if page = 1 then d.tfRead off
      else if off = 0 then (m.port (4 * die + (page - 0x10))).status else 0
    (v.toNat, m)

/-- A write to device register space (R85). -/
def Mach.devWrite (m : Mach) (die page off n v : Nat) : Mach :=
  if 0x100 ≤ page then
    if off < 0x1000 then
      let old := (m.win (pageWindow page)).rd (off / 8 * 8) 8
      let sh := 256 ^ (off % 8)
      let new := old - old / sh % 256 ^ n * sh + v % 256 ^ n * sh
      m.modWin (pageWindow page) (·.devWrite off (w64 new))
    else m.modWin (pageWindow page) (·.wrMem off v n)
  else if n ≠ 8 || off % 8 ≠ 0 then m.logErr die 0x0a 0 (w64 (page * 65536 + off)) 0
  else if page = 0 then
    if off < 32 then m.portWrite (4 * die + off / 8) (w64 v)
    else if off = 0x20 then m.islWrite die (w64 v)
    else if off = 0x28 && die = 0 then m.withDev fun d => { d with lcReq := w64 v }
    else m
  else if page = 1 then m.modDie die (·.tfWrite off (w64 v))
  else m

/-! ## Beyond the package -/

/-- A failed host window access (R87). DESIGN CHOICE, unsafe (log 161): the interrupt of the supervisor image is that of a link event, and its
first core takes it. -/
def Mach.hostFail (m : Mach) (vd : Nat) : Mach :=
  let m := m.modWin vd fun w => let x := { w with err := 3 }; if w.err = 0 then x.raise 2 else x
  match (m.vd vd).pid with
  | some p => m.irqPart p 0x05
  | none => m

/-- Host window accesses of a device go out (R87). -/
def Mach.hostOpen (m : Mach) (vd : Nat) : Bool := let w := m.win vd; w.hwbase.getLsbD 0 && !w.flr && !w.off
/-- The host address of an offset in a host window (R87). -/
def Mach.hostAddr (m : Mach) (vd off : Nat) : Nat := (m.win vd).hwbase.toNat / 2 ^ 42 * 2 ^ 42 + off % 2 ^ 42
/-- The side whose acceptance numbers a sequencer's accesses carry, and its next number. -/
def Mach.tickOf (m : Mach) (q : SeqId) : Nat := match q with | .side k _ => (m.side k.toNat).tick | .sup _ => 0
/-- A request beyond the package for an access of the instruction in hand. -/
def Mach.extReq (m : Mach) (host : Bool) (port off n : Nat) (wr : Bool) (v : Word) (pid : BitVec 4) (grp : Nat) : ExtReq :=
  { host := host, port := port, addr := if host then m.hostAddr port off else off, n := n, wr := wr, val := v, pid := pid, who := none
    issued := !host, grp := grp, pc := (match m.dev.vqNow with | some (_, e) => e.pc | none => m.me.pc)
    tick := (match m.dev.vqNow with | some (_, e) => e.tick | none => m.tickOf m.dev.cur) }

/-- The number of this move's store beyond the package. -/
def Mach.storeNo (m : Mach) : Nat × Mach :=
  match m.stNo with
  | some n => (n, m)
  | none => (m.dev.stores, { m with dev := { m.dev with stores := m.dev.stores + 1 }, stNo := some m.dev.stores })

/-- A store beyond the package leaves and waits for its acknowledgement, or is dropped at once (R16, R87). -/
def Mach.extStore (m : Mach) (pid : BitVec 4) (grp : Nat) (host : Bool) (port off n v : Nat) : Mach :=
  let (no, m1) := m.storeNo
  let m' := m1.withDev fun d => { d with ext := d.ext ++ [{ m.extReq host port off n true (w64 v) pid grp with no := no }] }
  if host then if m.hostOpen port then m' else m.hostFail port
  else if (m.port port).up then m'
  else (m.modPort port fun g => { g with dropped := min 65535 (g.dropped + 1) }).linkEvent port off 1

/-- A read beyond the package whose way is closed: poisoned bytes of free value (R16, R87). -/
def Mach.extShut (m : Mach) (host : Bool) (port off n : Nat) : (Nat × Bool) × Mach :=
  let (v, m) := m.poisonVal n
  if host then ((v, true), m.hostFail port)
  else ((v, true), (m.modPort port fun g => { g with poisoned := min 65535 (g.poisoned + 1) }).linkEvent port off 1)

/-- A read of one element beyond the package (R61, R86, R87). The elements of a move in one sector take their bytes from one read: from its
answer when it has come; else the instruction waits, and the read goes out unless it has. -/
def Mach.extLoad (m : Mach) (grp : Nat) (host : Bool) (port off n : Nat) : (Nat × Bool) × Mach :=
  let r := m.extReq host port (off / 128 * 128) 128 false 0 0 grp
  let mine := fun (e : ExtReq) =>
    e.who.isNone && !e.wr && e.host == host && e.port == port && e.addr == r.addr && e.grp == grp && (m.dev.vqNow.isNone || e.tick == r.tick)
  let pick := fun (e : ExtReq) => let (v, p) := e.ans.getD (0, true); (v.toNat / 2 ^ (8 * (off % 128)) % 256 ^ n, p)
  match m.took.find? mine, m.dev.ext.find? mine with
  | some e, _ => (pick e, m)
  | none, some e =>
    if e.ans.isSome then (pick e, { m with dev := { m.dev with ext := m.dev.ext.erase e }, took := m.took ++ [e] }) else ((0, false), m.stalls)
  | none, none =>
    if m.sent.any mine then ((0, false), { m with sent := m.sent.map fun e => if mine e then { e with els := e.els + 1 } else e })
    else if (if host then m.hostOpen port else (m.port port).up) then ((0, false), { m with sent := m.sent ++ [r] }.stalls)
    else m.extShut host port off n

/-- Forget the answers that the instructions of a group have not taken: they are done again from the start. -/
def Mach.dropReads (m : Mach) (grp : Nat) : Mach :=
  m.withDev fun d => { d with ext := d.ext.filter fun e => e.who.isSome || e.wr || e.grp != grp }

/-- The die that serves an address outside DRAM: that of the registers or the Gale port, and die 0, which holds the PCIe controller (R14, R19,
R85). -/
def ioDie (mpa : Nat) : Nat :=
  match region mpa with
  | .dev d _ _ => d
  | .gale p _ => p / 4
  | _ => 0
/-- The island of its die that an address outside DRAM lies on (R19): the always-on island holds the registers of page 0 and of the ports, island
5 the translation front, island 4 the Gale ports and the PCIe controller. -/
def ioIsland (mpa : Nat) : Nat :=
  match region mpa with
  | .dev _ p _ => if p = 1 then 5 else if 0x100 ≤ p then 4 else 7
  | _ => 4
/-- A request of a die comes to an address outside DRAM (R13, R18), whose storage is powered and not being wiped (R19, R27). -/
def Mach.ioReach (m : Mach) (die mpa : Nat) : Bool :=
  m.path die (ioDie mpa) && (m.die (ioDie mpa)).islState.getLsbD (ioIsland mpa)

/-- A read of `n` bytes outside DRAM; one that no path leads to is poisoned and logged (R18). -/
def Mach.ioRead (m : Mach) (grp mpa n : Nat) : (Nat × Bool) × Mach :=
  if region mpa != .reserved && !m.ioReach (grpDie grp) mpa then
    let (v, m) := m.poisonVal n
    ((v, true), m.logErr (grpDie grp) 0x08 0 (w64 mpa) 1)
  else match region mpa with
  | .dev d p o => let (v, m) := m.devRead d p o n; ((v, false), m)
  | .gale p o => m.extLoad grp false p o n
  | .host v o => m.extLoad grp true v o n
  | _ => let (v, m) := m.poisonVal n; ((v, true), m)

/-- A write of `n` bytes outside DRAM; one that no path leads to is dropped and logged (R18). -/
def Mach.ioWrite (m : Mach) (pid : BitVec 4) (grp mpa n v : Nat) : Mach :=
  if region mpa != .reserved && !m.ioReach (grpDie grp) mpa then m.logErr (grpDie grp) 0x08 0 (w64 mpa) 1
  else match region mpa with
  | .dev d p o => m.devWrite d p o n v
  | .gale p o => m.extStore pid grp false p o n v
  | .host w o => m.extStore pid grp true w o n v
  | _ => m

end Sys2Proof.Machine
end

