-- ==== Sys2Proof/Machine/Cache.lean ====
section
/-! DEFINITION. Data below the registers: channels with their combining buffers and undo log (R67, R69 to R75), L2 (R160, R161), causal
batches (R197, R198), L1 (R158, R159) and the scopes that move data between them (R189 to R200). -/

namespace Sys2Proof.Machine
open Sys2Proof

/-! ## Causal batches (R197, R198) -/

/-- A component of a die's vector clock. -/
def Mach.vc (m : Mach) (d k : Nat) : Nat := (m.die d).vc.get 0 k
/-- The vector clock of a die as a list. -/
def Mach.vcList (m : Mach) (d : Nat) : List Nat := (List.range 4).map (m.vc d)
/-- `a` is at or past `b`, compared as a difference modulo 2^32 (R197). -/
def clockGe (a b : Nat) : Bool := (a + 2 ^ 32 - b % 2 ^ 32) % 2 ^ 32 < 2 ^ 31
/-- The die that a write of a batch goes to. -/
def BWrite.die : BWrite → Nat
  | .sec mpa .. => dieOfMpa mpa
  | .upd u => dieOfMpa u.mpa
/-- The line that a write of a batch touches. -/
def BWrite.line : BWrite → Nat
  | .sec mpa .. => mpa / 1024
  | .upd u => u.mpa / 1024

/-- A die may close its batch: no other die holds 1,024 unapplied batches of it (R197). -/
def Mach.canClose (m : Mach) (d : Nat) : Bool :=
  (List.range 4).all fun e => e == d || ((m.die e).rx.filter fun b => b.src.toNat == d).length < 1024

/-- Close the open batch of a die (R198): its clock rises, and every other die that it reaches receives its part or the header. The
part of a die that no path leads to is dropped with an event (R18); DESIGN CHOICE, unsafe (log 160): one event for each such die, with its first
address and the number of writes. While a die holds 1,024 of its batches, it waits (R197). -/
def Mach.closeBatch (m : Mach) (d : Nat) : Mach :=
  let x := m.die d
  if x.batch.isEmpty then m
  else if !m.canClose d then m.stalls
  else
    let m := m.setDie d { x with batch := [], batchAge := 0, vc := x.vc.set d ((x.vc.get 0 d + 1) % 2 ^ 32) }
    let st := m.vcList d
    (List.range 4).foldl (fun m e =>
      let part := x.batch.filter (·.die == e)
      if e = d then m
      else if !m.reach d e then (if part.isEmpty || (m.die e).resetting then m else m.logErr d 0x08 0 (w64 (e * 2 ^ 37)) (w64 part.length))
      else m.modDie e fun y => { y with rx := y.rx ++ [⟨BitVec.ofNat 2 d, st, part⟩] }) m

/-- Put a write into the open batch (R198); a batch of 64 sectors closes. DESIGN CHOICE, unsafe (log 168): each write counts, a bank update and a
repeated sector too. -/
def Mach.batchPush (m : Mach) (d : Nat) (w : BWrite) : Mach :=
  let m := m.modDie d fun x => { x with batch := x.batch ++ [w] }
  if 64 ≤ (m.die d).batch.length then m.closeBatch d else m

/-- A move that waits for a read keeps the closing of its die's batch that the read has caused (R198). -/
def Mach.keepClose (m0 m : Mach) (die : Nat) : Mach := if (m.die die).batch.isEmpty then m0.closeBatch die else m0

/-! ## L2 (R160, R161) -/

/-- The slice and set of a line (R160). -/
def l2Place (asn : BitVec 16) (sec : Nat) : Nat × Nat :=
  let va := sec * 128
  let a := va / 2 ^ 10 % 2 ^ 20
  let b := va / 2 ^ 30 % 2 ^ 20
  let c := va / 2 ^ 50 % 2 ^ 7 * 2 ^ 13 + asn.toNat % 2 ^ 13
  ((a ^^^ b ^^^ c ^^^ (asn.toNat / 2 ^ 13)) % 384, va / 2 ^ 10 % 16)

/-- A write-back into a line that an instruction cache of the die has filled from drops it there (R162). -/
def Mach.icDrop (m : Mach) (die : Nat) (pid : BitVec 4) (asn : BitVec 16) (line : Nat) : Mach :=
  m.withDev fun d =>
    { d with cores := d.cores.map fun (k, c) =>
        if dieOfCore k = die then (k, { c with ic := c.ic.filter fun s => !(s.pid == pid && s.asn == asn && s.sec / 8 == line) }) else (k, c) }

/-- A write that no path leads to its die's memory is dropped and logged (R18, R21). -/
def Mach.lostWrite (m : Mach) (die mpa : Nat) : Mach := m.logErr die 0x08 0 (w64 mpa) 1

/-- Write the dirty bytes of an L2 sector below it (R159, R161): to the channel, or into the open batch when the frame is remote. A
sector whose translation has gone is dropped with an event (R58), as one is to which no path leads (R18). None when a Frost sector finds no log
space. -/
def Mach.l2Down (m : Mach) (die : Nat) (s : L2Sec) (forced : Bool) : Option Mach :=
  if s.mask = 0 && !s.pois then some m
  else
    let va := s.sec * 128
    let (f, m) := m.frameOf die (some s.pid) s.asn va
    match f with
    | none => some (m.goneEvent die (some s.pid) s.asn va 1)
    | some (mpa, frost) =>
      if s.mask = 0 then some m
      else if !m.reach die (dieOfMpa mpa) then some (m.lostWrite die mpa)
      else if dieOfMpa mpa = die then m.chanWrite mpa s.data s.mask s.pois frost s.pid forced
      else some (m.batchPush die (.sec mpa s.data s.mask s.pois frost s.pid forced))

/-- Same tags. -/
def L2Sec.is (s : L2Sec) (pid : BitVec 4) (asn : BitVec 16) (sec : Nat) : Bool := s.pid == pid && s.asn == asn && s.sec == sec
/-- Same line. -/
def L2Sec.inLine (s : L2Sec) (pid : BitVec 4) (asn : BitVec 16) (line : Nat) : Bool :=
  s.pid == pid && s.asn == asn && s.sec / 8 == line

/-- Write back and drop every sector of a line (R67, R192). -/
def Mach.l2Evict (m : Mach) (die : Nat) (pid : BitVec 4) (asn : BitVec 16) (line : Nat) (forced : Bool) : Option Mach :=
  let ss := (m.die die).l2.filter (·.inLine pid asn line)
  let m? := ss.foldl (fun m? s => m?.bind fun m => m.l2Down die s forced) (some m)
  m?.map fun m => m.modDie die fun d => { d with l2 := d.l2.filter fun s => !s.inLine pid asn line }

/-- The lines of a slice and set, most recently used first, without repeats. -/
def linesOf (ss : List L2Sec) (place : Nat × Nat) : List (BitVec 4 × BitVec 16 × Nat × Bool) :=
  ss.foldl (fun acc s =>
    if l2Place s.asn s.sec = place && !acc.any (fun x => s.inLine x.1 x.2.1 x.2.2.1) then acc ++ [(s.pid, s.asn, s.sec / 8, s.pinned)]
    else acc) []

/-- Try to evict lines from the least recently used on until one goes. -/
def Mach.evictFirst (m : Mach) (die : Nat) : List (BitVec 4 × BitVec 16 × Nat × Bool) → Option Mach
  | [] => none
  | (p, a, l, _) :: r => match m.l2Evict die p a l false with
    | some m => some m
    | none => m.evictFirst die r

/-- Room in L2 for a line (R160, R62): at most 16 lines in a set, pinned lines at most half of them. -/
def Mach.l2Room (m : Mach) (die : Nat) (pid : BitVec 4) (asn : BitVec 16) (sec : Nat) (pin : Bool) : Option Mach :=
  let ls := linesOf (m.die die).l2 (l2Place asn sec)
  if ls.any (fun x => x.1 == pid && x.2.1 == asn && x.2.2.1 == sec / 8) then some m
  else
    let pins := ls.filter (·.2.2.2)
    if pin && 8 ≤ pins.length then
      let k := (l2Place asn sec).1
      (m.modDie die fun d => { d with pinOver := d.pinOver.set k (d.pinOver.get 0 k + 1) }).evictFirst die pins.reverse
    else if ls.length < 16 then some m
    else m.evictFirst die ((ls.filter (!·.2.2.2)).reverse ++ pins.reverse)

/-- Put a sector at the front of L2. -/
def Mach.l2Put (m : Mach) (die : Nat) (s : L2Sec) : Mach :=
  m.modDie die fun d => { d with l2 := s :: d.l2.filter fun o => !o.is s.pid s.asn s.sec }

/-- A channel access that does not come from a line's own home slice writes back and drops that line in L2 first (R192), and with it
the copies of the die's instruction caches (R162). -/
def Mach.snoop (m : Mach) (mpa : Nat) (forced : Bool) : Option Mach :=
  let d := dieOfMpa mpa
  ((m.die d).own.filter fun o => o.frame == mpa / 65536).foldl (fun m? o =>
    let line := (o.vpn * 65536 + mpa % 65536) / 1024
    m?.bind fun m => (m.l2Evict d o.pid o.asn line forced).map (·.icDrop d o.pid o.asn line)) (some m)

/-- Write back and drop in L2 every line of a range of machine addresses, and every buffered one (R67, R192). -/
def Mach.clearLines (m : Mach) (a n : Nat) : Mach :=
  (List.range ((a % 1024 + n + 1023) / 1024)).foldl (fun m i =>
    let x := a / 1024 * 1024 + 1024 * i
    (m.must (m.snoop x false)).combFlush x) m

/-- Bytes at machine addresses, read at their channels from outside every cache (R103, R192, R297): the number, and whether a sector of it is
poisoned. -/
def Mach.physGet (m : Mach) (a n : Nat) : (Nat × Bool) × Mach :=
  let m := m.clearLines a n
  ((m.rd a n, (List.range ((a % 128 + n + 127) / 128)).any fun i => m.poisonAt (a + 128 * i)), m)

/-- Store bytes at machine addresses from outside every cache (R72, R103, R192, R210, R297); without room in an undo log it waits. -/
def Mach.physPut (m : Mach) (a n v : Nat) (frost : Bool) (pid : BitVec 4) : Mach :=
  let m := m.clearLines a n
  m.must (m.chanPut a n v frost pid)

/-- The format tag of a frame on the die that translates it (R64, R66): the lowest enabled range that covers it; none for plain. -/
def Die.tagOf (d : Die) (mpa : Nat) : Option (BitVec 3 × Nat) :=
  let hit := (List.range 16).find? fun i =>
    let f := d.fmt.get {} i
    let lo := wbits f.base 16 36
    let hi := wbits f.limit 16 36
    f.base.getLsbD 0 && wbits f.base 1 3 < 4 && lo ≤ hi && lo ≤ mpa / 65536 && mpa / 65536 ≤ hi
  match hit with
  | none => none
  | some i => let k := wbits (d.fmt.get {} i).base 1 3; if k = 0 then none else some (BitVec.ofNat 3 k, i)

/-- A remote read of a line waits until the owner's clock is at or past the reader's (R199). -/
def Mach.remoteOk (m : Mach) (die o : Nat) : Bool :=
  (List.range 4).all fun k => k == o || clockGe (m.vc o k) (m.vc die k)

/-- The reply of die `o` to a remote access of a die carries the clock of `o` (R199). -/
def Mach.noteClock (m : Mach) (die o : Nat) : Mach :=
  m.modDie die fun d =>
    { d with seen := (List.range 4).map fun k =>
        (k, let x := d.seen.get 0 k; let y := m.vc o k; if clockGe x y then x else y) }

/-- The clock of a die is at or past that of the owner of a line, for every die that it can hear of (R199). -/
def Mach.replyOk (m : Mach) (die o : Nat) : Bool :=
  (List.range 4).all fun k => k == die || !m.reach die k || clockGe (m.vc die k) (m.vc o k)

/-- A remote access to a line with a write in the open batch closes the batch (R198). -/
def Mach.closeFor (m : Mach) (die mpa : Nat) : Mach :=
  if (m.die die).batch.any (·.line == mpa / 1024) then m.closeBatch die else m

/-- A sector below L2: read at its channel, from the die that translates it (R38). Poisoned bytes when there is no frame (R58) or no
path to its die (R18).
DEDUCED, unsafe (log 74). -/
def Mach.below (m : Mach) (die : Nat) (pid : Option (BitVec 4)) (asn : BitVec 16) (va : Nat) (outside : Bool) :
    (Sector × Bool × Option (BitVec 3 × Nat) × Bool) × Mach :=
  let (f, m) := m.frameOf die pid asn va
  match f with
  | none =>
    let (v, m) := m.poisonVal 128
    ((BitVec.ofNat 1024 v, true, none, false), m.goneEvent die pid asn va 2)
  | some (mpa, _) =>
    if 2 ^ 39 ≤ mpa then
      let ((v, p), m) := (List.range 16).foldl (fun ((v, p), m) i =>
        let ((x, q), m) := m.ioRead (2048 + die) (mpa / 128 * 128 + 8 * i) 8
        ((v + x * 2 ^ (64 * i), p || q), m)) ((0, false), m)
      ((BitVec.ofNat 1024 v, p, none, false), m)
    else if !m.reach die (dieOfMpa mpa) then
      let (v, m) := m.poisonVal 128
      ((BitVec.ofNat 1024 v, true, none, false), m.logErr die 0x08 0 (w64 mpa) 1)
    else
      let m := if dieOfMpa mpa = die then m else (m.closeFor die mpa).noteClock die (dieOfMpa mpa)
      let m := if outside || dieOfMpa mpa ≠ die then m.must (m.snoop mpa false) else m
      let ((data, p), m) := m.chanRead mpa
      ((data, p, (m.die die).tagOf mpa, dieOfMpa mpa != die), m)

/-- Read a sector through L2 (R160, R62): a hit with every byte is served; a miss fetches and, with home attribute 0 or 1, allocates. -/
def Mach.l2Read (m : Mach) (die : Nat) (pid : BitVec 4) (asn : BitVec 16) (sec : Nat) (home : BitVec 2) (alloc imark : Bool) :
    (Sector × Bool × Option (BitVec 3 × Nat)) × Mach :=
  match (m.die die).l2.find? (·.is pid asn sec) with
  | some s =>
    if s.have_ = fullMask then
      ((s.data, s.pois, s.tag), m.l2Put die { s with imark := s.imark || imark })
    else
      let ((d, p, t, rem), m) := m.below die (some pid) asn (sec * 128) false
      let s := { s with data := mergeSec d s.data s.have_, have_ := fullMask, pois := s.pois || p, tag := t, remote := rem, imark := s.imark || imark }
      ((s.data, s.pois, s.tag), m.l2Put die s)
  | none =>
    let ((d, p, t, rem), m) := m.below die (some pid) asn (sec * 128) false
    let out := (d, p, t)
    if alloc && home.toNat < 2 then
      match m.l2Room die pid asn sec (home == 1) with
      | some m => (out, m.l2Put die ⟨pid, asn, sec, d, fullMask, 0, p, t, rem, imark, home == 1⟩)
      | none => (out, m)
    else (out, m)

/-- A line is marked: an instruction cache of the die has filled from it (R162). The mark outlives the line's stay in L2, as long as an instruction
cache holds a copy. -/
def Mach.lineMarked (m : Mach) (die : Nat) (pid : BitVec 4) (asn : BitVec 16) (line : Nat) : Bool :=
  (m.die die).l2.any (fun s => s.inLine pid asn line && s.imark)
    || m.dev.cores.any fun (k, c) => dieOfCore k == die && c.ic.any fun s => s.pid == pid && s.asn == asn && s.sec / 8 == line

/-- Write masked bytes into L2 (R159): into the sector when it is there, into a new one, or below when none can be had. A marked line goes
from the instruction caches first (R162). -/
def Mach.l2Write (m : Mach) (die : Nat) (pid : BitVec 4) (asn : BitVec 16) (sec : Nat) (data : Sector) (mask : SMask) (pois : Bool)
    (home : BitVec 2) (forced : Bool) : Mach :=
  let fullClean := mask == fullMask && !pois
  let m := if m.lineMarked die pid asn (sec / 8) then m.icDrop die pid asn (sec / 8) else m
  match (m.die die).l2.find? (·.is pid asn sec) with
  | some s =>
    m.l2Put die { s with data := mergeSec s.data data mask, have_ := s.have_ ||| mask, mask := s.mask ||| mask
                         pois := if fullClean then false else s.pois || pois, imark := false }
  | none =>
    let (f, m) := m.frameOf die (some pid) asn (sec * 128)
    match f with
    | none => m.goneEvent die (some pid) asn (sec * 128) 1
    | some (mpa, frost) =>
      let rem := dieOfMpa mpa != die
      let tag := (m.die die).tagOf mpa
      let room := if home.toNat < 2 then m.l2Room die pid asn sec (home == 1) else none
      match room with
      | some m => m.l2Put die ⟨pid, asn, sec, data, mask, mask, pois, tag, rem, false, home == 1⟩
      | none =>
        if !m.reach die (dieOfMpa mpa) then m.lostWrite die mpa
        else if rem then m.batchPush die (.sec mpa data mask pois frost pid forced)
        else m.must (m.chanWrite mpa data mask pois frost pid forced)

/-! ## L1 (R57, R158, R159) -/

/-- Same tags. -/
def L1Sec.is (s : L1Sec) (pid : BitVec 4) (asn : BitVec 16) (sec : Nat) : Bool := s.pid == pid && s.asn == asn && s.sec == sec

/-- Write one L1 sector's dirty bytes through to L2 and leave it clean (R159). Only pages of home attribute 0 have dirty sectors in L1. -/
def Mach.l1Down (m : Mach) (core : Nat) (s : L1Sec) (forced : Bool) : Mach :=
  if s.mask = 0 || s.held.isSome then m
  else
    let m := m.l2Write (dieOfCore core) s.pid s.asn s.sec s.data s.mask s.pois 0 forced
    m.modCore core fun c => { c with l1 := c.l1.map fun o => if o.is s.pid s.asn s.sec then { o with mask := 0 } else o }

/-- The lines of an L1 set, most recently used first: tag, line, and whether a sector is held. -/
def l1Lines (ss : List L1Sec) (set : Nat) : List (BitVec 4 × BitVec 16 × Nat) :=
  ss.foldl (fun acc s =>
    if s.sec / 8 % 16 = set && !acc.any (fun x => s.pid == x.1 && s.asn == x.2.1 && s.sec / 8 == x.2.2) then acc ++ [(s.pid, s.asn, s.sec / 8)]
    else acc) []

/-- Room in L1 for a line (R57, R158): the least recently used line without a held sector goes; none when there is no such line. -/
def Mach.l1Room (m : Mach) (core : Nat) (pid : BitVec 4) (asn : BitVec 16) (sec : Nat) : Option Mach :=
  let ss := (m.core core).l1
  let ls := l1Lines ss (sec / 8 % 16)
  if ls.any (fun x => x.1 == pid && x.2.1 == asn && x.2.2 == sec / 8) || ls.length < 16 then some m
  else
    let inl := fun (x : BitVec 4 × BitVec 16 × Nat) (s : L1Sec) => s.pid == x.1 && s.asn == x.2.1 && s.sec / 8 == x.2.2
    match ls.reverse.find? fun x => !ss.any fun s => inl x s && s.held.isSome with
    | none => none
    | some x =>
      let m := (ss.filter (inl x)).foldl (fun m s => m.l1Down core s false) m
      some (m.modCore core fun c => { c with l1 := c.l1.filter fun s => !inl x s })

/-- Put a sector at the front of an L1. -/
def Mach.l1Put (m : Mach) (core : Nat) (s : L1Sec) : Mach :=
  m.modCore core fun c => { c with l1 := s :: c.l1.filter fun o => !o.is s.pid s.asn s.sec }

/-- The other side's unconfirmed store holds the sector (R57). -/
def Mach.heldByOther (m : Mach) (a : Acc) (va : Nat) : Bool :=
  (m.core a.core).l1.any fun s => s.is a.tagPid (asnTag a.asn va) (va / 128) && (match s.held with | some g => g != a.grp | none => false)

/-- A sector as the reader sees it: bytes, poison, format tag. The read allocates as the home attribute says (R62); `byp` is the
bypass of R63, over which a home attribute other than 0 takes precedence. A fill that finds no way in L1 waits (R57). -/
def Mach.readSec (m : Mach) (a : Acc) (r : Rights) (va : Nat) (byp : Bool) : (Sector × Bool × Option (BitVec 3 × Nat)) × Mach :=
  let asn := asnTag a.asn va
  if r.home = 3 then
    let ((d, p, t, _), m) := m.below a.die a.pid asn va true
    ((d, p, t), m)
  else
    let sec := va / 128
    match (m.core a.core).l1.find? (·.is a.tagPid asn sec) with
    | some s =>
      if s.have_ = fullMask then ((s.data, s.pois, none), m.l1Put a.core s)
      else
        let ((d, p, _), m) := m.l2Read a.die a.tagPid asn sec r.home (!byp || r.home == 1) false
        let whole := { s with data := mergeSec d s.data s.have_, have_ := fullMask, pois := s.pois || p }
        ((whole.data, whole.pois, none), m.l1Put a.core (if byp then s else whole))
    | none =>
      let ((d, p, t), m) := m.l2Read a.die a.tagPid asn sec r.home (!byp || r.home == 1) false
      if r.home = 0 && !byp && t.isNone then
        ((d, p, t), m.must ((m.l1Room a.core a.tagPid asn sec).map (·.l1Put a.core ⟨a.tagPid, asn, sec, d, fullMask, 0, none, p, []⟩)))
      else ((d, p, t), m)

/-- A sector with the format tag it has on its way out of L2 (R66); bytes that the core's own stores hold in L1 lie over it. -/
def Mach.readTagged (m : Mach) (a : Acc) (r : Rights) (va : Nat) (byp : Bool) : (Sector × Bool × Option (BitVec 3 × Nat)) × Mach :=
  let asn := asnTag a.asn va
  if r.home = 3 then
    let ((d, p, t, _), m) := m.below a.die a.pid asn va true
    ((d, p, t), m)
  else
    let ((d, p, t), m) := m.l2Read a.die a.tagPid asn (va / 128) r.home (!byp || r.home == 1) false
    match (m.core a.core).l1.find? (·.is a.tagPid asn (va / 128)) with
    | some s => ((mergeSec d s.data s.mask, p || (s.pois && s.mask != 0), t), m)
    | none => ((d, p, t), m)

/-- `n` bytes inside one sector: their value and poison. -/
def Mach.readBytes (m : Mach) (a : Acc) (r : Rights) (va n : Nat) (byp : Bool) : (Nat × Bool) × Mach :=
  let ((d, p, _), m) := m.readSec a r va byp
  ((d.toNat / 2 ^ (8 * (va % 128)) % 256 ^ n, p), m)

/-- Where a store to an address beyond DRAM, or one that no cache takes, goes (R62, R84): straight to the channel or the device. -/
def Mach.writeThrough (m : Mach) (a : Acc) (va : Nat) (data : Sector) (mask : SMask) (pois : Bool) (n : Nat) : Mach :=
  let asn := asnTag a.asn va
  let (f, m) := m.frameOf a.die a.pid asn va
  match f with
  | none => m.goneEvent a.die a.pid asn va 1
  | some (mpa, frost) =>
    if 2 ^ 39 ≤ mpa then m.ioWrite a.tagPid a.grp mpa n (data.toNat / 2 ^ (8 * (va % 128)) % 256 ^ n)
    else if !m.reach a.die (dieOfMpa mpa) then m.lostWrite a.die mpa
    else if dieOfMpa mpa ≠ a.die then m.batchPush a.die (.sec (mpa / 128 * 128) data mask pois frost a.tagPid false)
    else
      m.must ((m.snoop mpa false).bind (·.chanWrite mpa data mask pois frost a.tagPid false))

/-- Store masked bytes of one sector, confirmed (R53): into L1 for normal pages, into L2 for pinned ones, through for the rest. -/
def Mach.storeSec (m : Mach) (a : Acc) (r : Rights) (va : Nat) (data : Sector) (mask : SMask) (pois : Bool) (n : Nat) : Mach :=
  let asn := asnTag a.asn va
  let sec := va / 128
  let clean := mask == fullMask && !pois
  if r.home = 3 then m.writeThrough a va data mask pois n
  else
    match (m.core a.core).l1.find? (·.is a.tagPid asn sec) with
    | some s =>
      m.l1Put a.core { s with data := mergeSec s.data data mask, have_ := s.have_ ||| mask, mask := s.mask ||| mask
                              pois := if clean then false else s.pois || pois
                              parts := s.parts.map fun (n, k) => (n, k &&& ~~~mask) }
    | none =>
      if r.home = 0 then
        m.must ((m.l1Room a.core a.tagPid asn sec).map (·.l1Put a.core ⟨a.tagPid, asn, sec, data, mask, mask, none, pois, []⟩))
      else m.l2Write a.die a.tagPid asn sec data mask pois r.home false

/-- An L1 sector made whole by a fill, when its page can be read (R57). -/
def Mach.fillSec (m : Mach) (a : Acc) (va : Nat) (s : L1Sec) : L1Sec × Mach :=
  if s.have_ = fullMask then (s, m)
  else match m.walk a.die s.pid s.asn va with
    | .error _ => (s, m)
    | .ok t =>
      let ((d, p, _), m) := m.l2Read a.die s.pid s.asn s.sec t.home false false
      ({ s with data := mergeSec d s.data s.have_, have_ := fullMask, pois := s.pois || p }, m)

/-- Store masked bytes of one sector, held unconfirmed for the attribution entry `ser` (R53, R57). The bytes that L1 lacks come from a fill when
the page can be read as the store retires. None when L1 has no room. -/
def Mach.holdSec (m : Mach) (a : Acc) (va : Nat) (data : Sector) (mask : SMask) (pois : Bool) (ser : Nat) : Option Mach :=
  let asn := asnTag a.asn va
  let sec := va / 128
  let put := fun (s : L1Sec) (m : Mach) =>
    let (s, m) := m.fillSec a va s
    m.l1Put a.core { s with data := mergeSec s.data data mask, have_ := s.have_ ||| mask, mask := s.mask ||| mask
                            pois := s.pois || pois, held := some a.grp
                            parts := (s.parts.map fun (n, k) => (n, k &&& ~~~mask)) ++ [(ser, mask)] }
  match (m.core a.core).l1.find? (·.is a.tagPid asn sec) with
  | some s => some (put s m)
  | none => (m.l1Room a.core a.tagPid asn sec).map (put ⟨a.tagPid, asn, sec, 0, 0, 0, none, false, []⟩)

/-! ## Releases and acquires (R189, R192, R200) -/

/-- Write every dirty sector of a core's L1 through to L2 (R192). -/
def Mach.l1Flush (m : Mach) (core : Nat) (forced : Bool) : Mach :=
  (m.core core).l1.foldl (fun m s => m.l1Down core s forced) m

/-- Write the dirty remote sectors of a die's L2 into the open batch (R200). -/
def Mach.remoteFlush (m : Mach) (die : Nat) : Mach :=
  ((m.die die).l2.filter fun s => s.remote && s.mask != 0).foldl (fun m s =>
    (m.must (m.l2Down die s false)).modDie die fun d =>
      { d with l2 := d.l2.map fun o => if o.is s.pid s.asn s.sec then { o with mask := 0 } else o }) m

/-- Write every buffered line of the Frost ranges back (R73). -/
def Mach.frostComb (m : Mach) : Mach :=
  (List.range 4).foldl (fun m die => (m.die die).comb.foldl (fun m c => if m.inFrost (c.line * 1024) then m.combFlush (c.line * 1024) else m) m) m

/-- Write every dirty sector of a partition's Frost pages down, on every die, and its own core's L1 first (R73, R204). -/
def Mach.frostFlush (m : Mach) (core : Nat) (pid : BitVec 4) : Mach :=
  let m := (m.l1Flush core true).frostComb
  (List.range 4).foldl (fun m die =>
    ((m.die die).l2.filter fun s => s.pid == pid && s.mask != 0).foldl (fun m s =>
      match (m.frameOf die (some pid) s.asn (s.sec * 128)).1 with
      | some (_, true) =>
        (m.must (m.l2Down die s true)).modDie die fun d =>
          { d with l2 := d.l2.map fun o => if o.is s.pid s.asn s.sec then { o with mask := 0 } else o }
      | _ => m) m) m

/-- The rank of a scope (R186, R187). On a supervisor core the cluster scope acts as die scope. -/
def scopeRank : Scope → Nat
  | .seq => 0
  | .core => 1
  | .cl => 2
  | .die => 3
  | .dev => 4
  | .sys => 5
  | .rc => 6

/-- A write of a batch that a release at recovery scope of partition `p` covers (R75). -/
def BWrite.force (p : BitVec 4) : BWrite → BWrite
  | .sec mpa data mask pois frost q f => .sec mpa data mask pois frost q (f || q == p)
  | .upd u => .upd { u with forced := u.forced || u.pid == p }
/-- What a die still has to write for a partition may use the reserve of the undo log, since a release at recovery scope waits for it (R75). -/
def Die.force (p : BitVec 4) (d : Die) : Die :=
  { d with upds := d.upds.map fun u => { u with forced := u.forced || u.pid == p }
           batch := d.batch.map (·.force p)
           rx := d.rx.map fun b => { b with ws := b.ws.map (·.force p) } }

/-- The data movement of a release at a scope (R192, R200). -/
def Mach.releaseData (m : Mach) (a : Acc) (sc : Scope) : Mach :=
  let m := if 2 ≤ scopeRank sc then m.l1Flush a.core (sc == .rc) else m
  let m := if sc = .rc then (m.frostFlush a.core a.tagPid).withDev fun d => { d with dies := d.dies.map fun (k, x) => (k, x.force a.tagPid) }
    else m
  if 4 ≤ scopeRank sc then (m.remoteFlush a.die).closeBatch a.die else m

/-- An acquire of cluster scope or wider keeps of an L1 sector the bytes its core has stored; clean sectors go (R159). -/
def Mach.l1Acquire (m : Mach) (core : Nat) : Mach :=
  m.modCore core fun c =>
    let keep (s : L1Sec) : Option L1Sec :=
      if s.held.isSome then some s else if s.mask = 0 then none else some { s with have_ := s.mask }
    { c with l1 := c.l1.filterMap keep }

/-- An acquire of device scope or wider drops the remote sectors of its die's L2 (R161, R200). -/
def Mach.l2Acquire (m : Mach) (die : Nat) : Mach :=
  m.modDie die fun d =>
    let keep (s : L2Sec) : Option L2Sec :=
      if !s.remote then some s else if s.mask = 0 then none else some { s with have_ := s.mask }
    { d with l2 := d.l2.filterMap keep }

/-- The data movement of an acquire at a scope. At device scope or wider the core's instruction cache goes too: no mark stands for what
other dies have written (R162). -/
def Mach.acquireData (m : Mach) (a : Acc) (sc : Scope) : Mach :=
  let m := if 2 ≤ scopeRank sc then m.l1Acquire a.core else m
  if 4 ≤ scopeRank sc then (m.l2Acquire a.die).modCore a.core fun c => { c with ic := [] } else m

/-- The die's clock is at or past every clock that a reply to it has carried, for every die that it can hear of; an acquire at device
scope or wider waits for it (R199). DEDUCED (log 13): the replies of all reads of the die count, which is unsafe for claims that a fence
returns early. -/
def Mach.caughtUp (m : Mach) (die : Nat) : Bool :=
  (List.range 4).all fun k => k == die || !m.reach die k || clockGe (m.vc die k) ((m.die die).seen.get 0 k)

/-- The die has applied every batch that any die has closed; a release at recovery scope waits for it (R73). DEDUCED (log 138), safe. -/
def Mach.allApplied (m : Mach) (die : Nat) : Bool :=
  (List.range 4).all fun k => k == die || !m.reach die k || clockGe (m.vc die k) (m.vc k k)

/-- No access of the partition beyond the package is still open (R16, R201).
DEDUCED, safe (log 125). -/
def Mach.extDone (m : Mach) (pid : BitVec 4) : Bool := !m.dev.ext.any fun e => e.wr && e.pid == pid

end Sys2Proof.Machine
end

