-- ==== Sys2Proof/Machine/Ops.lean ====
section
/-! DEFINITION. The operations the meanings share: registers, the next PC and hardware loops, taking a trap and returning from one,
fetching, issuing an instruction, the store path and its deferred faults, and the vector queue. -/

namespace Sys2Proof.Machine
open Sys2Proof

/-! ## Scalar registers (R133 to R138) -/

/-- An `x` register: x0 reads as zero, full and unpoisoned (R133). -/
def Seq.reg (q : Seq) (r : BitVec 5) : XReg := if r = 0 then {} else q.x.get {} r.toNat
/-- Set an `x` register; x0 discards the write (R133). -/
def Seq.setReg (q : Seq) (r : BitVec 5) (x : XReg) : Seq := if r = 0 then q else { q with x := q.x.set r.toNat x }
/-- An `x` register of the sequencer that moves. -/
def Mach.x (m : Mach) (r : BitVec 5) : XReg := m.me.reg r
/-- The value of a source. -/
def Mach.val (m : Mach) (s : Src) : Word := (m.x s.r).val
/-- Write a register full and unpoisoned. -/
def Mach.wx (m : Mach) (d : Reg) (v : Word) : Mach := m.modMe (·.setReg d ⟨v, true, false⟩)
/-- Write a register full with a poison bit. -/
def Mach.wxp (m : Mach) (d : Reg) (v : Word) (p : Bool) : Mach := m.modMe (·.setReg d ⟨v, true, p⟩)
/-- Mark a register empty (R135); it keeps its old value until it is filled (R138). -/
def Mach.empty (m : Mach) (d : Reg) : Mach := m.modMe fun q => q.setReg d { q.reg d with full := false }
/-- Fill a register of a sequencer (R135). -/
def Mach.fill (m : Mach) (q : SeqId) (d : Reg) (v : Word) (p : Bool) : Mach := m.modSeq q (·.setReg d ⟨v, true, p⟩)
/-- Send a value on its way to an empty register. -/
def Mach.send (m : Mach) (d : Reg) (v : Word) (p : Bool) : Mach :=
  (m.empty d).withDev fun x => { x with arrivals := x.arrivals ++ [⟨x.cur, d, v, p⟩] }
/-- Let every value on its way to a sequencer arrive (R137). -/
def Mach.drainArrivals (m : Mach) (q : SeqId) : Mach :=
  let mine := m.dev.arrivals.filter (·.q == q)
  let m := m.withDev fun x => { x with arrivals := x.arrivals.filter (·.q != q) }
  mine.foldl (fun m a => m.fill a.q a.d a.val a.pois) m
/-- A sequencer that `f` names awaits the value of a remote read or of one beyond the package. -/
def Mach.asks (m : Mach) (f : SeqId → Bool) : Bool := m.dev.remote.any (fun r => f r.who) || m.dev.ext.any (·.fills f)
/-- A sequencer still waits for a value that only an event can bring. -/
def Mach.owed (m : Mach) (q : SeqId) : Bool :=
  m.asks (· == q)
    || (match q with | .side k .P => !(m.side k.toNat).vq.isEmpty | _ => false)
    || (match q with | .side k r => (List.range 8).any (fun i => ((m.side k.toNat).mb.get {} i).getters.any (·.1 == r)) | _ => false)

/-! ## PCs, targets and loops (R243, R244, R286 to R289) -/

/-- The base of the line of a PC. -/
def lineBase (pc : Word) : Word := pc &&& ~~~63#64
/-- The slot of a PC. -/
def slotOf (pc : Word) : Nat := (pc.extractLsb' 1 5).toNat
/-- The fall-through successor in a line of `n` instructions (R243). -/
def nextPc (pc : Word) (n : Nat) : Word := if slotOf pc < n then pc + 2 else lineBase pc + 66
/-- The instruction count of the line a sequencer executes from. -/
def Seq.lineN (q : Seq) : Nat := match q.line with | some l => Line.count l.bits | none => 1
/-- The fall-through successor of a sequencer's PC. -/
def Seq.next (q : Seq) : Word := nextPc q.pc q.lineN
/-- A line-and-slot target (R244). -/
def target (pc : Word) (lines : Word) (slot : BitVec 5) : Word := lineBase pc + (lines <<< 6) + (slot.setWidth 64 <<< 1)

/-- The loop context of a sequencer (R286). -/
def Seq.ctx (q : Seq) : BitVec 2 :=
  match q.level with
  | .U => if q.inU then 3 else 0
  | .S => 1
  | .M => 2

/-- The rule of R288 on the entries from the innermost on: the entries left and where the sequencer goes. -/
def loopGo (c : BitVec 2) (q : Word) : List LoopEnt → List LoopEnt × Word
  | [] => ([], q)
  | e :: r =>
    if e.ctx ≠ c then let (r, q) := loopGo c q r; (e :: r, q)
    else if q = e.fin then
      (if e.index + 1 < e.count then ({ e with index := e.index + 1 } :: r, e.start) else loopGo c q r)
    else if q < e.start ∨ e.fin < q then loopGo c q r
    else (e :: r, q)

/-- An instruction whose successor is `q` ends an iteration of the innermost entry of a context: at the entry's end, or by leaving the body (R221,
R288). -/
def loopEnds (c : BitVec 2) (q : Word) (ls : List LoopEnt) : Bool :=
  (ls.find? (·.ctx == c)).any fun e => q == e.fin || decide (q < e.start) || decide (e.fin < q)

/-- Complete an instruction whose successor is `q` (R288). -/
def Mach.goto (m : Mach) (q : Word) : Mach :=
  m.modMe fun s =>
    let (ls, pc) := loopGo s.ctx q s.ls
    { s with ls := ls, pc := pc, waiting := false, due := none, stopping := false, iter := loopEnds s.ctx q s.ls }
/-- Complete an instruction that falls through. -/
def Mach.retire (m : Mach) : Mach := m.goto m.me.next
/-- Complete a taken branch: the next line is fetched anew (R243). -/
def Mach.jump (m : Mach) (t : Word) : Mach := (m.goto t).modMe fun s => { s with line := none }
/-- Stay at the instruction and wait, in one of the waits at which a sequencer lands at once (R221).
DEDUCED, safe (log 6). -/
def Mach.wait (m : Mach) : Mach := m.modMe fun s => { s with waiting := true }
/-- Stay at the instruction until the memory system or an engine lets it go on: R221 does not name this wait. -/
def Mach.stay (m : Mach) : Mach := m.modMe fun s => { s with waiting := false }
/-- Whether the sequencer that moves is on a side. -/
def Mach.onSide (m : Mach) : Bool := (sideOf m.dev.cur).isSome
/-- Whether it is a given sequencer of a side. -/
def Mach.isRole (m : Mach) (r : Role) : Bool := match m.dev.cur with | .side _ x => x == r | .sup _ => false

/-! ## Taking a trap (R206, R207, R209 to R213) -/

/-- The level the routing table of R207 gives a cause; none for U\*. -/
def causeLevel (cause : BitVec 8) (kind reason : BitVec 4) : Option Level :=
  let byReason : Level := if reason.toNat < 3 then .S else .M
  match cause.toNat with
  | 0x01 | 0x02 | 0x04 | 0x05 | 0x08 | 0x0c | 0x0e | 0x19 => some .S
  | 0x06 | 0x0b | 0x0d | 0x17 | 0x1a => some .M
  | 0x09 | 0x0a => some byReason
  | 0x11 => some (if kind = 0 then byReason else .S)
  | _ => none

/-- The greater of two levels. -/
def Level.max (a b : Level) : Level := if a.code ≤ b.code then b else a
/-- The level above, or none above M. -/
def Level.up : Level → Option Level
  | .U => some .S
  | .S => some .M
  | .M => none

/-- tstat fields (R210). -/
def tstatIh (t : Word) : Bool := t.getLsbD 2
/-- The level before the trap.
DEDUCED, safe (log 35). -/
def tstatPlev (t : Word) : Level := Level.ofCode (wbits t 0 2)
/-- The number of a sequencer in tstat and tval (R136, R210). -/
def seqNo : SeqId → Nat
  | .side _ .P => 0
  | .side _ .M => 1
  | .side _ .S => 2
  | .sup _ => 3

/-- The 48 bytes of an entry in a queue frame, as a number (DESIGN CHOICE, unsafe, log 17). -/
def VqEntry.bits (e : VqEntry) : Nat :=
  let enc := (encode e.ins).getD ⟨0, 0⟩
  let op : Nat → Word × Bool := fun i => (e.ops[i]?).getD (0, false)
  e.pc.toNat + 2 ^ 64 * (enc.head.toNat + 2 ^ 16 * (enc.tail.toNat + 2 ^ 48 * ((op 0).1.toNat + 2 ^ 64 * ((op 1).1.toNat
    + 2 ^ 64 * ((op 2).1.toNat + 2 ^ 64 * (nb (op 0).2 + 2 * nb (op 1).2 + 4 * nb (op 2).2 + 8 * e.lvl.code
    + 256 * e.ops.length + 2 ^ 16 * (e.tick % 2 ^ 48)))))))

/-- The scalar register that an entry fills when it completes (R144). -/
def VqEntry.dst (e : VqEntry) : Option Reg :=
  match e.ins with
  | .pfirst d _ _ | .pcnt d _ _ | .vext d _ _ _ => some d
  | _ => none
/-- An entry of the X queue, not of the V queue (R195). -/
def inX (i : Instr) : Bool :=
  match i with
  | .xins .. | .xlkp .. | .xacc .. | .xdel .. | .xdrain .. | .xclr | .tbset .. | .vtint .. | .vtlkp .. => true
  | _ => false
/-- Whether a strip was open in P's program order before the first of some entries (R306). -/
def openBefore (o : Bool) : List VqEntry → Bool
  | [] => o
  | e :: r => match e.ins with
    | .vspec => false
    | .vcommit => true
    | _ => openBefore o r
/-- Whether a strip is open in P's program order behind some entries. -/
def openAfter (o : Bool) : List VqEntry → Bool
  | [] => o
  | e :: r => openAfter (match e.ins with | .vspec => true | .vcommit => false | _ => o) r
/-- Mark the scalar destinations of entries full or empty. -/
def Seq.markDsts (q : Seq) (full : Bool) (es : List VqEntry) : Seq :=
  es.foldl (fun q e => match e.dst with | some d => q.setReg d { q.reg d with full := full } | none => q) q
/-- A side whose queue is unwound (R146, R222): its entries go to a frame, and their scalar destinations are full with their old values.
DEDUCED, safe (log 50). -/
def Side.unwind (s : Side) : Side :=
  { s with vq := [], unwound := s.vq.map fun e => (e.tick, inX e.ins), open_ := openBefore s.open_ s.vq, p := s.p.markDsts true s.vq }
/-- A side that takes the entries of a frame back into its queue (R146, R208). -/
def Side.reissue (s : Side) (es : List VqEntry) : Side :=
  { s with frame := none, vq := s.vq ++ es, unwound := [], open_ := openAfter s.open_ es, p := s.p.markDsts false es }

/-- Unwind the queue of a side: its entries are done again from the start, and so are their reads. -/
def Mach.unwindSide (m : Mach) (k : Nat) : Mach := (m.modSide k (·.unwind)).dropReads k

/-- A sequencer that leaves its wait takes its place in no queue of waiters, and the register that its `mbget` would have filled is full
with its old value. -/
def Mach.forgetWaits (m : Mach) (q : SeqId) : Mach :=
  match q with
  | .sup _ => m
  | .side k r =>
    let ds := (m.side k.toNat).mb.flatMap fun (_, b) => (b.getters.filter (·.1 == r)).map (·.2)
    let m := m.modSeq q fun s => ds.foldl (fun s d => s.setReg d { s.reg d with full := true }) s
    let m := m.modSide k.toNat fun s => { s with mb := s.mb.map fun (i, b) =>
      (i, { b with getters := b.getters.filter (·.1 != r), putters := b.putters.filter (· != r) }) }
    m.modCluster (clusterOf k.toNat) fun c =>
      { c with
        bars := c.bars.map fun (i, b) => (i, { b with arr := { b.arr with waiters := b.arr.waiters.filter (· != q) } })
        sems := c.sems.map fun (i, b) => (i, { b with cnt := { b.cnt with waiters := b.cnt.waiters.filter (· != q) } }) }

/-- A queue frame as one number (R213). -/
def frameBits (resume : Word) (es : List VqEntry) : Nat :=
  (64 + 48 * es.length) + 2 ^ 16 + es.length * 2 ^ 24 + 2 ^ 64 * resume.toNat
    + 2 ^ 512 * es.foldr (fun e n => e.bits + 2 ^ 384 * n) 0
/-- Write a queue frame at a machine address (R213). -/
def Mach.putFrame (m : Mach) (a : Nat × Bool) (pid : BitVec 4) (resume : Word) (es : List VqEntry) : Mach :=
  m.physPut (a.1 + 2048) (64 + 48 * es.length) (frameBits resume es) a.2 pid

/-- A record of R215 as a number. -/
def attRecord (pc va : Word) (serial first last q lvl : Nat) (reason : BitVec 4) (further : Nat) (cause : BitVec 8) : Nat :=
  pc.toNat + 2 ^ 64 * (va.toNat + 2 ^ 64 * (serial % 2 ^ 32 + 2 ^ 32 * (first % 1024 + 2 ^ 16 * (last % 1024 + 2 ^ 16 * (q % 4 + 4 * lvl
    + 16 * reason.toNat + 2 ^ 8 * (further % 256 + 2 ^ 8 * cause.toNat))))))

/-- A trap to be taken: its cause with kind and reason, its tval, the record of R215 or R338 when it writes one, and the serial number of
the attribution entry that it delivers. -/
structure TrapReq where
  cause : BitVec 8
  tval : Word
  kind : BitVec 4 := 0
  reason : BitVec 4 := 0
  record : Option Nat := none
  epc : Option Word := none
  entry : Option Nat := none
  deriving DecidableEq, Repr

/-- The attribution entries of a group: a side's, or a supervisor core's. -/
def Mach.att (m : Mach) (grp : Nat) : List AttEnt := if grp < 1024 then (m.side grp).att else (m.sup (grp - 1024)).att
/-- Deferred faults of a level below are pending, that of the entry which the level's own trap delivers aside (tstat.dfl, R210, R214). -/
def Mach.lowerPending (m : Mach) (lvl : Level) (entry : Option Nat) : Bool :=
  (m.att m.myAcc.grp).any fun e => e.fail.isSome && e.lvl.code < lvl.code && entry != some e.serial

/-- The double fault of R207: the side stops, containment is logged and requests a die reset (R233), the monitor core of the die is
interrupted. -/
def Mach.doubleFault (m : Mach) : Mach :=
  let q := m.dev.cur
  let m := match q with
    | .side k _ => m.modSide k.toNat fun s =>
        { s with p := { s.p with run := .halted }, m := { s.m with run := .halted }, s := { s.s with run := .halted }, vq := [] }
    | .sup _ => m.modSeq q fun s => { s with run := .halted }
  (m.logErr (dieOf q) 0x0c 0 m.me.pc 0).modDie (dieOf q) fun d => { d with rstReq := true }

/-- No trap of the side waits for its sequencers any more (R142). -/
def Mach.calm (m : Mach) : Mach :=
  m.modMySide fun s => { s with p := { s.p with stopping := false }, m := { s.m with stopping := false }, s := { s.s with stopping := false } }

/-- Enter a level (R206, steps 4 to 6). -/
def Mach.enter (m : Mach) (l : Level) (t : TrapReq) (epc : Word) (vq : Bool) : Mach :=
  let q := m.dev.cur
  let ts := m.trapOf q
  let r := ts.get l
  let old := m.me.level
  let tst := w64 (wbits r.tstat 8 1 * 256 + seqNo q * 64 + nb vq * 32 + 4 + old.code)
  let m := m.setTrap q (ts.set l { r with
    cause := w64 (t.kind.toNat * 4096 + t.reason.toNat * 256 + t.cause.toNat), tval := t.tval, epc := epc, tstat := tst, entry := t.entry })
  m.calm.modMe fun s => { s with level := l, pc := r.tvec &&& ~~~1#64, line := none, waiting := false, due := none, iter := false }

/-- A trap taken at U (R209): x29 to x31 take the cause, tval and PC. -/
def Mach.enterU (m : Mach) (t : TrapReq) (epc : Word) : Mach :=
  let v := (m.trapOf m.dev.cur).u.tvec
  m.calm.modMe fun s =>
    let s := s.setReg 29 ⟨w64 (t.kind.toNat * 4096 + t.reason.toNat * 256 + t.cause.toNat), true, false⟩
    let s := s.setReg 30 ⟨t.tval, true, false⟩
    let s := s.setReg 31 ⟨epc, true, false⟩
    { s with inU := true, pc := v &&& ~~~1#64, line := none, waiting := false, due := none, iter := false }

/-- The level that takes a trap (R207): none is a double fault. `frame` says that a queue frame goes with it. -/
def Mach.trapLevel (m : Mach) (t : TrapReq) (frame : Bool) : Option Level :=
  let s := m.me
  let u := (m.trapOf m.dev.cur).u.tvec
  let base : Level := match causeLevel t.cause t.kind t.reason with
    | some l => l
    | none => if !frame && t.record.isNone && u != 0 && !s.inU && s.level == .U && m.onSide then .U else .S
  let l := base.max s.level
  if l != .U && l == s.level && tstatIh ((m.trapOf m.dev.cur).get l).tstat then l.up else some l

/-- The side's other sequencers await values (R142): those of reads that they have issued, and those of P's queue entries. -/
def Mach.othersOwed (m : Mach) (q : SeqId) : Bool :=
  match q with
  | .sup _ => false
  | .side k r => m.asks (fun w => sideOf w == some k.toNat && w != q) || (r != .P && (m.side k.toNat).vq.any (·.dst.isSome))
/-- Let every value on its way to the side of a sequencer arrive (R137, R142). -/
def Mach.drainSide (m : Mach) (q : SeqId) : Mach :=
  match q with
  | .sup _ => m.drainArrivals q
  | .side k _ => [Role.P, .M, .S].foldl (fun m r => m.drainArrivals (.side k r)) m

/-- An alias fault leaves a record of both mappings on the die that owns the frame (R49). -/
def Mach.noteAlias (m : Mach) (va : Word) : Mach :=
  let a := m.myAcc
  match a.pid with
  | none => m
  | some pid =>
    let asn := asnTag a.asn (va57 va)
    match m.walk a.die pid asn (va57 va) with
    | .error _ => m
    | .ok t =>
      let n := t.owner pid asn (va57 va)
      m.modDie (dieOfMpa t.mpa) fun d => match aliasOf d.own n with
        | some o => { d with aliased := some (n, o) }
        | none => d

/-- Take a trap (R206): wait for the sequencer's own values (R137), for those of the side's others, which stop (R142), and, on P, for the
older queue entries (R251); choose the level; write the queue frame or record to that level's trap area; save and enter. A trap raised while
a queue entry is being performed is a vector-queue trap (R146, R213): the frame takes that entry and every younger one.
DEDUCED, safe (log 37); DEDUCED, safe (log 149). -/
def Mach.trap (m : Mach) (t : TrapReq) : Mach :=
  let q := m.dev.cur
  let vq := m.dev.vqNow
  if vq.isNone && m.owed q then m.stay
  else if vq.isSome && (m.asks (· == q) || m.othersOwed q) then m.stalls
  else if m.othersOwed q then m.modMe fun s => { s with waiting := false, stopping := true }
  else
    let m := m.drainSide q
    let m := if t.cause = 0x0b then m.noteAlias t.tval else m
    let m := if vq.isSome then m.forgetWaits q else m
    let es := match vq with | some _ => m.mySide.vq | none => []
    let epc := t.epc.getD (match vq with | some (_, e) => e.pc | none => m.me.pc)
    match m.trapLevel t vq.isSome with
    | none => m.doubleFault
    | some .U => m.enterU t epc
    | some l =>
      let area := wbits ((m.trapOf q).get l).qframe 12 40 * 4096
      if vq.isSome || t.record.isSome then
        match (if area = 0 then none else m.ppaOf (dieOf q) (m.pidOf q) area) with
        | none =>
          let m := if vq.isSome then m.unwindSide m.myNo else m
          m.enter .M { cause := 0x0d, tval := w64 area } epc false
        | some a =>
          let m := match t.record with | some r => m.physPut a.1 64 r a.2 m.myAcc.tagPid | none => m
          let m := if vq.isSome then (m.putFrame a m.myAcc.tagPid m.mySide.p.pc es).unwindSide m.myNo else m
          m.enter l t epc vq.isSome
      else m.enter l t epc false

/-- A trap whose tval is the head of the instruction (R212). -/
def Mach.trapHead (m : Mach) (cause : BitVec 8) : Mach := m.trap { cause := cause, tval := m.dev.head.setWidth 64 }
/-- A trap with a given tval. -/
def Mach.trapV (m : Mach) (cause : BitVec 8) (tval : Word) : Mach := m.trap { cause := cause, tval := tval }

/-- Enter the handler of an interrupt. -/
def Mach.enterIntr (m : Mach) (src : BitVec 8) (l : Level) (frame : Bool) : Mach :=
  let q := m.dev.cur
  let m := m.enter l { cause := src, tval := 0 } m.me.pc frame
  let ts := m.trapOf q
  let r := ts.get l
  m.setTrap q (ts.set l { r with cause := r.cause ||| (1#64 <<< 63) })

/-- Take an interrupt at a level (R206, R211): epc is the PC at which the sequencer stands. At level U it lands as a pre-emption does, and
the entries of P's queue go to a frame in the trap area with P's PC, whichever sequencer of the side takes it (R221, R222).
DEDUCED, unsafe (log 52). -/
def Mach.interrupt (m : Mach) (src : BitVec 8) (l : Level) : Mach :=
  let q := m.dev.cur
  let m := m.drainSide q
  let es := match q with | .side .. => m.mySide.vq | .sup _ => []
  if es.isEmpty || m.me.level != .U then m.enterIntr src l false
  else
    let area := wbits ((m.trapOf q).get l).qframe 12 40 * 4096
    match (if area = 0 then none else m.ppaOf (dieOf q) (m.pidOf q) area) with
    | none => (m.unwindSide m.myNo).enter .M { cause := 0x0d, tval := w64 area } m.me.pc false
    | some a => ((m.putFrame a m.myAcc.tagPid m.mySide.p.pc es).unwindSide m.myNo).enterIntr src l true

/-- Return from a trap taken at S or M (R208). A frame that `vqload` has loaded is reissued, and P goes on at its resume PC. DEDUCED, unsafe
(log 162): on a supervisor core that names level U in plev it returns to level U. -/
def Mach.eret (m : Mach) : Mach :=
  let q := m.dev.cur
  let l := m.me.level
  let ts := m.trapOf q
  let r := ts.get l
  let m := m.setTrap q (ts.set l { r with tstat := r.tstat &&& ~~~4#64 })
  let back := tstatPlev r.tstat
  let m := m.modMe fun s => { s with level := back, pc := r.epc, line := none, waiting := false, iter := false }
  match q with
  | .side k x =>
    m.modSide k.toNat fun s =>
      let y : Side := match s.frame with
        | some f => let y := s.reissue f.entries; { y with p := { y.p with pc := f.resume } }
        | none => { s with unwound := if back == .U then [] else s.unwound }
      { y with landed := y.landed && back != .U
               p := if x == .P && y.unit.isNone && back == .U then { y.p with run := .idle } else y.p }
  | .sup _ => m

/-! ## What a read waits for -/

/-- Every byte of a read can be had now: no sector held by the other side (R57), no remote read short of its clock (R199). A read from
another die closes the batch that holds a write to its line first (R198); one that no path leads to waits for nothing (R18). -/
def Mach.readReady (m : Mach) (a : Acc) (va : Nat) : Bool × Mach :=
  if m.heldByOther a va then (false, m)
  else
    let asn := asnTag a.asn va
    let hit := (m.core a.core).l1.any (fun s => s.is a.tagPid asn (va / 128) && s.have_ == fullMask)
      || (m.die a.die).l2.any (fun s => s.is a.tagPid asn (va / 128) && s.have_ == fullMask)
    if hit then (true, m)
    else
      let (f, m) := m.frameOf a.die a.pid asn va
      match f with
      | some (mpa, _) =>
        if 2 ^ 39 ≤ mpa || dieOfMpa mpa = a.die || !m.reach a.die (dieOfMpa mpa) then (true, m)
        else let m := m.closeFor a.die mpa; (m.remoteOk a.die (dieOfMpa mpa), m)
      | none => (true, m)

/-- Why a read that misses every cache fails: its frame lies on a die that resets (R234), with reason 7, or the walk of its frame breaks the rule
of R49 or finds the frame-owner table full. -/
def Mach.readGone (m : Mach) (a : Acc) (va : Nat) : Option (BitVec 4) :=
  let asn := asnTag a.asn va
  let hit := (m.core a.core).l1.any (fun s => s.is a.tagPid asn (va / 128) && s.have_ == fullMask)
    || (m.die a.die).l2.any (fun s => s.is a.tagPid asn (va / 128) && s.have_ == fullMask)
  if hit then none
  else match (m.frameOf a.die a.pid asn va).1 with
    | some (mpa, _) => if mpa < 2 ^ 39 && (m.die (dieOfMpa mpa)).resetting then some 7 else none
    | none => m.frameBad a.die a.pid asn va

/-! ## Fetching (R162, R242 to R244) -/

/-- What fetching a line gives. -/
inductive FetchRes where
  | line (l : Line)
  | poison
  | wait
  | fault (cause : BitVec 8) (reason : BitVec 4)
  deriving DecidableEq, Repr

/-- Bytes of a sector that a core's own L1 holds dirty go to L2 before the core fetches from there, so that a release and an acquire at core scope
hand code over (R162). -/
def Mach.codeDown (m : Mach) (a : Acc) (va : Nat) : Mach :=
  match (m.core a.core).l1.find? (·.is a.tagPid (asnTag a.asn va) (va / 128)) with
  | some s => m.l1Down a.core s false
  | none => m

/-- Fetch the line that holds an address (R162): the rights check, then the instruction cache, then L2. -/
def Mach.fetchLine (m : Mach) (q : SeqId) (pc : Word) : FetchRes × Mach :=
  let a := m.accOf q
  let (c, m) := m.check a pc .fetch
  match c with
  | .fault c r => (.fault c r, m)
  | .wait => (.wait, m)
  | .ok r =>
    let va := if a.pid.isNone then pc.toNat % 2 ^ 52 else va57 pc
    let asn := asnTag a.asn va
    let sec := va / 128
    let m := m.codeDown a va
    let pick := fun (d : Sector) (p : Bool) => if p then FetchRes.poison else .line (d.extractLsb' (8 * (va / 64 % 2 * 64)) 512)
    match (m.core a.core).ic.find? fun s => s.pid == a.tagPid && s.asn == asn && s.sec == sec && r.home != 3 with
    | some s => (pick s.data s.pois, m)
    | none =>
      let (ok, m) := m.readReady a va
      if !ok then (.wait, m)
      else if let some x := m.readGone a va then (.fault (causeOf x) x, m)
      else if r.home = 3 then
        let ((d, p, _), m) := m.readSec a r va true
        (pick d p, m)
      else
        let ((d, p, _), m) := m.l2Read a.die a.tagPid asn sec r.home true true
        (pick d p, m.modCore a.core fun c => { c with ic := (⟨a.tagPid, asn, sec, d, p⟩ :: c.ic).take 512 })

/-- A target that no fetch can make legal: not canonical, odd, or slot 0 (R244). -/
def badTarget (t : Word) : Bool := !canonical t || t.getLsbD 0 || slotOf t == 0

/-- Whether a branch may be taken to a target (R244): an illegal target is known only when its line can be fetched and is valid. None while
the line waits. -/
def Mach.legal (m : Mach) (t : Word) : Option Bool × Mach :=
  if badTarget t then (some false, m)
  else
    let (f, m) := m.fetchLine m.dev.cur t
    match f with
    | .line l => (some (!Line.valid l || slotOf t ≤ Line.count l), m)
    | .wait => (none, m)
    | _ => (some true, m)

/-- Take a branch after its other effects `k`: an illegal target traps at the branch with none of them (R244, R285). -/
def Mach.branch (m : Mach) (t : Word) (k : Mach → Mach) : Mach :=
  match m.legal t with
  | (some true, m) => (k m).jump t
  | (some false, m) => m.trapV 0x02 t
  | (none, m) => m.stay

/-- A sequencer fetches its line and checks it (R242 to R244, R220): the line buffer, or the trap at the PC. -/
def Mach.fetchStep (m : Mach) : Mach :=
  let pc := m.me.pc
  if badTarget pc then m.trapV 0x02 pc
  else
    let (f, m) := m.fetchLine m.dev.cur pc
    match f with
    | .wait => m.stay
    | .poison => m.trapV 0x0c 0x3000
    | .fault c r => m.trap { cause := c, tval := pc, reason := r }
    | .line l =>
      if !Line.valid l then m.trapV 0x01 ((Line.half l (slotOf pc)).setWidth 64)
      else if Line.count l < slotOf pc then m.trapV 0x02 pc
      else m.modMe fun s => { s with line := some ⟨lineBase pc, l⟩ }

/-! ## Issuing an instruction (R250) -/

/-- The capability id of an entry (R35). -/
def capId (e : Word) : Nat := wbits e 48 16
/-- Chain the entries of a capability list: each names the index of the next, and the last names 0 (R35, R36). -/
def capChain (i : Nat) : List Word → List Word
  | [] => []
  | e :: r => w64 (e.toNat / 2 ^ 40 * 2 ^ 40 + (if r.isEmpty then 0 else i + 1) * 2 ^ 32 + e.toNat % 2 ^ 32) :: capChain (i + 1) r
/-- The capability list of a partition (R36): the base entry, then the features that are both granted to it and fused on, at most 64 entries. A base
entry that its grant does not give names the dies that it used at its boot.
DESIGN CHOICE, unsafe (log 151). -/
def Mach.capList (m : Mach) (p : Nat) : List Word :=
  let granted := (m.part p).caps
  let base := (granted.find? fun e => capId e == 1).getD (w64 (0x0001010000000000 + (m.part p).dies.toNat))
  let fused := fun (e : Word) => m.dev.fuses.caps.any fun f => capId f == capId e
  capChain 0 (base :: (granted.filter fun e => 1 < capId e && fused e).take 63)

/-- A capability entry that a sequencer reads (R35, R36): the base entry at index 0 names the pipes that its side owns. DESIGN CHOICE, unsafe
(log 150): the monitor, which runs no partition, reads 0 at every index. -/
def Mach.capEntry (m : Mach) (q : SeqId) (i : Nat) : Word :=
  match m.pidOf q with
  | none => 0
  | some p =>
    let e := ((m.capList p.toNat)[i]?).getD 0
    if i = 0 then
      let own := match q with
        | .side k _ =>
          let po := (m.core (k.toNat / 2)).pipeown
          if k.toNat % 2 = 0 then (~~~po).toNat else po.toNat
        | .sup _ => 0
      w64 (e.toNat / 65536 * 65536 + own * 256 + e.toNat % 256)
    else e

/-- The partition lists a capability (R36, R37). -/
def Mach.hasCap (m : Mach) (id : Nat) : Bool :=
  match m.pidOf m.dev.cur with
  | none => false
  | some p => (m.capList p.toNat).any fun e => capId e == id
/-- Step 7 for an element type in an instruction: mx8 needs its capability in every field (R277, R37). -/
def Mach.typeCap (m : Mach) (ts : Option ETy) : Bool := ts != some .mx8 || m.hasCap 0x12
/-- The parameters of a capability, or 0. -/
def Mach.capParam (m : Mach) (id : Nat) : Nat :=
  match m.pidOf m.dev.cur with
  | none => 0
  | some p => match (m.capList p.toNat).find? fun e => capId e == id with
    | some e => wbits e 0 32
    | none => 0

/-- The first empty source with W = 0 (step 8 of R250), the first with W = 1 (R136). -/
def Mach.emptySrc (m : Mach) (w : Bool) (ss : List Src) : Option Src := ss.find? fun s => s.w == w && !(m.x s.r).full

/-- The tval of the empty-register trap that an instruction has met, now or when it was tried before (R136, R251). -/
def Mach.due (m : Mach) (ss : List Src) : Option Word :=
  match m.me.due with
  | some v => some v
  | none => (m.emptySrc false ss).map fun s => w64 (s.r.toNat + 256 * seqNo m.dev.cur)

/-- Issue: level (step 6), capability (step 7), empty sources (step 8, R136), an empty destination (R137), poisoned sources that are
not carried (R278). Then the instruction acts. -/
def Mach.issue (m : Mach) (lvlOk capOk : Bool) (d : Option Reg) (ss carry : List Src) (k : Mach → Mach) : Mach :=
  if !lvlOk then m.trapHead 0x04
  else if !capOk then m.trapHead 0x01
  else match m.due (ss ++ carry) with
  | some v =>
    let m := m.modMe fun s => { s with waiting := false, due := some v }
    if m.owed m.dev.cur then m else m.trapV 0x03 v
  | none =>
    if (m.emptySrc true (ss ++ carry)).isSome then m.wait
    else if (match d with | some r => !(m.x r).full | none => false) then m.wait
    else match ss.find? fun s => (m.x s.r).pois with
      | some s => m.trapV 0x0c (w64 s.r.toNat)
      | none => k m

/-- Issue an unprivileged instruction that needs no capability. -/
def Mach.plain (m : Mach) (d : Option Reg) (ss : List Src) (k : Mach → Mach) : Mach := m.issue true true d ss [] k
/-- Issue a system instruction of levels S and M (R78). -/
def Mach.priv (m : Mach) (d : Option Reg) (ss : List Src) (k : Mach → Mach) : Mach := m.issue (m.me.level != .U) true d ss [] k
/-- An instruction of sides only (R76). -/
def Mach.sideOnly (m : Mach) (k : Mach → Mach) : Mach := if m.onSide then k m else m.trapHead 0x01
/-- An instruction of one sequencer of a side only (R132). -/
def Mach.roleOnly (m : Mach) (r : Role) (k : Mach → Mach) : Mach := if m.isRole r then k m else m.trapHead 0x01
/-- An instruction that computes a scalar from scalars and completes. -/
def Mach.alu (m : Mach) (d : Reg) (ss : List Src) (f : Mach → Word) : Mach := m.plain (some d) ss fun m => (m.wx d (f m)).retire

/-! ## Pipes and vector ownership (R80, R150, R227) -/

/-- A side owns a pipe of its core (R80). -/
def Mach.owns (m : Mach) (side pipe : Nat) : Bool := (m.core (side / 2)).pipeown.getLsbD pipe == (side % 2 == 1)
/-- The unit's context owns the vector registers of its side (R227).
DEDUCED, unsafe (log 51). -/
def Side.vowner (s : Side) : Bool :=
  s.vown.getLsbD 0 && !s.vstale && (match s.unit with | some u => wbits s.vown 12 40 * 4096 == u.img | none => false)
/-- The trap of R227.
DEDUCED, unsafe (log 36). -/
def Mach.trapOwner (m : Mach) : Mach := m.trapV 0x06 (if m.owns m.myNo 6 then 3 else 1)

/-- A token of the core of a side (R172). -/
def Mach.token (m : Mach) (core : Nat) (n : Nat) : Token := (m.core core).sx.tok.get {} n
/-- Change a token. -/
def Mach.modToken (m : Mach) (core n : Nat) (f : Token → Token) : Mach :=
  m.modCore core fun c => { c with sx := { c.sx with tok := c.sx.tok.set n (f (c.sx.tok.get {} n)) } }
/-- The trap of a faulted token (R217). -/
def Mach.trapToken (m : Mach) (n : Nat) : Mach :=
  let t := m.token (coreKey m.dev.cur) n
  m.trap { cause := t.cause, kind := t.ckind, reason := t.creason, tval := w64 (t.resume % 2 ^ 32 + n * 2 ^ 32) ||| t.tvalHi }
/-- The tokens of a wait mask (R249): one that is faulted, or whether one is still pending. -/
def Mach.maskWait (m : Mach) (mask : BitVec 8) : Option Nat × Bool :=
  let c := coreKey m.dev.cur
  let named := (List.range 8).filter fun i => mask.getLsbD i
  (named.find? fun i => (m.token c i).status == 3, named.any fun i => (m.token c i).pend != 0 && (m.token c i).status != 3)

/-- A bank update that an older `vscadd` of a side has sent to its own die is not yet applied (R67, R195, R344). -/
def Mach.updBefore (m : Mach) (side tick : Nat) : Bool :=
  (m.die (side / 256)).upds.any fun u => match u.src with
    | some (k, t) => k == side && t < tick
    | none => false
/-- Entries of P's V queue (or X queue, with `x`) older than a marker are not all performed: entries that wait, entries in a frame and, of the
V queue, stores that have left a strip and bank updates (R195). -/
def Mach.pPend (m : Mach) (side tick : Nat) (x : Bool) : Bool :=
  let s := m.side side
  s.vq.any (fun e => e.tick < tick && inX e.ins == x) || s.unwound.any (fun e => e.1 < tick && e.2 == x)
    || (!x && (!s.leaving.isEmpty || m.updBefore side tick))
/-- Entries of P's queues older than a marker that its mask names are not all performed. -/
def Mach.vPend (m : Mach) (side : Nat) (k : Marker) : Bool :=
  (k.mask.getLsbD 0 && m.pPend side k.tick false) || (k.mask.getLsbD 4 && m.pPend side k.tick true)
/-- An entry of a queue with a tick must wait behind a marker (R195): an older entry of a named queue is not yet performed. -/
def Mach.markBlocks (m : Mach) (side : Nat) (qbit : Nat) (tick : Nat) : Bool :=
  let s := m.side side
  let c := m.core (side / 2)
  s.marks.any fun k => k.mask.getLsbD qbit && k.tick < tick &&
    (m.vPend side k
      || (k.mask.getLsbD 1 && m.owns side 6 && c.mx.mq.any fun e => e.tick < k.tick)
      || (k.mask.getLsbD 2 && m.owns side 7 && c.sx.sq.any fun e => e.tick < k.tick && !e.faulted)
      || (k.mask.getLsbD 3 && s.tq.any fun e => e.tick < k.tick))

/-- Take the next acceptance number of a side's queues. -/
def Mach.tick (m : Mach) : Nat × Mach := (m.mySide.tick, m.modMySide fun s => { s with tick := s.tick + 1 })

/-! ## The store path (R53 to R57, R342) and deferred faults (R55, R214) -/

/-- What a store meets. -/
inductive StRes where
  | done (m : Mach)
  | wait (m : Mach)
  | fault (cause : BitVec 8) (reason : BitVec 4) (el : HeldEl) (m : Mach)
  deriving DecidableEq, Repr

/-- Set the attribution entries of a group. -/
def Mach.setAtt (m : Mach) (grp : Nat) (l : List AttEnt) : Mach :=
  if grp < 1024 then m.modSide grp fun s => { s with att := l } else m.modSup (grp - 1024) fun s => { s with att := l }
/-- Take the next serial number of a group (R54). -/
def Mach.serial (m : Mach) (grp : Nat) : Nat × Mach :=
  if grp < 1024 then ((m.side grp).serial, m.modSide grp fun s => { s with serial := s.serial + 1 })
  else ((m.sup (grp - 1024)).serial, m.modSup (grp - 1024) fun s => { s with serial := s.serial + 1 })
/-- The address that tags use: 57 bits, or the machine address of the monitor. -/
def Acc.addr (a : Acc) (va : Word) : Nat := if a.pid.isNone then va.toNat % 2 ^ 52 else va57 va

/-- What a store finds on a page (R53): confirmed with its entry, missing, missing with the serial number of its attribution entry, or a precise
fault. -/
inductive PageSt where
  | conf (r : Rights)
  | miss
  | att (serial : Nat)
  | bad (cause : BitVec 8) (reason : BitVec 4)
  deriving DecidableEq, Repr

/-- A page that a store touches: the log2 of its size, its number, and its state. -/
structure Page where
  sh : Nat
  no : Nat
  st : PageSt
  deriving DecidableEq, Repr

/-- The page covers an address. -/
def Page.covers (p : Page) (v : Nat) : Bool := v / 2 ^ p.sh == p.no
/-- The state of the page of an address among those of a store. -/
def pageFor (ps : List Page) (v : Nat) : Option PageSt := (ps.find? (·.covers v)).map (·.st)

/-- The page of an address and its state for a store (R53): the page of the rights entry, else the page that a walk finds. A page outside
DRAM or never cached has its probe answered at once. A frame of a large page that breaks the rule of R49 is a page of its own, whose probe
fails. -/
def Mach.pageSt (m : Mach) (a : Acc) (va : Word) : Page × Mach :=
  let v := a.addr va
  match a.pid with
  | none => (⟨16, v / 65536, .conf (monRights v)⟩, m)
  | some pid =>
    if !canonical va then (⟨16, v / 65536, .bad 0x09 1⟩, m)
    else
      let asn := asnTag a.asn v
      let go := fun (_ : Unit) => match m.walk a.die pid asn v with
        | .ok t =>
          if t.home == 3 then (match m.confirm a.core pid asn a.lvl v with
            | (.ok r, m) => (⟨t.sh, v / 2 ^ t.sh, .conf r⟩, m)
            | (.error _, m) => (⟨t.sh, v / 2 ^ t.sh, .miss⟩, m))
          else ((⟨t.sh, v / 2 ^ t.sh, .miss⟩ : Page), m)
        | .error _ => (⟨16, v / 65536, .miss⟩, m)
      match (m.core a.core).rights pid asn v with
      | some r =>
        if !r.allows a.lvl .write then (⟨r.sh, r.page, .bad 0x08 0⟩, m)
        else if r.w then
          (if r.sh == 16 then (⟨16, r.page, .conf r⟩, m)
           else if (m.frameBad a.die a.pid asn v).isSome then (⟨16, v / 65536, .miss⟩, m)
           else (⟨16, v / 65536, .conf r⟩, (m.frameOf a.die a.pid asn v).2))
        else go ()
      | none => go ()

/-- The pages of a store in order, with the state of each. -/
def Mach.pages (m : Mach) (a : Acc) : List HeldEl → List Page → List Page × Mach
  | [], acc => (acc, m)
  | e :: r, acc =>
    if acc.any (·.covers (a.addr e.va)) then m.pages a r acc
    else let (s, m) := m.pageSt a e.va; m.pages a r (acc ++ [s])

/-- A sector's share of a store: its base, bytes, mask and poison. -/
structure SecPart where
  va : Word
  data : Sector
  mask : SMask
  pois : Bool
  n : Nat
  deriving DecidableEq, Repr

/-- Gather elements of `es` bytes into sectors; a later element supplies a byte that both write (R61). -/
def gather (es : Nat) : List HeldEl → List SecPart → List SecPart
  | [], acc => acc
  | e :: r, acc =>
    let base := e.va &&& ~~~127#64
    let off := e.va.toNat % 128
    let mk := byteMask off es
    let dat : Sector := BitVec.ofNat 1024 ((e.val.toNat % 256 ^ es) * 2 ^ (8 * off))
    let part : SecPart := ⟨base, dat, mk, e.pois, es⟩
    if acc.any (·.va == base) then
      gather es r (acc.map fun s => if s.va == base then { s with data := mergeSec s.data dat mk, mask := s.mask ||| mk, pois := s.pois || e.pois } else s)
    else gather es r (acc ++ [part])

/-- A probe of a page for a core goes out unless one is in flight (R53). -/
def Mach.sendProbe (m : Mach) (p : Probe) : Mach :=
  if m.dev.probes.contains p then m else m.withDev fun d => { d with probes := d.probes ++ [p] }

/-- Make the attribution entry of a missing page and send its probe (R53, R54): the page with the serial number of its entry. -/
def Mach.addAtt (m : Mach) (a : Acc) (pc : Word) (els : List HeldEl) (p : Page) : Page × Mach :=
  match (if p.st == .miss then els.filter fun e => p.covers (a.addr e.va) else []) with
  | [] => (p, m)
  | on@(f :: _) =>
    let l := on.getLast?.getD f
    let asn := asnTag a.asn (va57 f.va)
    let (n, m) := m.serial a.grp
    let e : AttEnt := { q := BitVec.ofNat 2 (seqNo m.dev.cur), pc := pc, first := f.e, last := l.e, va := f.va, sh := p.sh, serial := n
                        lvl := a.lvl, pid := a.tagPid, asn := asn, fail := none, told := false }
    ({ p with st := .att n }, (m.setAtt a.grp (m.att a.grp ++ [e])).sendProbe ⟨a.core, a.tagPid, asn, p.sh, p.no⟩)
/-- The attribution entries of the missing pages of a store, in order (R54). -/
def Mach.addAtts (m : Mach) (a : Acc) (pc : Word) (els : List HeldEl) : List Page → List Page × Mach
  | [] => ([], m)
  | p :: r =>
    let (p, m) := m.addAtt a pc els p
    let (ps, m) := m.addAtts a pc els r
    (p :: ps, m)

/-- Confirm the missing pages of a store one by one (R54): a store that finds no room in the attribution table waits for its own probes. One
that fails makes the precise fault of R54. DESIGN CHOICE, unsafe (log 152): its reason is that of R56, and 0 where the stage 1 write right or
u is missing. -/
def Mach.ownProbes (m : Mach) (a : Acc) (els : List HeldEl) : List Page → Except (BitVec 8 × BitVec 4 × HeldEl) (List Page × Mach)
  | [] => .ok ([], m)
  | p :: r =>
    match (if p.st == .miss then els.find? fun e => p.covers (a.addr e.va) else none) with
    | none => (m.ownProbes a els r).map fun (ps, m) => (p :: ps, m)
    | some e =>
      match m.confirm a.core a.tagPid (asnTag a.asn (va57 e.va)) a.lvl (va57 e.va) with
      | (.error (_, x), _) => .error (causeOf x, x, e)
      | (.ok rt, m) => (m.ownProbes a els r).map fun (ps, m) => ({ p with st := .conf rt } :: ps, m)

/-- Probe the missing pages of a store (R54): those that confirm are missing no more. -/
def Mach.tryProbes (m : Mach) (a : Acc) (els : List HeldEl) : List Page → List Page × Mach
  | [] => ([], m)
  | p :: r =>
    let (p, m) := match (if p.st == .miss then els.find? fun e => p.covers (a.addr e.va) else none) with
      | none => (p, m)
      | some e => match m.confirm a.core a.tagPid (asnTag a.asn (va57 e.va)) a.lvl (va57 e.va) with
        | (.ok rt, m) => ({ p with st := .conf rt }, m)
        | (.error _, m) => (p, m)
    let (ps, m) := m.tryProbes a els r
    (p :: ps, m)

/-- Write the sectors of a store: those on confirmed pages as normal, the others held (R53). None when L1 has no room for a held one. -/
def Mach.putParts (m : Mach) (a : Acc) (ps : List Page) : List SecPart → Option Mach
  | [] => some m
  | s :: r =>
    match pageFor ps (a.addr s.va) with
    | some (.conf rt) => (m.storeSec a rt (a.addr s.va) s.data s.mask s.pois s.n).putParts a ps r
    | some (.att n) => (m.holdSec a (a.addr s.va) s.data s.mask s.pois n).bind (·.putParts a ps r)
    | _ => none

/-- The elements on pages with the never-cached attribute go one by one, the rest by sector. -/
def splitParts (a : Acc) (ps : List Page) (es : Nat) (els : List HeldEl) : List SecPart :=
  let nc := fun (e : HeldEl) => match pageFor ps (a.addr e.va) with
    | some (.conf r) => r.home == 3
    | _ => false
  ((els.filter nc).map fun e =>
    let off := e.va.toNat % 128
    { va := e.va, data := BitVec.ofNat 1024 ((e.val.toNat % 256 ^ es) * 2 ^ (8 * off)), mask := byteMask off es, pois := e.pois, n := es })
    ++ gather es (els.filter fun e => !nc e) []

/-- The store path (R53, R54, R342): precise faults first, lowest element first; then room in the attribution table; then every sector. Without
room the store waits for its own probes, and one that fails is a precise fault (R54).
A store that has left a strip (`late`) has met its precise faults before, so a right that has gone since defers its fault; without room it makes
entries for the pages only that its own probes do not confirm. -/
def Mach.storePath (m : Mach) (a : Acc) (pc : Word) (es : Nat) (els : List HeldEl) (late : Bool) : StRes :=
  if els.any fun e => m.heldByOther a (a.addr e.va) then .wait m
  else
    let (ps, m') := m.pages a els []
    let ps := if late then ps.map fun p => (match p.st with | .bad .. => { p with st := .miss } | _ => p) else ps
    let bad := els.findSome? fun e => match pageFor ps (a.addr e.va) with
      | some (.bad c r) => some (c, r, e)
      | _ => none
    match bad with
    | some (c, r, e) => .fault c r e m'
    | none =>
      let fits := fun (ps : List Page) => (m'.att a.grp).length + (ps.filter fun p => p.st == .miss).length ≤ 64
      let (ps, m') := if late && !fits ps then m'.tryProbes a els ps else (ps, m')
      if fits ps then
        let (ps, m') := m'.addAtts a pc els ps
        match m'.putParts a ps (splitParts a ps es els) with
        | none => .wait m
        | some m' => .done m'
      else
        match (if late then .ok (ps, m) else m'.ownProbes a els ps) with
        | .error (c, r, e) => .fault c r e m'
        | .ok (ps, m'') =>
          match m''.putParts a ps (splitParts a ps es els) with
          | none => .wait m
          | some m => .done m

/-- The store path of a store as it is performed. -/
def Mach.store (m : Mach) (a : Acc) (pc : Word) (es : Nat) (els : List HeldEl) : StRes := m.storePath a pc es els false

/-- The sector lies on a page of `2 ^ sh` bytes. -/
def L1Sec.onPage (s : L1Sec) (pid : BitVec 4) (asn : BitVec 16) (sh no : Nat) : Bool :=
  s.pid == pid && s.asn == asn && s.sec * 128 / 2 ^ sh == no
/-- The page of the entry's store meets a page of `2 ^ sh` bytes. -/
def AttEnt.onPage (e : AttEnt) (pid : BitVec 4) (asn : BitVec 16) (sh no : Nat) : Bool :=
  let k := max e.sh sh
  e.pid == pid && e.asn == asn && va57 e.va / 2 ^ k == no * 2 ^ sh / 2 ^ k

/-- The entries `ns` hold a sector no more. -/
def L1Sec.settle (ns : List Nat) (s : L1Sec) : L1Sec :=
  let ps := s.parts.filter fun p => !ns.contains p.1
  { s with parts := ps, held := if ps.isEmpty then none else s.held }
/-- The sectors of a page and group that only confirmed stores hold, those of the entries `ns`, become normal (R53): dirty with the same contents;
those of a page that L1 does not keep go on to L2 or below (R62). -/
def Mach.unhold (m : Mach) (core grp : Nat) (pid : BitVec 4) (asn : BitVec 16) (sh no : Nat) (home : BitVec 2) (ns : List Nat) : Mach :=
  let on := fun (s : L1Sec) => s.onPage pid asn sh no && s.held == some grp
  let ss := (m.core core).l1.filter fun s => on s && (s.settle ns).held.isNone
  let m := m.modCore core fun c => { c with l1 := c.l1.map fun s => if on s then s.settle ns else s }
  if home = 0 then m
  else ss.foldl (fun m s =>
    (m.l2Write (dieOfCore core) pid asn s.sec s.data s.mask s.pois home false).modCore core fun c =>
      { c with l1 := c.l1.filter fun o => !o.is pid asn s.sec }) m

/-- The groups of a core that hold unconfirmed stores: its sides, or the supervisor core. -/
def groupsOf (core : Nat) : List Nat := if core < 512 then [2 * core, 2 * core + 1] else [1024 + (core - 512)]

/-- Probe the stores of one group to a page (R53, R55): an entry whose level may store is confirmed, the others fail and keep their sectors held.
A probe that confirms settles every other store and held sector of the page that the tables now give.
DEDUCED, unsafe (log 169). -/
def Mach.probeGroup (m : Mach) (core grp : Nat) (pid : BitVec 4) (asn : BitVec 16) (sh no : Nat) : Mach :=
  let es := m.att grp
  match es.find? (·.onPage pid asn sh no) with
  | none => m
  | some f =>
    let (sh', no') := match m.walk (dieOfCore core) pid asn (va57 f.va) with
      | .ok t => (t.sh, va57 f.va / 2 ^ t.sh)
      | .error _ => (sh, no)
    let step := fun (mo : Mach × List AttEnt × List Rights × List Nat) (e : AttEnt) =>
      let (m, keep, h, ns) := mo
      if !(e.onPage pid asn sh no || e.onPage pid asn sh' no') then (m, keep ++ [e], h, ns)
      else match m.confirm core pid asn e.lvl (va57 e.va) with
        | (.ok r, m) => (m, keep, if h.any (fun o => o.sh == r.sh && o.page == r.page) then h else h ++ [r], ns ++ [e.serial])
        | (.error f, m) => (m, keep ++ [{ e with fail := some f, told := false }], h, ns)
    let (m, keep, h, ns) := es.foldl step (m, [], [], [])
    h.foldl (fun m r => m.unhold core grp pid asn r.sh r.page r.home ns) (m.setAtt grp keep)

/-- A probe reply (R53): every store of the core to the page is settled. -/
def Mach.probeDone (m : Mach) (p : Probe) : Mach :=
  let m := m.withDev fun d => { d with probes := d.probes.filter (· != p) }
  (groupsOf p.core).foldl (fun m g => m.probeGroup p.core g p.pid p.asn p.sh p.vpn) m

/-- Deliver the deferred fault of an entry as a trap at the drain point (R214, R215).
DEDUCED, unsafe (log 129); DEDUCED, unsafe (log 133). -/
def Mach.deliver (m : Mach) (e : AttEnt) (further : Nat) : Mach :=
  let (c, r) := e.fail.getD (0x0a, 0)
  let cause : BitVec 8 := if c = 0x08 then 0x08 else if r = 5 then 0x0b else 0x0a
  let grp := m.myAcc.grp
  let m := m.setAtt grp ((m.att grp).map fun x => if x.fail.isSome && x.lvl == e.lvl then { x with told := true } else x)
  m.trap { cause := cause, tval := e.va, reason := r, entry := some e.serial
           record := some (attRecord e.pc e.va e.serial e.first e.last e.q.toNat e.lvl.code r further cause) }

/-- A drain point (R55, R214): failed probes that have been reported are retried; the entry with the lowest serial of the current level is
waited for, and delivered when its probe has failed; then the instruction goes on. -/
def Mach.drain (m : Mach) (k : Mach → Mach) : Mach :=
  let a := m.myAcc
  let lvl := m.me.level
  let retry := (m.att a.grp).filter fun e => e.lvl == lvl && e.told && e.fail.isSome
  let m := retry.foldl (fun m e => m.probeGroup a.core a.grp e.pid e.asn e.sh (va57 e.va / 2 ^ e.sh)) m
  match (m.att a.grp).filter (·.lvl == lvl) with
  | [] => k m
  | e :: r => if e.fail.isSome then m.deliver e (r.filter (·.fail.isSome)).length else m.stay

/-- The bytes that the entries `ns` hold in a sector are discarded (R55): none is left of a sector in which no other store stands. -/
def L1Sec.discard (ns : List Nat) (s : L1Sec) : Option L1Sec :=
  if !s.parts.any fun p => ns.contains p.1 then some s
  else
    let gone : SMask := (s.parts.filter fun p => ns.contains p.1).foldl (fun k p => k ||| p.2) 0
    let s := { s.settle ns with mask := s.mask &&& ~~~gone, have_ := s.have_ &&& ~~~gone }
    if s.mask = 0 && s.held.isNone then none else some s
/-- Discard the failed entries of a group below a level with what their stores hold (R55, R110, R216); every other store stands. -/
def Mach.discardHeld (m : Mach) (grp core : Nat) (l : Level) : Mach :=
  let gone := fun (e : AttEnt) => e.fail.isSome && e.lvl.code < l.code
  let ns := ((m.att grp).filter gone).map (·.serial)
  (m.modCore core fun c => { c with l1 := c.l1.filterMap fun s => if s.held == some grp then s.discard ns else some s }).setAtt grp
    ((m.att grp).filter fun e => !gone e)

/-! ## Reads -/

/-- Read `n` aligned bytes for an engine or a vector element: value and poison, a wait, or a fault.
DESIGN CHOICE, unsafe (log 9). -/
def Mach.load (m : Mach) (a : Acc) (va : Word) (n : Nat) (byp : Bool) : Except (Option (BitVec 8 × BitVec 4)) (Nat × Bool) × Mach :=
  let (c, m) := m.check a va .read
  match c with
  | .fault c r => (.error (some (c, r)), m)
  | .wait => (.error none, m)
  | .ok r =>
    let v := a.addr va
    let (ok, m) := m.readReady a v
    if !ok then (.error none, m)
    else if let some x := m.readGone a v then (.error (some (causeOf x, x)), m)
    else
      let (f, m) := if r.home = 3 then m.frameOf a.die a.pid (asnTag a.asn v) v else (none, m)
      match f with
      | some (mpa, _) =>
        if 2 ^ 39 ≤ mpa then let (x, m) := m.ioRead a.grp mpa n; (.ok x, m)
        else let (x, m) := m.readBytes a r v n byp; (.ok x, m)
      | none => let (x, m) := m.readBytes a r v n byp; (.ok x, m)

/-- Read `n` groups of eight bytes as a list of bytes with poison, or the first fault. -/
def Mach.loadWords (m : Mach) (a : Acc) (va : Word) : Nat → Except (Option (BitVec 8 × BitVec 4 × Word)) (List (Word × Bool)) × Mach
  | 0 => (.ok [], m)
  | n + 1 =>
    match m.load a va 8 false with
    | (.error (some (c, r)), m) => (.error (some (c, r, va)), m)
    | (.error none, m) => (.error none, m)
    | (.ok (v, p), m) =>
      match m.loadWords a (va + 8) n with
      | (.error e, m) => (.error e, m)
      | (.ok l, m) => (.ok ((w64 v, p) :: l), m)

end Sys2Proof.Machine
end

