-- ==== Sys2Proof/Machine/Flags.lean ====
section
/-! DEFINITION. Numbers and flags: exact values, RoundF of R253, the floating-point operations of R280 to R284 with the flags they
raise, the conversions of R283 and R321, and integer arithmetic at a width (R279, R318). -/

namespace Sys2Proof.Machine
open Sys2Proof

/-! ## Flags (R299) -/

/-- A set of flags in the order of fflags. -/
abbrev Fl := BitVec 5
/-- Invalid operation. -/
def flNV : Fl := 1
/-- Division by zero. -/
def flDZ : Fl := 2
/-- Overflow. -/
def flOF : Fl := 4
/-- Underflow. -/
def flUF : Fl := 8
/-- Inexact. -/
def flNX : Fl := 16
/-- A flag when a condition holds. -/
def flIf (b : Bool) (f : Fl) : Fl := if b then f else 0

/-! ## Integers at a width -/

/-- The width of a type in bits. -/
def tbits (t : ETy) : Nat := 8 * t.size
/-- The low `w` bits of an integer. -/
def wrapI (w : Nat) (i : Int) : Nat := (i % (2 ^ w : Nat)).toNat
/-- The integer value of a pattern of an integer type. -/
def intVal (t : ETy) (n : Nat) : Int := if t.isSigned then sgn (tbits t) n else (n % 2 ^ tbits t : Nat)
/-- The least value of an integer type. -/
def intMin (t : ETy) : Int := if t.isSigned then -((2 ^ (tbits t - 1) : Nat) : Int) else 0
/-- The greatest value of an integer type. -/
def intMax (t : ETy) : Int := if t.isSigned then ((2 ^ (tbits t - 1) : Nat) : Int) - 1 else ((2 ^ tbits t : Nat) : Int) - 1
/-- The nearest value of an integer type. -/
def clampI (t : ETy) (i : Int) : Int := if i < intMin t then intMin t else if intMax t < i then intMax t else i

/-- Quotient and remainder of the pseudocode of R279 at a width: signed or natural. -/
def divRem (signed : Bool) (w : Nat) (a b : Nat) : Nat × Nat :=
  if b % 2 ^ w = 0 then (2 ^ w - 1, a % 2 ^ w)
  else if signed then
    let x := sgn w a
    let y := sgn w b
    let q := Int.tdiv x y
    (wrapI w q, wrapI w (x - y * q))
  else (a % 2 ^ w / (b % 2 ^ w), a % 2 ^ w % (b % 2 ^ w))

/-! ## Formats (R277, R253) -/

/-- Fraction bits and exponent bias of a float type; f64 for a type that is none. -/
def fmtOf : ETy → Nat × Nat × Nat
  | .e4m3 => (4, 3, 7)
  | .e5m2 => (5, 2, 15)
  | .f16 => (5, 10, 15)
  | .bf16 => (8, 7, 127)
  | .f32 => (8, 23, 127)
  | _ => (11, 52, 1023)

/-- An exact value: a NaN, signalling or not, an infinity, a zero with its sign, or `n * 2 ^ e` with a sign and `n > 0`. -/
inductive Num where
  | nan (sig : Bool)
  | inf (s : Bool)
  | zero (s : Bool)
  | fin (s : Bool) (n : Nat) (e : Int)
  deriving DecidableEq, Repr

/-- The value of an integer. -/
def Num.ofInt (i : Int) : Num := if i = 0 then .zero false else .fin (decide (i < 0)) i.natAbs 0
/-- A signalling NaN. -/
def Num.isSig : Num → Bool
  | .nan s => s
  | _ => false
/-- A NaN. -/
def Num.isNan : Num → Bool
  | .nan _ => true
  | _ => false
/-- The sign. -/
def Num.sign : Num → Bool
  | .nan _ => false
  | .inf s | .zero s => s
  | .fin s _ _ => s
/-- The same value with the other sign. -/
def Num.neg : Num → Num
  | .nan s => .nan s
  | .inf s => .inf !s
  | .zero s => .zero !s
  | .fin s n e => .fin (!s) n e

/-- The value of a float pattern. e4m3 has no infinity and one NaN, which is quiet (R253, R283). -/
def floatVal (t : ETy) (b : Nat) : Num :=
  let (eb, fb, bias) := fmtOf t
  let s := b.testBit (eb + fb)
  let x := b / 2 ^ fb % 2 ^ eb
  let f := b % 2 ^ fb
  let fini : Num :=
    if x = 0 then (if f = 0 then .zero s else .fin s f (1 - (bias : Int) - fb))
    else .fin s (2 ^ fb + f) ((x : Int) - bias - fb)
  if x = 2 ^ eb - 1 then
    if t = .e4m3 then (if f = 7 then .nan false else fini)
    else if f = 0 then .inf s else .nan (!f.testBit (fb - 1))
  else fini

/-- The value of an element: an integer, a float, or c * 2^-6 for mx8 without its scale (R321). -/
def elemVal (t : ETy) (b : Nat) : Num :=
  if t.isInt then .ofInt (intVal t b)
  else if t = .mx8 then
    let i := sgn 8 b
    if i = 0 then .zero false else .fin (decide (i < 0)) i.natAbs (-6)
  else floatVal t b

/-- The canonical quiet NaN (R253). -/
def qnan : ETy → Nat
  | .f16 => 0x7e00
  | .bf16 => 0x7fc0
  | .f32 => 0x7fc00000
  | .e5m2 => 0x7e
  | .e4m3 => 0x7f
  | _ => 0x7ff8000000000000

/-- The rounding mode that a field and frm select (R248). -/
def rmOf (r : Rm) (frm : BitVec 3) : Rm :=
  match r with
  | .dyn => match frm.toNat with
    | 2 => .rmm
    | 3 => .rtz
    | 4 => .rup
    | 5 => .rdn
    | _ => .rne
  | r => r

/-- `n / 2 ^ k` rounded to an integer for a sign and a mode. -/
def roundShift (m : Rm) (s : Bool) (n k : Nat) : Nat :=
  let q := n / 2 ^ k
  let r := n % 2 ^ k
  let up := match m with
    | .rmm => 2 ^ k ≤ 2 * r && r != 0
    | .rtz => false
    | .rup => !s && r != 0
    | .rdn => s && r != 0
    | _ => 2 ^ k < 2 * r || (2 ^ k == 2 * r && q % 2 == 1 && r != 0)
  q + nb up

/-- The pattern of an overflow (R253): infinity or the largest finite value as the mode dictates; e4m3 saturates. -/
def overflowPat (t : ETy) (m : Rm) (s : Bool) : Nat :=
  let (eb, fb, _) := fmtOf t
  let infp := (2 ^ eb - 1) * 2 ^ fb
  let top := if t = .e4m3 then 0x7e else infp - 1
  let big := match m with
    | .rtz => false
    | .rup => !s
    | .rdn => s
    | _ => true
  nb s * 2 ^ (eb + fb) + (if t = .e4m3 || !big then top else infp)

/-- RoundF (R253): the pattern and the flags. -/
def roundF (t : ETy) (m : Rm) (x : Num) : Nat × Fl :=
  let (eb, fb, bias) := fmtOf t
  let sb := fun (s : Bool) => nb s * 2 ^ (eb + fb)
  match x with
  | .nan _ => (qnan t, 0)
  | .inf s => if t = .e4m3 then (sb s + 0x7e, flOF ||| flNX) else (sb s + (2 ^ eb - 1) * 2 ^ fb, 0)
  | .zero s => (sb s, 0)
  | .fin s n e =>
    let emin : Int := 1 - (bias : Int)
    let top : Int := Nat.log2 n + e
    let q : Int := max (top - fb) (emin - fb)
    let (c, inexact) :=
      if q ≤ e then (n * 2 ^ (e - q).toNat, false)
      else (roundShift m s n (q - e).toNat, n % 2 ^ (q - e).toNat != 0)
    let enc := (q - (emin - fb)).toNat * 2 ^ fb + c
    let maxEnc := if t = .e4m3 then 0x7e else (2 ^ eb - 1) * 2 ^ fb - 1
    if maxEnc < enc then (overflowPat t m s, flOF ||| flNX)
    else
      let q2 : Int := top - fb
      let c2 := if q2 ≤ e then n * 2 ^ (e - q2).toNat else roundShift m s n (q2 - e).toNat
      let tiny := top < emin && Nat.log2 c2 + q2 < emin
      (sb s + enc, flIf inexact flNX ||| flIf (tiny && inexact) flUF)

/-! ## Exact operations -/

/-- The exact product and the flags of the operation (R280). -/
def mulN (a b : Num) : Num × Fl :=
  let sg := flIf (a.isSig || b.isSig) flNV
  match a, b with
  | .nan _, _ | _, .nan _ => (.nan false, sg)
  | .inf _, .zero _ | .zero _, .inf _ => (.nan false, sg ||| flNV)
  | .inf s, y | y, .inf s => (.inf (s != y.sign), sg)
  | .zero s, y | y, .zero s => (.zero (s != y.sign), sg)
  | .fin s n e, .fin s' n' e' => (.fin (s != s') (n * n') (e + e'), sg)

/-- The least exponent of the finite terms. -/
def minExp : List Num → Int → Int
  | [], m => m
  | .fin _ _ e :: r, m => minExp r (min e m)
  | _ :: r, m => minExp r m

/-- The exact sum of terms with the sign of a zero as R253 gives it. -/
def sumN (m : Rm) (l : List Num) : Num × Fl :=
  let sg := flIf (l.any (·.isSig)) flNV
  let pos := l.any fun x => match x with | .inf s => !s | _ => false
  let neg := l.any fun x => match x with | .inf s => s | _ => false
  if pos && neg then (.nan false, sg ||| flNV)
  else if l.any (·.isNan) then (.nan false, sg)
  else if pos then (.inf false, sg)
  else if neg then (.inf true, sg)
  else
    let lo := minExp l 4096
    let tot : Int := l.foldl (fun a x => match x with
      | .fin s n e => let v : Int := n * (2 ^ (e - lo).toNat : Nat); if s then a - v else a + v
      | _ => a) 0
    let zeros := l.all fun x => match x with | .zero _ => true | _ => false
    if tot = 0 then
      (.zero (if zeros && l.all (·.sign) && !l.isEmpty then true else if zeros && l.all (!·.sign) then false else m == .rdn), sg)
    else (.fin (decide (tot < 0)) tot.natAbs lo, sg)

/-- The quotient to 80 bits or more with a sticky bit, and the flags (R280). -/
def divN (a b : Num) : Num × Fl :=
  let sg := flIf (a.isSig || b.isSig) flNV
  match a, b with
  | .nan _, _ | _, .nan _ => (.nan false, sg)
  | .inf _, .inf _ | .zero _, .zero _ => (.nan false, sg ||| flNV)
  | .inf s, y => (.inf (s != y.sign), sg)
  | x, .inf s => (.zero (x.sign != s), sg)
  | .zero s, y => (.zero (s != y.sign), sg)
  | .fin s _ _, .zero s' => (.inf (s != s'), sg ||| flDZ)
  | .fin s n e, .fin s' n' e' =>
    let k := 80 + Nat.log2 n'
    let q := n * 2 ^ k / n'
    let r := n * 2 ^ k % n'
    (.fin (s != s') (4 * q + nb (r != 0)) (e - e' - k - 2), sg)

/-- The integer square root: bits from 2 ^ (k - 1) down that keep the square at or below `n`. -/
def isqrt (n : Nat) : Nat → Nat → Nat
  | 0, r => r
  | k + 1, r => isqrt n k (if (r + 2 ^ k) * (r + 2 ^ k) ≤ n then r + 2 ^ k else r)

/-- The square root with a sticky bit, and the flags (R280). -/
def sqrtN (a : Num) : Num × Fl :=
  match a with
  | .nan s => (.nan false, flIf s flNV)
  | .zero s => (.zero s, 0)
  | .inf false => (.inf false, 0)
  | .inf true => (.nan false, flNV)
  | .fin true _ _ => (.nan false, flNV)
  | .fin false n e =>
    let k : Nat := 140 + (if e % 2 = 0 then 0 else 1)
    let v := n * 2 ^ k
    let r := isqrt v (Nat.log2 v / 2 + 1) 0
    (.fin false (4 * r + nb (r * r != v)) ((e - k) / 2 - 2), 0)

/-- Compare two numbers that are not NaNs: less, and equal. -/
def cmpN (a b : Num) : Bool × Bool :=
  match a, b with
  | .inf s, .inf s' => (s && !s', s == s')
  | .inf s, _ => (s, false)
  | _, .inf s => (!s, false)
  | .zero _, .zero _ => (false, true)
  | .zero _, y => (!y.sign, false)
  | x, .zero _ => (x.sign, false)
  | .fin s n e, .fin s' n' e' =>
    let lo := min e e'
    let x : Int := n * (2 ^ (e - lo).toNat : Nat)
    let y : Int := n' * (2 ^ (e' - lo).toNat : Nat)
    let x := if s then -x else x
    let y := if s' then -y else y
    (decide (x < y), decide (x = y))
  | _, _ => (false, false)

/-! ## Operations on patterns: a result and its flags -/

/-- Round an exact result, with the flags of the operation. -/
def rounded (t : ETy) (m : Rm) (x : Num × Fl) : Nat × Fl :=
  let (v, f) := roundF t m x.1
  (v, x.2 ||| f)

/-- a + b. -/
def fAdd (t : ETy) (m : Rm) (a b : Nat) : Nat × Fl := rounded t m (sumN m [floatVal t a, floatVal t b])
/-- a − b. -/
def fSub (t : ETy) (m : Rm) (a b : Nat) : Nat × Fl := rounded t m (sumN m [floatVal t a, (floatVal t b).neg])
/-- a × b. -/
def fMul (t : ETy) (m : Rm) (a b : Nat) : Nat × Fl := rounded t m (mulN (floatVal t a) (floatVal t b))
/-- ±(a × b) ± c with one rounding. -/
def fFma (t : ETy) (m : Rm) (np nc : Bool) (a b c : Nat) : Nat × Fl :=
  let (p, f) := mulN (floatVal t a) (floatVal t b)
  let c := floatVal t c
  let (x, g) := sumN m [if np then p.neg else p, if nc then c.neg else c]
  rounded t m (x, f ||| g)
/-- a / b. -/
def fDiv (t : ETy) (m : Rm) (a b : Nat) : Nat × Fl := rounded t m (divN (floatVal t a) (floatVal t b))
/-- √a. -/
def fSqrt (t : ETy) (m : Rm) (a : Nat) : Nat × Fl := rounded t m (sqrtN (floatVal t a))

/-- minimumNumber and maximumNumber (R280): not rounded; min(−0, +0) = −0. -/
def fMinMax (t : ETy) (mx : Bool) (a b : Nat) : Nat × Fl :=
  let w := 2 ^ tbits t
  let x := floatVal t a
  let y := floatVal t b
  let f := flIf (x.isSig || y.isSig) flNV
  if x.isNan && y.isNan then (qnan t, f)
  else if x.isNan then (b % w, f)
  else if y.isNan then (a % w, f)
  else
    let (lt, eq) := cmpN x y
    let aFirst := if eq then x.sign || !y.sign else lt
    ((if aFirst != mx then a else b) % w, f)

/-- The relations of `fcmp` (R282). -/
def fCmp (t : ETy) (c : FcmpOp) (a b : Nat) : Bool × Fl :=
  let x := floatVal t a
  let y := floatVal t b
  let nan := x.isNan || y.isNan
  let sig := flIf (x.isSig || y.isSig) flNV
  let (lt, eq) := cmpN x y
  match c with
  | .eq => (!nan && eq, sig)
  | .lt => (!nan && lt, flIf nan flNV)
  | .le => (!nan && (lt || eq), flIf nan flNV)
  | .un => (nan, sig)

/-- The class word (R284). -/
def fClass (t : ETy) (a : Nat) : Nat :=
  let (eb, fb, _) := fmtOf t
  let k := match floatVal t a with
    | .zero _ => 1
    | .inf _ => 8
    | .nan true => 16
    | .nan false => 32
    | .fin .. => if a / 2 ^ fb % 2 ^ eb = 0 then 2 else 4
  k + 256 * nb (a.testBit (eb + fb))

/-- A value rounded to an integer: the integer and whether that changed it. -/
def toInt (m : Rm) (s : Bool) (n : Nat) (e : Int) : Int × Bool :=
  if 0 ≤ e then let v : Int := n * (2 ^ e.toNat : Nat); (if s then -v else v, false)
  else
    let k := (-e).toNat
    let v : Int := roundShift m s n k
    (if s then -v else v, n % 2 ^ k != 0)

/-- Conversion of a value to an integer type (R283). -/
def cvtInt (t : ETy) (m : Rm) (x : Num) : Nat × Fl :=
  match x with
  | .nan _ => (0, flNV)
  | .inf s => (wrapI (tbits t) (if s then intMin t else intMax t), flNV)
  | .zero _ => (0, 0)
  | .fin s n e =>
    let (i, nx) := toInt m s n e
    if i < intMin t || intMax t < i then (wrapI (tbits t) (clampI t i), flNV)
    else (wrapI (tbits t) i, flIf nx flNX)

/-- Conversion of a value to an MXINT8 code (R321). -/
def cvtMx (m : Rm) (x : Num) : Nat × Fl :=
  match x with
  | .nan _ => (0, flNV)
  | .inf s => (wrapI 8 (if s then -127 else 127), flOF ||| flNX)
  | .zero _ => (0, 0)
  | .fin s n e =>
    let (i, nx) := toInt m s n (e + 6)
    if 127 < i.natAbs then (wrapI 8 (if s then -127 else 127), flOF ||| flNX)
    else (wrapI 8 i, flIf nx flNX)

/-- Conversion from type `s` to type `t` (R283, R321). -/
def convert (t s : ETy) (m : Rm) (b : Nat) : Nat × Fl :=
  let x := elemVal s b
  if t.isInt then
    if s.isInt then (wrapI (tbits t) (clampI t (intVal s b)), 0) else cvtInt t m x
  else if t = .mx8 then cvtMx m x
  else
    let (v, f) := roundF t m x
    (v, f ||| flIf x.isSig flNV)

/-- The reciprocal estimate (R323). -/
def recipEst (t : ETy) (a : Nat) : Nat × Fl :=
  match floatVal t a with
  | .nan s => (qnan t, flIf s flNV)
  | .zero s => ((roundF t .rtz (.inf s)).1, flDZ)
  | .inf s => ((roundF t .rtz (.zero s)).1, 0)
  | .fin s n e =>
    let k := Nat.log2 n + 8
    ((roundF t .rtz (.fin s (2 ^ k / n) (-(k : Int) - e))).1, 0)

/-! ## The flag registers (R281, R253) -/

/-- fflags, fenable and frm of the sequencer that moves: its side's, or the supervisor core's own. -/
def Mach.fflags (m : Mach) : Fl := match m.dev.cur with | .side .. => m.mySide.fflags | .sup n => (m.sup n.toNat).fflags
/-- The trap enables. -/
def Mach.fenable (m : Mach) : Fl := match m.dev.cur with | .side .. => m.mySide.fenable | .sup n => (m.sup n.toNat).fenable
/-- The rounding mode register. -/
def Mach.frm (m : Mach) : BitVec 3 := match m.dev.cur with | .side .. => m.mySide.frm | .sup n => (m.sup n.toNat).frm
/-- OR flags into fflags. -/
def Mach.orFlags (m : Mach) (f : Fl) : Mach :=
  match m.dev.cur with
  | .side k _ => m.modSide k.toNat fun s => { s with fflags := s.fflags ||| f }
  | .sup n => m.modSup n.toNat fun u => { u with fflags := u.fflags ||| f }

/-- RaiseFlags of R253 for a scalar instruction, and then its effect. -/
def Mach.raise (m : Mach) (f : Fl) (k : Mach → Mach) : Mach :=
  let m := m.orFlags f
  let t := f &&& m.fenable
  if t = 0 then k m else m.trapV 0x0e (t.setWidth 64)

end Sys2Proof.Machine
end

