-- ==== Sys2Proof/Machine/Operands.lean ====
section
/-! DEFINITION. The operands beyond scalar registers: scratchpad bytes (R163 to R166), formatted sectors (R65, R66), layout records
and their windows (R359 to R362), stream ports (R174), and the elements of vector and predicate registers (R148, R253). -/

namespace Sys2Proof.Machine
open Sys2Proof

/-! ## Scratchpad -/

/-- The part of a core's scratchpad that a side's partition reaches (R163): the core, the first slice offset and how many. -/
structure SpRange where
  core : Nat
  base : Nat
  reach : Nat
  deriving DecidableEq, Repr

/-- The two sides of a core belong to one partition. -/
def Mach.shared (m : Mach) (core : Nat) : Bool := (m.side (2 * core)).pid == (m.side (2 * core + 1)).pid
/-- The range of a side on its own core. -/
def Mach.spOwn (m : Mach) (side : Nat) : SpRange :=
  if m.shared (side / 2) then ⟨side / 2, 0, 16384⟩ else ⟨side / 2, 8192 * (side % 2), 8192⟩
/-- The range that a partition reaches on a core (R165): nothing on a core with no side of its own. -/
def Mach.spOn (m : Mach) (pid : Option (BitVec 4)) (core : Nat) : SpRange :=
  if (m.side (2 * core)).pid == pid then m.spOwn (2 * core)
  else if (m.side (2 * core + 1)).pid == pid then m.spOwn (2 * core + 1)
  else ⟨core, 0, 0⟩
/-- The range that a 21-bit scratchpad address names for a side (R164). -/
def Mach.spAddr (m : Mach) (side : Nat) (a : Nat) : SpRange :=
  let core := side / 2 / 8 * 8 + a / 2 ^ 18 % 8
  if core = side / 2 then m.spOwn side else m.spOn (m.side side).pid core

/-- The byte number of a slice offset. -/
def SpRange.at_ (r : SpRange) (slice off : Nat) : Nat := 16384 * slice + r.base + off
/-- The byte number of linear byte `l` under granule `k` (R164). -/
def SpRange.lin (r : SpRange) (k l : Nat) : Nat :=
  r.at_ (l / 2 ^ k % 16) (l / 2 ^ (k + 4) * 2 ^ k + l % 2 ^ k)
/-- A linear offset lies within reach. -/
def SpRange.has (r : SpRange) (l : Nat) : Bool := l < 16 * r.reach

/-- A scratchpad byte and whether its 4-byte word is poisoned (R166). -/
def Core.spRd (c : Core) (i : Nat) : Byte × Bool := (c.spad.get 0 i, c.spois.get false (i / 4))
/-- The value of bytes, little-endian, and whether one is poisoned. -/
def gatherLe (l : List (Byte × Bool)) : Nat × Bool :=
  (l.foldr (fun b n => b.1.toNat + 256 * n) 0, l.any (·.2))

/-- Write bytes of a scratchpad as one write (R219): a word wholly covered by clean bytes loses its poison, a poisoned byte poisons
its word. -/
def Core.spWr (c : Core) (l : List (Nat × Byte × Bool)) : Core :=
  let words := l.foldl (fun acc x => if acc.contains (x.1 / 4) then acc else (x.1 / 4) :: acc) []
  let sp := l.foldl (fun t x => t.set x.1 x.2.1) c.spad
  let po := words.foldl (fun (t : Tbl Bool) w =>
    let here := l.filter fun x => x.1 / 4 == w
    if here.any (·.2.2) then t.set w true
    else if (List.range 4).all fun i => here.any (·.1 == 4 * w + i) then t.set w false
    else t) c.spois
  { c with spad := sp, spois := po }

/-- The blocks of R226 that a list of byte numbers touches. -/
def blocksOf (l : List (Nat × Byte × Bool)) : BitVec 256 :=
  l.foldl (fun b x => b ||| (1#256 <<< (x.1 % 16384 / 64))) 0

/-- Write scratchpad bytes for a side: its own mask, or on another core the masks of that core's sides, take the blocks (R226). -/
def Mach.spWrite (m : Mach) (side core : Nat) (l : List (Nat × Byte × Bool)) : Mach :=
  let b := blocksOf l
  let mark := fun (m : Mach) (k : Nat) => m.modSide k fun s => { s with written := s.written ||| b }
  let m := m.modCore core (·.spWr l)
  if core = side / 2 then mark m side else mark (mark m (2 * core)) (2 * core + 1)

/-- The bytes of a value with one poison bit. -/
def bytesOf (v : Nat) (p : Bool) (n : Nat) : List (Byte × Bool) := (leBytes v n).map fun b => (b, p)

/-! ## Formatted sectors (R65, R66) -/

/-- Bits of an item and items in a sector of a format. -/
def fmtBits (f : BitVec 3) : Nat := if f = 1 then 4 else if f = 2 then 3 else 8
/-- Items in a sector. -/
def fmtItems (f : BitVec 3) : Nat := if f = 1 then 256 else if f = 2 then 320 else 128
/-- The bit at which an item starts. -/
def itemBit (f : BitVec 3) (i : Nat) : Nat := if f = 2 then 96 * (i / 32) + 3 * (i % 32) else fmtBits f * i
/-- The raw two's complement value of an item. -/
def itemRaw (f : BitVec 3) (d : Sector) (i : Nat) : Int := sgn (fmtBits f) (d.toNat / 2 ^ itemBit f i % 2 ^ fmtBits f)

/-- The scale of the group of an item (R65): its pattern, and whether it is poisoned. -/
def Mach.scaleOf (m : Mach) (die : Nat) (f : BitVec 3) (rng mpa i : Nat) : (Nat × Bool) × Mach :=
  let r := (m.die die).fmt.get {} rng
  let sec := (mpa - wbits r.base 16 36 * 65536) / 128
  let g := sec * (fmtItems f / 32) + i / 32
  let sb := wbits r.scale 7 45 * 128
  let (a, n) := if f = 3 then (sb + g, 1) else (sb + 2 * g, 2)
  let ((d, p), m) := m.chanRead a
  ((d.toNat / 2 ^ (8 * (a % 128)) % 256 ^ n, p), m)

/-- The value of an item with its scale (R66): a NaN scale or E = 255 is a NaN. -/
def itemNum (f : BitVec 3) (raw : Int) (scale : Nat) : Num :=
  if f = 3 then
    if scale = 255 then .nan false
    else if raw = 0 then .zero false else .fin (decide (raw < 0)) raw.natAbs ((scale : Int) - 127 - 6)
  else (mulN (Num.ofInt raw) (floatVal .bf16 scale)).1

/-- An item decoded to f32 (R66). -/
def Mach.itemF32 (m : Mach) (die : Nat) (f : BitVec 3) (rng mpa : Nat) (d : Sector) (i : Nat) : (Nat × Bool) × Mach :=
  let ((s, p), m) := m.scaleOf die f rng mpa i
  (((roundF .f32 .rne (itemNum f (itemRaw f d i) s)).1, p), m)

/-! ## Layout records (R359, R360) -/

/-- A field of a record. -/
def lyF (r : BitVec 768) (lo n : Nat) : Nat := r.toNat / 2 ^ lo % 2 ^ n
/-- The element type of a record; f64 for code 15, which no use of a record accepts. -/
def lyType (r : BitVec 768) : ETy := (ETy.ofBits (BitVec.ofNat 4 (lyF r 57 4))).getD .f64
/-- The rank. -/
def lyRank (r : BitVec 768) : Nat := lyF r 61 3 + 1
/-- The base address. -/
def lyBase (r : BitVec 768) : Word := BitVec.ofInt 64 (sgn 57 (lyF r 0 57))
/-- An extent. -/
def lyExt (r : BitVec 768) (i : Nat) : Nat := lyF r (64 + 56 * i) 20
/-- A stride. -/
def lyStr (r : BitVec 768) (i : Nat) : Int := sgn 36 (lyF r (84 + 56 * i) 36)
/-- A window origin. -/
def lyOrg (r : BitVec 768) (i : Nat) : Int := sgn 20 (lyF r (344 + 20 * i) 20)
/-- A window size. -/
def lyWin (r : BitVec 768) (i : Nat) : Nat := lyF r (444 + 12 * i) 12
/-- The number of window elements from dimension `i` on. -/
def lyCount (r : BitVec 768) : Nat := (List.range (lyRank r)).foldl (fun n i => n * lyWin r i) 1
/-- The destination kind. -/
def lyDst (r : BitVec 768) : Nat := lyF r 545 2
/-- The granule. -/
def lyGran (r : BitVec 768) : Nat := lyF r 541 4

/-- The fill value at the element size (R360). -/
def lyFill (r : BitVec 768) : Nat :=
  let f := lyF r 504 32
  match lyType r with
  | .i64 => wrapI 64 (sgn 32 f)
  | .n64 => f
  | .f64 => (convert .f64 .f32 .rne f).1
  | t => f % 256 ^ t.size

/-- Where an element of a window comes from: memory, or a value that oob supplies. -/
inductive ElSrc where
  | mem (va : Word)
  | val (v : Nat)
  deriving DecidableEq, Repr

/-- The coordinates of element number `e` (R360). -/
def lyCoords (r : BitVec 768) : Nat → Nat → Nat → List Int
  | _, _, 0 => []
  | i, e, n + 1 => (lyOrg r i + (e % lyWin r i : Nat)) :: lyCoords r (i + 1) (e / lyWin r i) n

/-- The address of coordinates. -/
def lyAddr (r : BitVec 768) (cs : List Int) : Word :=
  lyBase r + BitVec.ofInt 64 ((cs.zipIdx.map fun (c, i) => c * lyStr r i).foldl (· + ·) 0)

/-- The element at coordinates, by the oob rule (R360). -/
def lyAt (r : BitVec 768) (cs : List Int) : ElSrc :=
  let inside := cs.zipIdx.all fun (c, i) => 0 ≤ c && c < lyExt r i
  if inside then .mem (lyAddr r cs)
  else match lyF r 536 2 with
    | 0 => .val (lyFill r)
    | 1 => .val 0
    | _ =>
      if (List.range (lyRank r)).any fun i => lyExt r i == 0 then .val 0
      else .mem (lyAddr r (cs.zipIdx.map fun (c, i) => min (max c 0) ((lyExt r i : Int) - 1)))

/-- Element number `e` of the window. -/
def lyElem (r : BitVec 768) (e : Nat) : ElSrc := lyAt r (lyCoords r 0 e (lyRank r))
/-- Element `w` of table row `i` (R367). -/
def lyRow (r : BitVec 768) (i w : Nat) : ElSrc := lyAt r [lyOrg r 0 + (w : Nat), (i : Nat)]

/-- The swizzle (R362). -/
def lySwz (r : BitVec 768) (l : Nat) : Nat :=
  match lyF r 538 3 with
  | 1 => l ^^^ (l / 1024 % 16 * 64)
  | 2 => l ^^^ (l / 1024 % 8 * 128)
  | 3 => l ^^^ (l / 1024 % 4 * 256)
  | _ => l

/-! ## Stream ports (R174, R175, R366) -/

/-- The items of a formatted sector that start inside `n` bytes from `off` on (DESIGN CHOICE, unsafe, log 27). -/
def itemsIn (f : BitVec 3) (off n : Nat) : List Nat :=
  (List.range (fmtItems f)).filter fun i => 8 * off ≤ itemBit f i && itemBit f i < 8 * (off + n)

/-- An element that reads the same in both views. -/
def PortEl.same (l : List (Byte × Bool)) : PortEl := ⟨l, l⟩
/-- One pattern element: its bytes, and as the view shows it when its sector is formatted (R315). None while a read must wait. -/
def Mach.portElem (m : Mach) (a : Acc) (p : Pattern) (e : Nat) : Option PortEl × Mach :=
  let es := (lyType p.rec_).size
  match lyElem p.rec_ e with
  | .val v => (some (.same (bytesOf v false es)), m)
  | .mem va =>
    match m.load a va es false with
    | (.error (some _), m) => (some (.same (bytesOf 0 true es)), m)
    | (.error none, m) => (none, m)
    | (.ok (v, po), m) =>
        let (c, m) := m.check a va .read
        match c with
        | .ok r =>
          let v57 := a.addr va
          let ((d, q, tag), m) := m.readTagged a r v57 false
          let (f, m) := m.frameOf a.die a.pid (asnTag a.asn v57) v57
          match tag, f with
          | some (f, rng), some (mpa, _) =>
            let step := fun (acc : List (Byte × Bool) × Mach) (i : Nat) =>
              let ((x, sp), m) := acc.2.itemF32 a.die f rng (mpa / 128 * 128) d i
              (acc.1 ++ bytesOf x (q || sp) 4, m)
            let (l, m) := (itemsIn f (v57 % 128) es).foldl step ([], m)
            (some ⟨bytesOf v po es, l⟩, m)
          | _, _ => (some (.same (bytesOf v po es)), m)
        | _ => (some (.same (bytesOf v po es)), m)

/-- The access of a side's engine for a captured pattern or command. -/
def Mach.engAcc (m : Mach) (side : Nat) (asn : BitVec 16) (lvl : Level) : Acc :=
  { pid := (m.side side).pid, asn := asn, lvl := lvl, core := side / 2, grp := side }

/-- An element as the view of a read shows it (R299, R315). -/
def PortEl.shown (view : Bool) (e : PortEl) : List (Byte × Bool) := if view then e.dec else e.raw
/-- The bytes that a port has fetched and no read has taken, in a view. -/
def SPort.avail (q : SPort) (view : Bool) : List (Byte × Bool) := (q.buf.flatMap (·.shown view)).drop q.skip
/-- The elements that are left when `n` bytes of them have been taken, and how many bytes of the first of these are gone. -/
def dropEls (view : Bool) (n : Nat) : List PortEl → List PortEl × Nat
  | [] => ([], 0)
  | e :: r => if (e.shown view).length ≤ n then dropEls view (n - (e.shown view).length) r else (e :: r, n)

/-- Fetch elements into a port's buffer until it holds `n` bytes in a view or the pattern ends. An error with the machine while a read must
wait. -/
def Mach.portFill (m : Mach) (side sp n : Nat) (view : Bool) : Nat → Except Mach Mach
  | 0 => .ok m
  | k + 1 =>
    let q := (m.core (side / 2)).sx.sp.get {} sp
    match q.pats with
    | [] => .ok m
    | p :: _ =>
      if n ≤ (q.avail view).length || lyCount p.rec_ ≤ q.next then .ok m
      else if m.markBlocks side 2 p.tick then .error m
      else
        let (b, m) := m.portElem (m.engAcc side p.asn p.lvl) p q.next
        match b with
        | none => .error m
        | some b =>
          (m.modCore (side / 2) fun c =>
            { c with sx := { c.sx with sp := c.sx.sp.set sp { q with next := q.next + 1, buf := q.buf ++ [b] } } }).portFill side sp n view k

/-- Take the next `n` bytes from a port in the view of the read (R174, R315): zeros when the pattern has run out. -/
def Mach.portTake (m : Mach) (side sp n : Nat) (view : Bool) : Except Mach (List (Byte × Bool) × Mach) :=
  (m.portFill side sp n view n).map fun m =>
    let q := (m.core (side / 2)).sx.sp.get {} sp
    let got := (q.avail view).take n
    let (rest, skip) := dropEls view (q.skip + n) q.buf
    let done := match q.pats with | p :: _ => lyCount p.rec_ ≤ q.next && rest.isEmpty | [] => true
    let q := if done then { pats := q.pats.tail } else { q with buf := rest, skip := if rest.isEmpty then 0 else skip }
    (got ++ List.replicate (n - got.length) ((0 : Byte), false),
      m.modCore (side / 2) fun c => { c with sx := { c.sx with sp := c.sx.sp.set sp q } })

/-! ## Vector and predicate registers (R148, R253) -/

/-- The greatest vl of a type (R10, R277).
DEDUCED, unsafe (log 67). -/
def vlmax (t : ETy) : Nat := 1024 / t.size
/-- An element's pattern. -/
def VReg.el (r : VReg) (es e : Nat) : Nat := (r.val.extractLsb' (8 * es * e) (8 * es)).toNat
/-- An element has a poisoned byte. -/
def VReg.bad (r : VReg) (es e : Nat) : Bool := (r.pois.extractLsb' (es * e) es) != 0
/-- Write an element with poison. -/
def VReg.put (r : VReg) (es e v : Nat) (p : Bool) : VReg :=
  let mv : VBits := BitVec.ofNat 8192 (2 ^ (8 * es) - 1) <<< (8 * es * e)
  let mp : PBits := BitVec.ofNat 1024 (2 ^ es - 1) <<< (es * e)
  { val := (r.val &&& ~~~mv) ||| (BitVec.ofNat 8192 (v % 2 ^ (8 * es)) <<< (8 * es * e))
    pois := if p then r.pois ||| mp else r.pois &&& ~~~mp }
/-- A register from bytes. -/
def VReg.ofBytes (l : List (Byte × Bool)) : VReg :=
  { val := BitVec.ofNat 8192 (l.foldr (fun b n => b.1.toNat + 256 * n) 0)
    pois := BitVec.ofNat 1024 (l.foldr (fun b n => nb b.2 + 2 * n) 0) }

/-- A vector register of a side. -/
def Side.vreg (s : Side) (v : VR) : VReg := s.v.get {} v.toNat
/-- A predicate register: p0 reads all ones (R272). -/
def Side.pred (s : Side) (p : PR) : PBits := if p = 0 then BitVec.allOnes 1024 else s.pr.get 0 p.toNat
/-- Set a predicate register. -/
def Side.setPred (s : Side) (p : PR) (b : PBits) : Side := if p = 0 then s else { s with pr := s.pr.set p.toNat b }

/-- Active(e) of R253, with the limit of a resolved strip (R309). -/
def Side.active (s : Side) (pg : PR) (e : Nat) : Bool :=
  s.vstart.toNat ≤ e && e < s.vl.toNat && (s.pred pg).getLsbD e
    && (match s.strip with | some t => (match t.lim with | some l => e < l | none => true) | none => true)

/-- The active elements in ascending order. -/
def Side.actives (s : Side) (pg : PR) : List Nat := (List.range s.vl.toNat).filter (s.active pg)

/-- The strip is unresolved in the queue (R306). -/
def Side.unresolved (s : Side) : Bool := match s.strip with | some t => t.lim.isNone | none => false

/-- The type that vtype selects; code 15 cannot be written (R299). -/
def Side.vty (s : Side) : ETy := (ETy.ofBits (s.vtype.extractLsb' 0 4)).getD .f64
/-- The type of an instruction (R301). -/
def Side.ty (s : Side) (ts : Option ETy) : ETy := ts.getD s.vty
/-- An explicit type has the size of vtype's, as an instruction without a second type asks (R248). -/
def Side.sized (s : Side) (ts : Option ETy) : Bool := ts.all fun t => t.size == s.vty.size

/-- The source registers of an instruction, each read once (R174): a bound one takes the next vl elements of its port. An error with
the machine while a port must wait. -/
def Mach.vsrcs (m : Mach) (side n : Nat) : List VR → List (VR × VReg) → Except Mach (List (VR × VReg) × Mach)
  | [], acc => .ok (acc, m)
  | v :: r, acc =>
    if acc.any (·.1 == v) then m.vsrcs side n r acc
    else match (m.side side).bind.find? (·.1 == v) with
      | none => m.vsrcs side n r (acc ++ [(v, (m.side side).vreg v)])
      | some (_, sp) =>
        match m.portTake side sp.toNat n ((m.side side).vtype.getLsbD 7) with
        | .error m => .error m
        | .ok (l, m) => m.vsrcs side n r (acc ++ [(v, VReg.ofBytes l)])

/-- The value a source list holds for a register. -/
def srcOf (l : List (VR × VReg)) (v : VR) : VReg := match l.find? (·.1 == v) with | some x => x.2 | none => {}

/-- The first `n` bytes of a register from one value, the rest from another. -/
def VReg.over (old new : VReg) (n : Nat) : VReg :=
  let b : VBits := BitVec.ofNat 8192 (2 ^ (8 * n) - 1)
  let p : PBits := BitVec.ofNat 1024 (2 ^ n - 1)
  { val := (new.val &&& b) ||| (old.val &&& ~~~b), pois := (new.pois &&& p) ||| (old.pois &&& ~~~p) }
/-- A destination that the instruction also reads from a port sees the same group of `n` bytes in the elements that it does not write
(R174). A strip restores the register's own contents. -/
def Side.seeGroup (s : Side) (n : Nat) (src : List (VR × VReg)) (d : Option VR) : Side :=
  match d with
  | none => s
  | some d =>
    if s.bind.any (·.1 == d) && src.any (·.1 == d) then
      { s with v := s.v.set d.toNat ((s.vreg d).over (srcOf src d) n)
               strip := s.strip.map fun t =>
                 if t.lim.isNone && !t.saved.any (·.1 == d.toNat) then { t with saved := t.saved.set d.toNat (s.vreg d) } else t }
    else s

end Sys2Proof.Machine
end

