-- ==== Sys2Proof/Machine/Scalar.lean ====
section
/-! DEFINITION. Scalar integer and floating-point instructions (R278 to R284). -/

namespace Sys2Proof.Machine
open Sys2Proof

/-- Fewer than: two's complement. -/
def wlt (a b : Word) : Bool := a.slt b
/-- The number of leading zeros of the low `n` bits. -/
def clzN (a : Word) : Nat → Nat
  | 0 => 0
  | n + 1 => if a.getLsbD n then 0 else 1 + clzN a n
/-- The number of trailing zeros from bit `i` on, of `n` bits. -/
def ctzN (a : Word) (i : Nat) : Nat → Nat
  | 0 => 0
  | n + 1 => if a.getLsbD i then 0 else 1 + ctzN a (i + 1) n
/-- The number of set bits among the low `n`. -/
def popN (a : Word) : Nat → Nat
  | 0 => 0
  | n + 1 => nb (a.getLsbD n) + popN a n
/-- The bits of a width code (R273). -/
def widBits : Wid → Nat
  | .b => 8
  | .h => 16
  | .w => 32
/-- A mask of `len1 + 1` low bits. -/
def lenMask (len1 : BitVec 6) : Word := w64 (2 ^ (len1.toNat + 1) - 1)

/-- `nop` (R279). -/
def execNop (s : State) : Host.Outcome State Fault Refusal := run (fun m => m.plain none [] (·.retire)) s

/-- `add` (R279). -/
def execAdd (d : Reg) (a b : Src) (s : State) : Host.Outcome State Fault Refusal :=
  run (fun m => m.alu d [a, b] fun m => m.val a + m.val b) s

/-- `sub` (R279). -/
def execSub (d : Reg) (a b : Src) (s : State) : Host.Outcome State Fault Refusal :=
  run (fun m => m.alu d [a, b] fun m => m.val a - m.val b) s

/-- `and` (R279). -/
def execAnd (d : Reg) (a b : Src) (s : State) : Host.Outcome State Fault Refusal :=
  run (fun m => m.alu d [a, b] fun m => m.val a &&& m.val b) s

/-- `or` (R279). -/
def execOr (d : Reg) (a b : Src) (s : State) : Host.Outcome State Fault Refusal :=
  run (fun m => m.alu d [a, b] fun m => m.val a ||| m.val b) s

/-- `xor` (R279). -/
def execXor (d : Reg) (a b : Src) (s : State) : Host.Outcome State Fault Refusal :=
  run (fun m => m.alu d [a, b] fun m => m.val a ^^^ m.val b) s

/-- `sll` (R279): shifted by b[5:0]. -/
def execSll (d : Reg) (a b : Src) (s : State) : Host.Outcome State Fault Refusal :=
  run (fun m => m.alu d [a, b] fun m => m.val a <<< ((m.val b).toNat % 64)) s

/-- `srl` (R279): shifted by b[5:0]. -/
def execSrl (d : Reg) (a b : Src) (s : State) : Host.Outcome State Fault Refusal :=
  run (fun m => m.alu d [a, b] fun m => m.val a >>> ((m.val b).toNat % 64)) s

/-- `sra` (R279): shifted by b[5:0]. -/
def execSra (d : Reg) (a b : Src) (s : State) : Host.Outcome State Fault Refusal :=
  run (fun m => m.alu d [a, b] fun m => (m.val a).sshiftRight ((m.val b).toNat % 64)) s

/-- `slt` (R279). -/
def execSlt (d : Reg) (a b : Src) (s : State) : Host.Outcome State Fault Refusal :=
  run (fun m => m.alu d [a, b] fun m => w64 (nb (wlt (m.val a) (m.val b)))) s

/-- `sltn` (R279). -/
def execSltn (d : Reg) (a b : Src) (s : State) : Host.Outcome State Fault Refusal :=
  run (fun m => m.alu d [a, b] fun m => w64 (nb ((m.val a).ult (m.val b)))) s

/-- `min` (R279). -/
def execMin (d : Reg) (a b : Src) (s : State) : Host.Outcome State Fault Refusal :=
  run (fun m => m.alu d [a, b] fun m => if wlt (m.val b) (m.val a) then m.val b else m.val a) s

/-- `max` (R279). -/
def execMax (d : Reg) (a b : Src) (s : State) : Host.Outcome State Fault Refusal :=
  run (fun m => m.alu d [a, b] fun m => if wlt (m.val a) (m.val b) then m.val b else m.val a) s

/-- `minn` (R279). -/
def execMinn (d : Reg) (a b : Src) (s : State) : Host.Outcome State Fault Refusal :=
  run (fun m => m.alu d [a, b] fun m => if (m.val b).ult (m.val a) then m.val b else m.val a) s

/-- `maxn` (R279). -/
def execMaxn (d : Reg) (a b : Src) (s : State) : Host.Outcome State Fault Refusal :=
  run (fun m => m.alu d [a, b] fun m => if (m.val a).ult (m.val b) then m.val b else m.val a) s

/-- `addi` (R279). -/
def execAddi (d : Reg) (a : Src) (imm : BitVec 26) (s : State) : Host.Outcome State Fault Refusal :=
  run (fun m => m.alu d [a] fun m => m.val a + imm.signExtend 64) s

/-- `andi` (R279). -/
def execAndi (d : Reg) (a : Src) (imm : BitVec 26) (s : State) : Host.Outcome State Fault Refusal :=
  run (fun m => m.alu d [a] fun m => m.val a &&& imm.signExtend 64) s

/-- `ori` (R279). -/
def execOri (d : Reg) (a : Src) (imm : BitVec 26) (s : State) : Host.Outcome State Fault Refusal :=
  run (fun m => m.alu d [a] fun m => m.val a ||| imm.signExtend 64) s

/-- `xori` (R279). -/
def execXori (d : Reg) (a : Src) (imm : BitVec 26) (s : State) : Host.Outcome State Fault Refusal :=
  run (fun m => m.alu d [a] fun m => m.val a ^^^ imm.signExtend 64) s

/-- `slli` (R279). -/
def execSlli (d : Reg) (a : Src) (n : BitVec 6) (s : State) : Host.Outcome State Fault Refusal :=
  run (fun m => m.alu d [a] fun m => m.val a <<< n.toNat) s

/-- `srli` (R279). -/
def execSrli (d : Reg) (a : Src) (n : BitVec 6) (s : State) : Host.Outcome State Fault Refusal :=
  run (fun m => m.alu d [a] fun m => m.val a >>> n.toNat) s

/-- `srai` (R279). -/
def execSrai (d : Reg) (a : Src) (n : BitVec 6) (s : State) : Host.Outcome State Fault Refusal :=
  run (fun m => m.alu d [a] fun m => (m.val a).sshiftRight n.toNat) s

/-- `slti` (R279). -/
def execSlti (d : Reg) (a : Src) (imm : BitVec 26) (s : State) : Host.Outcome State Fault Refusal :=
  run (fun m => m.alu d [a] fun m => w64 (nb (wlt (m.val a) (imm.signExtend 64)))) s

/-- `li` (R279). -/
def execLi (d : Reg) (imm : BitVec 40) (s : State) : Host.Outcome State Fault Refusal :=
  run (fun m => m.alu d [] fun _ => imm.signExtend 64) s

/-- `lpc` (R279): the target is not checked. -/
def execLpc (d : Reg) (lines : BitVec 27) (slot : BitVec 5) (s : State) : Host.Outcome State Fault Refusal :=
  run (fun m => m.alu d [] fun m => target m.me.pc (lines.signExtend 64) slot) s

/-- `mul` (R279). -/
def execMul (d : Reg) (a b : Src) (s : State) : Host.Outcome State Fault Refusal :=
  run (fun m => m.alu d [a, b] fun m => m.val a * m.val b) s

/-- `mulh` (R279): bits [127:64] of the signed product. -/
def execMulh (d : Reg) (a b : Src) (s : State) : Host.Outcome State Fault Refusal :=
  run (fun m => m.alu d [a, b] fun m => BitVec.ofInt 64 ((m.val a).toInt * (m.val b).toInt / (2 ^ 64 : Nat))) s

/-- `mulhn` (R279). -/
def execMulhn (d : Reg) (a b : Src) (s : State) : Host.Outcome State Fault Refusal :=
  run (fun m => m.alu d [a, b] fun m => w64 ((m.val a).toNat * (m.val b).toNat / 2 ^ 64)) s

/-- `div` (R279): never traps. -/
def execDiv (d : Reg) (a b : Src) (s : State) : Host.Outcome State Fault Refusal :=
  run (fun m => m.alu d [a, b] fun m => w64 (divRem true 64 (m.val a).toNat (m.val b).toNat).1) s

/-- `divn` (R279): never traps. -/
def execDivn (d : Reg) (a b : Src) (s : State) : Host.Outcome State Fault Refusal :=
  run (fun m => m.alu d [a, b] fun m => w64 (divRem false 64 (m.val a).toNat (m.val b).toNat).1) s

/-- `rem` (R279): never traps. -/
def execRem (d : Reg) (a b : Src) (s : State) : Host.Outcome State Fault Refusal :=
  run (fun m => m.alu d [a, b] fun m => w64 (divRem true 64 (m.val a).toNat (m.val b).toNat).2) s

/-- `remn` (R279): never traps. -/
def execRemn (d : Reg) (a b : Src) (s : State) : Host.Outcome State Fault Refusal :=
  run (fun m => m.alu d [a, b] fun m => w64 (divRem false 64 (m.val a).toNat (m.val b).toNat).2) s

/-- `clz` (R279). -/
def execClz (d : Reg) (a : Src) (s : State) : Host.Outcome State Fault Refusal :=
  run (fun m => m.alu d [a] fun m => w64 (clzN (m.val a) 64)) s

/-- `ctz` (R279). -/
def execCtz (d : Reg) (a : Src) (s : State) : Host.Outcome State Fault Refusal :=
  run (fun m => m.alu d [a] fun m => w64 (ctzN (m.val a) 0 64)) s

/-- `popc` (R279). -/
def execPopc (d : Reg) (a : Src) (s : State) : Host.Outcome State Fault Refusal :=
  run (fun m => m.alu d [a] fun m => w64 (popN (m.val a) 64)) s

/-- `sext` (R279). -/
def execSext (d : Reg) (a : Src) (wd : Wid) (s : State) : Host.Outcome State Fault Refusal :=
  run (fun m => m.alu d [a] fun m => BitVec.ofInt 64 (sgn (widBits wd) (m.val a).toNat)) s

/-- `zext` (R279). -/
def execZext (d : Reg) (a : Src) (wd : Wid) (s : State) : Host.Outcome State Fault Refusal :=
  run (fun m => m.alu d [a] fun m => w64 ((m.val a).toNat % 2 ^ widBits wd)) s

/-- `bfx` (R279). -/
def execBfx (d : Reg) (a : Src) (pos len1 : BitVec 6) (s : State) : Host.Outcome State Fault Refusal :=
  run (fun m => m.alu d [a] fun m => (m.val a >>> pos.toNat) &&& lenMask len1) s

/-- `bfi` (R279). -/
def execBfi (d : Reg) (a b : Src) (pos len1 : BitVec 6) (s : State) : Host.Outcome State Fault Refusal :=
  run (fun m => m.alu d [a, b] fun m => (m.val a &&& ~~~(lenMask len1 <<< pos.toNat)) ||| ((m.val b &&& lenMask len1) <<< pos.toNat)) s

/-- `mv` (R279): the poison bit goes with the value (R138). -/
def execMv (d : Reg) (a : Src) (s : State) : Host.Outcome State Fault Refusal :=
  run (fun m => m.issue true true (some d) [] [a] fun m => (m.wxp d (m.val a) (m.x a.r).pois).retire) s

/-- `sel` (R279): reads all three sources. -/
def execSel (d : Reg) (a b c : Src) (s : State) : Host.Outcome State Fault Refusal :=
  run (fun m => m.alu d [a, b, c] fun m => if m.val a ≠ 0 then m.val b else m.val c) s

/-- `addsh` (R279). -/
def execAddsh (d : Reg) (a b : Src) (sh : BitVec 2) (s : State) : Host.Outcome State Fault Refusal :=
  run (fun m => m.alu d [a, b] fun m => m.val a + (m.val b <<< sh.toNat)) s

/-! ## Floating point (R280 to R284) -/

/-- A scalar floating-point instruction: its result at a type, zero above it, and its flags (R280, R281). -/
def Mach.falu (m : Mach) (d : Reg) (ss : List Src) (f : Mach → Word × Fl) : Mach :=
  m.plain (some d) ss fun m =>
    let (v, fl) := f m
    m.raise fl fun m => (m.wx d v).retire
/-- A pattern of a float type from a source: the bits above it are ignored (R280). -/
def Mach.fsrc (m : Mach) (t : ETy) (a : Src) : Nat := (m.val a).toNat % 2 ^ tbits t
/-- A result pattern as a register value. -/
def fres (r : Nat × Fl) : Word × Fl := (w64 r.1, r.2)

/-- `fadd` (R280). -/
def execFadd (d : Reg) (a b : Src) (t : ETy) (rm : Rm) (s : State) : Host.Outcome State Fault Refusal :=
  run (fun m => m.falu d [a, b] fun m => fres (fAdd t (rmOf rm m.frm) (m.fsrc t a) (m.fsrc t b))) s

/-- `fsub` (R280). -/
def execFsub (d : Reg) (a b : Src) (t : ETy) (rm : Rm) (s : State) : Host.Outcome State Fault Refusal :=
  run (fun m => m.falu d [a, b] fun m => fres (fSub t (rmOf rm m.frm) (m.fsrc t a) (m.fsrc t b))) s

/-- `fmul` (R280). -/
def execFmul (d : Reg) (a b : Src) (t : ETy) (rm : Rm) (s : State) : Host.Outcome State Fault Refusal :=
  run (fun m => m.falu d [a, b] fun m => fres (fMul t (rmOf rm m.frm) (m.fsrc t a) (m.fsrc t b))) s

/-- `fdiv` (R280). -/
def execFdiv (d : Reg) (a b : Src) (t : ETy) (rm : Rm) (s : State) : Host.Outcome State Fault Refusal :=
  run (fun m => m.falu d [a, b] fun m => fres (fDiv t (rmOf rm m.frm) (m.fsrc t a) (m.fsrc t b))) s

/-- `fma` (R280): one rounding. -/
def execFma (d : Reg) (a b c : Src) (t : ETy) (rm : Rm) (s : State) : Host.Outcome State Fault Refusal :=
  run (fun m => m.falu d [a, b, c] fun m => fres (fFma t (rmOf rm m.frm) false false (m.fsrc t a) (m.fsrc t b) (m.fsrc t c))) s

/-- `fsqrt` (R280). -/
def execFsqrt (d : Reg) (a : Src) (t : ETy) (rm : Rm) (s : State) : Host.Outcome State Fault Refusal :=
  run (fun m => m.falu d [a] fun m => fres (fSqrt t (rmOf rm m.frm) (m.fsrc t a))) s

/-- `fmin` (R280). -/
def execFmin (d : Reg) (a b : Src) (t : ETy) (s : State) : Host.Outcome State Fault Refusal :=
  run (fun m => m.falu d [a, b] fun m => fres (fMinMax t false (m.fsrc t a) (m.fsrc t b))) s

/-- `fmax` (R280). -/
def execFmax (d : Reg) (a b : Src) (t : ETy) (s : State) : Host.Outcome State Fault Refusal :=
  run (fun m => m.falu d [a, b] fun m => fres (fMinMax t true (m.fsrc t a) (m.fsrc t b))) s

/-- `fcmp` (R282). -/
def execFcmp (d : Reg) (a b : Src) (t : ETy) (c : FcmpOp) (s : State) : Host.Outcome State Fault Refusal :=
  run (fun m => m.falu d [a, b] fun m => let (r, f) := fCmp t c (m.fsrc t a) (m.fsrc t b); (w64 (nb r), f)) s

/-- `fcvt` (R283): an integer result is sign-extended for i types and zero-extended for n types (R280). -/
def execFcvt (d : Reg) (a : Src) (t st : ETy) (rm : Rm) (s : State) : Host.Outcome State Fault Refusal :=
  run (fun m => m.falu d [a] fun m =>
    let (v, f) := convert t st (rmOf rm m.frm) (m.fsrc st a)
    (if t.isSigned then BitVec.ofInt 64 (sgn (tbits t) v) else w64 v, f)) s

/-- `fclass` (R284): raises no flag. -/
def execFclass (d : Reg) (a : Src) (t : ETy) (s : State) : Host.Outcome State Fault Refusal :=
  run (fun m => m.falu d [a] fun m => (w64 (fClass t (m.fsrc t a)), 0)) s

end Sys2Proof.Machine
end

