-- ==== Sys2Proof/Machine/Branch.lean ====
section
/-! DEFINITION. Branches, jumps and hardware loops (R285 to R289). -/

namespace Sys2Proof.Machine
open Sys2Proof

/-- The branch conditions (R248). -/
def condHolds (c : Cond) (x y : Word) : Bool :=
  match c with
  | .eq => x == y
  | .ne => x != y
  | .lt => wlt x y
  | .ge => !wlt x y
  | .ltn => x.ult y
  | .gen => !x.ult y

/-- `b` (R285): a branch that is not taken checks nothing. -/
def execB (c : Cond) (x y : Src) (lines : BitVec 15) (slot : BitVec 5) (s : State) : Host.Outcome State Fault Refusal :=
  run (fun m => m.plain none [x, y] fun m =>
    if condHolds c (m.val x) (m.val y) then m.branch (target m.me.pc (lines.signExtend 64) slot) id else m.retire) s

/-- `bi` (R285). -/
def execBi (c : Cond) (x : Src) (imm : BitVec 16) (lines : BitVec 21) (slot : BitVec 5) (s : State) : Host.Outcome State Fault Refusal :=
  run (fun m => m.plain none [x] fun m =>
    if condHolds c (m.val x) (imm.signExtend 64) then m.branch (target m.me.pc (lines.signExtend 64) slot) id else m.retire) s

/-- `j` (R285). -/
def execJ (lines : BitVec 27) (slot : BitVec 5) (s : State) : Host.Outcome State Fault Refusal :=
  run (fun m => m.plain none [] fun m => m.branch (target m.me.pc (lines.signExtend 64) slot) id) s

/-- `jal` (R285): the link is written with the jump or not at all. -/
def execJal (d : Reg) (lines : BitVec 27) (slot : BitVec 5) (s : State) : Host.Outcome State Fault Refusal :=
  run (fun m => m.plain (some d) [] fun m =>
    m.branch (target m.me.pc (lines.signExtend 64) slot) fun m => m.wx d m.me.next) s

/-- A U handler ends (R209, R286): its loop entries go. -/
def Seq.leaveU (q : Seq) : Seq := { q with inU := false, ls := q.ls.filter (·.ctx != 3) }

/-- `jr` (R285): `jr x31` inside a U handler ends it (R209).
DEDUCED, unsafe (log 39). -/
def execJr (a : Src) (s : State) : Host.Outcome State Fault Refusal :=
  run (fun m => m.plain none [a] fun m =>
    m.branch (m.val a) fun m => if a.r = 31 && m.me.inU then m.modMe (·.leaveU) else m) s

/-- `jalr` (R285): the target is read before the link is written. -/
def execJalr (d : Reg) (a : Src) (s : State) : Host.Outcome State Fault Refusal :=
  run (fun m => m.plain (some d) [a] fun m => m.branch (m.val a) fun m => m.wx d m.me.next) s

/-! ## Hardware loops -/

/-- The legal instruction PCs `p` of a line with `s <= p < e` (R287). -/
def bodyIn (base s e : Word) (n : Nat) : Nat :=
  ((List.range n).filter fun i => let p := base + 2 + w64 (2 * i); s ≤ p && p < e).length

/-- Read the lines of a loop body from `base` on and count its instructions (R287): the count, or the trap of a line that is invalid
or cannot be read, or none while a line waits. -/
def Mach.bodyCount (m : Mach) (s e : Word) : Nat → Word → Nat → Except (Option TrapReq) Nat × Mach
  | 0, _, acc => (.ok acc, m)
  | k + 1, base, acc =>
    if e ≤ base then (.ok acc, m)
    else
      let (f, m) := m.fetchLine m.dev.cur base
      match f with
      | .wait => (.error none, m)
      | .poison => (.error (some { cause := 0x0c, tval := 0x3000 }), m)
      | .fault c r => (.error (some { cause := c, tval := base, reason := r }), m)
      | .line l =>
        if !Line.valid l then (.error (some { cause := 0x01, tval := m.dev.head.setWidth 64 }), m)
        else m.bodyCount s e k (base + 64) (acc + bodyIn base s e (Line.count l))

/-- tval of the loop causes (R287): the level, and the body length saturated at 63.
DEDUCED, unsafe (log 131). -/
def loopTval (level b : Nat) : Word := w64 (level % 8 + 256 * min b 63)

/-- The loop instructions with a count (R287). -/
def Mach.loopTo (m : Mach) (count : Nat) (lines : BitVec 7) (slot : BitVec 5) : Mach :=
  let s := m.me.next
  let e := target m.me.pc (lines.setWidth 64) slot
  match m.legal e with
  | (none, m) => m.stay
  | (some false, m) => m.trapV 0x02 e
  | (some true, m) =>
    let (b, m) := m.bodyCount s e 130 (lineBase s) 0
    match b with
    | .error none => m.stay
    | .error (some t) => m.trap t
    | .ok b =>
      let depth := m.me.ls.length
      if b = 0 || 64 < b then m.trapV 0x13 (loopTval depth b)
      else if 2 ^ 62 ≤ count then m.trapV 0x12 (loopTval depth b)
      else if count = 0 then m.goto e
      else if 6 ≤ depth then m.trapV 0x12 (loopTval 6 b)
      else (m.modMe fun q => { q with ls := ⟨s, e, w64 count, 0, q.ctx⟩ :: q.ls }).goto s

/-- `loop` (R287). -/
def execLoop (a : Src) (lines : BitVec 7) (slot : BitVec 5) (s : State) : Host.Outcome State Fault Refusal :=
  run (fun m => m.plain none [a] fun m => m.loopTo (m.val a).toNat lines slot) s

/-- `loopi` (R287). -/
def execLoopi (n : BitVec 20) (lines : BitVec 7) (slot : BitVec 5) (s : State) : Host.Outcome State Fault Refusal :=
  run (fun m => m.plain none [] fun m => m.loopTo n.toNat lines slot) s

/-- The loop stack without the innermost entry of a context. -/
def dropInner (c : BitVec 2) : List LoopEnt → List LoopEnt
  | [] => []
  | e :: r => if e.ctx = c then r else e :: dropInner c r

/-- `lbrk` (R289). -/
def execLbrk (s : State) : Host.Outcome State Fault Refusal :=
  run (fun m => m.plain none [] fun m =>
    match m.me.ls.find? (·.ctx == m.me.ctx) with
    | none => m.trapV 0x12 0
    | some e => ((m.modMe fun q => { q with ls := dropInner q.ctx q.ls }).goto e.fin).modMe fun q => { q with iter := true }) s

/-- `lix` (R289): the index of the k-th innermost entry of the current context. -/
def execLix (d : Reg) (k : BitVec 3) (s : State) : Host.Outcome State Fault Refusal :=
  run (fun m => m.plain (some d) [] fun m =>
    match (m.me.ls.filter (·.ctx == m.me.ctx))[k.toNat]? with
    | none => m.trapV 0x12 (k.setWidth 64)
    | some e => (m.wx d e.index).retire) s

end Sys2Proof.Machine
end

