-- ==== Sys2Proof/Machine/ScalarMem.lean ====
section
/-! DEFINITION. Scalar loads and stores, atomics, prefetch and fences (R189 to R192, R199 to R204, R328 to R336). -/

namespace Sys2Proof.Machine
open Sys2Proof

/-- A speculative strip is open in P's program order (R306). -/
def Mach.stripOpen (m : Mach) : Bool := m.isRole .P && m.mySide.open_

/-- A translation fault or rights fault of a scalar access. -/
def Mach.accFault (m : Mach) (va : Word) (c : BitVec 8) (r : BitVec 4) : Mach := m.trap { cause := c, tval := va, reason := r }

/-- The die and the frame that a read of an address has to ask (R199): when the address misses every cache of its core and die, and its frame
lies on another die to which a path leads. -/
def Mach.remoteDie (m : Mach) (a : Acc) (va : Nat) : Option (Nat × Nat) × Mach :=
  let asn := asnTag a.asn va
  let hit := (m.core a.core).l1.any (fun s => s.is a.tagPid asn (va / 128) && s.have_ == fullMask)
    || (m.die a.die).l2.any (fun s => s.is a.tagPid asn (va / 128) && s.have_ == fullMask)
  if hit then (none, m)
  else
    let (f, m) := m.frameOf a.die a.pid asn va
    match f with
    | some (mpa, _) => (if mpa < 2 ^ 39 && dieOfMpa mpa != a.die && m.reach a.die (dieOfMpa mpa) then some (dieOfMpa mpa, mpa) else none, m)
    | none => (none, m)

/-- The frame outside DRAM that an address maps to, if it does. -/
def Mach.outside (m : Mach) (a : Acc) (r : Rights) (va : Nat) : Option Nat × Mach :=
  if r.home != 3 then (none, m)
  else
    let (f, m) := m.frameOf a.die a.pid (asnTag a.asn va) va
    match f with
    | some (mpa, _) => (if 2 ^ 39 ≤ mpa then some mpa else none, m)
    | none => (none, m)

/-- Start a load through a host window or a Gale port: it is answered by the host or the peer (R86, R87), and is poisoned at once when the way
is closed. `acq` says that it is an acquire (R201). -/
def Mach.extRead (m : Mach) (d : Reg) (host : Bool) (port off n : Nat) (sx acq : Bool) : Mach :=
  let a := m.myAcc
  if (if host then m.hostOpen port else (m.port port).up) then
    let r := { m.extReq host port off n false 0 a.tagPid a.grp with who := some (m.dev.cur, d, sx), acq := acq }
    (m.empty d).withDev fun x => { x with ext := x.ext ++ [r] }
  else
    let ((v, _), m) := m.extShut host port off n
    m.send d (extLd n sx v) true

/-- An earlier `lda` of the sequencer that moves is not yet performed: its memory accesses wait (R330). -/
def Mach.behindAcq (m : Mach) : Bool :=
  m.dev.remote.any (fun r => r.who == m.dev.cur && r.acq.isSome) || m.dev.ext.any fun e => e.acq && e.fills (· == m.dev.cur)
/-- An earlier read of the sequencer that moves still waits for the sector of an address at its owner: a store to it would come before it
(R188). -/
def Mach.behindRead (m : Mach) (va : Word) : Bool :=
  m.dev.remote.any fun r => r.who == m.dev.cur && r.got.isNone && r.va.toNat / 128 == va.toNat / 128
/-- A memory access waits behind the `lda`s of its sequencer (R330). -/
def Mach.access (m : Mach) (k : Mach → Mach) : Mach := if m.behindAcq then m.stay else k m
/-- A store or an atomic waits behind the `lda`s of its sequencer, and behind its reads of the same sector (R188, R330). -/
def Mach.accessTo (m : Mach) (va : Word) (k : Mach → Mach) : Mach := if m.behindRead va then m.stay else m.access k

/-- A load that has passed its checks (R329, R135): the value is fixed now and sent on its way, or the read waits at its owner. An acquire of
device scope or wider is performed once its die's clock is at or past the owner's (R199). -/
def Mach.loadTo (m : Mach) (d : Reg) (va : Word) (sz : Nat) (n : Bool) (r : Rights) (acq : Option Scope) : Mach :=
  let a := m.myAcc
  let v := a.addr va
  let now := fun (m : Mach) => let ((x, p), m) := m.readBytes a r v sz false; (m.send d (extLd sz n x) p).retire
  if m.heldByOther a v then m.stay
  else if let some x := m.readGone a v then m.accFault va (causeOf x) x
  else
    let (o, m) := m.outside a r v
    match o with
    | some mpa => match region mpa with
      | .host w off => (m.extRead d true w off sz n acq.isSome).retire
      | .gale p off => (m.extRead d false p off sz n acq.isSome).retire
      | _ => let ((x, p), m) := m.ioRead a.grp mpa sz; (m.send d (extLd sz n x) p).retire
    | none =>
      let (rd, m) := m.remoteDie a v
      match rd with
      | some (o, mpa) =>
        let m := m.closeFor a.die mpa
        let wide := match acq with | some sc => 4 ≤ scopeRank sc | none => false
        if m.remoteOk a.die o && (!wide || m.replyOk a.die o) then now m
        else
          ((m.empty d).withDev fun x =>
            { x with remote := x.remote ++ [{ die := BitVec.ofNat 2 o, clock := m.vcList a.die, who := x.cur, d := d, sz := sz, zx := n
                                              pid := a.pid, asn := a.asn, va := va, tick := m.tickOf x.cur, acq := acq, home := r.home }] }).retire
      | none => now m

/-- The access of a waiting remote read. -/
def Mach.remoteAcc (m : Mach) (x : RemoteRead) : Acc := { m.accOf x.who with pid := x.pid, asn := x.asn }
/-- The value of a remote read as its owner serves it (R199); it allocates as the home attribute says (R62). -/
def Mach.serveRemote (m : Mach) (x : RemoteRead) : (Word × Bool) × Mach :=
  let a := m.remoteAcc x
  let v := a.addr x.va
  let ((y, p), m) := m.readBytes a { monRights v with home := x.home } v x.sz false
  ((extLd x.sz x.zx y, p), m)
/-- A remote read is performed: its value goes on its way to its register, and an acquire takes effect (R199, R200). -/
def Mach.endRemote (m : Mach) (x : RemoteRead) (v : Word) (p : Bool) : Mach :=
  let m := m.withDev fun d => { d with arrivals := d.arrivals ++ [⟨x.who, x.d, v, p⟩] }
  match x.acq with
  | some sc => m.acquireData (m.remoteAcc x) sc
  | none => m

/-- An answer to a request beyond the package (R86, R87): it fills the register of a scalar load, and an acquire takes effect (R201); the
answer for an element stands until its instruction takes it. -/
def Mach.extAnswer (m : Mach) (e : ExtReq) (v : Nat) (p : Bool) : Mach :=
  match e.who with
  | some (q, d, z) =>
    let m := m.withDev fun x => { x with arrivals := x.arrivals ++ [⟨q, d, extLd e.n z v, p⟩] }
    if e.acq then m.acquireData (m.accOf q) .sys else m
  | none => if e.grp == noGroup then m else m.withDev fun x => { x with ext := x.ext ++ [{ e with ans := some (BitVec.ofNat 1024 v, p) }] }

/-- `ld` (R329): its faults are precise, taken before it retires (R138). -/
def execLd (d : Reg) (a : Src) (sz : BitVec 2) (n : Bool) (off : BitVec 19) (s : State) : Host.Outcome State Fault Refusal :=
  run (fun m => m.plain (some d) [a] fun m =>
    let va := m.val a + off.signExtend 64
    let w := 2 ^ sz.toNat
    if va.toNat % w ≠ 0 then m.trapV 0x07 va
    else m.access fun m =>
      let (c, m) := m.check m.myAcc va .read
      match c with
      | .fault c r => m.accFault va c r
      | .wait => m.stay
      | .ok r => m.loadTo d va w n r none) s

/-- A store of a scalar register on the store path (R53, R329). -/
def Mach.storeReg (m : Mach) (va : Word) (w : Nat) (x : XReg) (k : Mach → Mach) : Mach :=
  match m.store m.myAcc m.me.pc w [⟨0, va, x.val, x.pois⟩] with
  | .done m => k m
  | .wait m => m.stay
  | .fault c r _ m => m.accFault va c r

/-- The stores of an older `vcommit` of P go ahead of its later stores, those of one that is still in the queue too (R310). -/
def Mach.behindCommit (m : Mach) : Bool := m.isRole .P && (!m.mySide.leaving.isEmpty || m.mySide.vq.any (·.ins == .vcommit))

/-- `st` (R329): the data register is carried with its poison (R138). -/
def execSt (v a : Src) (sz : BitVec 2) (off : BitVec 19) (s : State) : Host.Outcome State Fault Refusal :=
  run (fun m => m.issue true true none [a] [v] fun m =>
    let va := m.val a + off.signExtend 64
    let w := 2 ^ sz.toNat
    if va.toNat % w ≠ 0 then m.trapV 0x07 va
    else if m.behindCommit then m.stay
    else m.accessTo va fun m => m.storeReg va w (m.x v.r) (·.retire)) s

/-! ## Releases and acquires (R189, R330, R334) -/

/-- A scope of an instruction: recovery scope acts as system scope without a Frost entry, and for an acquire (R204, R335). -/
def Mach.scopeOf (m : Mach) (sc : Scope) : Scope := if sc == .rc && !m.hasCap 0x15 then .sys else sc

/-- P's older queue entries are done, and the stores of a closed strip have entered L1 (R189). -/
def Mach.queueDone (m : Mach) : Bool := !m.isRole .P || (m.mySide.vq.isEmpty && m.mySide.leaving.isEmpty)

/-- The sequencer's own loads are performed (R188). -/
def Mach.loadsDone (m : Mach) : Bool := !m.asks (· == m.dev.cur)

/-- The bank updates that a release covers are applied on its own die (R67). -/
def Mach.updsDone (m : Mach) : Bool := let a := m.myAcc; !(m.die a.die).upds.any (·.pid == a.tagPid)

/-- P's own bank updates on its die and the adds of its `vst.nf`s are performed: a release at any scope covers them (R67, R188, R189, R344). -/
def Mach.ownUpdsDone (m : Mach) : Bool := !m.isRole .P || (!m.updBefore m.myNo m.mySide.tick && m.mySide.adds.isEmpty)

/-- The undo log of some die has only its reserve left, when all the space that can be had has been reclaimed (R75). -/
def Mach.logTight (m : Mach) : Bool := (List.range 4).any fun d => (m.die d).hasFrost && 2 ^ 22 ≤ (m.logFree d).logLive d

/-- What a release still waits for after its data has moved (R73, R75, R189, R201). -/
def Mach.releaseDone (m : Mach) (sc : Scope) (commit : Bool) : Bool :=
  m.ownUpdsDone && (scopeRank sc < 2 || m.updsDone) && (scopeRank sc < 5 || m.extDone m.myAcc.tagPid)
    && (sc != .rc || ((List.range 4).all (fun d => (m.die d).resetting || m.allApplied d) && (commit || !m.logTight)))

/-- A drain point of core scope or wider, or nothing (R55). -/
def Mach.drainAt (m : Mach) (sc : Scope) (k : Mach → Mach) : Mach := if scopeRank sc = 0 then k m else m.drain k

/-- `lda` (R330): the sequencer goes on, and its later memory accesses wait until the load is performed. -/
def execLda (d : Reg) (a : Src) (sz : BitVec 2) (n : Bool) (sc : Scope) (off : BitVec 19) (s : State) : Host.Outcome State Fault Refusal :=
  run (fun m => m.plain (some d) [a] fun m =>
    if m.stripOpen then m.trapHead 0x14
    else
      let va := m.val a + off.signExtend 64
      let w := 2 ^ sz.toNat
      if va.toNat % w ≠ 0 then m.trapV 0x07 va
      else m.access fun m =>
        let acc := m.myAcc
        let (c, m) := m.check acc va .read
        match c with
        | .fault c r => m.accFault va c r
        | .wait => m.stay
        | .ok r => (m.acquireData acc sc).loadTo d va w n r (some sc)) s

/-- The store of an `stl`: beyond the package it is complete once it has been acknowledged or dropped (R201, R330), and its sequencer goes no
further before. -/
def Mach.stlReg (m : Mach) (va : Word) (w : Nat) (x : XReg) (k : Mach → Mach) : Mach :=
  let n := m.dev.ext.length
  m.storeReg va w x fun m =>
    k (m.withDev fun d => { d with ext := d.ext.take n ++ (d.ext.drop n).map fun e => { e with rel := some d.cur } })

/-- The store of a release, performed at its coherence point (R192, R199, R330).
DEDUCED, unsafe (log 41). -/
def Mach.releaseStore (m : Mach) (sc : Scope) (va : Word) (w : Nat) (x : XReg) : Mach :=
  let a := m.myAcc
  let miss := match (m.pageSt a va).1.st with
    | .miss => (match m.confirm a.core a.tagPid (asnTag a.asn (va57 va)) a.lvl (va57 va) with | (.error e, _) => some e | (.ok _, _) => none)
    | _ => none
  match miss with
  | some e =>
    -- The store's own probe fails: its fault is deferred and delivered here, at the release that cannot complete without it.
    let (n, m) := m.serial a.grp
    let t : AttEnt := { q := BitVec.ofNat 2 (seqNo m.dev.cur), pc := m.me.pc, first := 0, last := 0, va := va, sh := (m.pageSt a va).1.sh
                        serial := n, lvl := a.lvl
                        pid := a.tagPid, asn := asnTag a.asn (va57 va), fail := some e, told := false }
    let m := m.setAtt a.grp (m.att a.grp ++ [t])
    m.deliver t 0
  | none =>
    let m := match (m.pageSt a va).1.st with
      | .miss => (match m.confirm a.core a.tagPid (asnTag a.asn (va57 va)) a.lvl (va57 va) with | (_, m) => m)
      | _ => m
    m.stlReg va w x fun m =>
      let m := if 2 ≤ scopeRank sc then m.l1Flush a.core (sc == .rc) else m
      let (f, m) := if 2 ≤ scopeRank sc then m.frameOf a.die a.pid (asnTag a.asn (a.addr va)) (a.addr va) else (none, m)
      let rem := match f with | some (mpa, _) => mpa < 2 ^ 39 && dieOfMpa mpa != a.die | none => false
      let m := if rem then (m.remoteFlush a.die).closeBatch a.die else m
      let m := if sc == .rc then m.frostFlush a.core a.tagPid else m
      m.retire

/-- `stl` (R330): at core scope or wider a drain point; it waits for all that it covers, and then its store is made.
DEDUCED, unsafe (log 40). -/
def execStl (v a : Src) (sz : BitVec 2) (sc : Scope) (off : BitVec 19) (s : State) : Host.Outcome State Fault Refusal :=
  run (fun m => m.issue true true none [a] [v] fun m =>
    if m.stripOpen then m.trapHead 0x14
    else
      let va := m.val a + off.signExtend 64
      let w := 2 ^ sz.toNat
      if va.toNat % w ≠ 0 then m.trapV 0x07 va
      else if !m.queueDone || !m.loadsDone || !m.ownUpdsDone then m.stay
      else if sc == .seq then m.stlReg va w (m.x v.r) (·.retire)
      else m.drain fun m =>
        let sc := m.scopeOf sc
        let m := m.releaseData m.myAcc sc
        if !m.releaseDone sc false then m.stay else m.releaseStore sc va w (m.x v.r)) s

/-- `fence` (R334). -/
def execFence (sc : Scope) (k : FKind) (s : State) : Host.Outcome State Fault Refusal :=
  run (fun m => m.plain none [] fun m =>
    if m.stripOpen then m.trapHead 0x14
    else if !m.queueDone || !m.loadsDone then m.stay
    else m.drainAt sc fun m =>
      let sc := m.scopeOf sc
      let a := m.myAcc
      let m := if k == .acq then m else m.releaseData a sc
      if k != .acq && !m.releaseDone sc false then m.stay
      else if k != .rel && 4 ≤ scopeRank sc && !m.caughtUp a.die then m.stay
      else (if k == .rel then m else m.acquireData a sc).retire) s

/-- The units of a partition that have started and not ended, oldest first, and the gang members that wait for the rest of their gang. -/
def Mach.unitsOf (m : Mach) (p : BitVec 4) : List (Nat × Nat × BitVec 256) :=
  let us := m.dev.sides.filterMap fun (_, s) => match s.unit with | some u => if s.pid = some p then some u else none | none => none
  let waiting := m.dev.sides.foldl (fun (l : List (Nat × Nat × BitVec 256)) (k, s) => match s.unit with
    | some u =>
      let b : Barrier := (m.cluster (clusterOf k)).bars.get {} u.bar
      if s.pid = some p && u.gang then l ++ (b.recs.map fun r => (u.vd, u.cls, r.2)).filter fun x => !l.contains x else l
    | none => l) []
  ((sortBy (fun (a b : UnitInfo) => a.started < b.started) us).map fun u => (u.vd, u.cls, u.rec_)) ++ waiting

/-- The commit of a partition (R73, R74): the slot on its recovery home die, which is lost where no path leads there (R18), then rpc and rpi; the logs give back the space that they need no
more (R75); the units that have not ended and the
jobs that exist are remembered for a rollback (R236, R405). -/
def Mach.commit (m : Mach) (p : BitVec 4) (home : Nat) : Mach :=
  let d := m.die home
  let pt := m.part p.toNat
  let slot := d.ctlFrame + 64 * (2 * p.toNat + pt.rpi.toNat % 2)
  let seq := m.rd (d.ctlFrame + 0x808) 8
  let body := leBytes pt.rpi.toNat 6 ++ [BitVec.ofNat 8 p.toNat, 1] ++ leBytes seq 8 ++ leBytes d.cyc.toNat 8 ++ leBytes 0 32
  let n := body.foldr (fun b n => b.toNat + 256 * n) 0
  let m := if m.reach (dieOf m.dev.cur) home then (m.wr slot 56 n).wr (slot + 56) 8 (crc64 0 body).toNat else m.lostWrite (dieOf m.dev.cur) slot
  let m := m.modPart p.toNat fun x =>
    { x with rpc := x.rpi, rpi := x.rpi + 1, outst := m.unitsOf p, jobsAt := (m.dev.jobs.filter (·.pid == p)).map (·.id) }
  (List.range 4).foldl (fun m d => if (m.die d).hasFrost then m.logFree d else m) m

/-- The virtual device of the unit a side runs may commit (R89, R335); a supervisor core needs no such right. -/
def Mach.mayCommit (m : Mach) : Bool :=
  match m.dev.cur with
  | .sup _ => true
  | .side .. => match m.mySide.unit with
    | some u => (m.vd u.vd).commit
    | none => false

/-- `fence rc, rel, commit` (R335, R73). -/
def execFenceCommit (s : State) : Host.Outcome State Fault Refusal :=
  run (fun m => m.issue true (m.hasCap 0x15) none [] [] fun m =>
    if m.stripOpen then m.trapHead 0x14
    else if !m.mayCommit then m.trapHead 0x04
    else if !m.queueDone || !m.loadsDone then m.stay
    else m.drain fun m =>
      let a := m.myAcc
      let m := m.releaseData a .rc
      if !m.releaseDone .rc true then m.stay
      else
        let home := (m.pctx a.die a.tagPid).home.toNat
        if !(m.die home).hasFrost then m.trap { cause := 0x0d, tval := 0 }
        else (m.commit a.tagPid home).retire) s

/-- `qfence` (R336, R195): markers in the named queues of the side; no effect on a supervisor core. -/
def execQfence (mask : BitVec 8) (s : State) : Host.Outcome State Fault Refusal :=
  run (fun m => m.plain none [] fun m =>
    let (t, m) := m.tick
    (m.modMySide fun x => { x with marks := x.marks ++ [⟨t, mask⟩] }).retire) s

/-- `pf` (R331): no alignment check; a failed translation only counts (R52); nothing is brought in from a page that no cache takes. -/
def Mach.prefetch (m : Mach) (va : Word) (wr : Bool) : Mach :=
  let a := m.myAcc
  let fail := m.modMySide fun x => { x with stsup := x.stsup + 1 }
  match a.pid with
  | none => m
  | some pid =>
    if !canonical va then fail
    else
      let v := va57 va
      let asn := asnTag a.asn v
      let hit := (m.core a.core).rights pid asn v
      match (match hit, wr with
        | some r, false => Except.ok (r, m)
        | _, _ => match m.xlate a.die pid asn v with
          | .error e => .error e
          | .ok (t, m) => .ok (t.rights pid asn v false, m.modCore a.core (·.putRights (t.rights pid asn v false)))) with
      | .error _ => fail
      | .ok (r, m) =>
        if !r.allows a.lvl .read then fail
        else if r.home == 3 then m
        else
          let (ok, m) := m.readReady a v
          if ok then (m.readSec a r v false).2 else m

/-- `pf` (R331). -/
def execPf (a : Src) (wr : Bool) (off : BitVec 19) (s : State) : Host.Outcome State Fault Refusal :=
  run (fun m => m.plain none [a] fun m => (m.prefetch (m.val a + off.signExtend 64) wr).retire) s

/-! ## Atomic read-modify-write (R332, R333) -/

/-- The new value of an `amo` at a width, and the old one extended. -/
def amoNew (op : AmoOp) (bits : Nat) (old b c : Nat) : Nat :=
  let s := sgn bits
  match op with
  | .add => (old + b) % 2 ^ bits
  | .and => old &&& b
  | .or => old ||| b
  | .xor => old ^^^ b
  | .min => if s b < s old then b else old
  | .max => if s old < s b then b else old
  | .minn => if b < old then b else old
  | .maxn => if old < b then b else old
  | .swap => b
  | .cas => if old = c then b else old
  | .fadd => (fAdd (if bits = 32 then .f32 else .f64) .rne old b).1

/-- The value of `xd` (R332). -/
def amoExt (op : AmoOp) (bits old : Nat) : Word :=
  match op with
  | .minn | .maxn | .fadd => w64 old
  | _ => BitVec.ofInt 64 (sgn bits old)

/-- The own stores of a core to a sector go below before an atomic: out of L1, and out of L2 when the frame is remote. -/
def Mach.clearWay (m : Mach) (a : Acc) (v mpa : Nat) : Option Mach :=
  let asn := asnTag a.asn v
  let m := match (m.core a.core).l1.find? (·.is a.tagPid asn (v / 128)) with
    | some s => m.l1Down a.core s false
    | none => m
  let m := m.modCore a.core fun c => { c with l1 := c.l1.filter fun s => !(s.is a.tagPid asn (v / 128)) }
  if dieOfMpa mpa = a.die then some m
  else (m.l2Evict a.die a.tagPid asn (v / 1024) false).map fun m => m.closeBatch a.die

/-- Bring a location to its coherence point for one atomic step (R192, R199, R333): `gone` when its mapping has gone or no path leads to its
die (R18), a rights fault beyond DRAM, a wait while a store of the core holds the sector, a remote clock is short or a write-back finds no log
room. -/
def Mach.home (m : Mach) (a : Acc) (va : Word) (gone : Mach → Mach) (k : Nat → Bool → Mach → Mach) : Mach :=
  let v := a.addr va
  let asn := asnTag a.asn v
  let (f, m) := m.frameOf a.die a.pid asn v
  match f with
  | none => if let some x := m.frameBad a.die a.pid asn v then m.accFault va (causeOf x) x else gone (m.goneEvent a.die a.pid asn v 2)
  | some (mpa, frost) =>
    if 2 ^ 39 ≤ mpa then m.accFault va 0x08 0
    else if (m.die (dieOfMpa mpa)).resetting then m.accFault va 0x09 7
    else if !m.reach a.die (dieOfMpa mpa) then gone (m.logErr a.die 0x08 0 (w64 v) 1)
    else
      let m := m.probeGroup a.core a.grp a.tagPid asn 16 (v / 65536)
      if (m.core a.core).l1.any fun s => s.is a.tagPid asn (v / 128) && s.held.isSome then m.stay
      else match m.clearWay a v mpa with
        | none => m.stalls
        | some m =>
          if dieOfMpa mpa ≠ a.die && !m.remoteOk a.die (dieOfMpa mpa) then m.stay
          else match m.snoop mpa false with
            | none => m.stalls
            | some m => k mpa frost (if dieOfMpa mpa = a.die then m else m.noteClock a.die (dieOfMpa mpa))

/-- `amo` (R333): one step at the coherence point; a remote one closes the open batch and waits for the owner's clock (R199). -/
def execAmo (d : Reg) (a b c : Src) (op : AmoOp) (dbl : Bool) (s : State) : Host.Outcome State Fault Refusal :=
  run (fun m => m.plain (some d) (if op == .cas then [a, b, c] else [a, b]) fun m =>
    let va := m.val a
    let w := if dbl then 8 else 4
    if va.toNat % w ≠ 0 then m.trapV 0x07 va
    else if m.behindCommit then m.stay
    else m.accessTo va fun m =>
      let acc := m.myAcc
      let (k, m) := m.checkWrite acc va
      match k with
      | .fault c r => m.accFault va c r
      | .wait => m.stay
      | .ok r =>
        if !r.rd then m.accFault va 0x08 0
        else m.home acc va (fun m => let (x, m) := m.poisonVal w; (m.send d (amoExt op (8 * w) x) true).retire) fun mpa frost m =>
          let ((data, p), m) := m.chanRead mpa
          let sh := 8 * (mpa % 128)
          let old := data.toNat / 2 ^ sh % 256 ^ w
          if p then (m.send d (amoExt op (8 * w) old) true).retire
          else
            let y := (m.val b).toNat % 256 ^ w
            let z := (m.val c).toNat % 256 ^ w
            let new := amoNew op (8 * w) old y z
            if op == .cas && old != z then (m.send d (amoExt op (8 * w) old) false).retire
            else match m.chanWrite mpa (BitVec.ofNat 1024 (new * 2 ^ sh)) (byteMask (mpa % 128) w) false frost acc.tagPid false with
              | none => m.stalls
              | some m => (m.send d (amoExt op (8 * w) old) false).retire) s

end Sys2Proof.Machine
end

