-- ==== Sys2Proof/Machine/Records.lean ====
section
/-! DEFINITION. The records of the work hierarchy (R103 to R116): accesses to partition physical space, counter records and their
completion, queue blocks and rings. -/

namespace Sys2Proof.Machine
open Sys2Proof

/-! ## Partition physical space (R103, R297): stage 2 only, never cached, at the owning channel -/

/-- Read `n` bytes inside one line: the number and whether a sector of it is poisoned. A cached copy is written back first (R192). -/
def Mach.recGet (m : Mach) (die : Nat) (pid : BitVec 4) (ppa n : Nat) : Option ((Nat × Bool) × Mach) :=
  (m.ppaOf die (some pid) ppa).map fun (a, _) => m.physGet a n

/-- Write `n` bytes inside one line; a Frost sector is logged first (R72, R405). -/
def Mach.recPut (m : Mach) (die : Nat) (pid : BitVec 4) (ppa n v : Nat) : Option Mach :=
  (m.ppaOf die (some pid) ppa).map fun (a, frost) => m.physPut a n v frost pid

/-- Write a doubleword of a record, when it can be reached. -/
def Mach.recPut8 (m : Mach) (die : Nat) (pid : BitVec 4) (ppa v : Nat) : Mach := (m.recPut die pid ppa 8 v).getD m

/-! ## Counter records (R107 to R109) -/

/-- A counter record: where it lies and its eight doublewords as one number. -/
structure CRec where
  ppa : Nat
  val : Nat
  deriving DecidableEq, Repr

/-- Bits `[lo + n - 1 : lo]` of word `w` of a record. -/
def fld (v w lo n : Nat) : Nat := v / 2 ^ (64 * w + lo) % 2 ^ n
/-- Replace a field. -/
def setFld (v w lo n x : Nat) : Nat := v - fld v w lo n * 2 ^ (64 * w + lo) + x % 2 ^ n * 2 ^ (64 * w + lo)

/-- A field that is reserved, or that must be 0 at the record's level, is set (R107). -/
def CRec.bad (r : CRec) : Bool :=
  let f := fld r.val
  let launch := f 0 61 3 == 1
  f 0 56 3 != 0 || f 0 32 16 != 0 || f 2 52 12 != 0 || f 2 0 6 != 0 || f 3 52 12 != 0 || f 3 0 5 != 0 || f 4 9 55 != 0 || f 5 16 8 != 0
    || f 6 0 64 != 0 || f 7 0 64 != 0 || (!launch && (f 4 6 2 != 0 || f 5 0 64 != 0))
    || (launch && (f 5 24 8 == 1 || 16 < f 5 24 8 || f 5 0 16 == 0xffff))

/-- The level of a record. -/
def CRec.level (r : CRec) : Nat := fld r.val 0 61 3
/-- Its state. -/
def CRec.state (r : CRec) : Nat := fld r.val 0 59 2
/-- Its cause. -/
def CRec.cause (r : CRec) : Nat := fld r.val 0 48 8
/-- Its pending count. -/
def CRec.pending (r : CRec) : Nat := fld r.val 0 0 32
/-- Units that have ended. -/
def CRec.ended (r : CRec) : Nat := fld r.val 1 0 32
/-- Units that have failed. -/
def CRec.failed (r : CRec) : Nat := fld r.val 1 32 32
/-- The parent's address. -/
def CRec.parent (r : CRec) : Nat := fld r.val 2 6 46 * 64
/-- The continuation pushed on completion. -/
def CRec.next (r : CRec) : Nat := fld r.val 3 5 47 * 32
/-- Completion interrupts the notify core. -/
def CRec.irq (r : CRec) : Bool := fld r.val 4 8 1 == 1
/-- The class. -/
def CRec.cls (r : CRec) : Nat := fld r.val 4 6 2
/-- The virtual device. -/
def CRec.vd (r : CRec) : Nat := fld r.val 4 0 6
/-- The gang size. -/
def CRec.gsize (r : CRec) : Nat := fld r.val 5 24 8
/-- The address space of a launch's units. -/
def CRec.asn (r : CRec) : BitVec 16 := BitVec.ofNat 16 (fld r.val 5 0 16)

/-- Read a counter record. -/
def Mach.crec (m : Mach) (die : Nat) (pid : BitVec 4) (ppa : Nat) : Option (CRec × Mach) :=
  if ppa = 0 || ppa % 64 ≠ 0 then none
  else (m.recGet die pid ppa 64).map fun ((v, _), m) => (⟨ppa, v⟩, m)

/-- Write the three words that hardware changes (R107). -/
def Mach.putCrec (m : Mach) (die : Nat) (pid : BitVec 4) (r : CRec) : Mach := (m.recPut die pid r.ppa 16 (r.val % 2 ^ 128)).getD m

/-- The records from level `l` up to the job (R103); none when the chain is broken. -/
def Mach.chainFrom (m : Mach) (die : Nat) (pid : BitVec 4) (ppa l : Nat) : Nat → Option (List CRec) × Mach
  | 0 => (none, m)
  | k + 1 =>
    match m.crec die pid ppa with
    | none => (none, m)
    | some (r, m) =>
      if r.level ≠ l then (none, m)
      else if l = 4 then (if r.parent = 0 then (some [r], m) else (none, m))
      else match m.chainFrom die pid r.parent (l + 1) k with
        | (some c, m) => (some (r :: c), m)
        | (none, m) => (none, m)

/-- The chain of a launch. -/
def Mach.chain (m : Mach) (die : Nat) (pid : BitVec 4) (launch : Nat) : Option (List CRec) × Mach := m.chainFrom die pid launch 1 4

/-- Interrupt the notify supervisor core of a virtual device (R89, R211). -/
def Mach.irqNotify (m : Mach) (vd : Nat) (src : BitVec 8) : Mach := m.irqSup (m.vd vd).notify.toNat src

/-! ## Queue blocks and rings (R112, R113) -/

/-- A class descriptor: where it lies and its four doublewords. -/
structure QDesc where
  ppa : Nat
  val : Nat
  deriving DecidableEq, Repr

/-- The ring's base. -/
def QDesc.base (q : QDesc) : Nat := fld q.val 0 12 40 * 4096
/-- log2 of the ring's records. -/
def QDesc.k (q : QDesc) : Nat := fld q.val 0 0 5
/-- The front's running count. -/
def QDesc.head (q : QDesc) : Nat := fld q.val 1 0 64
/-- The back's running count. -/
def QDesc.tail (q : QDesc) : Nat := fld q.val 2 0 64
/-- The records in the ring. -/
def QDesc.len (q : QDesc) : Nat := (q.tail + 2 ^ 64 - q.head) % 2 ^ 64
/-- The class is in use and its descriptor is well formed. -/
def QDesc.ok (q : QDesc) : Bool :=
  fld q.val 3 0 1 == 1 && fld q.val 0 52 12 == 0 && fld q.val 0 5 7 == 0 && fld q.val 3 1 15 == 0 && 12 ≤ q.k && q.k ≤ 20
/-- The address of the slot of a running count. -/
def QDesc.slot (q : QDesc) (i : Nat) : Nat := q.base + 32 * (i % 2 ^ q.k)

/-- The descriptor of a class of a virtual device, when it is enabled and can be reached. -/
def Mach.qdesc (m : Mach) (die : Nat) (pid : BitVec 4) (vd cls : Nat) : Option QDesc × Mach :=
  let a := (m.vd vd).qblock + 32 * cls
  if (m.vd vd).qblock = 0 then (none, m)
  else match m.recGet die pid a 32 with
    | some ((v, _), m) => (if (QDesc.mk a v).ok then some ⟨a, v⟩ else none, m)
    | none => (none, m)

/-- A record of a ring. -/
def Mach.ringGet (m : Mach) (die : Nat) (pid : BitVec 4) (q : QDesc) (i : Nat) : Option (BitVec 256) × Mach :=
  match m.recGet die pid (q.slot i) 32 with
  | some ((v, _), m) => (some (BitVec.ofNat 256 v), m)
  | none => (none, m)

/-- Write records to slots from a running count on. -/
def Mach.ringPut (m : Mach) (die : Nat) (pid : BitVec 4) (q : QDesc) (i : Nat) : List (BitVec 256) → Mach
  | [] => m
  | r :: l => (((m.recPut die pid (q.slot i) 32 r.toNat).getD m).ringPut die pid q (i + 1) l)

/-- The launch that a continuation record names. -/
def recLaunch (r : BitVec 256) : Nat := fld r.toNat 3 6 46 * 64
/-- The die of a record with ctx = 1. -/
def recDie (r : BitVec 256) : Nat := fld r.toNat 3 2 2
/-- The record is a gang member's. -/
def recGang (r : BitVec 256) : Bool := fld r.toNat 3 1 1 == 1
/-- The record resumes a saved context. -/
def recCtx (r : BitVec 256) : Bool := fld r.toNat 3 0 1 == 1
/-- The join record of a unit. -/
def recJoin (r : BitVec 256) : Word := w64 (fld r.toNat 2 0 64)
/-- A reserved field of a record is set (R104). -/
def recBad (r : BitVec 256) : Bool :=
  fld r.toNat 3 52 12 != 0 || fld r.toNat 3 4 2 != 0 || (!recCtx r && recDie r != 0)
    || (recCtx r && (fld r.toNat 0 52 12 != 0 || fld r.toNat 0 0 6 != 0))

/-! ## The fronts of the rings (R113, R124) -/

/-- The first record of a class that a die may start. -/
structure Front where
  v : Nat
  cls : Nat
  idx : Nat
  rec_ : BitVec 256
  since : Nat
  deriving DecidableEq, Repr

/-- Change the scheduler of a die. -/
def Mach.modSched (m : Mach) (die : Nat) (f : Sched → Sched) : Mach := m.modDie die fun d => { d with sched := f d.sched }

/-- The first record from a running count on that a die may start: it passes over those that another die must resume (R113). -/
def Mach.frontFrom (m : Mach) (die : Nat) (p : BitVec 4) (q : QDesc) (i : Nat) : Nat → Option (Nat × BitVec 256) × Mach
  | 0 => (none, m)
  | n + 1 =>
    match m.ringGet die p q i with
    | (none, m) => (none, m)
    | (some r, m) => if recCtx r && recDie r != die then m.frontFrom die p q (i + 1) n else (some (i, r), m)

/-- Find the front of a class, and since when the die has found it there: a record that others have been pushed ahead of keeps its wait
(R124, R130). -/
def Mach.frontOf (m : Mach) (die : Nat) (p : BitVec 4) (v c : Nat) : Option Front × Mach :=
  match m.qdesc die p v c with
  | (none, m) => (none, m)
  | (some q, m) =>
    match m.frontFrom die p q q.head (min q.len (2 ^ q.k)) with
    | (none, m) => (none, m.modSched die fun s => { s with front := s.front.filter (·.1 != 4 * v + c) })
    | (some (i, r), m) =>
      let now := (m.die die).cyc.toNat
      let seen := ((m.die die).sched.front.get [] (4 * v + c)).filter fun x => (x.2 + 2 ^ 64 - q.head) % 2 ^ 64 < q.len
      let (since, seen) := match seen.find? (·.2 == i) with
        | some (t, _) => (t, seen)
        | none => (now, seen ++ [(now, i)])
      (some ⟨v, c, i, r, since⟩, m.modSched die fun s => { s with front := s.front.set (4 * v + c) seen })

/-- A refill period (R122). -/
def period : Nat := 1200000
/-- A device's share of a die's scheduler. -/
def Mach.vds (m : Mach) (die v : Nat) : VdSched := (m.die die).sched.vds.get {} v
/-- Change a device's share. -/
def Mach.modVds (m : Mach) (die v : Nat) (f : VdSched → VdSched) : Mach :=
  m.modSched die fun s => { s with vds := s.vds.set v (f (s.vds.get {} v)) }

/-- A device that has been idle for more than a period, with a record to start that has stood at a front since cycle `since`, is boosted for 60,000
cycles from the first of them at which both hold (R123). -/
def Mach.noteBoost (m : Mach) (die v since : Nat) : Mach :=
  match (m.vds die v).idleSince with
  | some t =>
    if t + period < (m.die die).cyc.toNat then
      m.modVds die v fun a => { a with boostEnd := some (max (t + period + 1) since + 60000), idleSince := none }
    else m
  | none => m

/-- The fronts of the classes of a device that a die may start. -/
def Mach.frontsOf (m : Mach) (die : Nat) (p : BitVec 4) (v : Nat) : List Front × Mach :=
  (List.range 4).foldl (fun (fm : List Front × Mach) c =>
    match fm.2.frontOf die p v c with
    | (some f, m) => (fm.1 ++ [f], m)
    | (none, m) => (fm.1, m)) ([], m)

/-- The boost of a device for which a die has found some fronts (R123). -/
def Mach.noteOldest (m : Mach) (die v : Nat) : List Front → Mach
  | [] => m
  | a :: r => m.noteBoost die v (r.foldl (fun t f => min t f.since) a.since)

/-- The devices whose idle time has passed a period while a record of theirs stood at a front (R123). -/
def Mach.noteBoosts (m : Mach) (die : Nat) : Mach :=
  (List.range 64).foldl (fun m v =>
    match (m.vd v).pid, (m.vds die v).idleSince with
    | some p, some t =>
      if (m.vd v).weight ≠ 0 && t + period < (m.die die).cyc.toNat && m.dev.sides.any fun (k, s) => k / 256 == die && s.pid == some p then
        let (l, m) := m.frontsOf die p v
        m.noteOldest die v l
      else m
    | _, _ => m) m

/-- The dies on which a partition has sides find the front of a class, which may have changed (R123, R124). -/
def Mach.noteFronts (m : Mach) (p : BitVec 4) (v c : Nat) : Mach :=
  (List.range 4).foldl (fun m die =>
    if m.dev.sides.any fun (k, s) => k / 256 == die && s.pid == some p then
      match m.frontOf die p v c with
      | (some f, m) => if (m.vd v).weight = 0 then m else m.noteBoost die v f.since
      | (none, m) => m
    else m) m

/-- A pop of `n` records moves those before it towards the back: the fronts that the dies know keep their waits, and those of the popped records
are over (R113, R124). -/
def Mach.shiftFronts (m : Mach) (v c head i n : Nat) : Mach :=
  (List.range 4).foldl (fun m die => m.modSched die fun s =>
    { s with front := s.front.map fun (k, l) =>
        if k ≠ 4 * v + c then (k, l)
        else (k, l.filterMap fun (t, j) =>
          if (j + 2 ^ 64 - head) % 2 ^ 64 < (i + 2 ^ 64 - head) % 2 ^ 64 then some (t, (j + n) % 2 ^ 64)
          else if (j + 2 ^ 64 - i) % 2 ^ 64 < n then none
          else some (t, j)) }) m

/-- A push at the back (R113): status 6 when the class is not enabled, 3 when the floor of free slots is reached. -/
def Mach.pushBack (m : Mach) (die : Nat) (pid : BitVec 4) (vd cls : Nat) (rs : List (BitVec 256)) : Nat × Mach :=
  match m.qdesc die pid vd cls with
  | (none, m) => (6, m)
  | (some q, m) =>
    if 2 ^ q.k < q.len + rs.length + 1024 then (3, m)
    else (0, ((m.ringPut die pid q q.tail rs).recPut8 die pid (q.ppa + 16) ((q.tail + rs.length) % 2 ^ 64)).noteFronts pid vd cls)

/-- A re-queue of records (R113): at the front, so that they stand in order, or at the back. It is never refused. -/
def Mach.requeue (m : Mach) (die : Nat) (pid : BitVec 4) (vd cls : Nat) (rs : List (BitVec 256)) (front : Bool) : Mach :=
  match m.qdesc die pid vd cls with
  | (none, m) => m
  | (some q, m) =>
    (if front then
      let h := (q.head + 2 ^ 64 - rs.length) % 2 ^ 64
      (m.ringPut die pid q h rs).recPut8 die pid (q.ppa + 8) h
    else (m.ringPut die pid q q.tail rs).recPut8 die pid (q.ppa + 16) ((q.tail + rs.length) % 2 ^ 64)).noteFronts pid vd cls

/-- The push of one continuation record that a completion or a join names: its launch decides the ring. Status 6 when there is no such launch or
a reserved field of it is set (R7, R107), 5 when it is another partition's, 2 when it is complete or in miscount, 4 when it is a gang's, whose
records only a spawn or a SUBMIT pushes (R117). DESIGN CHOICE, unsafe (log 165): a `next` that any of them refuses leaves its record in miscount. -/
def Mach.pushNamed (m : Mach) (die : Nat) (pid : BitVec 4) (r : BitVec 256) : Nat × Mach :=
  match m.crec die pid (recLaunch r) with
  | none => (6, m)
  | some (l, m) =>
    if l.level ≠ 1 || l.bad then (6, m)
    else if (m.vd l.vd).pid ≠ some pid then (5, m)
    else if l.state = 1 || l.state = 3 then (2, m)
    else if recGang r || 2 ≤ l.gsize then (4, m)
    else m.pushBack die pid l.vd l.cls [r]

/-! ## Reports and completion (R108, R109) -/

/-- Add a report's counts to a record. -/
def CRec.add (r : CRec) (ended failed cause : Nat) : CRec :=
  let v := setFld r.val 1 0 32 (r.ended + ended)
  let v := setFld v 1 32 32 (r.failed + failed)
  { r with val := if r.cause = 0 then setFld v 0 48 8 cause else v }
/-- A record in miscount. -/
def CRec.miscount (r : CRec) : CRec := { r with val := setFld r.val 0 59 2 3 }

/-- The atomic update that a report makes of a record (R108, R109): the record when its pending count has just reached 0 and it completes. A
decrease that finds 0 is a miscount, told to the notify core every time. -/
def Mach.bump (m : Mach) (die : Nat) (pid : BitVec 4) (ppa ended failed cause : Nat) : Option CRec × Mach :=
  match m.crec die pid ppa with
  | none => (none, m)
  | some (r, m) =>
    let x := r.add ended failed cause
    if r.pending = 0 then (none, (m.putCrec die pid x.miscount).irqNotify r.vd 0x04)
    else
      let x := { x with val := setFld x.val 0 0 32 (r.pending - 1) }
      (if r.pending = 1 && r.state != 3 then some x else none, m.putCrec die pid x)

/-- Complete on a record whose pending count has reached 0 (R108, R109): the parent is reported to, next is pushed, the interrupt goes out, and
then the parent may complete. After a push that is refused the record is in miscount, and nothing further propagates. -/
def Mach.complete1 (m : Mach) (die : Nat) (pid : BitVec 4) (x : CRec) : Nat → Mach
  | 0 => m
  | k + 1 =>
    let x := if x.state = 0 then { x with val := setFld x.val 0 59 2 1 } else x
    let m := m.putCrec die pid x
    let m := if x.parent = 0 && m.dev.jobs.any (fun j => j.pid == pid && j.ppa == x.ppa) then
        m.withDev fun d => { d with ended := d.ended ++ [(pid, x.ppa)] }
      else m
    let (up, m) := if x.parent = 0 then (none, m)
      else m.bump die pid x.parent x.ended x.failed (if x.cause = 0 && x.state = 2 then 0x19 else x.cause)
    let (st, m) := if x.state = 1 && x.next ≠ 0 then
        (match m.recGet die pid x.next 32 with
        | some ((v, _), m) => m.pushNamed die pid (BitVec.ofNat 256 v)
        | none => (6, m))
      else (0, m)
    if st ≠ 0 then (m.putCrec die pid x.miscount).irqNotify x.vd 0x04
    else
      let m := if x.irq then m.irqNotify x.vd 0x04 else m
      match up with
      | some p => m.complete1 die pid p k
      | none => m

/-- A report to a record (R108, R109), and Complete on it when its pending count reaches 0. -/
def Mach.report (m : Mach) (die : Nat) (pid : BitVec 4) (ppa ended failed cause : Nat) : Mach :=
  match m.bump die pid ppa ended failed cause with
  | (some x, m) => m.complete1 die pid x 4
  | (none, m) => m

/-- A unit is counted into its launch: ended, or failed with a cause (R108, R110). -/
def Mach.countUnit (m : Mach) (die : Nat) (pid : BitVec 4) (launch : Nat) (failed : Option (BitVec 8)) : Mach :=
  match failed with
  | none => m.report die pid launch 1 0 0
  | some c => m.report die pid launch 0 1 c.toNat

end Sys2Proof.Machine
end

