-- ==== Sys2Proof/Machine/Units.lean ====
section
/-! DEFINITION. Units and the counters of a cluster: the sides of a partition, gangs, barriers and semaphores with their votes (R117,
R230, R292 to R294), tokens (R172), and what sequencers wait for (R221). -/

namespace Sys2Proof.Machine
open Sys2Proof

/-! ## Sides of a partition (R121) -/

/-- The sides of a partition on a die, lowest number first. -/
def Mach.sidesOf (m : Mach) (p : BitVec 4) (die : Nat) : List Nat :=
  m.dev.sides.filterMap fun (k, s) => if s.pid = some p ∧ k / 256 = die then some k else none
/-- capsides(v) on a die (R121). -/
def Mach.capsides (m : Mach) (v : Nat) (die : Nat) : Nat :=
  match (m.vd v).pid with
  | none => 0
  | some p =>
    let s := (m.sidesOf p die).length
    let c := (m.vd v).cap
    if c = 0 then s else max 1 (c * s / 100)
/-- running(v) on a die (R121). -/
def Mach.running (m : Mach) (v : Nat) (die : Nat) : Nat :=
  (m.dev.sides.filter fun (k, s) => k / 256 == die && (match s.unit with | some u => u.vd == v | none => false)).length
/-! ## Refills (R122) -/

/-- The virtual devices of a partition. -/
def Mach.vdsOf (m : Mach) (p : BitVec 4) : List Nat := (List.range 64).filter fun v => (m.vd v).pid == some p
/-- The quota of a device at a refill (R122). -/
def Mach.quota (m : Mach) (die v : Nat) (p : BitVec 4) : Nat :=
  let s := (m.sidesOf p die).length
  let w := (m.vd v).weight
  let tot := ((m.vdsOf p).map fun u => (m.vd u).weight).foldl (· + ·) 0
  let q := if tot = 0 then 0 else s * period * w / tot
  let q := if 0 < w then max q period else q
  min q (m.capsides v die * period)
/-- A die refills the devices of a partition (R122). -/
def Mach.refillPart (m : Mach) (die : Nat) (p : BitVec 4) : Mach :=
  (m.vdsOf p).foldl (fun m v => let q := m.quota die v p; m.modVds die v fun a => { a with allow := (q : Int) }) m

/-- A gang of `g` of a device fits on some die (R117). -/
def Mach.gangFits (m : Mach) (p : BitVec 4) (v g : Nat) : Bool :=
  (List.range 4).any fun d =>
    g ≤ m.capsides v d && (List.range 16).any fun c => g ≤ ((m.sidesOf p d).filter fun k => clusterOf k == 16 * d + c).length

/-- The sides that run members of a unit's gang, its own among them (R117, R118). -/
def Mach.gangSides (m : Mach) (k : Nat) (u : UnitInfo) : List Nat :=
  m.dev.sides.filterMap fun (j, s) =>
    match s.unit with
    | some w => if clusterOf j = clusterOf k && w.gang && w.launch == u.launch && w.bar == u.bar && s.pid == (m.side k).pid then some j else none
    | none => none

/-- The record address space of a side's partition: its die and its partition id. -/
def Mach.pid0 (m : Mach) (k : Nat) : BitVec 4 := (m.side k).pid.getD 0

/-! ## Votes (R230) -/

/-- Three equal copies. -/
def Tri.of (n : Nat) : Tri := ⟨n, n, n⟩
/-- The majority, and whether a copy differs from it; none when all three differ. -/
def Tri.vote (t : Tri) : Option (Nat × Bool) :=
  if t.a = t.b then some (t.a, t.c != t.a) else if t.a = t.c then some (t.a, true) else if t.b = t.c then some (t.b, true) else none

/-- A counter of a cluster by number: 0 to 63 the barriers, 64 to 127 the semaphores. -/
def Mach.voted (m : Mach) (cl n : Nat) : Voted :=
  if n < 64 then ((m.cluster cl).bars.get {} n).arr else ((m.cluster cl).sems.get {} (n - 64)).cnt
/-- Change a counter. -/
def Mach.modVoted (m : Mach) (cl n : Nat) (f : Voted → Voted) : Mach :=
  m.modCluster cl fun c =>
    if n < 64 then let b := c.bars.get {} n; { c with bars := c.bars.set n { b with arr := f b.arr } }
    else let b := c.sems.get {} (n - 64); { c with sems := c.sems.set (n - 64) { b with cnt := f b.cnt } }
/-- Set the value of a counter in all three copies. -/
def Mach.setCount (m : Mach) (cl n v : Nat) : Mach := m.modVoted cl n fun x => { x with cnt := Tri.of v }

/-- Read a counter (R230): a copy that differs is rewritten with an event; when all differ the counter is 0, an event is logged, and
every waiter and the next user traps. None when the vote fails.
DESIGN CHOICE, unsafe (log 43). -/
def Mach.readVoted (m : Mach) (cl n : Nat) : Option Nat × Mach :=
  let x := m.voted cl n
  let die := cl / 16
  match x.cnt.vote with
  | some (v, false) => (some v, m)
  | some (v, true) => (some v, (m.setCount cl n v).logErr die 0x06 (BitVec.ofNat 16 (cl % 16)) (w64 n) 0)
  | none =>
    let m := m.logErr die 0x07 (BitVec.ofNat 16 (cl % 16)) (w64 n) 0
    let w := w64 (m.die die).logLast
    (none, m.modVoted cl n fun x => { cnt := {}, waiters := [], traps := x.traps ++ x.waiters.map (·, w), next := some w })

/-- Use a counter (R230): a failed vote traps its waiters and the next one to use it with 0x0d; otherwise go on with its value. -/
def Mach.useVoted (m : Mach) (cl n : Nat) (k : Nat → Mach → Mach) : Mach :=
  let q := m.dev.cur
  if m.owed q then m.stay
  else
    let waits := (m.voted cl n).waiters.contains q
    let (v, m) := m.readVoted cl n
    let x := m.voted cl n
    match x.traps.find? (·.1 == q) with
    | some (_, w) => (m.modVoted cl n fun x => { x with traps := x.traps.filter (·.1 != q) }).trapV 0x0d w
    | none =>
      match (if waits then none else x.next), v with
      | some w, _ => (m.modVoted cl n fun x => { x with next := none }).trapV 0x0d w
      | none, some v => k v m
      | none, none => m.stay

/-- Begin to wait on a counter. -/
def Mach.waitVoted (m : Mach) (cl n : Nat) : Mach :=
  let q := m.dev.cur
  (m.modVoted cl n fun x => { x with waiters := if x.waiters.contains q then x.waiters else x.waiters ++ [q] }).wait
/-- No longer wait on a counter. -/
def Mach.unwaitVoted (m : Mach) (cl n : Nat) : Mach :=
  let q := m.dev.cur
  m.modVoted cl n fun x => { x with waiters := x.waiters.filter (· != q) }

/-! ## Barriers (R292) -/

/-- A barrier of a cluster. -/
def Mach.bar (m : Mach) (cl n : Nat) : Barrier := (m.cluster cl).bars.get {} n
/-- Change a barrier. -/
def Mach.modBar (m : Mach) (cl n : Nat) (f : Barrier → Barrier) : Mach :=
  m.modCluster cl fun c => { c with bars := c.bars.set n (f (c.bars.get {} n)) }

/-- The arrival of a side's unit at a barrier whose arrived count is `a` (R292).
DEDUCED, unsafe (log 44). -/
def Mach.arriveWith (m : Mach) (side n a : Nat) : Mach :=
  let cl := clusterOf side
  let b := m.bar cl n
  let m := m.modSide side fun s => { s with phase := b.phase, arrived := true }
  if a + 1 = b.parts then (m.setCount cl n 0).modBar cl n fun b => { b with phase := (b.phase + 1) % 2 ^ 32 }
  else m.setCount cl n (a + 1)

/-- The arrival that the stream engine makes on a member's behalf (R293). -/
def Mach.arriveFor (m : Mach) (side : Nat) : Mach :=
  match (m.side side).unit with
  | none => m
  | some u =>
    match m.readVoted (clusterOf side) u.bar with
    | (some a, m) => m.arriveWith side u.bar a
    | (none, m) => m

/-- A member leaves its gang's barrier (R110, R118, R127): when it ends the participant count drops; when it is pre-empted its record waits
for the other members. The last running member frees the barrier; the barrier's counts go into the header of the lowest rank's image,
and the waiting records go to the ring in rank order, to be started again together. -/
def Mach.gangLeave (m : Mach) (k : Nat) (u : UnitInfo) (saved : Option (BitVec 256)) (back : Bool) : Mach :=
  if !u.gang then m
  else
    let cl := clusterOf k
    let die := k / 256
    let pid := m.pid0 k
    let m := m.modBar cl u.bar fun b => match saved with
      | none => { b with parts := b.parts - 1 }
      | some r => { b with recs := b.recs.set u.rank r, back := b.back || back }
    if (m.gangSides k u).any (· != k) then m
    else
      let (a, m) := m.readVoted cl u.bar
      let b := m.bar cl u.bar
      let m := m.modBar cl u.bar fun _ => {}
      match b.recs with
      | [] => m
      | (_, r) :: _ =>
        let img := fld r.toNat 0 6 46 * 64
        let m := (m.recPut die pid (img + 0x100d) 1 (a.getD 0)).getD m
        let m := (m.recPut die pid (img + 0x1070) 4 b.phase).getD m
        (m.requeue die pid u.vd u.cls (b.recs.map (·.2)) (!b.back)).withDev fun d => { d with gangs := d.gangs ++ [(pid, b.recs.map (·.2))] }

/-- A device that no longer runs on a die begins to be idle there (R123). -/
def Mach.noteIdle (m : Mach) (die v : Nat) : Mach :=
  if m.running v die ≠ 0 then m
  else m.modDie die fun d =>
    let a : VdSched := d.sched.vds.get {} v
    { d with sched := { d.sched with vds := d.sched.vds.set v { a with idleSince := some d.cyc.toNat } } }

/-! ## Tokens (R172, R173) -/

/-- Word 0 of a token. -/
def Token.word0 (t : Token) : Word :=
  w64 (t.oor % 65536 * 2 ^ 48 + t.pois % 65536 * 2 ^ 32 + t.done % 65536 * 2 ^ 16 + t.status.toNat * 2 ^ 12 + t.pend % 256)
/-- The tokens whose waits are not satisfied, and the first faulted one. -/
def Mach.tokensOf (m : Mach) (core : Nat) : Bool × Option Nat :=
  ((List.range 8).any fun i => let t := m.token core i; t.pend != 0 && t.status != 3, (List.range 8).find? fun i => (m.token core i).status == 3)

/-! ## Waiting (R221) -/

/-- The recorded stop cause of the text engine becomes a trap (R382), or the instruction goes on. -/
def Mach.textStop (m : Mach) (k : Mach → Mach) : Mach :=
  match m.mySide.tstop with
  | none => k m
  | some (c, r, v) =>
    if m.owed m.dev.cur then m.stay else (m.modMySide fun s => { s with tstop := none }).trap { cause := c, tval := v, reason := r }

/-- Ask a running unit to be pre-empted (R126), with every member of its gang (R118). -/
def Mach.preemptUnit (m : Mach) (k : Nat) (back : Bool) : Mach :=
  match (m.side k).unit with
  | none => m
  | some u =>
    (if u.gang then m.gangSides k u else [k]).foldl (fun m j => m.modSide j fun s => { s with preempt := true, yielded := s.yielded || back }) m

/-- Every running unit of a partition below a cancelled record is to take cause 0x19 at its next landing (R120). -/
def Mach.cancelUnits (m : Mach) (p : BitVec 4) (x : Nat) : Mach :=
  m.dev.sides.foldl (fun m (k, s) =>
    match s.unit with
    | some u =>
      if s.pid = some p then
        match m.chain (k / 256) p u.launch with
        | (some c, m) => if c.any (·.ppa == x) then m.modSide k fun s => { s with cancelled := true } else m
        | (none, m) => m
      else m
    | none => m) m

end Sys2Proof.Machine
end

