-- ==== Sys2Proof/Machine/SeqSync.lean ====
section
/-! DEFINITION. Fork, rendezvous, token waits, barriers, semaphores, mailboxes, and the instructions of the work hierarchy (R110, R114 to
R120, R128, R139 to R141, R290 to R294). -/

namespace Sys2Proof.Machine
open Sys2Proof

/-! ## Fork and rendezvous (R140, R141) -/

/-- A sequencer started by `fork`: P's registers with their poison, an empty loop stack, level U. -/
def Seq.forked (q p : Seq) (pc : Word) : Seq :=
  { q with run := .run, level := .U, inU := false, pc := pc, line := none, x := p.x, ls := [], waiting := false, due := none, stopping := false
           barArrived := false, iter := false }
/-- Every `x` register of a sequencer is full. -/
def Seq.allFull (q : Seq) : Bool := q.x.all (·.2.full)

/-- `fork` (R140): a source x0 leaves its sequencer idle. P's accesses before it, those of its queue too, are performed first (R193). -/
def execFork (a b : Src) (s : State) : Host.Outcome State Fault Refusal :=
  run (fun m => m.roleOnly .P fun m => m.plain none [a, b] fun m =>
    if m.stripOpen then m.trapHead 0x14
    else
      let x := m.mySide
      if (a.r ≠ 0 && x.m.run != .idle) || (b.r ≠ 0 && x.s.run != .idle) || !x.p.allFull then m.stay
      else if !m.queueDone || !m.loadsDone || !m.ownUpdsDone then m.stay
      else
        let va := m.val a
        let vb := m.val b
        (m.modMySide fun x =>
          { x with m := if a.r = 0 then x.m else x.m.forked x.p va, s := if b.r = 0 then x.s else x.s.forked x.p vb }).retire) s

/-- `rdv` on M or S (R141): idle once its own long-latency producers have filled their destinations. -/
def Mach.rdvIdle (m : Mach) : Mach :=
  let q := m.dev.cur
  if m.owed q then m.stay else ((m.drainArrivals q).retire).modMe fun s => { s with run := .idle, waiting := false }

/-- `rdv` (R141, R382): P waits until M and S are idle and is a drain point. -/
def execRdv (s : State) : Host.Outcome State Fault Refusal :=
  run (fun m => m.sideOnly fun m => m.plain none [] fun m =>
    if m.isRole .P then
      if m.stripOpen then m.trapHead 0x14
      else if m.mySide.m.run != .idle || m.mySide.s.run != .idle then m.wait
      else m.drain (·.retire)
    else if m.isRole .S then m.textStop (·.rdvIdle)
    else m.rdvIdle) s

/-! ## Token waits (R291) -/

/-- Both forms of `tkwait`: word 0 of the token; the clearing form clears the counts and status 2 in the same step. -/
def Mach.tkwaitTo (m : Mach) (d : Reg) (tk : BitVec 3) (clear : Bool) : Mach :=
  if !m.owns m.myNo 7 then m.trapV 0x05 7
  else if m.stripOpen then m.trapHead 0x14
  else
    let c := coreKey m.dev.cur
    let t := m.token c tk.toNat
    if t.status = 3 then m.trapToken tk.toNat
    else if t.pend ≠ 0 then m.wait
    else
      let m := if clear then m.modToken c tk.toNat fun t => { t with oor := 0, pois := 0, done := 0, status := if t.status = 2 then 0 else t.status }
        else m
      (m.wx d t.word0).retire

/-- `tkwait` (R291). -/
def execTkwait (d : Reg) (tk : BitVec 3) (s : State) : Host.Outcome State Fault Refusal :=
  run (fun m => m.sideOnly fun m => m.plain (some d) [] fun m => m.tkwaitTo d tk false) s

/-- `tkwait.c` (R291). -/
def execTkwaitClear (d : Reg) (tk : BitVec 3) (s : State) : Host.Outcome State Fault Refusal :=
  run (fun m => m.sideOnly fun m => m.plain (some d) [] fun m => m.tkwaitTo d tk true) s

/-! ## Barriers (R292, R293) -/

/-- The common checks of `bar`: outside a strip, and only the unit's own gang barrier. -/
def Mach.barOwn (m : Mach) (a : Src) (k : Nat → Mach → Mach) : Mach :=
  if m.stripOpen then m.trapHead 0x14
  else match m.mySide.unit with
    | some u => if u.gang && m.val a == w64 u.bar then k u.bar m else m.trapHead 0x15
    | none => m.trapHead 0x15

/-- A release at cluster scope by a barrier or a semaphore (R194): a drain point, then the movement of data. -/
def Mach.releaseCl (m : Mach) (k : Mach → Mach) : Mach :=
  if !m.queueDone || !m.loadsDone then m.stay
  else m.drain fun m =>
    let m := m.releaseData m.myAcc .cl
    if !m.releaseDone .cl false then m.stay else k m

/-- The wait on a barrier (R292): until the phase differs from that of the unit's last arrival; then an acquire at cluster scope. -/
def Mach.barWaitOn (m : Mach) (n : Nat) : Mach :=
  let cl := clusterOf m.myNo
  m.useVoted cl n fun _ m =>
    let x := m.mySide
    if x.arrived && (m.bar cl n).phase == x.phase then m.waitVoted cl n
    else
      let m := m.unwaitVoted cl n
      let m := m.modMySide fun s => { s with arrived := false }
      ((m.acquireData m.myAcc .cl).modMe fun q => { q with barArrived := false }).retire

/-- `bar.arrive` (R292). -/
def execBarArrive (a : Src) (s : State) : Host.Outcome State Fault Refusal :=
  run (fun m => m.sideOnly fun m => m.plain none [a] fun m => m.barOwn a fun n m =>
    m.releaseCl fun m => m.useVoted (clusterOf m.myNo) n fun c m => (m.arriveWith m.myNo n c).retire) s

/-- `bar.wait` (R292). -/
def execBarWait (a : Src) (s : State) : Host.Outcome State Fault Refusal :=
  run (fun m => m.sideOnly fun m => m.plain none [a] fun m => m.barOwn a fun n m => m.barWaitOn n) s

/-- `bar.arrivewait` (R292): the arrival, and then the wait alone, which a resumption performs again (R221).
DEDUCED, unsafe (log 132). -/
def execBarArrivewait (a : Src) (s : State) : Host.Outcome State Fault Refusal :=
  run (fun m => m.sideOnly fun m => m.plain none [a] fun m => m.barOwn a fun n m =>
    if m.me.barArrived then m.barWaitOn n
    else m.releaseCl fun m => m.useVoted (clusterOf m.myNo) n fun c m =>
      ((m.arriveWith m.myNo n c).modMe fun q => { q with barArrived := true }).barWaitOn n) s

/-- The granule under which the count word of a byte barrier lies (DESIGN CHOICE, unsafe, log 28). -/
def barGran : Nat := 3

/-- `bar.arrivebytes` (R293): clears the count word and binds the barrier to a token; a target of 0 arrives at once.
DESIGN CHOICE, unsafe (log 136). -/
def execBarArrivebytes (a b : Src) (s : State) : Host.Outcome State Fault Refusal :=
  run (fun m => m.sideOnly fun m => m.plain none [a, b] fun m =>
    if !m.owns m.myNo 7 then m.trapV 0x05 7
    else m.barOwn a fun _ m =>
      let v := m.val b
      let tk := v.extractLsb' 29 3
      let addr := wbits v 0 21
      let side := m.myNo
      let core := side / 2
      let r := m.spOwn side
      if wbits v 21 8 ≠ 0 then m.trapHead 0x15
      else if addr % 4 ≠ 0 then m.trapV 0x07 (w64 addr)
      else if addr / 2 ^ 18 ≠ core % 8 || !r.has (addr % 2 ^ 18) || (m.core core).sx.bars.any (·.tk == tk) then m.trapHead 0x15
      else
        let o := addr % 2 ^ 18
        let w := r.lin barGran o
        let m := m.spWrite side core ((List.range 4).map fun i => (w + i, (0 : Byte), false))
        let t := wbits v 32 32
        if t = 0 then (m.arriveFor side).retire
        else (m.modCore core fun c => { c with sx := { c.sx with bars := c.sx.bars ++ [⟨tk, o, t, (m.side side).tick⟩] } }).retire) s

/-! ## Semaphores (R294) -/

/-- The check of `sem`: outside a strip, and a semaphore of the unit's own partition. -/
def Mach.semOwn (m : Mach) (a : Src) (k : Nat → Mach → Mach) : Mach :=
  if m.stripOpen then m.trapHead 0x14
  else
    let n := (m.val a).toNat
    if n < 64 && m.mySide.pid.isSome && ((m.cluster (clusterOf m.myNo)).sems.get {} n).pid == m.mySide.pid then k (64 + n) m
    else m.trapHead 0x15

/-- `sem.up` (R294): a release at cluster scope; a full count traps and changes nothing. -/
def execSemUp (a : Src) (s : State) : Host.Outcome State Fault Refusal :=
  run (fun m => m.sideOnly fun m => m.plain none [a] fun m => m.semOwn a fun n m =>
    m.useVoted (clusterOf m.myNo) n fun c m =>
      if c = 2 ^ 32 - 1 then m.trapHead 0x15
      else m.releaseCl fun m => (m.setCount (clusterOf m.myNo) n (c + 1)).retire) s

/-- `sem.down` (R294): the sequencers that wait are served in the order in which they began; it acquires at cluster scope. -/
def execSemDown (a : Src) (s : State) : Host.Outcome State Fault Refusal :=
  run (fun m => m.sideOnly fun m => m.plain none [a] fun m => m.semOwn a fun n m =>
    let cl := clusterOf m.myNo
    m.useVoted cl n fun c m =>
      let ws := (m.voted cl n).waiters
      if c = 0 || (match ws with | [] => false | q :: _ => q != m.dev.cur) then m.waitVoted cl n
      else
        let m := (m.unwaitVoted cl n).setCount cl n (c - 1)
        (m.acquireData m.myAcc .cl).retire) s

/-! ## Mailboxes (R139) -/

/-- `mbput` (R139): the value with its poison, once the putter's own loads are performed (R193), the mailbox is empty and its turn has come; those that
wait are served in the order in which they began. -/
def execMbput (k : BitVec 3) (a : Src) (s : State) : Host.Outcome State Fault Refusal :=
  run (fun m => m.sideOnly fun m => m.issue true true none [] [a] fun m =>
    if m.stripOpen then m.trapHead 0x14
    else
      let b := m.mySide.mb.get {} k.toNat
      let put := fun (b : Mailbox) => m.modMySide fun s => { s with mb := s.mb.set k.toNat b }
      match m.dev.cur with
      | .sup _ => m
      | .side _ r =>
        if !m.loadsDone then m.stay
        else if b.full || (match b.putters with | [] => false | q :: _ => q != r) then
          (put { b with putters := if b.putters.contains r then b.putters else b.putters ++ [r] }).wait
        else
          let x := m.x a.r
          (put { b with val := x.val, full := true, pois := x.pois, putters := b.putters.filter (· != r) }).retire) s

/-- `mbget` (R139): it marks its destination empty at issue and waits there until the mailbox is full and its turn has come; those that wait are
served in the order in which they began.
DEDUCED, unsafe (log 34). -/
def execMbget (d : Reg) (k : BitVec 3) (s : State) : Host.Outcome State Fault Refusal :=
  run (fun m => m.sideOnly fun m =>
    let mine := fun (g : Role × Reg) => m.isRole g.1
    let b := m.mySide.mb.get {} k.toNat
    let put := fun (b : Mailbox) (m : Mach) => m.modMySide fun s => { s with mb := s.mb.set k.toNat b }
    m.plain (if b.getters.any mine then none else some d) [] fun m =>
      if m.stripOpen then m.trapHead 0x14
      else match m.dev.cur with
        | .sup _ => m
        | .side _ r =>
          if b.full && (match b.getters with | [] => true | g :: _ => mine g) then
            ((put { b with full := false, pois := false, getters := b.getters.filter (!mine ·) } m).send d b.val b.pois).retire
          else
            ((put { b with getters := if b.getters.any mine then b.getters else b.getters ++ [(r, d)] } m).empty d).wait) s

/-! ## Creating and joining work (R114 to R117) -/

/-- The continuation records of `spawn`, read precisely: their words in order. -/
def packRecs : List (Word × Bool) → List (BitVec 256)
  | a :: b :: c :: d :: r => (d.1 ++ c.1 ++ b.1 ++ a.1) :: packRecs r
  | _ => []

/-- The die and partition in which a sequencer's records lie. -/
def Mach.home0 (m : Mach) : Nat × Option (BitVec 4) := (dieOf m.dev.cur, m.pidOf m.dev.cur)

/-- The push of `spawn` (R114, R116, R117): the status, and with 0 the records in the ring. DESIGN CHOICE, unsafe (log 46): of several statuses the
first in the order 6 for a malformed record or launch, 5 for a virtual device that is not the partition's, 1, 2, 4, and then 3 or 6 of the push. -/
def Mach.spawnRecs (m : Mach) (rs : List (BitVec 256)) (inc : Bool) : Nat × Mach :=
  match m.home0, rs with
  | (die, some p), r0 :: _ =>
    let n := rs.length
    if rs.any fun r => recBad r || recLaunch r != recLaunch r0 then (6, m)
    else match m.chain die p (recLaunch r0) with
      | (some (l :: _), m) =>
        if l.bad then (6, m)
        else if (m.vd l.vd).pid ≠ some p then (5, m)
        else if l.state = 2 then (1, m)
        else if l.state ≠ 0 then (2, m)
        else
          let g := l.gsize
          let gang := rs.map recGang
          if (if 2 ≤ g then n ≠ g || !gang.all id else gang.any id) then (4, m)
          else if 2 ≤ g && !m.gangFits p l.vd g then (4, m)
          else
            let before := m
            let m := if inc then m.putCrec die p { l with val := setFld l.val 0 0 32 (l.pending + n) } else m
            let (st, m) := m.pushBack die p l.vd l.cls rs
            (st, if st = 0 then m else before)
      | (_, m) => (6, m)
  | _, _ => (5, m)

/-- Both forms of `spawn` (R114, R290). -/
def Mach.spawnTo (m : Mach) (d : Reg) (a b : Src) (inc : Bool) : Mach :=
  let va := m.val a
  let n := (m.val b).toNat
  if va.toNat % 32 ≠ 0 then m.trapV 0x07 va
  else if n = 0 || 64 < n then (m.wx d 6).retire
  else m.access fun m =>
    match m.loadWords m.myAcc va (4 * n) with
    | (.error (some (c, r, v)), m) => m.accFault v c r
    | (.error none, m) => m.stay
    | (.ok l, m) =>
      let (st, m) := m.spawnRecs (packRecs l) inc
      (m.wx d (w64 st)).retire

/-- `spawn` (R114).
DESIGN CHOICE, unsafe (log 46). -/
def execSpawn (d : Reg) (a b : Src) (s : State) : Host.Outcome State Fault Refusal :=
  run (fun m => m.plain (some d) [a, b] fun m => m.spawnTo d a b false) s

/-- `spawn.inc` (R114). -/
def execSpawnInc (d : Reg) (a b : Src) (s : State) : Host.Outcome State Fault Refusal :=
  run (fun m => m.plain (some d) [a, b] fun m => m.spawnTo d a b true) s

/-- The atomic step of `cont` at the join record's DRAM address (R115). None when its write finds no log room. A reserved field of the join record
or of its continuation gives status 6, and a continuation of a gang 4 (R117), with nothing changed. DEDUCED (log 42): a continuation that names
no launch or a class that is off still lowers the count; unsafe for a program that reads the count after status 6. -/
def Mach.contAt (m : Mach) (mpa : Nat) (frost : Bool) : Option (Nat × Mach) :=
  match m.home0 with
  | (_, none) => some (5, m)
  | (die, some p) =>
    let ((data, po), m0) := m.chanRead mpa
    let at_ := 8 * (mpa % 128)
    let c := data.toNat / 2 ^ at_ % 2 ^ 32
    let r := BitVec.ofNat 256 (data.toNat / 2 ^ (at_ + 256))
    let put := fun (m : Mach) => m.chanWrite mpa (BitVec.ofNat 1024 ((c - 1) * 2 ^ at_)) (byteMask (mpa % 128) 4) false frost p false
    if po || data.toNat / 2 ^ (at_ + 32) % 2 ^ 224 != 0 || recBad r then some (6, m0)
    else if c = 0 then some (2, m0)
    else if c ≠ 1 then (put m0).map fun m => (0, m)
    else
      match m0.pushNamed die p r with
      | (0, m) => (put m).map fun m => (7, m)
      | (6, _) => (put m0).map fun m => (6, m)
      | (st, _) => some (st, m0)

/-- `cont` (R115): one atomic step at the join record's home; x0 names the unit's own join record. -/
def execCont (d : Reg) (a : Src) (s : State) : Host.Outcome State Fault Refusal :=
  run (fun m => m.plain (some d) [a] fun m =>
    let va := if a.r = 0 then (match m.mySide.unit with | some u => u.join | none => 0) else m.val a
    if va = 0 || va.toNat % 64 ≠ 0 then m.trapV 0x07 va
    else m.accessTo va fun m =>
      let acc := m.myAcc
      let (k, m) := m.checkWrite acc va
      match k with
      | .fault c r => m.accFault va c r
      | .wait => m.stay
      | .ok r =>
        if !r.rd then m.accFault va 0x08 0
        else m.home acc va (fun m => (m.wx d 6).retire) fun mpa frost m =>
          match m.contAt mpa frost with
          | none => m.stalls
          | some (st, m) => (m.wx d (w64 st)).retire) s

/-- The cancel of a counter record (R119): the status, and with 0 every running unit below it is told (R120). -/
def Mach.cancelRec (m : Mach) (die : Nat) (p : BitVec 4) (ppa : Nat) : Nat × Mach :=
  if ppa = 0 || ppa % 64 ≠ 0 then (6, m)
  else match m.crec die p ppa with
    | none => (5, m)
    | some (r, m) =>
      if r.level = 0 || 4 < r.level || r.bad then (6, m)
      else if r.state = 2 then (1, m)
      else if r.state ≠ 0 then (2, m)
      else (0, (m.putCrec die p { r with val := setFld r.val 0 59 2 2 }).cancelUnits p ppa)

/-- `cancel` (R119): an ancestor of the unit by level, or at levels S and M a record by its address.
DESIGN CHOICE, unsafe (log 47). -/
def execCancel (d : Reg) (a : Src) (k : BitVec 3) (s : State) : Host.Outcome State Fault Refusal :=
  run (fun m =>
    if k ≠ 0 && a.r ≠ 0 then m.trapHead 0x01
    else m.issue (k ≠ 0 || m.me.level != .U) true (some d) [a] [] fun m =>
      match m.home0 with
      | (_, none) => (m.wx d 5).retire
      | (die, some p) =>
        let (st, m) :=
          if k = 0 then m.cancelRec die p (m.val a).toNat
          else match m.mySide.unit with
            | none => (5, m)
            | some u => match m.chain die p u.launch with
              | (some cs, m) => (match cs[k.toNat - 1]? with | some r => m.cancelRec die p r.ppa | none => (5, m))
              | (none, m) => (5, m)
        (m.wx d (w64 st)).retire) s

/-! ## The end of a unit (R110) -/

/-- A side without its unit: idle, at level U, its engines' leftovers gone. -/
def Side.freed (s : Side) : Side :=
  let q := fun (x : Seq) =>
    { x with run := .idle, level := .U, inU := false, line := none, waiting := false, due := none, stopping := false, barArrived := false
             iter := false, yielding := false, ls := [] }
  { s with p := q s.p, m := q s.m, s := q s.s, unit := none, vq := [], frame := none, open_ := false, strip := none, held := [], adds := [], marks := [], unwound := []
           preempt := false, cancelled := false, cancelTold := false, landed := false, yielded := false, arrived := false, tq := [], tstop := none }

/-- What a core keeps for a side whose unit goes: the M and S engines hold no command of it. -/
def Mach.dropEngines (m : Mach) (k : Nat) : Mach :=
  let ix := m.owns k 6
  let sx := m.owns k 7
  m.modCore (k / 2) fun c =>
    { c with mx := if ix then { c.mx with mq := [], slots := [] } else c.mx, sx := if sx then { c.sx with sq := [], bars := [], sp := [] } else c.sx }

/-- Loads of a side that have not come back fill no register any more, and none of its stores is waited for by an `stl`: their unit is gone. -/
def Mach.forgetLoads (m : Mach) (k : Nat) : Mach :=
  let on := fun (q : SeqId) => sideOf q == some k
  m.withDev fun d =>
    { d with
      arrivals := d.arrivals.filter fun a => !on a.q
      remote := d.remote.filter fun r => !on r.who
      ext := d.ext.map (·.leave on) }

/-- The unit of a side ends or fails (R110): counted into its launch, the side and its place at the barrier freed. -/
def Mach.unitOver (m : Mach) (k : Nat) (failed : Option (BitVec 8)) : Mach :=
  match (m.side k).unit with
  | none => m.modSide k Side.freed
  | some u =>
    let m := [Role.P, .M, .S].foldl (fun m r => let q := SeqId.side (BitVec.ofNat 10 k) r; (m.drainArrivals q).forgetWaits q) m
    let m := m.countUnit (k / 256) (m.pid0 k) u.launch failed
    (((m.gangLeave k u none false).dropEngines k).modSide k Side.freed).noteIdle (k / 256) u.vd

/-- `end` of a unit at level U (R110, R358, R382): every token is waited for before one that is faulted traps. -/
def Mach.endNormal (m : Mach) : Mach :=
  let k := m.myNo
  if m.mySide.m.run != .idle || m.mySide.s.run != .idle then m.wait
  else m.drain fun m =>
    let sx := m.owns k 7
    let mx := m.owns k 6
    let (busy, bad) := m.tokensOf (k / 2)
    if sx && busy then m.wait
    else match (if sx then bad else none) with
    | some t => m.trapToken t
    | none =>
      if !m.mySide.tq.isEmpty then m.stay
      else m.textStop fun m =>
        let c := m.core (k / 2)
        if mx && !c.mx.mq.isEmpty then m.stay
        else if mx && c.mx.slots.any (·.2 != .empty) then m.trapHead 0x15
        else if !m.queueDone || !m.loadsDone || m.owed m.dev.cur then m.stay
        else
          let m := m.releaseData m.myAcc .dev
          if !m.releaseDone .dev false then m.stay else m.unitOver k none

/-- Stores of the side that stand are still on their way (R216, R310): those that have left a strip, those that wait for their probe, and
the adds of `vst.nf` behind no failed store. -/
def Side.deciding (s : Side) : Bool :=
  !s.leaving.isEmpty || s.att.any (·.fail.isNone) || s.adds.any fun x => !s.att.any fun e => e.q == 0 && e.serial < x.serial

/-- `end` in a handler kills the unit (R110, R216): it fails with the cause register of the handler's level, and nothing is released. The
stores that stand are performed before, and of the failed ones nothing remains. -/
def Mach.endKill (m : Mach) : Mach :=
  m.drain fun m =>
    if m.mySide.deciding then m.stay else
    let k := m.myNo
    let q := m.dev.cur
    let l := m.me.level
    let c := ((m.trapOf q).get l).cause.extractLsb' 0 8
    let m := (m.discardHeld k (k / 2) l).dropReads k
    let ts := m.trapOf q
    let leave := fun (r : TrapRegs) => { r with tstat := r.tstat &&& ~~~4#64 }
    let m := m.setTrap q { ts with s := leave ts.s, m := if l == .M then leave ts.m else ts.m }
    (m.forgetLoads k).unitOver k (some c)

/-- `end` (R110): at level U on P the unit's own end; at levels S and M, on the sequencer that took the trap, the failing end (R398), an open
strip or not (R310, R389).
DEDUCED, unsafe (log 45). -/
def execEndUnit (s : State) : Host.Outcome State Fault Refusal :=
  run (fun m => m.sideOnly fun m => m.plain none [] fun m =>
    if m.me.level != .U then m.endKill
    else m.roleOnly .P fun m => if m.stripOpen then m.trapHead 0x14 else m.endNormal) s

/-- `yield` (R128): the unit asks for its own pre-emption, to be queued at the back, and goes no further before it lands. -/
def execYield (s : State) : Host.Outcome State Fault Refusal :=
  run (fun m => m.roleOnly .P fun m => m.plain none [] fun m =>
    if m.stripOpen then m.trapHead 0x14
    else ((m.preemptUnit m.myNo true).retire).modMe fun q => { q with yielding := m.mySide.unit.isSome && q.level == .U }) s

end Sys2Proof.Machine
end

