-- ==== Sys2Proof/Machine/Turns.lean ====
section
/-! DEFINITION. Whose move it is: which sequencers may go on, which interrupt one would take, what a sequencer does next, and the
passing of cycles (DESIGN CHOICE, unsafe, log 4). -/

namespace Sys2Proof.Machine
open Sys2Proof

/-- A sequencer runs a handler: at level S or M, or inside a U handler (R206, R209). -/
def Seq.handling (q : Seq) : Bool := q.run == .run && (q.level != .U || q.inU)

/-- It stops the side's other sequencers: it handles a trap, or its trap waits for their values (R142). -/
def Seq.holdsUp (q : Seq) : Bool := q.handling || q.stopping
/-- Another sequencer of the side handles a trap, so this one stops (R142). -/
def Side.stops (s : Side) : Role → Bool
  | .P => s.m.holdsUp || s.s.holdsUp
  | .M => s.p.holdsUp || s.s.holdsUp
  | .S => s.p.holdsUp || s.m.holdsUp

/-- A sequencer runs the unit's own code. -/
def Seq.atU (q : Seq) : Bool := q.level == .U && !q.inU

/-- A sequencer may execute: it runs, its side does not stop it, its die is up, its last `stl` is complete (R330), and it does not stand
behind its own `yield`, whatever handler has run since (R128), or run the code of a unit that has been told to end (R120).
DEDUCED, unsafe (log 130). -/
def Mach.canMove (m : Mach) (q : SeqId) : Bool :=
  (m.seq q).run == .run && !(m.die (dieOf q)).resetting && !m.dev.ext.any (·.rel == some q)
    && (match q with
      | .side k r =>
        let s := m.side k.toNat
        !s.stops r && !(s.cancelTold && (s.seq r).atU) && !(r == .P && s.p.yielding && s.p.atU)
      | .sup _ => true)

/-- Another sequencer of the side handles a trap, so the vector queue of P stands still; while a trap only waits for the values of the queue, it
goes on (R142). The queue of a unit that has been told to end stands still at level U (R120). -/
def Side.queueStops (s : Side) : Bool := s.m.handling || s.s.handling || (s.cancelTold && s.p.atU)

/-- A sequencer stands at a landing point (R221): idle, waiting, behind its own `yield`, at a boundary outside every loop of the unit, a U handler's
loops among them (R286), or at the boundary at which an iteration of the innermost loop has ended. One whose trap is due takes the trap first.
DEDUCED, unsafe (log 170). -/
def Seq.landed (q : Seq) : Bool :=
  q.run != .run || (q.due.isNone && !q.stopping
    && (q.waiting || q.yielding || q.iter || !q.ls.any fun e => e.ctx == 0 || e.ctx == 3))

/-- Every sequencer of a side has landed, and no speculative strip of P is open, which ends with the
`vcommit` in the queue (R221). The vector queue has no entry in the
middle of its work here, because an entry is performed in one move. -/
def Side.atLanding (s : Side) : Bool := s.p.landed && s.m.landed && s.s.landed && !s.open_ && s.strip.isNone

/-- The side runs at level U. -/
def Side.atU (s : Side) : Bool := !(s.p.handling || s.m.handling || s.s.handling)

/-- The level of an interrupt source (R211). -/
def irqLevel (src : BitVec 8) : Level := if src == 3 || src == 4 || src == 5 then .S else .M

/-- The first pending interrupt that a sequencer at a level may take (R210, R221): one routed higher, or one routed to its own level
while that level's ie is set. -/
def pickIrq (t : TrapSet) (l : Level) (irq : List (BitVec 8)) : Option (BitVec 8) :=
  irq.find? fun s => l.code < (irqLevel s).code || (irqLevel s == l && (t.get l).tstat.getLsbD 8)

/-- The interrupt that a sequencer takes at this boundary (R211, R221).
DEDUCED, unsafe (log 90). -/
def Mach.takeable (m : Mach) (q : SeqId) : Option (BitVec 8) :=
  match q with
  | .sup n => let u := m.sup n.toNat; if u.seq.run == .run && u.seq.due.isNone then pickIrq u.trap u.seq.level u.irq else none
  | .side k r =>
    let s := m.side k.toNat
    if s.atU then (if r == .P && s.atLanding && (s.p.run == .run || s.unit.isNone) then pickIrq s.trap .U s.irq else none)
    else if (s.seq r).handling then
      (if (s.seq r).inU then (if s.atLanding then pickIrq s.trap .U s.irq else none)
       else if (s.seq r).due.isSome || (s.seq r).stopping then none else pickIrq s.trap (s.seq r).level s.irq)
    else none

/-- What a sequencer does when it is its move. -/
inductive Move where
  | none
  | event (i : Instr)
  | ins (h : Half) (i : Instr)
  | bad (h : Half)
  deriving DecidableEq, Repr

/-- A sequencer waits at an `idle`, which completes before the interrupt that ends it is taken (R295). -/
def Seq.atIdle (s : Seq) : Bool :=
  s.waiting && (match s.line with
    | none => false
    | some l => match decode (Line.slot l.bits (slotOf s.pc)) with
      | some .idle => true
      | _ => false)

/-- The move of a sequencer: the boot ROM, an interrupt, a line fetch, or the instruction in its line buffer at its PC (R243, R250). -/
def Mach.move (m : Mach) (q : SeqId) : Move :=
  let s := m.seq q
  if s.run == .boot then .event .bootRom
  else if (m.takeable q).isSome && !s.atIdle then .event (.interruptTake q)
  else if !m.canMove q then .none
  else match s.line with
    | none => .event (.lineFetch q)
    | some l =>
      if l.base != lineBase s.pc || slotOf s.pc == 0 || Line.count l.bits < slotOf s.pc then .event (.lineFetch q)
      else
        let e := Line.slot l.bits (slotOf s.pc)
        match decode e with
        | some i => .ins e.head i
        | none => .bad e.head

/-- The peer answers an access through a Gale port (R86): with bytes of its own memory or an acknowledgement, both of which a flit brings
(R16), or the access is lost there. The value is free, and so is whether it is lost. -/
def Mach.galeAnswer (m : Mach) (e : ExtReq) : Mach :=
  let n := m.dev.fresh
  let m := m.withDev fun x => { x with fresh := n + 1 }
  if Config.galeLost n then
    let m := m.modPort e.port fun g =>
      if e.wr then { g with dropped := min 65535 (g.dropped + 1) } else { g with poisoned := min 65535 (g.poisoned + e.els) }
    let m := m.linkEvent e.port e.addr e.els
    if e.wr then m else let (v, m) := m.poisonVal e.n; m.extAnswer e v true
  else
    let m := m.modPort e.port fun g => { g with fails := 0 }
    if e.wr then m else m.extAnswer e ((Config.freeGale n).toNat % 256 ^ e.n) false

/-- The peers of a die's Gale ports answer every access in flight. -/
def Mach.galeAnswers (m : Mach) (d : Nat) : Mach :=
  let fl := fun (e : ExtReq) => !e.host && e.port / 4 == d && e.ans.isNone
  let es := m.dev.ext.filter fl
  es.foldl (·.galeAnswer ·) (m.withDev fun x => { x with ext := x.ext.filter fun e => !fl e })

/-- Let `n` cycles of a die pass: its counter (R23), the allowances of the devices whose units run on it (R121), the age of its open
batch (R198), the answers of its Gale peers (R16), and the boosts that fall due (R123).
DESIGN CHOICE, unsafe (log 23). -/
def Mach.elapse (m : Mach) (d n : Nat) : Mach :=
  let runs := m.dev.sides.filterMap fun (k, s) =>
    if k / 256 = d then s.unit.map (·.vd) else none
  let m := if n = 0 then m else m.galeAnswers d
  let m := m.modDie d fun x =>
    { x with cyc := x.cyc + w64 n
             batchAge := if x.batch.isEmpty then 0 else x.batchAge + n
             sched := { x.sched with vds := runs.foldl (fun t v =>
               let a := t.get {} v
               t.set v { a with allow := a.allow - n }) x.sched.vds } }
  m.noteBoosts d

/-- Every die lets one cycle pass. -/
def Mach.tickAll (m : Mach) : Mach := (List.range 4).foldl (fun m d => m.elapse d 1) m

/-- The sequencers of the device, those after `q` first and `q` itself last: the order in which they are looked at (DESIGN CHOICE, unsafe, log 4). -/
def rotate (q : SeqId) (l : List SeqId) : List SeqId :=
  let before := l.takeWhile (· != q)
  (l.drop (before.length + 1)) ++ before ++ (if l.contains q then [q] else [])

/-- The sequencers that the state lists. -/
def Dev.seqs (d : Dev) : List SeqId :=
  (d.sups.map fun (n, _) => SeqId.sup (BitVec.ofNat 5 n))
    ++ d.sides.flatMap fun (k, _) => let b := BitVec.ofNat 10 k; [.side b .P, .side b .M, .side b .S]

/-- The moves that the engines and the memory system may make on their own, oldest work first. -/
def Dev.own (d : Dev) : List Turn :=
  (if d.arrivals.isEmpty then [] else [.event (.loadDataArrival 0)])
    ++ (if d.remote.isEmpty then [] else (List.range (min 256 d.remote.length)).map fun i => .event (.remoteReadServe (BitVec.ofNat 8 i)))
    ++ (if d.ext.any (fun e => e.host && !e.issued) then
          (List.range (min 256 d.ext.length)).map fun i => .event (.hostWindowAccess (BitVec.ofNat 8 i)) else [])
    ++ (if d.probes.isEmpty then [] else [.event (.probeCompletion 0)])
    ++ d.dies.flatMap (fun (k, x) =>
        let b := BitVec.ofNat 2 k
        (if x.upds.isEmpty then [] else (List.range 32).map fun c => .event (.bankUpdateApply b (BitVec.ofNat 5 c)))
          ++ (List.range (min 256 x.rx.length)).map (fun i => .event (.batchApply b (BitVec.ofNat 8 i)))
          ++ (if x.batch.isEmpty then [] else [.event (.batchCloseTimeout b)]))
    ++ d.cores.flatMap (fun (c, x) => (x.laneUnc ++ x.laneEv.map (·.1)).map fun l => .event (.laneRetirement (BitVec.ofNat 9 c) (BitVec.ofNat 4 l)))
    ++ d.sides.flatMap (fun (k, s) =>
        let b := BitVec.ofNat 10 k
        (if s.leaving.isEmpty && s.adds.isEmpty then [] else [.event (.heldStoreEnterL1 b)])
          ++ (if s.vq.isEmpty then [] else [.vq b])
          ++ (if s.tq.isEmpty then [] else [.event (.textCommandExecute b)]))
    ++ d.cores.flatMap (fun (c, x) =>
        let both := [BitVec.ofNat 10 (2 * c), BitVec.ofNat 10 (2 * c + 1)]
        (if x.mx.mq.isEmpty then [] else both.flatMap fun b => [.event (.mldExecute b), .event (.mmacExecute b)])
          ++ (if x.sx.sq.isEmpty then [] else both.flatMap fun b =>
                .event (.streamOperationStart b) :: ((List.range (min 16 x.sx.sq.length)).map fun i => .event (.copyGroupLanding b (BitVec.ofNat 8 i)))
                  ++ [.event (.streamOperationFinish b)])
          ++ (if x.sx.sp.isEmpty then [] else both.flatMap fun b =>
                (List.range 8).map fun i => .event (.streamPortFetch b (BitVec.ofNat 3 i))))

/-- The moves of the reset logic, the schedulers and the job interface that the state calls for. -/
def Dev.service (d : Dev) : List Turn :=
  (if d.rom = 4 then [.event .bootRom] else [])
    ++ d.dies.flatMap (fun (k, x) =>
      let b := BitVec.ofNat 2 k
      (if x.wiping then [.event (.wipeComplete b)] else [])
        ++ (if x.resetting && !x.wiping then [.event (.dieRejoin b)] else [])
        ++ (if x.rstReq then [.event (.dieReset b)] else [])
        ++ (if !d.sides.isEmpty && x.sched.nextRefill ≤ x.cyc.toNat then [.event (.refill b)] else [])
        ++ x.sched.vds.flatMap fun (v, a) =>
            (if a.boostEnd.isSome then [.event (.boostEnd b (BitVec.ofNat 6 v))] else [])
              ++ (if a.allow ≤ 0 then [.event (.allowanceExhausted b (BitVec.ofNat 6 v))] else []))
    ++ d.rollPend.map (fun p => .event (.rollback p))
    ++ (if d.lcReq != 0 && Config.lcAuth d.fuses.rootKey d.fuses.devId d.lcReq then [.event (.lifeCycleRequest (d.lcReq.extractLsb' 0 2))] else [])
    ++ d.sides.flatMap (fun (k, s) =>
        let b := BitVec.ofNat 10 k
        (if s.unit.isSome && s.preempt then [.event (.preemptionLanding b)] else [])
          ++ (if s.unit.isSome && s.cancelled then [.event (.cancelLanding b)] else [])
          ++ (if s.unit.isNone && s.pid.isSome then [.event (.unitResume b), .event (.gangStart b), .event (.unitStart b)] else []))
    ++ d.windows.flatMap (fun (w, x) =>
        if x.reqhead.toNat == x.rqtail.toNat % 128 then []
        else
          let v := BitVec.ofNat 6 w
          let n := BitVec.ofNat 7 w
          (if w < 64 then [.event (.submit v), .event (.requestCancel v), .event (.query v)] else [])
            ++ [.event (.attest n), .event (.requestNop n)])
    ++ (d.compls.map fun c => .event (.completionWrite (BitVec.ofNat 7 c.w)))
    ++ (if d.ended.isEmpty then [] else d.jobs.map fun j => .event (.completionWrite (BitVec.ofNat 7 j.vd)))

/-- The moves of a machine whose turns list is empty, in the order in which they are tried. -/
def Dev.moves (d : Dev) : List Turn := d.own ++ d.service ++ (rotate d.cur d.seqs).map .seq

end Sys2Proof.Machine
end

