-- ==== Sys2Proof/Machine/System.lean ====
section
/-! DEFINITION. The system instructions (R295 to R297), control registers (R298 to R300), queue frames (R213) and the lazy vector state
of a context image (R225 to R227). -/

namespace Sys2Proof.Machine
open Sys2Proof

/-! ## Traps, returns and waits (R295, R208, R102) -/

/-- `trap` (R295). -/
def execTrap (imm : BitVec 26) (s : State) : Host.Outcome State Fault Refusal :=
  run (fun m => m.plain none [] fun m => m.trapV 0x16 (imm.setWidth 64)) s

/-- `bkpt` (R295). -/
def execBkpt (imm : BitVec 26) (s : State) : Host.Outcome State Fault Refusal :=
  run (fun m => m.plain none [] fun m => m.trapV 0x18 (imm.setWidth 64)) s

/-- `eret` (R208). -/
def execEret (s : State) : Host.Outcome State Fault Refusal := run (fun m => m.priv none [] (·.eret)) s

/-- `hcall` (R102): to level M from S, illegal at M. -/
def execHcall (s : State) : Host.Outcome State Fault Refusal :=
  run (fun m => m.priv none [] fun m => if m.me.level == .M then m.trapHead 0x01 else m.trapV 0x17 0) s

/-- The interrupts of a sequencer. -/
def Mach.irqOf (m : Mach) : SeqId → List (BitVec 8)
  | .side k _ => (m.side k.toNat).irq
  | .sup n => (m.sup n.toNat).irq

/-- `idle` (R295): completes once an interrupt is pending that would be taken. -/
def execIdle (s : State) : Host.Outcome State Fault Refusal :=
  run (fun m => m.priv none [] fun m =>
    if (pickIrq (m.trapOf m.dev.cur) m.me.level (m.irqOf m.dev.cur)).isSome then m.retire else m.wait) s

/-! ## Control registers (R298 to R300) -/

/-- A register that exists on compute sides only (R298). -/
def crSide (n : Nat) : Bool := n ≤ 6 || n == 0x0b || n == 0x20 || (0x30 ≤ n && n ≤ 0x32) || n == 0x40 || n == 0x41
/-- The level whose trap registers a number names, and which of them (R298). -/
def crTrap (l : Level) (n : Nat) : Option (Level × Nat) :=
  if 0x0f0 ≤ n && n ≤ 0x0f5 then some (l, n - 0x0f0)
  else if 0x100 ≤ n && n < 0x130 then some (Level.ofCode ((n - 0x100) / 16), n % 16)
  else none
/-- A level may read a register. -/
def crReadable (l : Level) (n : Nat) : Bool :=
  match crTrap l n with
  | some (t, _) => l != .U && t.code ≤ Level.code (if l == .S then .S else .M)
  | none => n != 0x041 || l == .M
/-- A level may write a register. DEDUCED, unsafe (log 157): capval is written at every level, as R35 says and R298 does not, and its fields are
read-only, so the write changes nothing (R6). -/
def crWritable (l : Level) (n : Nat) : Bool :=
  crReadable l n && !(n == 5 || n == 0x12 || (0x20 ≤ n && n ≤ 0x23) || (0x25 ≤ n && n ≤ 0x27))
    && (l == .M || n != 0x40) && (l != .U || !(n == 6 || n == 0x24 || (0x30 ≤ n && n ≤ 0x32)))

/-- hbuf (R299, R311): the held stores and those that are leaving, and their bytes. -/
def Side.hbuf (s : Side) : Nat × Nat :=
  let all := s.held ++ s.leaving
  (all.length, (all.map fun h => h.es * h.els.length).foldl (· + ·) 0)

/-- A trap register (R210), tstat without dfl. -/
def TrapRegs.get (r : TrapRegs) : Nat → Word
  | 0 => r.cause
  | 1 => r.tval
  | 2 => r.epc
  | 3 => r.tstat
  | 4 => r.tvec
  | _ => r.qframe
/-- Write a trap register: reserved and read-only fields stay (R210). -/
def TrapRegs.put (r : TrapRegs) (i : Nat) (v : Word) : TrapRegs :=
  match i with
  | 0 => { r with cause := v &&& 0x800000000000ffff }
  | 1 => { r with tval := v }
  | 2 => { r with epc := v }
  | 3 => { r with tstat := (r.tstat &&& 0xe0) ||| (v &&& 0x107) }
  | 4 => { r with tvec := v &&& ~~~1#64 }
  | _ => { r with qframe := v &&& 0x000ffffffffff000 }

/-- A trap register as it reads: tstat.dfl shows the deferred faults of a lower level that are pending now (R210, R214). -/
def Mach.trapGet (m : Mach) (l : Level) (i : Nat) : Word :=
  let r := (m.trapOf m.dev.cur).get l
  if i = 3 && m.lowerPending l r.entry then r.get i ||| 16 else r.get i

/-- Floating-point control of the side, or of a supervisor core (R281). -/
def Mach.fcr (m : Mach) (n : Nat) : Word :=
  if n = 8 then m.fflags.setWidth 64 else if n = 9 then m.frm.setWidth 64 else m.fenable.setWidth 64

/-- The value of a control register for the sequencer that moves.
DESIGN CHOICE, unsafe (log 48). -/
def Mach.crGet (m : Mach) (n : Nat) : Word :=
  let s := m.mySide
  let q := m.dev.cur
  let p := m.part ((m.pidOf q).getD 0).toNat
  match crTrap m.me.level n with
  | some (l, i) => m.trapGet l i
  | none =>
    match n with
    | 0x00 => s.vl.setWidth 64
    | 0x01 => s.vtype.setWidth 64
    | 0x02 => s.vstart.setWidth 64
    | 0x03 => s.exi.setWidth 64
    | 0x04 => s.ffi.setWidth 64
    | 0x05 => let (n, b) := s.hbuf; w64 (b * 16 + n)
    | 0x06 => s.vdirty.setWidth 64
    | 0x08 | 0x09 | 0x0a => m.fcr n
    | 0x0b => s.bythr.setWidth 64
    | 0x10 => m.me.capsel
    | 0x11 => m.capEntry q m.me.capsel.toNat
    | 0x12 => (m.die (dieOf q)).cyc
    | 0x20 => w64 (m.myNo % 2)
    | 0x21 => (match q with | .side k _ => w64 (k.toNat / 2 % 128) | .sup n => n.setWidth 64)
    | 0x22 => (match q with | .side k _ => w64 (k.toNat / 16 % 16) | .sup n => (Config.supCluster n.toNat).setWidth 64)
    | 0x23 => w64 (dieOf q)
    | 0x24 => (m.asnOf q).setWidth 64
    | 0x25 => ((m.pidOf q).getD 0).setWidth 64
    | 0x26 => p.rpc.setWidth 64
    | 0x27 => p.rpi.setWidth 64
    | 0x30 => s.stsup
    | 0x31 => s.oorct
    | 0x32 => s.poict
    | 0x40 => m.myCore.pipeown.setWidth 64
    | 0x41 => s.vown
    | _ => 0

/-- A value of vtype that R300 accepts. -/
def Mach.vtypeOk (m : Mach) (v : Word) : Bool :=
  let t := wbits v 0 4
  let sl := wbits v 4 3
  t != 15 && sl != 1 && (t != 14 || m.hasCap 0x12) && (sl == 0 || sl ≤ m.capParam 0x11 % 16)
/-- Write vtype; vl is trimmed to the new type (R300). -/
def Side.putVtype (s : Side) (v : BitVec 8) : Side :=
  let s := { s with vtype := v }
  { s with vl := BitVec.ofNat 11 (min s.vl.toNat (vlmax s.vty)) }
/-- Write vl (R299). -/
def Side.putVl (s : Side) (v : Word) : Side := { s with vl := BitVec.ofNat 11 (min v.toNat (vlmax s.vty)) }
/-- A value of frm that R300 accepts. -/
def frmOk (v : Word) : Bool := let k := wbits v 0 3; k != 0 && k < 6

/-- A pipe of a core whose owner would change still works (R81). -/
def Mach.pipeBusy (m : Mach) (core : Nat) (v : BitVec 8) : Bool :=
  let c := m.core core
  let ch := c.pipeown ^^^ v
  (ch.getLsbD 6 && !c.mx.mq.isEmpty) || (ch.getLsbD 7 && (c.sx.sq.any (!·.faulted) || !(m.side (2 * core)).tq.isEmpty || !(m.side (2 * core + 1)).tq.isEmpty))

/-- Write asn: every sequencer of the side fetches anew (R296). -/
def Mach.putAsn (m : Mach) (q : SeqId) (v : BitVec 16) : Mach :=
  match q with
  | .side k _ => m.modSide k.toNat fun s =>
      { s with asn := v, p := { s.p with line := none }, m := { s.m with line := none }, s := { s.s with line := none } }
  | .sup n => m.modSup n.toNat fun u => { u with asn := v, seq := { u.seq with line := none } }

/-- Write a floating-point control register. -/
def Mach.putFcr (m : Mach) (n : Nat) (v : Word) : Mach :=
  match m.dev.cur with
  | .side k _ => m.modSide k.toNat fun s =>
      if n = 8 then { s with fflags := v.setWidth 5 } else if n = 9 then { s with frm := v.setWidth 3 } else { s with fenable := v.setWidth 5 }
  | .sup k => m.modSup k.toNat fun s =>
      if n = 8 then { s with fflags := v.setWidth 5 } else if n = 9 then { s with frm := v.setWidth 3 } else { s with fenable := v.setWidth 5 }

/-- What a write of a control register meets. -/
inductive CrRes where
  | done (m : Mach)
  | wait
  | bad
  deriving DecidableEq, Repr

/-- Write a control register of the sequencer that moves; `bad` for a value that R298 to R300 forbid. -/
def Mach.crPut (m : Mach) (n : Nat) (v : Word) : CrRes :=
  let q := m.dev.cur
  match crTrap m.me.level n with
  | some (l, i) =>
    let ts := m.trapOf q
    let m := m.setTrap q (ts.set l ((ts.get l).put i v))
    .done (if l == .M && i == 5 then m.modMySide fun s => { s with needImg := false } else m)
  | none =>
    match n with
    | 0x00 => .done (m.modMySide (·.putVl v))
    | 0x01 => if m.vtypeOk (v &&& 0xff) then .done (m.modMySide (·.putVtype (v.setWidth 8))) else .bad
    | 0x02 => .done (m.modMySide fun s => { s with vstart := v.setWidth 11 })
    | 0x03 => .done (m.modMySide fun s => { s with exi := v.setWidth 11 })
    | 0x04 => .done (m.modMySide fun s => { s with ffi := v.setWidth 11 })
    | 0x06 => .done (m.modMySide fun s => { s with vdirty := v.setWidth 32 })
    | 0x08 | 0x0a => .done (m.putFcr n v)
    | 0x09 => if frmOk v then .done (m.putFcr n v) else .bad
    | 0x0b => .done (m.modMySide fun s => { s with bythr := v.setWidth 48 })
    | 0x10 => .done (m.modMe fun s => { s with capsel := v })
    | 0x24 => if v.setWidth 16 = 0xffff#16 then .bad else .done (m.putAsn q (v.setWidth 16))
    | 0x30 => .done (m.modMySide fun s => { s with stsup := v })
    | 0x31 => .done (m.modMySide fun s => { s with oorct := v })
    | 0x32 => .done (m.modMySide fun s => { s with poict := v })
    | 0x40 => if m.pipeBusy (coreKey q) (v.setWidth 8) then .wait else .done (m.modMyCore fun c => { c with pipeown := v.setWidth 8 })
    | 0x41 => .done (m.modMySide fun s => { s with vown := v &&& 0x000ffffffffff001, vstale := false })
    | _ => .done m

/-- The common checks of R296: the register exists, the level may use it, P waits for its queue (R144), and inside a strip the
configuration may not be written (R306). -/
def Mach.crCheck (m : Mach) (n : Nat) (wr : Bool) (d : Reg) (ss : List Src) (k : Mach → Mach) : Mach :=
  if !m.onSide && crSide n then m.trapHead 0x01
  else m.issue (if wr then crWritable m.me.level n && crReadable m.me.level n else crReadable m.me.level n) true (some d) ss [] fun m =>
    if wr && n ≤ 4 && m.stripOpen then m.trapHead 0x14
    else if n ≤ 0x0b && m.isRole .P && !m.mySide.vq.isEmpty then m.stay
    else k m

/-- A register that counts: cyc and the side's counters (R135). -/
def crCounts (n : Nat) : Bool := n == 0x12 || (0x30 ≤ n && n ≤ 0x32)

/-- `crd` (R296).
DEDUCED, safe (log 49). -/
def execCrd (d : Reg) (cr : BitVec 12) (s : State) : Host.Outcome State Fault Refusal :=
  run (fun m => m.crCheck cr.toNat false d [] fun m =>
    let n := cr.toNat
    if n = 6 && m.me.level == .U && !m.mySide.vowner then m.trapOwner
    else if crCounts n then (m.send d (m.crGet n) false).retire
    else (m.wx d (m.crGet n)).retire) s

/-- The writing forms (R296): xd takes the old value. -/
def Mach.crWriteTo (m : Mach) (n : Nat) (d : Reg) (f : Word → Word) : Mach :=
  let old := m.crGet n
  match m.crPut n (f old) with
  | .bad => m.trapHead 0x01
  | .wait => m.stay
  | .done m => (m.wx d old).retire

/-- `crw` (R296). -/
def execCrw (d : Reg) (cr : BitVec 12) (a : Src) (s : State) : Host.Outcome State Fault Refusal :=
  run (fun m => m.crCheck cr.toNat true d [a] fun m => let v := m.val a; m.crWriteTo cr.toNat d fun _ => v) s

/-- `crset` (R296). -/
def execCrset (d : Reg) (cr : BitVec 12) (a : Src) (s : State) : Host.Outcome State Fault Refusal :=
  run (fun m => m.crCheck cr.toNat true d [a] fun m => let v := m.val a; m.crWriteTo cr.toNat d fun o => o ||| v) s

/-- `crclr` (R296). -/
def execCrclr (d : Reg) (cr : BitVec 12) (a : Src) (s : State) : Host.Outcome State Fault Refusal :=
  run (fun m => m.crCheck cr.toNat true d [a] fun m => let v := m.val a; m.crWriteTo cr.toNat d fun o => o &&& ~~~v) s

/-! ## The writes as steps of their own -/

/-- A write of a control register by a sequencer, in queue order; a forbidden value changes nothing. -/
def Mach.crEvent (m : Mach) (q : SeqId) (n : Nat) (v : Word) : Mach :=
  let cur := m.dev.cur
  let on := match q with | .side .. => true | .sup _ => !crSide n
  if !on then m
  else
    let m1 := m.withDev fun d => { d with cur := q }
    match m1.crPut n v with
    | .done m => m.withDev fun d => { d with cur := cur }
    | _ => m

/-- VTYPE_WRITE (R300). -/
def execVtypeWrite (q : SeqId) (v : Word) (s : State) : Host.Outcome State Fault Refusal := run (fun m => m.crEvent q 0x01 v) s
/-- VL_WRITE (R299). -/
def execVlWrite (q : SeqId) (v : Word) (s : State) : Host.Outcome State Fault Refusal := run (fun m => m.crEvent q 0x00 v) s
/-- FRM_WRITE (R300). -/
def execFrmWrite (q : SeqId) (v : Word) (s : State) : Host.Outcome State Fault Refusal := run (fun m => m.crEvent q 0x09 v) s
/-- ASN_WRITE (R48, R296). -/
def execAsnWrite (q : SeqId) (v : Word) (s : State) : Host.Outcome State Fault Refusal := run (fun m => m.crEvent q 0x24 v) s
/-- VDIRTY_WRITE (R147). -/
def execVdirtyWrite (q : SeqId) (v : Word) (s : State) : Host.Outcome State Fault Refusal := run (fun m => m.crEvent q 0x06 v) s
/-- CAPSEL_WRITE (R35). -/
def execCapselWrite (q : SeqId) (v : Word) (s : State) : Host.Outcome State Fault Refusal := run (fun m => m.crEvent q 0x10 v) s
/-- PIPEOWN_WRITE (R81): it takes effect once no pipe whose owner changes is at work. -/
def execPipeownWrite (core : BitVec 9) (v : Word) (s : State) : Host.Outcome State Fault Refusal :=
  run (fun m => if m.pipeBusy core.toNat (v.setWidth 8) then m else m.modCore core.toNat fun c => { c with pipeown := v.setWidth 8 }) s
/-! ## Invalidation and harvest (R58, R59, R297) -/

/-- The stage 1 leaf of an address in an address space. -/
def Mach.leaf1 (m : Mach) (die : Nat) (pid : BitVec 4) (asn : BitVec 16) (va : Nat) : Option Leaf :=
  let c := m.pctx die pid
  if !c.en then none
  else match m.root1 die c asn with
    | .error _ => none
    | .ok root => (descend (m.tab1 die c) false 0 2 va walkLevels root).toOption

/-- The stage 2 page that an address of an address space goes through: its number and the log2 of its size; a page that stage 2 does not
map counts as one of 64 KiB, and an address that stage 1 does not map has none. -/
def Mach.s2Of (m : Mach) (die : Nat) (pid : BitVec 4) (asn : BitVec 16) (va : Nat) : Nat × Nat :=
  match m.leaf1 die pid asn va with
  | none => (2 ^ 64, 0)
  | some l =>
    let ppa := eaddr l.ent + va % 2 ^ l.sh
    let sh := match m.stage2 die (m.pctx die pid) ppa with | .ok (_, l2) => l2.sh | .error _ => 16
    (ppa / 2 ^ sh, sh)

/-- The log2 of the page of an unconfirmed store: as its probe named it, or as the tables now give it when that is larger. -/
def Mach.pageShift (m : Mach) (die : Nat) (e : AttEnt) : Nat :=
  match m.walk die e.pid e.asn (va57 e.va) with
  | .ok t => max e.sh t.sh
  | .error _ => e.sh

/-- Remove translations (R58): rights, translation cache entries and owner pairs that match; held stores to those pages are probed again.
`hit` looks at the address space, the first address and the size of a page, and at its stage 2 page. -/
def Mach.inval (m : Mach) (pid : BitVec 4) (hit : BitVec 16 → Nat → Nat → Nat → Nat → Bool) : Mach :=
  let on := fun (asn : BitVec 16) (vpn sh s2 s2sh : Nat) => hit asn (vpn * 65536 / 2 ^ sh * 2 ^ sh) (2 ^ sh) s2 s2sh
  let m := m.withDev fun d =>
    { d with cores := d.cores.map fun (k, c) =>
               (k, { c with rc := c.rc.filter fun r => !(r.pid == pid && hit r.asn (r.page * 2 ^ r.sh) (2 ^ r.sh) r.s2 r.s2sh) })
             dies := d.dies.map fun (k, x) =>
               (k, { x with tc := x.tc.filter fun t => !(t.pid == pid && on t.asn t.vpn t.sh t.s2 t.s2sh)
                            own := x.own.filter fun o => !(o.pid == pid && on o.asn o.vpn o.sh o.s2 o.s2sh) }) }
  let groups := (m.dev.sides.map fun (k, _) => (k / 2, k)) ++ m.dev.sups.map fun (n, _) => (512 + n, 1024 + n)
  groups.foldl (fun m (c, g) =>
    let named := fun (e : AttEnt) => let p := m.s2Of (dieOfCore c) pid e.asn (va57 e.va)
      e.pid == pid && on e.asn (va57 e.va / 65536) (m.pageShift (dieOfCore c) e) p.1 p.2
    ((m.att g).filter named).foldl (fun m e => m.probeGroup c g pid e.asn e.sh (va57 e.va / 2 ^ e.sh)) m) m

/-- `ainv.page` (R297): at S the page of an address under an address space, at M every translation of a partition through the stage 2 page
of a partition physical address. -/
def execAinvPage (a b : Src) (s : State) : Host.Outcome State Fault Refusal :=
  run (fun m => m.priv none [a, b] fun m =>
    if m.me.level == .M then (m.inval ((m.val b).setWidth 4) fun _ _ _ p sh => (m.val a).toNat / 2 ^ sh == p).retire
    else if (m.val b).setWidth 16 = 0xffff#16 then m.trapHead 0x04
    else
      let v := va57 (m.val a)
      let asn := (m.val b).setWidth 16
      (m.inval ((m.pidOf m.dev.cur).getD 0) fun x base n _ _ => x == asn && base ≤ v && v < base + n).retire) s

/-- `ainv.asn` (R297). -/
def execAinvAsn (a : Src) (s : State) : Host.Outcome State Fault Refusal :=
  run (fun m => m.priv none [a] fun m =>
    if m.me.level != .M && (m.val a).setWidth 16 == 0xffff#16 then m.trapHead 0x04
    else (m.inval ((m.pidOf m.dev.cur).getD 0) fun x _ _ _ _ => x == (m.val a).setWidth 16).retire) s

/-- `ainv.part` (R297). -/
def execAinvPart (a : Src) (s : State) : Host.Outcome State Fault Refusal :=
  run (fun m => m.priv none [a] fun m =>
    if m.me.level != .M then m.trapHead 0x04 else (m.inval ((m.val a).setWidth 4) fun _ _ _ _ _ => true).retire) s

/-- Clear d of a leaf (R59), and w of every rights cache entry that holds its page. -/
def Mach.harvLeaf (m : Mach) (pid : BitVec 4) (l : Leaf) (hit : Rights → Bool) : Mach :=
  let e := BitVec.ofNat 64 (m.rdChan l.ea 8)
  if !ebit e 3 then m
  else
    let m := m.putEnt pid l (e &&& ~~~8#64).toNat
    m.withDev fun d => { d with cores := d.cores.map fun (k, c) =>
      (k, { c with rc := c.rc.map fun r => if r.pid == pid && hit r then { r with w := false } else r }) }

/-- The pages of a harvest from `a` on; unmapped pages are skipped. -/
def Mach.harvest (m : Mach) (find : Mach → Nat → Option Leaf) (pid : BitVec 4) (hit : Nat → Nat → Rights → Bool) (a : Nat) : Nat → Mach
  | 0 => m
  | n + 1 =>
    match find m a with
    | none => m.harvest find pid hit (a + 65536) n
    | some l => (m.harvLeaf pid l (hit (a / 2 ^ l.sh * 2 ^ l.sh) (2 ^ l.sh))).harvest find pid hit (a + 65536) n

/-- `harv` (R297, R59): stage 1 leaves of the current address space at S, stage 2 leaves of a partition at M. -/
def execHarv (a b : Src) (f : BitVec 4) (s : State) : Host.Outcome State Fault Refusal :=
  run (fun m => m.priv none [a, b] fun m =>
    let va := m.val a
    let n := (m.val b).toNat
    if m.me.level == .S && f ≠ 0 then m.trapHead 0x01
    else if va.toNat % 65536 ≠ 0 || n % 65536 ≠ 0 || n = 0 || 2 ^ 40 < n then m.trapV 0x07 va
    else
      let die := dieOf m.dev.cur
      if m.me.level == .M then
        let find := fun (m : Mach) (p : Nat) => (m.stage2 die (m.pctx die f) p).toOption.map (·.2)
        let hit := fun (base len : Nat) (r : Rights) => let x := r.s2 * 2 ^ r.s2sh; x < base + len && base < x + 2 ^ r.s2sh
        (m.harvest find f hit va.toNat (n / 65536)).retire
      else
        let pid := (m.pidOf m.dev.cur).getD 0
        let asn := m.asnOf m.dev.cur
        let find := fun (m : Mach) (v : Nat) => if canonical (w64 v) then m.leaf1 die pid asn (v % 2 ^ 57) else none
        let hit := fun (base len : Nat) (r : Rights) => let x := r.page * 2 ^ r.sh; r.asn == asn && x < base % 2 ^ 57 + len && base % 2 ^ 57 < x + 2 ^ r.sh
        (m.harvest find pid hit va.toNat (n / 65536)).retire) s

/-! ## Accesses to partition physical space for frames and images (R210, R297) -/

/-- Store `n` bytes at a partition physical address, line by line; none when an access fails. -/
def Mach.ppaPut (m : Mach) (die : Nat) (pid : Option (BitVec 4)) (ppa n v : Nat) : Nat → Option Mach
  | 0 => some m
  | f + 1 =>
    if n = 0 then some m
    else
      let c := min n (1024 - ppa % 1024)
      (m.ppaOf die pid ppa).bind fun (a, frost) =>
        (m.physPut a c (v % 256 ^ c) frost (pid.getD 0)).ppaPut die pid (ppa + c) (n - c) (v / 256 ^ c) f

/-- Read `n` bytes at a partition physical address, sector by sector: their value, and a bit for each byte that comes from a poisoned sector
(R219). -/
def Mach.ppaGet (m : Mach) (die : Nat) (pid : Option (BitVec 4)) (ppa n : Nat) : Nat → Option ((Nat × Nat) × Mach)
  | 0 => some ((0, 0), m)
  | f + 1 =>
    if n = 0 then some ((0, 0), m)
    else
      let c := min n (128 - ppa % 128)
      (m.ppaOf die pid ppa).bind fun (a, _) =>
        let ((v, p), m) := m.physGet a c
        (m.ppaGet die pid (ppa + c) (n - c) f).map fun ((w, q), m) =>
          ((v + 256 ^ c * w, (if p then 2 ^ c - 1 else 0) + 2 ^ c * q), m)

/-- A failed access to an image or frame (R297). -/
def Mach.areaFail (m : Mach) (a : Nat) : Mach := m.trapV 0x0d (w64 a)

/-! ## Queue frames (R213) -/

/-- An opcode of an instruction that enters the vector queue (R132, R143). -/
def queueOp (h : Half) : Bool := let op := (h.extractLsb' 6 8).toNat; 0x80 ≤ op && op ≤ 0xdb
/-- An entry of a queue frame (DESIGN CHOICE, unsafe, log 17): none when it is no instruction that enters the queue. -/
def entryOf (v : Nat) : Option VqEntry :=
  let f := fun lo n => v / 2 ^ lo % 2 ^ n
  let head := BitVec.ofNat 16 (f 64 16)
  let n := f 328 8
  match decode ⟨head, BitVec.ofNat 48 (f 80 48)⟩ with
  | none => none
  | some i =>
    let op := fun k => (w64 (f (128 + 64 * k) 64), f (320 + k) 1 == 1)
    if queueOp head && n ≤ 3 then some { pc := w64 (f 0 64), head := head, ins := i, ops := (List.range n).map op, tick := f 336 48, lvl := Level.ofCode (f 323 2) }
    else none

/-- The entries of a frame. -/
def entriesOf (v : Nat) : Nat → Option (List VqEntry)
  | 0 => some []
  | n + 1 => match entryOf (v % 2 ^ 384), entriesOf (v / 2 ^ 384) n with
    | some e, some l => some (e :: l)
    | _, _ => none

/-- A frame read from memory (R213): none when its format, length or an entry is bad. -/
def frameOfBits (v : Nat) : Option QFrame :=
  let len := v % 2 ^ 16
  let n := v / 2 ^ 24 % 256
  if v / 2 ^ 16 % 256 ≠ 1 || v / 2 ^ 32 % 2 ^ 32 ≠ 0 || n = 0 || 32 < n || len ≠ 64 + 48 * n then none
  else (entriesOf (v / 2 ^ 512) n).map fun l => ⟨w64 (v / 2 ^ 64 % 2 ^ 64), l⟩

/-- `vqsave` (R297). -/
def execVqsave (a : Src) (s : State) : Host.Outcome State Fault Refusal :=
  run (fun m => m.sideOnly fun m => m.priv none [a] fun m =>
    let p := (m.val a).toNat
    if p % 64 ≠ 0 then m.trapV 0x07 (m.val a)
    else match m.mySide.frame with
      | none => m.retire
      | some f =>
        match m.ppaPut (dieOf m.dev.cur) m.mySide.pid p (64 + 48 * f.entries.length) (frameBits f.resume f.entries) 8 with
        | none => m.areaFail p
        | some m => (m.modMySide fun s => { s with frame := none }).retire) s

/-- `vqload` (R297, R213). -/
def execVqload (a : Src) (s : State) : Host.Outcome State Fault Refusal :=
  run (fun m => m.sideOnly fun m => m.priv none [a] fun m =>
    let p := (m.val a).toNat
    if p % 64 ≠ 0 then m.trapV 0x07 (m.val a)
    else
      let get := fun (m : Mach) (n : Nat) => m.ppaGet (dieOf m.dev.cur) m.mySide.pid p n 18
      match (get m 64).bind fun ((h, _), m) => get m (min (h % 2 ^ 16) 2048) with
      | none => m.areaFail p
      | some ((v, _), m) =>
        match frameOfBits v with
        | none => m.areaFail p
        | some f => (m.modMySide fun s => { s with frame := some f }).retire) s

/-! ## The lazy parts of a context image (R225 to R227) -/

/-- Read `n` items of `w` bits from a number. -/
def items (w : Nat) (v : Nat) : Nat → List Nat
  | 0 => []
  | n + 1 => v % 2 ^ w :: items w (v / 2 ^ w) n
/-- Pack items of `w` bits into a number. -/
def pack (w : Nat) (l : List Nat) : Nat := l.foldr (fun x n => x % 2 ^ w + 2 ^ w * n) 0

/-- Write one part of an image, or note the failure. -/
def Mach.imgPut (mo : Option Mach) (die : Nat) (pid : Option (BitVec 4)) (a n v : Nat) : Option Mach :=
  mo.bind fun m => m.ppaPut die pid a n v (n / 1024 + 2)
/-- Read one part of an image. -/
def Mach.imgGet (m : Mach) (die : Nat) (pid : Option (BitVec 4)) (a n : Nat) : Option ((Nat × Nat) × Mach) :=
  m.ppaGet die pid a n (n / 128 + 2)

/-- Sparse table entries from a list of values, those equal to the default left out. -/
def tblOf (base : Nat) (w : Nat) (l : List Nat) : Tbl (BitVec w) :=
  (l.zipIdx.filter fun (x, _) => x != 0).map fun (x, i) => (base + i, BitVec.ofNat w x)

/-- `vsave` (R227): the dirty vector registers up to the recorded length, and the accumulators and banks written since the last save. It is
the save that a start on another side waits for when it is made into that image. -/
def Mach.vsaveAt (m : Mach) (k a : Nat) : Option Mach :=
  let die := k / 256
  let s := m.side k
  (m.imgGet die s.pid (a + 0x1000) 256).bind fun ((h, _), m) =>
    let vl := h / 2 ^ 64 % 2 ^ 16
    let ty : ETy := (ETy.ofBits (BitVec.ofNat 4 (h / 2 ^ 80 % 16))).getD .i8
    let len := min (vl * ty.size) 1024
    let dirty := (List.range 32).filter fun i => s.vdirty.getLsbD i
    let mo := dirty.foldl (fun mo i =>
      let r := s.vreg (BitVec.ofNat 5 i)
      let mo := Mach.imgPut mo die s.pid (a + 0x15000 + 1024 * i) len (r.val.toNat % 256 ^ len)
      Mach.imgPut mo die s.pid (a + 0x1d000 + 128 * i) 128 (r.pois.toNat % 2 ^ len)) (some m)
    let x := (m.core (k / 2)).mx
    let own := m.owns k 6
    let accs := (List.range 4).filter fun i => own && x.dirtyAcc.getLsbD i
    let mo := accs.foldl (fun mo i =>
      let mo := Mach.imgPut mo die s.pid (a + 0x1e000 + 32768 * i) 32768 (pack 32 ((List.range 8192).map fun e => (x.acc.get 0 (8192 * i + e)).toNat))
      Mach.imgPut mo die s.pid (a + 0x3e000 + 1024 * i) 1024 (pack 1 ((List.range 8192).map fun e => nb (x.accPois.get false (8192 * i + e))))) mo
    let banks := (List.range 2).filter fun i => own && x.dirtyBank.getLsbD i
    let mo := banks.foldl (fun mo i =>
      let mo := Mach.imgPut mo die s.pid (a + 0x3f000 + 65536 * i) 65536 (pack 16 ((List.range 32768).map fun e =>
        (x.cells.get 0 (32768 * i + e)).toNat + 4096 * nb (x.bad.get false (32768 * i + e))))
      Mach.imgPut mo die s.pid (a + 0x5f000 + 1024 * i) 1024 (pack 8 ((List.range 1024).map fun e => (x.exps.get 0 (1024 * i + e)).toNat))) mo
    let present := (h / 2 ^ 32 % 2 ^ 32) ||| s.vdirty.toNat
    let mxp := (h / 2 ^ 96 % 256) ||| (if own then x.dirtyAcc.toNat + 16 * x.dirtyBank.toNat else 0)
    let lens := (List.range 32).map fun i => if s.vdirty.getLsbD i then len else h / 2 ^ (128 + 16 * i) % 2 ^ 16
    let mo := Mach.imgPut mo die s.pid (a + 0x1004) 4 present
    let mo := Mach.imgPut mo die s.pid (a + 0x100c) 1 mxp
    let mo := Mach.imgPut mo die s.pid (a + 0x1010) 64 (pack 16 lens)
    mo.map fun m =>
      let m := m.modSide k fun s => { s with vdirty := 0, saveFor := s.saveFor.map fun x => (x.1, x.2 || x.1 == a) }
      if own then m.modCore (k / 2) fun c => { c with mx := { c.mx with dirtyAcc := 0, dirtyBank := 0 } } else m

/-- The vector registers that an image holds; the others are zero. The bytes of a poisoned sector come poisoned (R219). -/
def Mach.vrestRegs (m : Mach) (k a h : Nat) : Nat → Option (Tbl VReg × Mach)
  | 0 => some ([], m)
  | n + 1 =>
    (m.vrestRegs k a h n).bind fun (t, m) =>
      if h / 2 ^ (32 + n) % 2 = 0 then some (t, m)
      else
        let pid := (m.side k).pid
        let len := min (h / 2 ^ (128 + 16 * n) % 2 ^ 16) 1024
        (m.imgGet (k / 256) pid (a + 0x15000 + 1024 * n) len).bind fun ((v, p), m) =>
          (m.imgGet (k / 256) pid (a + 0x1d000 + 128 * n) 128).map fun ((w, q), m) =>
            let po := p ||| (if q = 0 then w % 2 ^ len else 2 ^ len - 1)
            (t ++ [(n, ⟨BitVec.ofNat 8192 v, BitVec.ofNat 1024 po⟩)], m)

/-- The accumulators that an image holds: an element with a poisoned byte is poisoned, and one whose poison bit cannot be read. -/
def Mach.vrestAccs (m : Mach) (k a h : Nat) : Nat → Option ((Tbl (BitVec 32) × Tbl Bool) × Mach)
  | 0 => some (([], []), m)
  | n + 1 =>
    (m.vrestAccs k a h n).bind fun ((t, u), m) =>
      if h / 2 ^ (96 + n) % 2 = 0 then some ((t, u), m)
      else
        let pid := (m.side k).pid
        (m.imgGet (k / 256) pid (a + 0x1e000 + 32768 * n) 32768).bind fun ((v, p), m) =>
          (m.imgGet (k / 256) pid (a + 0x3e000 + 1024 * n) 1024).map fun ((w, q), m) =>
            let po := (List.range 8192).filter fun e => (List.range 4).any (fun j => p.testBit (4 * e + j)) || w.testBit e || q.testBit (e / 8)
            ((t ++ tblOf (8192 * n) 32 (items 32 v 8192), u ++ po.map fun e => (8192 * n + e, true)), m)

/-- The weight banks that an image holds; a cell with a poisoned byte or exponent is uncorrectable. DESIGN CHOICE (log 18): bit 12 of a cell in the image says that it is uncorrectable; unsafe for a
program that reads it. -/
def Mach.vrestBanks (m : Mach) (k a h : Nat) : Nat → Option ((Tbl (BitVec 12) × Tbl Bool × Tbl (BitVec 8)) × Mach)
  | 0 => some (([], [], []), m)
  | n + 1 =>
    (m.vrestBanks k a h n).bind fun ((t, b, u), m) =>
      if h / 2 ^ (100 + n) % 2 = 0 then some ((t, b, u), m)
      else
        let pid := (m.side k).pid
        (m.imgGet (k / 256) pid (a + 0x3f000 + 65536 * n) 65536).bind fun ((v, p), m) =>
          (m.imgGet (k / 256) pid (a + 0x5f000 + 1024 * n) 1024).map fun ((w, q), m) =>
            let cs := items 16 v 32768
            let spoilt := fun (e : Nat) => p.testBit (2 * e) || p.testBit (2 * e + 1) || q.testBit (e / 8192 * 256 + e % 256)
            let bad := (cs.zipIdx.filter fun (x, e) => spoilt e || 4096 ≤ x).map fun (_, e) => (32768 * n + e, true)
            ((t ++ tblOf (32768 * n) 12 (cs.map (· % 4096)), b ++ bad, u ++ tblOf (1024 * n) 8 (items 8 w 1024)), m)

/-- `vrest` (R297): every part that is present; everything else is zero.
DESIGN CHOICE, unsafe (log 53). -/
def Mach.vrestAt (m : Mach) (k a : Nat) : Option Mach :=
  let pid := (m.side k).pid
  (m.imgGet (k / 256) pid (a + 0x1000) 256).bind fun ((h, _), m) =>
    (m.vrestRegs k a h 32).bind fun (v, m) =>
      let m := m.modSide k fun s => { s with v := v }
      if !m.owns k 6 then some m
      else
        (m.vrestAccs k a h 4).bind fun ((acc, po), m) =>
          (m.vrestBanks k a h 2).map fun ((cells, bad, exps), m) =>
            m.modCore (k / 2) fun c => { c with mx := { c.mx with acc := acc, accPois := po, cells := cells, exps := exps, bad := bad } }

/-- Both image instructions: sides only, 4 KiB aligned, once the matrix engine has completed what it accepted. -/
def Mach.imageOp (m : Mach) (a : Src) (f : Mach → Nat → Nat → Option Mach) : Mach :=
  m.sideOnly fun m => m.priv none [a] fun m =>
    let p := (m.val a).toNat
    let k := m.myNo
    if p % 4096 ≠ 0 then m.trapV 0x07 (m.val a)
    else if m.owns k 6 && !(m.core (k / 2)).mx.mq.isEmpty then m.stay
    else match f m k p with
      | none => m.areaFail p
      | some m => m.retire

/-- `vsave` (R297). -/
def execVsave (a : Src) (s : State) : Host.Outcome State Fault Refusal := run (fun m => m.imageOp a Mach.vsaveAt) s

/-- `vrest` (R297). -/
def execVrest (a : Src) (s : State) : Host.Outcome State Fault Refusal := run (fun m => m.imageOp a Mach.vrestAt) s

end Sys2Proof.Machine
end

