-- ==== Sys2Proof/Machine/VecBase.lean ====
section
/-! DEFINITION. The vector queue (R143 to R152, R249 to R252), the results of an instruction outside and inside a strip (R302, R307),
and the writes of vector registers (R147, R309, R315). -/

namespace Sys2Proof.Machine
open Sys2Proof

/-! ## Entering and leaving the queue -/

/-- A vector instruction enters the queue with its scalar operands (R143); a scalar destination is marked empty (R135).
DEDUCED, unsafe (log 7). -/
def Mach.enqueue (m : Mach) (i : Instr) (ops : List (Word × Bool)) (dst : Option Reg) (k : Mach → Mach) : Mach :=
  if 32 ≤ m.mySide.vq.length then m.wait
  else
    let (t, m) := m.tick
    let e : VqEntry := { pc := m.me.pc, head := m.dev.head, ins := i, ops := ops, tick := t, lvl := m.me.level }
    let m := m.modMySide fun s => { s with vq := s.vq ++ [e] }
    let m := match dst with | some d => m.empty d | none => m
    (k m).retire

/-- A vector instruction: on P it enters the queue; at the head of the queue it is performed (R143, R251). -/
def Mach.vec (m : Mach) (i : Instr) (capOk : Bool) (dst : Option Reg) (ss carry : List Src) (perform : Nat → VqEntry → Mach → Mach) : Mach :=
  match m.dev.vqNow with
  | some (k, e) => perform k.toNat e m
  | none => m.roleOnly .P fun m => m.issue true capOk dst ss carry fun m =>
      m.enqueue i ((ss ++ carry).map fun s => let x := m.x s.r; (x.val, x.pois)) dst id

/-- A captured scalar operand and its poison. -/
def VqEntry.op (e : VqEntry) (i : Nat) : Word × Bool := (e.ops[i]?).getD (0, false)

/-- The head of a side's queue completes. -/
def Mach.vpop (m : Mach) (k : Nat) : Mach := m.modSide k fun s => { s with vq := s.vq.tail }

/-! ## The checking lane (R152 to R156) -/

/-- The bytes of one chunk among those that a mask names (R148). -/
def chunkOf (lane beat : Nat) (mask : PBits) : PBits := mask &&& (BitVec.ofNat 1024 255 <<< (8 * (16 * beat + lane)))
/-- The place word of a side or core in the error log (R232). -/
def logPlace (core side lane : Nat) : BitVec 16 := BitVec.ofNat 16 (core / 8 % 16 + core % 8 * 16 + side * 128 + lane * 256)
/-- A lane is to be retired (R156): 4 correction events within 1,200,000 cycles, or one uncorrectable event. -/
def Core.laneFails (c : Core) (lane : Nat) : Bool :=
  c.laneUnc.contains lane ||
    (let ts := (c.laneEv.filter (·.1 == lane)).map (·.2)
     ts.any fun t => 4 ≤ (ts.filter fun u => t ≤ u && u ≤ t + 1200000).length)
/-- The core checks its lanes: none is retired, and none is to be at the next instruction boundary (R156). -/
def Core.checks (c : Core) : Bool := c.retired.isNone && !(c.laneUnc ++ c.laneEv.map (·.1)).any c.laneFails
/-- The lane under check of the next instruction that reaches the lanes (R152); a core with a retired lane checks none (R156). -/
def Core.checked (c : Core) : Option Nat := if c.checks then some (c.nchk % 16) else none
/-- The beats held for the instruction at the head of a side's queue: a lane that holds no chunk of it holds no beat (R152), and only the lane
under check is compared. -/
def Mach.holdsOf (m : Mach) (k : Nat) : List LaneHold :=
  (m.core (k / 2)).holds.filter fun h => 8 * (16 * h.beat + h.lane) < (m.side k).vl.toNat * (m.side k).vty.size
    && (h.res != .differ || (m.core (k / 2)).checked == some h.lane)
/-- The bytes of an instruction's result that no re-execution has settled (R154, R155). -/
def Mach.spoilt (m : Mach) (k : Nat) : PBits :=
  ((m.holdsOf k).filter (·.res != .agree)).foldl (fun b h => b ||| chunkOf h.lane h.beat (BitVec.allOnes 1024)) 0
/-- An element of a store or of a scratchpad access lies in a chunk that no re-execution has settled. -/
def Mach.spoils (m : Mach) (k es e : Nat) : Bool := (m.spoilt k).extractLsb' (es * e) es != 0
/-- The held beats of lanes, under check or not, that cannot read a source (R155). -/
def Mach.unread (m : Mach) (k : Nat) : List LaneHold := (m.holdsOf k).filter (·.res == .unread)

/-- Poison bytes of the vector registers that a side's instruction has written, in the record of its strip too. -/
def Side.poisonLast (s : Side) (bad : PBits) : Side :=
  s.vlast.foldl (fun s x =>
    let b := x.2 &&& bad
    let r := s.v.get {} x.1.toNat
    { s with v := s.v.set x.1.toNat { r with pois := r.pois ||| b }
             strip := s.strip.map fun t => { t with writes := match t.writes.getLast? with
               | some w => if w.v = x.1 then t.writes.dropLast ++ [{ w with pois := w.pois ||| b }] else t.writes
               | none => t.writes } }) s

/-- A held beat is released (R154 to R156): a correction event, or an uncorrectable one of the lane under check, or of an unreadable source. -/
def Mach.release (m : Mach) (k : Nat) (h : LaneHold) : Mach :=
  let c := k / 2
  let x := m.core c
  let d := dieOfCore c
  let m := m.modCore c fun x =>
    { x with laneEv := if h.res == .agree then x.laneEv ++ [(h.lane, (m.die d).cyc.toNat)] else x.laneEv
             laneUnc := if h.res == .differ then h.lane :: x.laneUnc else x.laneUnc }
  m.logErr d (match h.res with | .agree => 0x01 | .differ => 0x02 | .unread => 0x05) (logPlace c (k % 2) h.lane) (w64 x.nchk) (w64 h.beat)

/-- An instruction has reached the lanes (R152): the count advances, the held beats are released, and what no re-execution has settled of its
result is poisoned before anything can read it (R153, R154). A predicate bit cannot carry poison.
DEDUCED, unsafe (log 153). -/
def Mach.lanes (m : Mach) (k : Nat) : Mach :=
  let bad := m.spoilt k
  let n := nb (m.core (k / 2)).checks
  let m := (m.holdsOf k).foldl (fun m h => m.release k h) m
  let m := if bad = 0 then m else
    let m := m.modSide k (·.poisonLast bad)
    match m.dev.vqNow with
    | some (_, e) => match e.dst with
      | some d => m.modSeq (.side (BitVec.ofNat 10 k) .P) fun q => q.setReg d { q.reg d with pois := true }
      | none => m
    | none => m
  m.modCore (k / 2) fun c => { c with nchk := c.nchk + n, holds := [] }

/-- An instruction that has reached the lanes traps. -/
def Mach.laneTrap (m : Mach) (k : Nat) (cause : BitVec 8) (tval : Word) : Mach := (m.lanes k).trapV cause tval

/-- The head of the queue completes and vstart becomes 0; `lanes` says that it reached the lanes (R152). -/
def Mach.vfin (m : Mach) (k : Nat) (lanes : Bool) : Mach :=
  let m := if lanes then m.lanes k else m
  m.modSide k fun s => { s with vq := s.vq.tail, vstart := 0 }

/-- The pipes of R80 as the vector instructions name them; FMA is either of two. -/
inductive Pipe where
  | none | fma | ld | st | perm | idx
  deriving DecidableEq, Repr

/-- The pipe that is missing, if the side does not own one that will do (R150). -/
def Mach.noPipe (m : Mach) (k : Nat) (p : Pipe) : Option Nat :=
  match p with
  | .none => Option.none
  | .fma => if m.owns k 0 || m.owns k 1 then Option.none else some 0
  | .ld => if m.owns k 2 then Option.none else some 2
  | .st => if m.owns k 3 then Option.none else some 3
  | .perm => if m.owns k 4 then Option.none else some 4
  | .idx => if m.owns k 5 then Option.none else some 5

/-- Leaving the queue (R250 step 9, R249, R252, R227): the pipe, the wait mask, the markers of `qfence`, then the rule of vl = 0 with its
own effect `zero`, the vector owner, and the instruction. An instruction that R252 does not name has no `zero`. -/
def Mach.leave (m : Mach) (k : Nat) (e : VqEntry) (p : Pipe) (wait : BitVec 8) (zero : Option (Mach → Mach)) (act : Mach → Mach) : Mach :=
  match m.noPipe k p with
  | some n => m.trapV 0x05 (w64 n)
  | none =>
    if wait ≠ 0 && !m.owns k 7 then m.trapV 0x05 7
    else match m.maskWait wait with
      | (some t, _) => m.trapToken t
      | (none, true) => m
      | (none, false) =>
        if m.markBlocks k (if p == .idx then 4 else 0) e.tick then m
        else match (if (m.side k).vl = 0 then zero else none) with
          | some z => (z m).vfin k false
          | none => if !(m.side k).vowner then m.trapOwner else act (m.modSide k fun s => { s with vlast := [] })

/-- An access of a queue entry to memory or scratchpad has to wait (R188, R195, R196, R310, R330): P's older scalar reads are not performed,
stores of a closed strip are still on their way to L1, or bank updates of an older `vscadd` are not yet applied. -/
def Mach.vmWait (m : Mach) (k : Nat) (e : VqEntry) : Bool :=
  let p : SeqId := .side (BitVec.ofNat 10 k) .P
  m.dev.remote.any (fun r => r.who == p && r.tick ≤ e.tick) || m.dev.ext.any (fun x => x.fills (· == p) && x.tick ≤ e.tick)
    || !(m.side k).leaving.isEmpty || m.updBefore k e.tick

/-- Leaving the queue of an instruction with a tsel field and no second type: an explicit type has the size of vtype's (R248). -/
def Mach.leaveT (m : Mach) (k : Nat) (e : VqEntry) (ts : Option ETy) (p : Pipe) (wait : BitVec 8) (zero : Option (Mach → Mach))
    (act : Mach → Mach) : Mach :=
  m.leave k e p wait zero fun m => if (m.side k).sized ts then act m else m.trapHead 0x01

/-! ## Results (R302, R307) -/

/-- What an element computes: its value, its flags, whether it consumes poison, and whether its result carries poison. -/
structure ERes where
  val : Nat
  fl : Fl := 0
  bad : Bool := false
  pois : Bool := false
  deriving DecidableEq, Repr

/-- An element of a result to be written: its index, value and poison. -/
abbrev El := Nat × Nat × Bool

/-- Keep the poison and the flags of an unresolved strip's instruction. -/
def Strip.keep (t : Strip) (rs : List (Nat × ERes)) : Strip :=
  rs.foldl (fun t (e, r) =>
    if r.bad then { t with pe := some (match t.pe with | some x => min x e | none => e) }
    else { t with fl := (List.range 5).foldl (fun u i =>
            if r.fl.getLsbD i then u.set i (match u.find? (·.1 == i) with | some (_, x) => min x e | none => e) else u) t.fl }) t

/-- Settle an instruction's elements (R302): `m0` is the machine on which a trap is taken, `m1` the one that goes on. In an unresolved strip
poison gives `badVal` poisoned and flags are kept; outside one, poison and enabled flags trap. -/
def Mach.settle (m0 m1 : Mach) (k : Nat) (rs : List (Nat × ERes)) (badVal : Nat) (fin : List El → Mach → Mach) : Mach :=
  if (m0.side k).unresolved then
    let m1 := m1.modSide k fun s => { s with strip := s.strip.map (·.keep rs) }
    fin (rs.map fun (e, r) => if r.bad then (e, badVal, true) else (e, r.val, r.pois)) m1
  else match rs.find? (·.2.bad) with
    | some (e, _) => m0.laneTrap k 0x0c (w64 (0x1000 + e % 1024))
    | none =>
      let fl := rs.foldl (fun f x => f ||| x.2.fl) 0
      let en := (m0.side k).fenable
      match rs.find? fun x => x.2.fl &&& en != 0 with
      | some (e, _) => (m0.modSide k fun s => { s with fflags := s.fflags ||| fl }).laneTrap k 0x0e (w64 ((fl &&& en).toNat + e % 1024 * 2 ^ 16))
      | none => fin (rs.map fun (e, r) => (e, r.val, r.pois)) (m1.modSide k fun s => { s with fflags := s.fflags ||| fl })

/-! ## Writes -/

/-- The strip has no room for one more instruction that writes a vector register (R307). -/
def Side.stripFull (s : Side) : Bool := match s.strip with | some t => t.lim.isNone && 16 ≤ t.nwrites | none => false

/-- The bytes of some elements. -/
def maskOf (es : Nat) (l : List El) : PBits := l.foldl (fun b x => b ||| (BitVec.ofNat 1024 (2 ^ es - 1) <<< (es * x.1))) 0

/-- A vector register takes a new value in some bytes: a binding of it ends (R315), vdirty is set (R147), and an unresolved strip
remembers the write with its element size (R307, R309). -/
def Side.wvAll (s : Side) (d : VR) (es : Nat) (mask : PBits) (new : VReg) : Side :=
  let old := s.vreg d
  let s := { s with v := s.v.set d.toNat new, bind := s.bind.filter (·.1 != d), vdirty := s.vdirty ||| (1#32 <<< d.toNat)
                    vlast := s.vlast ++ [(d, mask)] }
  match s.strip with
  | some t =>
    if t.lim.isSome then s
    else
      let t := { t with nwrites := t.nwrites + 1, writes := t.writes ++ [⟨d, es, mask, new.val, new.pois⟩]
                        saved := if t.saved.any (·.1 == d.toNat) then t.saved else t.saved.set d.toNat old }
      { s with strip := some t }
  | none => s

/-- Write elements of a vector register. -/
def Side.wv (s : Side) (d : VR) (es : Nat) (l : List El) : Side :=
  s.wvAll d es (maskOf es l) (l.foldl (fun r x => r.put es x.1 x.2.1 x.2.2) (s.vreg d))

/-- Write bytes of a vector register for an instruction of element size `es`. -/
def Side.wvBytes (s : Side) (d : VR) (es : Nat) (l : List El) : Side :=
  s.wvAll d es (maskOf 1 l) (l.foldl (fun r x => r.put 1 x.1 x.2.1 x.2.2) (s.vreg d))

/-- Write elements of a vector register and complete.
DEDUCED, safe (log 54). -/
def Mach.vdone (m : Mach) (k : Nat) (d : VR) (es : Nat) (l : List El) : Mach := (m.modSide k (·.wv d es l)).vfin k true

/-- Set bits of a predicate. -/
def putBits (b : PBits) (l : List El) : PBits :=
  l.foldl (fun b x => if x.2.1 = 0 then b &&& ~~~(1#1024 <<< x.1) else b ||| (1#1024 <<< x.1)) b

/-- Write bits of a predicate and complete. -/
def Mach.pdone (m : Mach) (k : Nat) (d : PR) (l : List El) : Mach :=
  (m.modSide k fun s => s.setPred d (putBits (s.pred d) l)).vfin k true

/-! ## Strips (R309) -/

/-- The bits of a vector register that a byte mask names. -/
def vbitsOf (m : PBits) : VBits :=
  BitVec.ofNat 8192 ((List.range 1024).foldr (fun i n => 256 * n + (if m.getLsbD i then 255 else 0)) 0)

/-- Replay the writes of a strip below the limit over a saved register. -/
def replay (lim : Nat) (v : VR) (r : VReg) (ws : List StripWrite) : VReg :=
  ws.foldl (fun r w =>
    if w.v ≠ v then r
    else
      let keep := w.mask &&& BitVec.ofNat 1024 (2 ^ (min (lim * w.es) 1024) - 1)
      let b := vbitsOf keep
      { val := (w.val &&& b) ||| (r.val &&& ~~~b), pois := (w.pois &&& keep) ||| (r.pois &&& ~~~keep) }) r

/-- Resolve (R309). -/
def Side.resolve (s : Side) (lim : Nat) : Side :=
  match s.strip with
  | none => s
  | some t =>
    let v := t.saved.foldl (fun (v : Tbl VReg) (i, r) => v.set i (replay lim (BitVec.ofNat 5 i) r t.writes)) s.v
    let held := (s.held.map fun h => { h with els := h.els.filter (·.e < lim) }).filter (!·.els.isEmpty)
    let fl := t.fl.filter (·.2 < lim)
    let add : Fl := fl.foldl (fun f (i, _) => f ||| (1#5 <<< i)) 0
    { s with v := v, held := held, fflags := s.fflags ||| add
             strip := some { lim := some lim, pe := t.pe.bind fun e => if e < lim then some e else none, fl := fl } }

/-! ## Element-wise instructions -/

/-- The value and poison of an element of a source. -/
def elOf (src : List (VR × VReg)) (v : VR) (es e : Nat) : Nat × Bool := let r := srcOf src v; (r.el es e, r.bad es e)

/-- An instruction with vector sources (R174, R302): the type is checked, the strip has room, the sources are read, `f` computes. `d` is its
vector destination. -/
def Mach.vop (m : Mach) (k : Nat) (tyOk : Bool) (d : Option VR) (nbytes : Nat) (vs : List VR) (f : List (VR × VReg) → Mach → Mach → Mach) : Mach :=
  if !tyOk then m.trapHead 0x01
  else if d.isSome && (m.side k).stripFull then m.trapHead 0x14
  else match m.vsrcs k nbytes vs [] with
    | .error m1 => m.keepClose m1 (k / 256)
    | .ok (src, m1) => f src m (m1.modSide k (·.seeGroup nbytes src d))

/-- The sequencer has taken no trap between two machines. -/
def Mach.went (m r : Mach) (q : SeqId) : Bool := (m.seq q).level == (r.seq q).level && (m.seq q).inU == (r.seq q).inU && !r.stall

/-- The side with what its instruction has written poisoned where it is poisoned in `o`. -/
def Side.alsoPois (s o : Side) (dst : Option Reg) : Side :=
  let s := s.poisonLast (match s.vlast.getLast? with | some (d, _) => (o.v.get {} d.toNat).pois | none => 0)
  match dst with
  | some d => { s with p := s.p.setReg d { s.p.reg d with pois := (s.p.reg d).pois || (o.p.reg d).pois } }
  | none => s

/-- An instruction that computes in the lanes: its own traps and effects come first, and then the bytes of its result that depend on a source which
a lane could not read are poisoned (R155). A second computation with those sources poisoned, as in a strip, says which they are. -/
def Mach.lop (m : Mach) (k : Nat) (tyOk : Bool) (d : Option VR) (nbytes : Nat) (vs : List VR) (f : List (VR × VReg) → Mach → Mach → Mach) : Mach :=
  m.vop k tyOk d nbytes vs fun src m0 m1 =>
    let un := m0.unread k
    if un.isEmpty then f src m0 m1
    else
      let told := fun (m : Mach) => (un.foldl (fun m h => m.release k h) m).modCore (k / 2) fun c =>
        { c with holds := c.holds.filter (·.res != .unread) }
      let r := f src (told m0) (told m1)
      if !m0.went r (.side (BitVec.ofNat 10 k) .P) then r
      else
        let b := un.foldl (fun b h => b ||| chunkOf h.lane h.beat (BitVec.allOnes 1024)) 0
        let open_ := fun (m : Mach) => m.modSide k fun s => { s with strip := if s.unresolved then s.strip else some {} }
        let lost := f (src.map fun x => (x.1, { x.2 with pois := x.2.pois ||| b })) (open_ m0) (open_ m1)
        r.modSide k (·.alsoPois (lost.side k) (match m0.dev.vqNow with | some (_, e) => e.dst | none => none))

/-- The element-wise form: each active element computes from its source elements of `t` and writes `vd`. -/
def Mach.elementwise (m : Mach) (k : Nat) (t : ETy) (tyOk : Bool) (d : VR) (pg : PR) (vs : List VR) (op : List Nat → Nat × Fl) : Mach :=
  let es := t.size
  m.lop k tyOk (some d) ((m.side k).vl.toNat * es) vs fun src m0 m1 =>
    let rs := ((m.side k).actives pg).map fun e =>
      let xs := vs.map fun v => elOf src v es e
      let (v, fl) := op (xs.map (·.1))
      (e, { val := v, fl := fl, bad := xs.any (·.2) : ERes })
    m0.settle m1 k rs 0 fun l m => m.vdone k d es l

/-- An element-wise instruction of the FMA pipe from issue on. -/
def Mach.arith (m : Mach) (i : Instr) (ts : Option ETy) (ok : ETy → Bool) (d : VR) (pg : PR) (vs : List VR)
    (op : ETy → BitVec 3 → List Nat → Nat × Fl) : Mach :=
  m.vec i (m.typeCap ts) none [] [] fun k e m => m.leaveT k e ts .fma 0 (some id) fun m =>
    let s := m.side k
    let t := s.ty ts
    m.elementwise k t (ok t) d pg vs (op t s.frm)

end Sys2Proof.Machine
end

