-- ==== Sys2Proof/Machine/VecConfig.lean ====
section
/-! DEFINITION. Vector length and type, speculative strips, predicates and stream bindings (R304 to R315). -/

namespace Sys2Proof.Machine
open Sys2Proof

/-- `setvl` (R304): xd at issue, vl and vtype in queue order. -/
def execSetvl (d : Reg) (a : Src) (t : ETy) (s : State) : Host.Outcome State Fault Refusal :=
  run (fun m =>
    match m.dev.vqNow with
    | some (k, e) => m.leave k.toNat e .none 0 none fun m =>
        (m.modSide k.toNat fun s => { s with vtype := (s.vtype &&& 0xf0) ||| t.toBits.setWidth 8 }.putVl (e.op 0).1).vfin k.toNat false
    | none => m.roleOnly .P fun m => m.issue true (m.typeCap (some t)) (some d) [a] [] fun m =>
        if m.stripOpen then m.trapHead 0x14
        else
          let v := w64 (min (m.val a).toNat (vlmax t))
          m.enqueue (.setvl d a t) [(v, false)] none fun m => m.wx d v) s

/-- `vsetvt` (R305, R300): a reserved code fails at issue (step 5 of R250), and so does a feature that is not granted (step 7).
DEDUCED, safe (log 32). -/
def execVsetvt (v : BitVec 8) (s : State) : Host.Outcome State Fault Refusal :=
  run (fun m =>
    match m.dev.vqNow with
    | some (k, e) => m.leave k.toNat e .none 0 none fun m =>
        (m.modSide k.toNat (·.putVtype v)).vfin k.toNat false
    | none =>
      let sl := (v.extractLsb' 4 3).toNat
      let cap := (v.extractLsb' 0 4 != 14 || m.hasCap 0x12) && (sl < 2 || sl ≤ m.capParam 0x11 % 16)
      m.roleOnly .P fun m => if v.extractLsb' 0 4 == 15 || sl == 1 then m.trapHead 0x01 else m.issue true cap none [] [] fun m =>
        if m.stripOpen then m.trapHead 0x14 else m.enqueue (.vsetvt v) [] none id) s

/-- `vspec` (R306): one strip at a time; it waits for the previous strip's `vcommit`. -/
def execVspec (s : State) : Host.Outcome State Fault Refusal :=
  run (fun m =>
    match m.dev.vqNow with
    | some (k, e) => m.leave k.toNat e .none 0 none fun m => (m.modSide k.toNat fun s => { s with strip := some {} }).vpop k.toNat
    | none => m.roleOnly .P fun m => m.issue true true none [] [] fun m =>
        let x := m.mySide
        if x.open_ then m.trapHead 0x14
        else if x.strip.isSome || x.vq.any (·.ins == .vcommit) then m.stay
        else m.enqueue .vspec [] none fun m => m.modMySide fun s => { s with open_ := true }) s

/-- The first element of a held store that meets a precise fault as it enters the store path (R310, R53, R54). -/
def Mach.heldFault (m : Mach) (a : Acc) (h : HeldStore) : Option (BitVec 8 × BitVec 4 × HeldEl) × Mach :=
  let (ps, m) := m.pages a h.els []
  match h.els.findSome? fun e => match pageFor ps (a.addr e.va) with
    | some (.bad c r) => some (c, r, e)
    | _ => none with
  | some f => (some f, m)
  | none =>
    if (m.att a.grp).length + (ps.filter fun p => p.st == .miss).length ≤ 64 then (none, m)
    else match m.ownProbes a h.els ps with
      | .error f => (some f, m)
      | .ok (_, m) => (none, m)

/-- The fault of a vector store or load of a level (R338, R212): tval holds the element index over the address, the record holds both. -/
def Mach.elFault (m : Mach) (lvl : Level) (pc : Word) (c : BitVec 8) (r : BitVec 4) (el : Nat) (va : Word) : Mach :=
  m.trap { cause := c, reason := r, tval := w64 (va.toNat % 2 ^ 52 + el % 1024 * 2 ^ 52)
           record := some (attRecord pc va 0 el el 0 lvl.code r 0 c) }
/-- A precise fault of an entry that has reached the lanes. -/
def Mach.vfault (m : Mach) (e : VqEntry) (pc : Word) (c : BitVec 8) (r : BitVec 4) (el : Nat) (va : Word) : Mach :=
  (m.lanes m.myNo).elFault e.lvl pc c r el va

/-- The access of a side's vector memory instruction, held store or add at a level. -/
def Mach.lvlAcc (m : Mach) (k : Nat) (l : Level) : Acc :=
  { pid := (m.side k).pid, asn := (m.side k).asn, lvl := l, core := k / 2, grp := k }
/-- The access of a queue entry. -/
def Mach.vacc (m : Mach) (k : Nat) (e : VqEntry) : Acc := m.lvlAcc k e.lvl

/-- The progress word of a `vst.nf` (R343): it needs write right, confirmed as for an atomic, and lies in DRAM. -/
def Mach.nfWord (m : Mach) (a : Acc) (va : Word) : Chk × Mach :=
  match m.checkWrite a va with
  | (.ok r, m) => (if r.rd && (a.pid.isNone || r.home != 3 || (m.walk a.die a.tagPid (asnTag a.asn (va57 va)) (va57 va)).toOption.any (·.mpa < 2 ^ 39))
      then .ok r else .fault 0x08 0, m)
  | x => x

/-- The add of a `vst.nf` begins to wait for the stores it covers (R343). -/
def Mach.addLater (m : Mach) (k : Nat) (va : Word) (n : Nat) (lvl : Level) : Mach :=
  m.modSide k fun s => { s with adds := s.adds ++ [⟨va, n, lvl, s.serial⟩] }

/-- Hand the held stores to the store path in program order (R202, R310), each at its own level: those handed over stand, and a fault leaves
the rest held. -/
def Mach.handOver (m : Mach) (k : Nat) : List HeldStore → Mach
  | [] => (m.modSide k fun s => { s with strip := none }).vpop k
  | h :: r =>
    let a := m.lvlAcc k h.lvl
    let (f, m) := m.heldFault a h
    match f with
    | some (c, x, el) => m.elFault h.lvl h.pc c x el.e el.va
    | none =>
      match (match h.nf with | some va => m.nfWord a va | none => (.ok (monRights 0), m)) with
      | (.fault c x, m) => m.elFault h.lvl h.pc c x 0 (h.nf.getD 0)
      | (_, m) => (m.modSide k fun s => { s with held := s.held.tail, leaving := s.leaving ++ [h] }).handOver k r

/-- `vcommit` (R306, R310). -/
def execVcommit (s : State) : Host.Outcome State Fault Refusal :=
  run (fun m =>
    match m.dev.vqNow with
    | some (k, e) => m.leave k.toNat e .none 0 none fun m =>
        let k := k.toNat
        let m := if (m.side k).unresolved then
            m.modSide k fun s => let vl := s.vl.toNat; { s with exi := s.vl }.resolve vl
          else m
        let s := m.side k
        match s.strip with
        | none => m.vpop k
        | some t =>
          match t.pe with
          | some x => m.trapV 0x0c (w64 (0x1000 + x % 1024))
          | none =>
            let hit := t.fl.filter fun (i, _) => s.fenable.getLsbD i
            match hit with
            | [] => m.handOver k s.held
            | (_, x) :: r =>
              let fl : Fl := hit.foldl (fun f (i, _) => f ||| (1#5 <<< i)) 0
              m.trapV 0x0e (w64 (fl.toNat + (r.foldl (fun n y => min n y.2) x) % 1024 * 2 ^ 16))
    | none => m.roleOnly .P fun m => m.issue true true none [] [] fun m =>
        if !m.mySide.open_ then m.trapHead 0x14
        else m.enqueue .vcommit [] none fun m => m.modMySide fun s => { s with open_ := false }) s

/-- `vbrk` (R308): the exit index, the break predicate over the whole register, and the resolution of the strip. -/
def execVbrk (d a : PR) (pg : PR) (excl : Bool) (s : State) : Host.Outcome State Fault Refusal :=
  run (fun m => m.vec (.vbrk d a pg excl) true none [] [] fun k e m =>
    m.leave k e .perm 0 (some fun m => m.modSide k fun s => { s with exi := 0 }) fun m =>
      let x := m.side k
      if x.strip.isSome && !x.unresolved then m.trapHead 0x14
      else
        let vl := x.vl.toNat
        let i := ((x.actives pg).find? fun e => (x.pred a).getLsbD e).getD vl
        let lim := if excl then i else min (i + 1) vl
        (m.modSide k fun s =>
          { s.setPred d (BitVec.ofNat 1024 (2 ^ lim - 1)) with exi := BitVec.ofNat 11 i }.resolve lim).vfin k true) s

/-! ## Predicates (R313, R314) -/

/-- A predicate instruction from issue on: each active element's bit is `f e`. -/
def Mach.predOp (m : Mach) (i : Instr) (d pg : PR) (f : Side → Nat → Bool) : Mach :=
  m.vec i true none [] [] fun k e m => m.leave k e .perm 0 (some id) fun m =>
    let s := m.side k
    m.pdone k d ((s.actives pg).map fun e => (e, nb (f s e), false))

/-- `pset` (R313). -/
def execPset (d : PR) (pg : PR) (v : Bool) (s : State) : Host.Outcome State Fault Refusal :=
  run (fun m => m.predOp (.pset d pg v) d pg fun _ _ => v) s

/-- The operations of `plog` (R313). -/
def plogBit (op : PlogOp) (a b : Bool) : Bool :=
  match op with
  | .and => a && b
  | .or => a || b
  | .xor => a != b
  | .andn => a && !b
  | .orn => a || !b
  | .nand => !(a && b)
  | .nor => !(a || b)
  | .xnor => a == b

/-- `plog` (R313). -/
def execPlog (d a b : PR) (pg : PR) (op : PlogOp) (s : State) : Host.Outcome State Fault Refusal :=
  run (fun m => m.predOp (.plog d a b pg op) d pg fun s e => plogBit op ((s.pred a).getLsbD e) ((s.pred b).getLsbD e)) s

/-- `pnot` (R313). -/
def execPnot (d a : PR) (pg : PR) (s : State) : Host.Outcome State Fault Refusal :=
  run (fun m => m.predOp (.pnot d a pg) d pg fun s e => !(s.pred a).getLsbD e) s

/-- `pmv` (R313). -/
def execPmv (d a : PR) (pg : PR) (s : State) : Host.Outcome State Fault Refusal :=
  run (fun m => m.predOp (.pmv d a pg) d pg fun s e => (s.pred a).getLsbD e) s

/-- An instruction that fills a scalar destination as it completes in the queue (R144, R314). -/
def Mach.scalarOut (m : Mach) (i : Instr) (d : Reg) (pg : PR) (f : Side → List Nat → Nat) : Mach :=
  m.vec i true (some d) [] [] fun k e m =>
    let q : SeqId := .side (BitVec.ofNat 10 k) .P
    m.leave k e .perm 0 (some fun m => m.fill q d 0 false) fun m =>
      let s := m.side k
      (m.fill q d (w64 (f s (s.actives pg))) false).vfin k true

/-- `pfirst` (R314). -/
def execPfirst (d : Reg) (a : PR) (pg : PR) (s : State) : Host.Outcome State Fault Refusal :=
  run (fun m => m.scalarOut (.pfirst d a pg) d pg fun s l => (l.find? fun e => (s.pred a).getLsbD e).getD s.vl.toNat) s

/-- `pcnt` (R314). -/
def execPcnt (d : Reg) (a : PR) (pg : PR) (s : State) : Host.Outcome State Fault Refusal :=
  run (fun m => m.scalarOut (.pcnt d a pg) d pg fun s l => (l.filter fun e => (s.pred a).getLsbD e).length) s

/-- `vbind` (R315): the side must own SX; earlier bindings of the register and of the port end. -/
def execVbind (d : VR) (sp : BitVec 3) (s : State) : Host.Outcome State Fault Refusal :=
  run (fun m => m.vec (.vbind d sp) true none [] [] fun k e m => m.leave k e .ld 0 none fun m =>
    if !m.owns k 7 then m.trapV 0x05 7
    else (m.modSide k fun s => { s with bind := (s.bind.filter fun b => b.1 != d && b.2 != sp) ++ [(d, sp)] }).vpop k) s

end Sys2Proof.Machine
end

