-- ==== Sys2Proof/Machine/VecArith.lean ====
section
/-! DEFINITION. Vector arithmetic, comparison, conversion, permutation and reduction (R316 to R327). -/

namespace Sys2Proof.Machine
open Sys2Proof

/-- Types I and F of R301. -/
def tyIF (t : ETy) : Bool := t.isInt || t.isF
/-- The first, second and third source element. -/
def el1 (l : List Nat) : Nat := (l[0]?).getD 0
/-- The second source element. -/
def el2 (l : List Nat) : Nat := (l[1]?).getD 0
/-- The third source element. -/
def el3 (l : List Nat) : Nat := (l[2]?).getD 0

/-! ## Results of one element (R317, R318) -/

/-- An integer result that wraps, with no flag. -/
def iw (t : ETy) (i : Int) : Nat × Fl := (wrapI (tbits t) i, 0)
/-- Addition. -/
def vAdd (t : ETy) (m : Rm) (a b : Nat) : Nat × Fl := if t.isInt then iw t ((a + b : Nat) : Int) else fAdd t m a b
/-- Subtraction. -/
def vSub (t : ETy) (m : Rm) (a b : Nat) : Nat × Fl := if t.isInt then iw t ((a : Int) - b) else fSub t m a b
/-- Multiplication. -/
def vMul (t : ETy) (m : Rm) (a b : Nat) : Nat × Fl := if t.isInt then iw t ((a * b : Nat) : Int) else fMul t m a b
/-- The high half of the exact product. -/
def vMulh (t : ETy) (a b : Nat) : Nat × Fl := iw t (intVal t a * intVal t b / (2 ^ tbits t : Nat))
/-- The lesser or the greater. -/
def vMinMax (t : ETy) (mx : Bool) (a b : Nat) : Nat × Fl :=
  if t.isInt then (if (intVal t a < intVal t b) != mx then a else b, 0) else fMinMax t mx a b
/-- The low log2(w) bits of a shift count. -/
def vShamt (t : ETy) (b : Nat) : Nat := b % tbits t
/-- The absolute value. -/
def vAbs (t : ETy) (a : Nat) : Nat × Fl :=
  if t.isInt then (if t.isSigned then iw t (intVal t a).natAbs else (a, 0)) else (a % 2 ^ (tbits t - 1), 0)
/-- The negative. -/
def vNeg (t : ETy) (a : Nat) : Nat × Fl := if t.isInt then iw t (-(a : Int)) else (a ^^^ 2 ^ (tbits t - 1), 0)
/-- A saturated integer result. -/
def vSat (t : ETy) (i : Int) : Nat × Fl := iw t (clampI t i)

/-! ## Element-wise instructions (R316) -/

/-- `vadd` (R316). -/
def execVadd (d a b : VR) (pg : PR) (ts : Option ETy) (rm : Rm) (s : State) : Host.Outcome State Fault Refusal :=
  run (fun m => m.arith (.vadd d a b pg ts rm) ts tyIF d pg [a, b] fun t frm l => vAdd t (rmOf rm frm) (el1 l) (el2 l)) s

/-- `vsub` (R316). -/
def execVsub (d a b : VR) (pg : PR) (ts : Option ETy) (rm : Rm) (s : State) : Host.Outcome State Fault Refusal :=
  run (fun m => m.arith (.vsub d a b pg ts rm) ts tyIF d pg [a, b] fun t frm l => vSub t (rmOf rm frm) (el1 l) (el2 l)) s

/-- `vmul` (R316). -/
def execVmul (d a b : VR) (pg : PR) (ts : Option ETy) (rm : Rm) (s : State) : Host.Outcome State Fault Refusal :=
  run (fun m => m.arith (.vmul d a b pg ts rm) ts tyIF d pg [a, b] fun t frm l => vMul t (rmOf rm frm) (el1 l) (el2 l)) s

/-- `vmulh` (R318). -/
def execVmulh (d a b : VR) (pg : PR) (ts : Option ETy) (s : State) : Host.Outcome State Fault Refusal :=
  run (fun m => m.arith (.vmulh d a b pg ts) ts ETy.isInt d pg [a, b] fun t _ l => vMulh t (el1 l) (el2 l)) s

/-- `vdiv` (R318). -/
def execVdiv (d a b : VR) (pg : PR) (ts : Option ETy) (s : State) : Host.Outcome State Fault Refusal :=
  run (fun m => m.arith (.vdiv d a b pg ts) ts ETy.isInt d pg [a, b] fun t _ l => ((divRem t.isSigned (tbits t) (el1 l) (el2 l)).1, 0)) s

/-- `vrem` (R318). -/
def execVrem (d a b : VR) (pg : PR) (ts : Option ETy) (s : State) : Host.Outcome State Fault Refusal :=
  run (fun m => m.arith (.vrem d a b pg ts) ts ETy.isInt d pg [a, b] fun t _ l => ((divRem t.isSigned (tbits t) (el1 l) (el2 l)).2, 0)) s

/-- `vmin` (R317, R318). -/
def execVmin (d a b : VR) (pg : PR) (ts : Option ETy) (s : State) : Host.Outcome State Fault Refusal :=
  run (fun m => m.arith (.vmin d a b pg ts) ts tyIF d pg [a, b] fun t _ l => vMinMax t false (el1 l) (el2 l)) s

/-- `vmax` (R317, R318). -/
def execVmax (d a b : VR) (pg : PR) (ts : Option ETy) (s : State) : Host.Outcome State Fault Refusal :=
  run (fun m => m.arith (.vmax d a b pg ts) ts tyIF d pg [a, b] fun t _ l => vMinMax t true (el1 l) (el2 l)) s

/-- `vand` (R316). -/
def execVand (d a b : VR) (pg : PR) (ts : Option ETy) (s : State) : Host.Outcome State Fault Refusal :=
  run (fun m => m.arith (.vand d a b pg ts) ts ETy.isInt d pg [a, b] fun _ _ l => (el1 l &&& el2 l, 0)) s

/-- `vor` (R316). -/
def execVor (d a b : VR) (pg : PR) (ts : Option ETy) (s : State) : Host.Outcome State Fault Refusal :=
  run (fun m => m.arith (.vor d a b pg ts) ts ETy.isInt d pg [a, b] fun _ _ l => (el1 l ||| el2 l, 0)) s

/-- `vxor` (R316). -/
def execVxor (d a b : VR) (pg : PR) (ts : Option ETy) (s : State) : Host.Outcome State Fault Refusal :=
  run (fun m => m.arith (.vxor d a b pg ts) ts ETy.isInt d pg [a, b] fun _ _ l => (el1 l ^^^ el2 l, 0)) s

/-- `vsll` (R318). -/
def execVsll (d a b : VR) (pg : PR) (ts : Option ETy) (s : State) : Host.Outcome State Fault Refusal :=
  run (fun m => m.arith (.vsll d a b pg ts) ts ETy.isInt d pg [a, b] fun t _ l => iw t ((el1 l * 2 ^ vShamt t (el2 l) : Nat) : Int)) s

/-- `vsrl` (R318). -/
def execVsrl (d a b : VR) (pg : PR) (ts : Option ETy) (s : State) : Host.Outcome State Fault Refusal :=
  run (fun m => m.arith (.vsrl d a b pg ts) ts ETy.isInt d pg [a, b] fun t _ l => (el1 l / 2 ^ vShamt t (el2 l), 0)) s

/-- `vsra` (R318). -/
def execVsra (d a b : VR) (pg : PR) (ts : Option ETy) (s : State) : Host.Outcome State Fault Refusal :=
  run (fun m => m.arith (.vsra d a b pg ts) ts ETy.isInt d pg [a, b] fun t _ l => iw t (sgn (tbits t) (el1 l) / (2 ^ vShamt t (el2 l) : Nat))) s

/-- `vabs` (R317, R318). -/
def execVabs (d a : VR) (pg : PR) (ts : Option ETy) (s : State) : Host.Outcome State Fault Refusal :=
  run (fun m => m.arith (.vabs d a pg ts) ts tyIF d pg [a] fun t _ l => vAbs t (el1 l)) s

/-- `vneg` (R317, R318). -/
def execVneg (d a : VR) (pg : PR) (ts : Option ETy) (s : State) : Host.Outcome State Fault Refusal :=
  run (fun m => m.arith (.vneg d a pg ts) ts tyIF d pg [a] fun t _ l => vNeg t (el1 l)) s

/-- `vfma` (R316). -/
def execVfma (d a b c : VR) (pg : PR) (ts : Option ETy) (rm : Rm) (s : State) : Host.Outcome State Fault Refusal :=
  run (fun m => m.arith (.vfma d a b c pg ts rm) ts ETy.isF d pg [a, b, c] fun t frm l => fFma t (rmOf rm frm) false false (el1 l) (el2 l) (el3 l)) s

/-- `vfms` (R316). -/
def execVfms (d a b c : VR) (pg : PR) (ts : Option ETy) (rm : Rm) (s : State) : Host.Outcome State Fault Refusal :=
  run (fun m => m.arith (.vfms d a b c pg ts rm) ts ETy.isF d pg [a, b, c] fun t frm l => fFma t (rmOf rm frm) false true (el1 l) (el2 l) (el3 l)) s

/-- `vfnma` (R316). -/
def execVfnma (d a b c : VR) (pg : PR) (ts : Option ETy) (rm : Rm) (s : State) : Host.Outcome State Fault Refusal :=
  run (fun m => m.arith (.vfnma d a b c pg ts rm) ts ETy.isF d pg [a, b, c] fun t frm l => fFma t (rmOf rm frm) true false (el1 l) (el2 l) (el3 l)) s

/-- `vfdiv` (R316). -/
def execVfdiv (d a b : VR) (pg : PR) (ts : Option ETy) (rm : Rm) (s : State) : Host.Outcome State Fault Refusal :=
  run (fun m => m.arith (.vfdiv d a b pg ts rm) ts ETy.isF d pg [a, b] fun t frm l => fDiv t (rmOf rm frm) (el1 l) (el2 l)) s

/-- `vfsqrt` (R316). -/
def execVfsqrt (d a : VR) (pg : PR) (ts : Option ETy) (rm : Rm) (s : State) : Host.Outcome State Fault Refusal :=
  run (fun m => m.arith (.vfsqrt d a pg ts rm) ts ETy.isF d pg [a] fun t frm l => fSqrt t (rmOf rm frm) (el1 l)) s

/-- `vclass` (R323). -/
def execVclass (d a : VR) (pg : PR) (ts : Option ETy) (s : State) : Host.Outcome State Fault Refusal :=
  run (fun m => m.arith (.vclass d a pg ts) ts ETy.isF d pg [a] fun t _ l => (fClass t (el1 l), 0)) s

/-- `vrecpe` (R323). -/
def execVrecpe (d a : VR) (pg : PR) (ts : Option ETy) (s : State) : Host.Outcome State Fault Refusal :=
  run (fun m => m.arith (.vrecpe d a pg ts) ts ETy.isF d pg [a] fun t _ l => recipEst t (el1 l)) s

/-- `vsadd` (R316). -/
def execVsadd (d a b : VR) (pg : PR) (ts : Option ETy) (s : State) : Host.Outcome State Fault Refusal :=
  run (fun m => m.arith (.vsadd d a b pg ts) ts ETy.isInt d pg [a, b] fun t _ l => vSat t (intVal t (el1 l) + intVal t (el2 l))) s

/-- `vssub` (R316). -/
def execVssub (d a b : VR) (pg : PR) (ts : Option ETy) (s : State) : Host.Outcome State Fault Refusal :=
  run (fun m => m.arith (.vssub d a b pg ts) ts ETy.isInt d pg [a, b] fun t _ l => vSat t (intVal t (el1 l) - intVal t (el2 l))) s

/-! ## Comparison, moves, conversion, dot product (R319 to R322) -/

/-- A relation of `vcmp` and its flags (R319). -/
def vCmp (t : ETy) (c : VcmpOp) (a b : Nat) : Bool × Fl :=
  if t.isInt then
    let x := intVal t a
    let y := intVal t b
    (match c with
      | .eq => x == y
      | .ne => x != y
      | .lt => x < y
      | .le => x ≤ y
      | .gt => y < x
      | .ge => y ≤ x
      | .un => false, 0)
  else match c with
    | .eq => fCmp t .eq a b
    | .ne => let (r, f) := fCmp t .eq a b; (!r, f)
    | .lt => fCmp t .lt a b
    | .le => fCmp t .le a b
    | .gt => fCmp t .lt b a
    | .ge => fCmp t .le b a
    | .un => fCmp t .un a b

/-- `vcmp` (R319): `un` on an integer type is illegal; a poisoned element of a strip gives 1 (R307). -/
def execVcmp (d : PR) (a b : VR) (pg : PR) (ts : Option ETy) (c : VcmpOp) (s : State) : Host.Outcome State Fault Refusal :=
  run (fun m => m.vec (.vcmp d a b pg ts c) (m.typeCap ts) none [] [] fun k e m => m.leaveT k e ts .fma 0 (some id) fun m =>
    let t := (m.side k).ty ts
    m.lop k (tyIF t && !(c == .un && t.isInt)) none ((m.side k).vl.toNat * t.size) [a, b] fun src m0 m1 =>
      let rs := ((m.side k).actives pg).map fun e =>
        let (x, p) := elOf src a t.size e
        let (y, q) := elOf src b t.size e
        let (r, f) := vCmp t c x y
        (e, { val := nb r, fl := f, bad := p || q : ERes })
      m0.settle m1 k rs 1 fun l m => m.pdone k d l) s

/-- A move from issue on: each active element's value and poison are `f e`; nothing is consumed (R320). -/
def Mach.moveOp (m : Mach) (i : Instr) (ts : Option ETy) (p : Pipe) (ss carry : List Src) (d : VR) (pg : PR) (vs : List VR)
    (f : VqEntry → Side → List (VR × VReg) → Nat → Nat → Nat × Bool) : Mach :=
  m.vec i (m.typeCap ts) none ss carry fun k e m => m.leaveT k e ts p 0 (some id) fun m =>
    let s := m.side k
    let t := s.ty ts
    m.lop k true (some d) (s.vl.toNat * t.size) vs fun src m0 m1 =>
      let rs := (s.actives pg).map fun x => let (v, p) := f e s src t.size x; (x, { val := v, pois := p : ERes })
      m0.settle m1 k rs 0 fun l m => m.vdone k d t.size l

/-- `vsel` (R320). -/
def execVsel (d a b : VR) (c : PR) (pg : PR) (ts : Option ETy) (s : State) : Host.Outcome State Fault Refusal :=
  run (fun m => m.moveOp (.vsel d a b c pg ts) ts .fma [] [] d pg [a, b] fun _ s src es e =>
    elOf src (if (s.pred c).getLsbD e then a else b) es e) s

/-- `vmv` (R320). -/
def execVmv (d a : VR) (pg : PR) (ts : Option ETy) (s : State) : Host.Outcome State Fault Refusal :=
  run (fun m => m.moveOp (.vmv d a pg ts) ts .fma [] [] d pg [a] fun _ _ src es e => elOf src a es e) s

/-- `vcvt` (R321): source and destination each at their own element size. -/
def execVcvt (d a : VR) (pg : PR) (ts : Option ETy) (st : ETy) (rm : Rm) (s : State) : Host.Outcome State Fault Refusal :=
  run (fun m => m.vec (.vcvt d a pg ts st rm) (m.typeCap ts && m.typeCap (some st)) none [] [] fun k e m => m.leave k e .fma 0 (some id) fun m =>
    let s := m.side k
    let t := s.ty ts
    let vl := s.vl.toNat
    m.lop k (vl ≤ vlmax t && vl ≤ vlmax st) (some d) (vl * st.size) [a] fun src m0 m1 =>
      let rs := (s.actives pg).map fun e =>
        let (x, p) := elOf src a st.size e
        let (v, f) := convert t st (rmOf rm s.frm) x
        (e, { val := v, fl := f, bad := p : ERes })
      m0.settle m1 k rs 0 fun l m => m.vdone k d t.size l) s

/-- The pairs of `vdot` (R322). -/
def vdotOk (t s : ETy) : Bool :=
  match t with
  | .f32 => s == .f32 || s == .f16 || s == .bf16 || s == .e4m3 || s == .e5m2
  | .f64 => s == .f64 || s == .f32
  | .i32 => s == .i32 || s == .i16 || s == .i8
  | .n32 => s == .n32 || s == .n16 || s == .n8
  | .i64 => s == .i64 || s == .i32 || s == .i16
  | .n64 => s == .n64 || s == .n32 || s == .n16
  | _ => false

/-- The sum of `vdot` for one element: the value added to and the pairs (R322). -/
def vDot (t st : ETy) (m : Rm) (x : Nat) (ps : List (Nat × Nat)) : Nat × Fl :=
  if t.isInt then iw t (ps.foldl (fun i p => i + intVal st p.1 * intVal st p.2) (intVal t x))
  else
    let pr := ps.map fun p => mulN (floatVal st p.1) (floatVal st p.2)
    let f := pr.foldl (fun f p => f ||| p.2) 0
    let (y, g) := sumN m (floatVal t x :: pr.map (·.1))
    rounded t m (y, f ||| g)

/-- `vdot` (R322): a length above VLMAX of the source type is no error, since the sources hold k elements for each of `t`.
DEDUCED, unsafe (log 55). -/
def execVdot (d a b c : VR) (pg : PR) (ts : Option ETy) (st : ETy) (rm : Rm) (s : State) : Host.Outcome State Fault Refusal :=
  run (fun m => m.vec (.vdot d a b c pg ts st rm) (m.typeCap ts && m.typeCap (some st)) none [] [] fun k e m => m.leave k e .fma 0 (some id) fun m =>
    let s := m.side k
    let t := s.ty ts
    m.lop k (vdotOk t st && s.vl.toNat ≤ vlmax t) (some d) (s.vl.toNat * t.size) [a, b, c] fun src m0 m1 =>
      let n := t.size / st.size
      let rs := (s.actives pg).map fun e =>
        let (x, p) := elOf src a t.size e
        let bs := (List.range n).map fun i => elOf src b st.size (n * e + i)
        let cs := (List.range n).map fun i => elOf src c st.size (n * e + i)
        let (v, f) := vDot t st (rmOf rm s.frm) x ((bs.map (·.1)).zip (cs.map (·.1)))
        (e, { val := v, fl := f, bad := p || bs.any (·.2) || cs.any (·.2) : ERes })
      m0.settle m1 k rs 0 fun l m => m.vdone k d t.size l) s

/-! ## Permutation (R324 to R326) -/

/-- `vperm` (R324): the index is consumed, the data only moves. -/
def execVperm (d a b : VR) (pg : PR) (ts : Option ETy) (s : State) : Host.Outcome State Fault Refusal :=
  run (fun m => m.vec (.vperm d a b pg ts) (m.typeCap ts) none [] [] fun k e m => m.leaveT k e ts .perm 0 (some id) fun m =>
    let s := m.side k
    let t := s.ty ts
    m.lop k true (some d) (s.vl.toNat * t.size) [a, b] fun src m0 m1 =>
      let rs := (s.actives pg).map fun e =>
        let (i, q) := elOf src b t.size e
        let (v, p) := if i < s.vl.toNat then elOf src a t.size i else (0, false)
        (e, { val := v, bad := q, pois := p : ERes })
      m0.settle m1 k rs 0 fun l m => m.vdone k d t.size l) s

/-- `vslide` (R324). -/
def execVslide (d a : VR) (x : Src) (pg : PR) (ts : Option ETy) (up : Bool) (s : State) : Host.Outcome State Fault Refusal :=
  run (fun m => m.moveOp (.vslide d a x pg ts up) ts .perm [x] [] d pg [a] fun q s src es e =>
    let n := (q.op 0).1.toNat
    if up then (if n ≤ e then elOf src a es (e - n) else (0, false))
    else if e + n < s.vl.toNat then elOf src a es (e + n) else (0, false)) s

/-- `vcompress` (R325): the active elements in order, and zeros up to vl. -/
def execVcompress (d a : VR) (pg : PR) (ts : Option ETy) (s : State) : Host.Outcome State Fault Refusal :=
  run (fun m => m.vec (.vcompress d a pg ts) (m.typeCap ts) none [] [] fun k e m => m.leaveT k e ts .perm 0 (some id) fun m =>
    let s := m.side k
    let t := s.ty ts
    m.lop k true (some d) (s.vl.toNat * t.size) [a] fun src _ m1 =>
      let got := (s.actives pg).map (elOf src a t.size)
      let all := got ++ List.replicate (s.vl.toNat - got.length) ((0 : Nat), false)
      m1.vdone k d t.size (all.zipIdx.map fun (x, i) => (i, x.1, x.2))) s

/-- `vexpand` (R325). -/
def execVexpand (d a : VR) (pg : PR) (ts : Option ETy) (s : State) : Host.Outcome State Fault Refusal :=
  run (fun m => m.vec (.vexpand d a pg ts) (m.typeCap ts) none [] [] fun k e m => m.leaveT k e ts .perm 0 (some id) fun m =>
    let s := m.side k
    let t := s.ty ts
    m.lop k true (some d) (s.vl.toNat * t.size) [a] fun src _ m1 =>
      m1.vdone k d t.size ((s.actives pg).zipIdx.map fun (e, j) => let x := elOf src a t.size j; (e, x.1, x.2))) s

/-- `vsplat` (R324): the scalar's poison goes to every byte. -/
def execVsplat (d : VR) (x : Src) (pg : PR) (ts : Option ETy) (s : State) : Host.Outcome State Fault Refusal :=
  run (fun m => m.moveOp (.vsplat d x pg ts) ts .perm [] [x] d pg [] fun q _ _ es _ => ((q.op 0).1.toNat % 256 ^ es, (q.op 0).2)) s

/-- `vins` (R326): one element, whatever the predicates; the index is consumed, the data only carried. -/
def execVins (d : VR) (x i : Src) (ts : Option ETy) (s : State) : Host.Outcome State Fault Refusal :=
  run (fun m => m.vec (.vins d x i ts) (m.typeCap ts) none [i] [x] fun k e m => m.leaveT k e ts .perm 0 (some id) fun m =>
    let s := m.side k
    let t := s.ty ts
    let b := (e.op 0).1.toNat
    let (v, p) := e.op 1
    m.lop k true (some d) 0 [] fun _ _ m1 =>
      m1.vdone k d t.size (if b < s.vl.toNat then [(b, v.toNat % 256 ^ t.size, p)] else [])) s

/-- `vext` (R326): an element to a scalar register, extended, with its poison. -/
def execVext (d : Reg) (a : VR) (i : Src) (ts : Option ETy) (s : State) : Host.Outcome State Fault Refusal :=
  run (fun m => m.vec (.vext d a i ts) (m.typeCap ts) (some d) [i] [] fun k e m =>
    let q : SeqId := .side (BitVec.ofNat 10 k) .P
    m.leaveT k e ts .perm 0 (some fun m => m.fill q d 0 false) fun m =>
      let s := m.side k
      let t := s.ty ts
      let b := (e.op 0).1.toNat
      m.lop k true none (s.vl.toNat * t.size) [a] fun src _ m1 =>
        let (v, p) := if b < s.vl.toNat then elOf src a t.size b else (0, false)
        (m1.fill q d (if t.isSigned then BitVec.ofInt 64 (sgn (tbits t) v) else w64 v) p).vfin k true) s

/-- `vrank` (R325). -/
def execVrank (d : VR) (a : PR) (x : Src) (pg : PR) (ts : Option ETy) (s : State) : Host.Outcome State Fault Refusal :=
  run (fun m => m.vec (.vrank d a x pg ts) (m.typeCap ts) none [x] [] fun k e m => m.leaveT k e ts .perm 0 (some id) fun m =>
    let s := m.side k
    let t := s.ty ts
    m.lop k t.isInt (some d) 0 [] fun _ _ m1 =>
      let step := fun (acc : List El × Nat) (e : Nat) =>
        (acc.1 ++ [(e, acc.2 % 256 ^ t.size, false)], acc.2 + nb ((s.pred a).getLsbD e))
      m1.vdone k d t.size ((s.actives pg).foldl step ([], (e.op 0).1.toNat)).1) s

/-! ## Reductions and scans (R327) -/

/-- The types that an operation accepts. -/
def redOk (op : RedOp) (t : ETy) : Bool :=
  match op with
  | .add | .min | .max => tyIF t
  | _ => t.isInt

/-- One step. -/
def redStep (op : RedOp) (t : ETy) (m : Rm) (a b : Nat) : Nat × Fl :=
  match op with
  | .add => vAdd t m a b
  | .min => vMinMax t false a b
  | .max => vMinMax t true a b
  | .and => (a &&& b, 0)
  | .or => (a ||| b, 0)
  | .xor => (a ^^^ b, 0)

/-- The identity. -/
def redId (op : RedOp) (t : ETy) : Nat :=
  match op with
  | .add => if t.isInt then 0 else 2 ^ (tbits t - 1)
  | .min => if t.isInt then wrapI (tbits t) (intMax t) else (roundF t .rne (.inf false)).1
  | .max => if t.isInt then wrapI (tbits t) (intMin t) else (roundF t .rne (.inf true)).1
  | .and => 2 ^ tbits t - 1
  | _ => 0

/-- `vred` (R327): vb[0] is consumed as element 0; in a strip poison spoils the result (R307).
DEDUCED, unsafe (log 33). -/
def execVred (d a b : VR) (pg : PR) (ts : Option ETy) (op : RedOp) (rm : Rm) (s : State) : Host.Outcome State Fault Refusal :=
  run (fun m => m.vec (.vred d a b pg ts op rm) (m.typeCap ts) none [] [] fun k e m => m.leaveT k e ts .perm 0 (some id) fun m =>
    let s := m.side k
    let t := s.ty ts
    m.lop k (redOk op t) (some d) (s.vl.toNat * t.size) [a, b] fun src m0 m1 =>
      let (b0, q0) := elOf src b t.size 0
      let step := fun (acc : List (Nat × ERes) × Nat) (e : Nat) =>
        let (x, p) := elOf src a t.size e
        let (v, f) := redStep op t (rmOf rm s.frm) acc.2 x
        (acc.1 ++ [(e, { val := 0, fl := f, bad := p : ERes })], v)
      let (rs, v) := (s.actives pg).foldl step ([(0, { val := 0, bad := q0 : ERes })], b0)
      let spoilt := rs.any (·.2.bad)
      m0.settle m1 k rs 0 fun _ m => m.vdone k d t.size [(0, if spoilt then 0 else v, spoilt)]) s

/-- `vscan` (R327): in a strip every later element that includes a poisoned one is spoilt (R307). -/
def execVscan (d a : VR) (pg : PR) (ts : Option ETy) (op : RedOp) (excl : Bool) (rm : Rm) (s : State) : Host.Outcome State Fault Refusal :=
  run (fun m => m.vec (.vscan d a pg ts op excl rm) (m.typeCap ts) none [] [] fun k e m => m.leaveT k e ts .perm 0 (some id) fun m =>
    let s := m.side k
    let t := s.ty ts
    m.lop k (redOk op t) (some d) (s.vl.toNat * t.size) [a] fun src m0 m1 =>
      let step := fun (acc : List (Nat × ERes) × List El × Nat × Bool) (e : Nat) =>
        let (rs, out, x, sp) := acc
        let (y, p) := elOf src a t.size e
        let (v, f) := redStep op t (rmOf rm s.frm) x y
        let after := sp || p
        let el : El := if excl then (if p || sp then (e, 0, true) else (e, x, false)) else (if after then (e, 0, true) else (e, v, false))
        (rs ++ [(e, { val := 0, fl := if after then 0 else f, bad := p : ERes })], out ++ [el], v, after)
      let (rs, out, _, _) := (s.actives pg).foldl step ([], [], redId op t, false)
      m0.settle m1 k rs 0 fun _ m => m.vdone k d t.size out) s

end Sys2Proof.Machine
end

