-- ==== Sys2Proof/Machine/Index.lean ====
section
/-! DEFINITION. The index scratchpad (R167 to R169, R372 to R377) and the interpolation table (R176, R378, R379). -/

namespace Sys2Proof.Machine
open Sys2Proof

/-! ## Entries (R167): entry number 8 * set + way -/

/-- The set of a key. -/
def ixSet (k : BitVec 32) : Nat := k.toNat * 0x9e3779b1 % 2 ^ 32 / 2 ^ 23
/-- The entry that holds a key. -/
def ixFind (t : Tbl IxEnt) (k : BitVec 32) : Option (Nat × IxEnt) := t.find? fun x => x.1 / 8 == ixSet k && x.2.key == k
/-- The lowest free way of a key's set. -/
def ixFree (t : Tbl IxEnt) (k : BitVec 32) : Option Nat := ((List.range 8).map (8 * ixSet k + ·)).find? fun n => !t.any (·.1 == n)
/-- The types of class K (R372). -/
def ixTy (t : ETy) : Bool := t == .i32 || t == .i64 || t == .n32 || t == .n64 || t == .f32 || t == .f64
/-- Store and Read (R373). -/
def ixStore (t : ETy) (v : Nat) : Word := if t == .i32 then BitVec.ofInt 64 (sgn 32 v) else w64 (v % 2 ^ tbits t)
/-- A value as an instruction reads it. -/
def ixRead (t : ETy) (v : Word) : Nat := v.toNat % 2 ^ tbits t

/-- What one element does to the entries: the entries, its result, its failure bit and its flags. -/
abbrev IxStep := Tbl IxEnt → BitVec 32 → Nat → Tbl IxEnt × Nat × Bool × Fl

/-- Make a new entry, or fail. -/
def ixNew (t : Tbl IxEnt) (k : BitVec 32) (v : Word) : Tbl IxEnt × Nat × Bool × Fl :=
  match ixFree t k with
  | some n => (t.set n ⟨k, v⟩, 0, false, 0)
  | none => (t, 0, true, 0)

/-- An element of `xins`. -/
def ixIns (ty : ETy) : IxStep := fun t k v =>
  match ixFind t k with
  | some (n, _) => (t.set n ⟨k, ixStore ty v⟩, 0, false, 0)
  | none => ixNew t k (ixStore ty v)
/-- An element of `xacc`. -/
def ixAcc (ty : ETy) (rm : Rm) : IxStep := fun t k v =>
  match ixFind t k with
  | some (n, e) => let (s, f) := vAdd ty rm (ixRead ty e.val) v; (t.set n ⟨k, ixStore ty s⟩, 0, false, f)
  | none => ixNew t k (ixStore ty v)
/-- An element of `xlkp`. -/
def ixLkp (ty : ETy) : IxStep := fun t k _ =>
  match ixFind t k with
  | some (_, e) => (t, ixRead ty e.val, false, 0)
  | none => (t, 0, true, 0)
/-- An element of `xdel`. -/
def ixDel : IxStep := fun t k _ =>
  match ixFind t k with
  | some (n, _) => (t.filter (·.1 != n), 0, false, 0)
  | none => (t, 0, true, 0)

/-- The uncorrectable entry that looking a key up would read: one of its set's eight ways. DEDUCED, unsafe (log 167). -/
def ixBad (x : IxState) (k : Nat) : Option Word := (x.bad.find? fun b => b.1 / 8 == ixSet (BitVec.ofNat 32 k)).map (·.2)

/-- The index scratchpad of a side's core. -/
def Mach.modIx (m : Mach) (k : Nat) (f : IxState → IxState) : Mach := m.modCore (k / 2) fun c => { c with ix := f c.ix }

/-- The active elements of `xins`, `xacc`, `xlkp` and `xdel` in order, on tentative entries (R374). -/
def ixGo (step : IxStep) (key val : Nat → Nat × Bool) : List Nat → Tbl IxEnt → List (Nat × ERes × Bool) → Tbl IxEnt × List (Nat × ERes × Bool)
  | [], t, acc => (t, acc)
  | e :: r, t, acc =>
    let (k, kb) := key e
    let (v, vb) := val e
    if kb || vb then ixGo step key val r t (acc ++ [(e, { val := 0, bad := true }, true)])
    else
      let (t, x, fail, f) := step t (BitVec.ofNat 32 k) v
      ixGo step key val r t (acc ++ [(e, { val := x, fl := f }, fail)])

/-- One of these instructions from issue on: `wr` names a vector destination, `pd` the failure predicate. An entry keeps no poison: what `xins` or
`xacc` puts there from a result or source that no re-execution has settled stands as it is.
DEDUCED, unsafe (log 8); DEDUCED, unsafe (log 153). -/
def Mach.ixOp (m : Mach) (i : Instr) (ts : Option ETy) (pg pd : PR) (wr : Option VR) (key : VR) (val : Option VR)
    (step : ETy → BitVec 3 → IxStep) : Mach :=
  m.vec i (m.typeCap ts) none [] [] fun k q m => m.leaveT k q ts .idx 0 (some id) fun m =>
    let s := m.side k
    let t := s.ty ts
    let es := t.size
    if ixTy t && wr.isNone && s.strip.isSome then m.trapHead 0x14
    else
      m.lop k (ixTy t) wr (s.vl.toNat * es) (key :: val.toList) fun src m0 m1 =>
        let kf := fun e => elOf src key es e
        let vf := fun e => match val with | some v => elOf src v es e | none => (0, false)
        let act := s.actives pg
        let x := (m1.core (k / 2)).ix
        let open_ := (m0.side k).unresolved
        match act.find? fun e => if (kf e).2 || (vf e).2 then !open_ else (ixBad x (kf e).1).isSome with
        | some e =>
          if (kf e).2 || (vf e).2 then m0.laneTrap k 0x0c (w64 ((if (kf e).2 then 0x5000 else 0x1000) + e % 1024))
          else m0.laneTrap k 0x0d ((ixBad x (kf e).1).getD 0)
        | none =>
          let (ents, rs) := ixGo (step t s.frm) kf vf act x.ents []
          m0.settle m1 k (rs.map fun x => (x.1, x.2.1)) 0 fun l m =>
            let m := m.modIx k fun x => { x with ents := ents, usedIx := true }
            (m.modSide k fun s =>
              let s := s.setPred pd (putBits (s.pred pd) (rs.map fun x => (x.1, nb x.2.2, false)))
              match wr with
              | some d => s.wv d es l
              | none => s).vfin k true

/-- `xins` (R374). -/
def execXins (d : PR) (k v : VR) (pg : PR) (ts : Option ETy) (s : State) : Host.Outcome State Fault Refusal :=
  run (fun m => m.ixOp (.xins d k v pg ts) ts pg d none k (some v) fun t _ => ixIns t) s
/-- `xlkp` (R374). -/
def execXlkp (d k : VR) (f : PR) (pg : PR) (ts : Option ETy) (s : State) : Host.Outcome State Fault Refusal :=
  run (fun m => m.ixOp (.xlkp d k f pg ts) ts pg f (some d) k none fun t _ => ixLkp t) s
/-- `xacc` (R374). -/
def execXacc (d : PR) (k v : VR) (pg : PR) (ts : Option ETy) (rm : Rm) (s : State) : Host.Outcome State Fault Refusal :=
  run (fun m => m.ixOp (.xacc d k v pg ts rm) ts pg d none k (some v) fun t frm => ixAcc t (rmOf rm frm)) s
/-- `xdel` (R374). -/
def execXdel (d : PR) (k : VR) (pg : PR) (ts : Option ETy) (s : State) : Host.Outcome State Fault Refusal :=
  run (fun m => m.ixOp (.xdel d k pg ts) ts pg d none k none fun _ _ => ixDel) s

/-- `xdrain` (R375, R169). -/
def execXdrain (k v : VR) (ts : Option ETy) (s : State) : Host.Outcome State Fault Refusal :=
  run (fun m => m.vec (.xdrain k v ts) (m.typeCap ts) none [] [] fun n q m => m.leaveT n q ts .idx 0 (some id) fun m =>
    let s := m.side n
    let t := s.ty ts
    if !ixTy t then m.trapHead 0x01
    else if s.strip.isSome then m.trapHead 0x14
    else
      let x := (m.core (n / 2)).ix
      let vl := s.vl.toNat
      let took := (x.ents.filter fun e => x.cursor ≤ e.1).take vl
      let after := match took.getLast? with | some e => e.1 + 1 | none => x.cursor
      let left := x.ents.filter fun e => !took.any (·.1 == e.1)
      let cur := if left.any fun e => after ≤ e.1 then after else 0
      let upTo := if took.length < vl then 4096 else after
      match x.bad.find? fun b => x.cursor ≤ b.1 && b.1 < upTo with
      | some (_, i) => m.laneTrap n 0x0d i
      | none =>
      let el := fun (f : IxEnt → Nat) => (List.range vl).map fun e => (e, (match took[e]? with | some y => f y.2 | none => 0), false)
      ((m.modIx n fun x => { x with ents := left, cursor := cur, usedIx := true }).modSide n fun s =>
        { (s.wv k t.size (el fun y => y.key.toNat)).wv v t.size (el fun y => ixRead t y.val) with ffi := BitVec.ofNat 11 took.length }).vfin n true) s

/-- `xclr` (R376). -/
def execXclr (s : State) : Host.Outcome State Fault Refusal :=
  run (fun m => m.vec .xclr true none [] [] fun k q m => m.leave k q .idx 0 none fun m =>
    if (m.side k).strip.isSome then m.trapHead 0x14
    else (m.modIx k fun x => { x with ents := [], bad := [], cursor := 0, usedIx := true }).vpop k) s

/-- `xcnt` (R376): it enters no queue and waits for the older X entries.
DEDUCED, unsafe (log 70). -/
def execXcnt (d : Reg) (s : State) : Host.Outcome State Fault Refusal :=
  run (fun m => m.roleOnly .P fun m => m.plain (some d) [] fun m =>
    if !m.owns m.myNo 5 then m.trapV 0x05 5
    else if m.mySide.vq.any fun e => inX e.ins then m.stay
    else (m.wx d (w64 m.myCore.ix.ents.length)).retire) s

/-! ## The table -/

/-- The source type of `tbset`. -/
def knotTy : KnotFmt → ETy
  | .bf16 => .bf16
  | .f16 => .f16
  | .f32 => .f32

/-- How reading the knots ends. -/
inductive KnotRes where
  | done (l : List (BitVec 32)) (m : Mach)
  | wait (m : Mach)
  | poison (i : Nat)
  | fault (i : Nat) (c : BitVec 8) (x : BitVec 4) (va : Word)
  deriving DecidableEq, Repr

/-- Read `n` knots from number `i` on and convert them exactly (R378). -/
def Mach.knots (m : Mach) (a : Acc) (base : Word) (t : ETy) : Nat → Nat → List (BitVec 32) → KnotRes
  | 0, _, acc => .done acc m
  | n + 1, i, acc =>
    let va := base + w64 (i * t.size)
    match m.load a va t.size false with
    | (.error (some (c, x)), _) => .fault i c x va
    | (.error none, m) => .wait m
    | (.ok (v, p), m) => if p then .poison i else m.knots a base t n (i + 1) (acc ++ [BitVec.ofNat 32 (convert .f32 t .rne v).1])

/-- An f32 pattern is finite. -/
def finite32 (v : Nat) : Bool := match floatVal .f32 v with | .fin .. | .zero _ => true | _ => false

/-- `tbset` (R378). -/
def execTbset (a n h : Src) (f : KnotFmt) (s : State) : Host.Outcome State Fault Refusal :=
  run (fun m => m.vec (.tbset a n h f) true none [a, n, h] [] fun k q m => m.leave k q .idx 0 none fun m =>
    let base := (q.op 0).1
    let cnt := (q.op 1).1.toNat
    let x0 := (q.op 2).1.toNat % 2 ^ 32
    let step := (q.op 2).1.toNat / 2 ^ 32
    let t := knotTy f
    let pos := match floatVal .f32 step with | .fin s _ _ => !s | _ => false
    if (m.side k).strip.isSome then m.trapHead 0x14
    else if cnt < 2 || 1024 < cnt || !finite32 x0 || !pos then m.trapHead 0x01
    else if base.toNat % t.size ≠ 0 then m.vfault q q.pc 0x07 0 0 base
    else if !m.loadsDone || !(m.side k).leaving.isEmpty then m
    else match m.knots (m.vacc k q) base t cnt 0 [] with
      | .wait m' => m.keepClose m' (k / 256)
      | .poison i => m.trapV 0x0c (w64 (0x1000 + i % 1024))
      | .fault i c x va => m.vfault q q.pc c x i va
      | .done l m =>
        (m.modIx k fun x => { x with knots := l, x0 := BitVec.ofNat 32 x0, h := BitVec.ofNat 32 step, usedTab := true }).vpop k) s

/-- A finite number scaled to an integer. -/
def Num.at_ (lo : Int) : Num → Int
  | .fin s n e => let v : Int := n * (2 ^ (e - lo).toNat : Nat); if s then -v else v
  | _ => 0

/-- A knot as a number. -/
def IxState.knot (x : IxState) (i : Nat) : Num := floatVal .f32 (x.knots[i]?.getD 0).toNat

/-- The weighted sum of two knots with weights `w - r` and `r` over `w`, both positive (R379). -/
def lerp (m : Rm) (a b : Num) (r w : Nat) : Num × Fl :=
  match a, b with
  | .nan _, _ | _, .nan _ => (.nan false, 0)
  | .inf s, .inf s' => if s = s' then (.inf s, 0) else (.nan false, flNV)
  | .inf s, _ | _, .inf s => (.inf s, 0)
  | _, _ =>
    let lo := minExp [a, b] 4096
    let n := (w - r : Nat) * a.at_ lo + r * b.at_ lo
    if n = 0 then
      let zeros := (match a with | .zero _ => true | _ => false) && (match b with | .zero _ => true | _ => false)
      (.zero (if zeros && a.sign == b.sign then a.sign else m == .rdn), 0)
    else divN (.fin (decide (n < 0)) n.natAbs lo) (.fin false w 0)

/-- One element of `vtint` or `vtlkp` (R379), before rounding. -/
def IxState.interp (x : IxState) (m : Rm) (near : Bool) (v : Num) : Num × Fl :=
  let k := x.knots.length
  match v with
  | .nan s => (.nan false, flIf s flNV)
  | .inf s => (x.knot (if s then 0 else k - 1), 0)
  | v =>
    let o := floatVal .f32 x.x0.toNat
    let h := floatVal .f32 x.h.toNat
    let lo := minExp [v, o, h] 4096
    let d := v.at_ lo - o.at_ lo
    let w := (h.at_ lo).toNat
    if near then
      if d ≤ 0 then (x.knot 0, 0)
      else
        let q := d.toNat / w
        let r := d.toNat % w
        let i := if w < 2 * r || (w = 2 * r && q % 2 = 1) then q + 1 else q
        (x.knot (min i (k - 1)), 0)
    else if d ≤ 0 then (x.knot 0, 0)
    else if (k - 1) * w ≤ d.toNat then (x.knot (k - 1), 0)
    else
      let i := d.toNat / w
      let r := d.toNat % w
      if r = 0 then (x.knot i, 0) else lerp m (x.knot i) (x.knot (i + 1)) r w

/-- `vtint` and `vtlkp` from issue on. -/
def Mach.tabOp (m : Mach) (i : Instr) (ts : Option ETy) (d a : VR) (pg : PR) (rm : Rm) (near : Bool) : Mach :=
  m.vec i (m.typeCap ts) none [] [] fun k q m => m.leaveT k q ts .idx 0 (some id) fun m =>
    let s := m.side k
    let t := s.ty ts
    let x := (m.core (k / 2)).ix
    let r := rmOf rm s.frm
    m.elementwise k t ((t == .f16 || t == .bf16 || t == .f32) && !x.knots.isEmpty) d pg [a] fun l =>
      let (y, f) := x.interp r near (floatVal t (l.headD 0))
      let (v, g) := roundF t r y
      (v, f ||| g)

/-- `vtint` (R379). -/
def execVtint (d a : VR) (pg : PR) (ts : Option ETy) (rm : Rm) (s : State) : Host.Outcome State Fault Refusal :=
  run (fun m => m.tabOp (.vtint d a pg ts rm) ts d a pg rm false) s
/-- `vtlkp` (R379). -/
def execVtlkp (d a : VR) (pg : PR) (ts : Option ETy) (rm : Rm) (s : State) : Host.Outcome State Fault Refusal :=
  run (fun m => m.tabOp (.vtlkp d a pg ts rm) ts d a pg rm true) s

end Sys2Proof.Machine
end

