-- ==== Sys2Proof/Machine/VecMem.lean ====
section
/-! DEFINITION. Vector memory instructions (R337 to R344, R347) and the held stores that leave a closed strip (R202, R311). -/

namespace Sys2Proof.Machine
open Sys2Proof

/-! ## Addresses (R338, R68) -/

/-- Where an element of a vector memory instruction goes: an address, with whether its index was out of range and clamped; nowhere, by
the out-of-range policy; or nowhere, because its index is poisoned. -/
inductive Place where
  | mem (va : Word) (clamped : Bool)
  | out
  | bad
  deriving DecidableEq, Repr

/-- An index of a type: signed for an i type (R338). -/
def idxVal (t : ETy) (v : Nat) : Int := if t.isSigned then sgn (tbits t) v else v

/-- An index against its bound (R68). -/
def placeOf (i : Int) (bound : Nat) (pol : Pol) (addr : Int → Word) : Place :=
  if 0 ≤ i && i < bound then .mem (addr i) false
  else if pol == .clamp && bound ≠ 0 then .mem (addr ((bound : Int) - 1)) true
  else .out

/-- The forms of an address. -/
inductive VForm where
  | unit
  | stride (s : Word)
  | index (r : VReg) (bound : Nat) (pol : Pol)
  deriving DecidableEq, Repr

/-- The place of element `e` (R338). -/
def VForm.place (f : VForm) (a : Word) (t : ETy) (e : Nat) : Place :=
  let es := t.size
  match f with
  | .unit => .mem (a + w64 (e * es)) false
  | .stride s => .mem (a + w64 e * s) false
  | .index r bound pol =>
    if r.bad es e then .bad else placeOf (idxVal t (r.el es e)) bound pol fun i => a + BitVec.ofInt 64 (i * es)

/-- The item number of an element under the decoded view, where the stride counts items (R340). -/
def VForm.item (f : VForm) (t : ETy) (e : Nat) : Int :=
  match f with
  | .unit => e
  | .stride s => e * s.toInt
  | .index r bound pol =>
    let i := idxVal t (r.el t.size e)
    if pol == .clamp && !(0 ≤ i && i < bound) then (bound : Int) - 1 else i

/-- The element that a misaligned access is named by, and its address (R338, R340): none when it is aligned or nothing is active.
DEDUCED, safe (log 60). -/
def VForm.misaligned (f : VForm) (a : Word) (t : ETy) (dec : Bool) (es : List Nat) : Option (Nat × Word) :=
  let sz := t.size
  if dec then (if a.toNat % 128 = 0 then none else es.head?.map fun e => (e, a + BitVec.ofInt 64 (4 * f.item t e)))
  else match f with
    | .unit => if a.toNat % sz = 0 then none else es.head?.map fun e => (e, a + w64 (e * sz))
    | .stride s => (es.find? fun e => (a + w64 e * s).toNat % sz ≠ 0).map fun e => (e, a + w64 e * s)
    | .index r _ _ => if a.toNat % sz = 0 then none else es.head?.map fun e => (e, a + BitVec.ofInt 64 (idxVal t (r.el sz e) * sz))

/-! ## Bytes of held stores (R202) -/

/-- The byte that the held stores of the strip give an address, the last one in program order. -/
def heldByte (hs : List HeldStore) (x : Nat) : Option (Byte × Bool) :=
  hs.foldl (fun acc h => h.els.foldl (fun acc el =>
    if el.va.toNat ≤ x && x < el.va.toNat + h.es then some (BitVec.ofNat 8 (el.val.toNat / 256 ^ (x - el.va.toNat)), el.pois) else acc) acc) none

/-- Bytes read from memory as P's vector loads see them. -/
def laid (hs : List HeldStore) (va : Nat) (l : List (Byte × Bool)) : List (Byte × Bool) :=
  if hs.isEmpty then l else l.zipIdx.map fun (b, i) => (heldByte hs (va + i)).getD b

/-! ## Loads (R339 to R341) -/

/-- How an element is read: its bytes with poison, a wait, or a fault. -/
abbrev Reader := Mach → Nat → Word → Except (Option (BitVec 8 × BitVec 4 × Word)) (List (Byte × Bool)) × Mach

/-- Raw bytes. -/
def rawReader (a : Acc) (es : Nat) (byp : Bool) (hs : List HeldStore) : Reader := fun m _ va =>
  match m.load a va es byp with
  | (.error (some (c, r)), m) => (.error (some (c, r, va)), m)
  | (.error none, m) => (.error none, m)
  | (.ok (v, p), m) => (.ok (laid hs va.toNat (bytesOf v p es)), m)

/-- A sector under the decoded view, its tag and its frame.
DESIGN CHOICE, unsafe (log 66). -/
def Mach.viewSec (m : Mach) (a : Acc) (va : Word) (byp : Bool) : Except (Option (BitVec 8 × BitVec 4)) (Sector × Bool × Option (BitVec 3 × Nat) × Nat) × Mach :=
  match m.check a va .read with
  | (.fault c r, m) => (.error (some (c, r)), m)
  | (.wait, m) => (.error none, m)
  | (.ok r, m) =>
    let v := a.addr va
    let (ok, m) := m.readReady a v
    if !ok then (.error none, m)
    else if let some x := m.readGone a v then (.error (some (causeOf x, x)), m)
    else
      let ((d, p, t), m) := m.readTagged a r v byp
      let (f, m) := m.frameOf a.die a.pid (asnTag a.asn v) v
      (.ok (d, p, t, (f.map (·.1)).getD 0), m)

/-- Items per sector of a format (R340): 32 for a plain sector. -/
def viewItems (f : BitVec 3) : Nat := if f = 0 then 32 else fmtItems f

/-- The item of an element in the decoded view (R340): it lies in the sector at `va`, and `f` is the format of the first sector. -/
def viewReader (a : Acc) (f : BitVec 3) (byp : Bool) (hs : List HeldStore) (item : Nat → Int) : Reader := fun m e va =>
  let j := (item e % viewItems f).toNat
  match m.viewSec a va byp with
  | (.error (some (c, r)), m) => (.error (some (c, r, va)), m)
  | (.error none, m) => (.error none, m)
  | (.ok (d, p, t, mpa), m) =>
    let bs := laid hs va.toNat (bytesOf d.toNat p 128)
    let q := bs.any (·.2)
    let d : Sector := BitVec.ofNat 1024 (gatherLe bs).1
    if (t.map (·.1)).getD 0 != f then (.ok (bytesOf 0 true 4), m)
    else match t with
      | none => (.ok ((bs.drop (4 * j)).take 4), m)
      | some (_, rng) =>
        let ((x, sp), m) := m.itemF32 a.die f rng (mpa / 128 * 128) d j
        (.ok (bytesOf x (q || sp) 4), m)

/-- What a load has gathered so far: the register bytes to write, the elements that consumed a poisoned index, the out-of-range count, the
poisoned elements of `.p`, and the pages whose suppressed probes have been counted. -/
structure LdAcc where
  out : List El := []
  bad : List Nat := []
  oor : Nat := 0
  poict : Nat := 0
  pages : List Nat := []
  deriving DecidableEq, Repr

/-- The register bytes of an element. -/
def LdAcc.put (r : LdAcc) (es e : Nat) (l : List (Byte × Bool)) : LdAcc :=
  { r with out := r.out ++ l.zipIdx.map fun (b, i) => (e * es + i, b.1.toNat, b.2) }

/-- How the walk over a load's elements ends. -/
inductive LdRes where
  | done (r : LdAcc) (m : Mach)
  | wait (m : Mach)
  | fault (e : Nat) (c : BitVec 8) (x : BitVec 4) (va : Word) (r : LdAcc) (m : Mach)
  | poison (e : Nat)
  deriving DecidableEq, Repr

/-- The elements of `vld`, `vlds` and `vldx` one by one (R339): `spec` in an unresolved strip, `dotp` for `.p`.
A suppressed access leaves no trace in the tables and caches (R52). DEDUCED, unsafe (log 57); DEDUCED, unsafe (log 59). -/
def Mach.loadGo (m : Mach) (es : Nat) (rd : Reader) (spec dotp : Bool) (pol : Pol) : List (Nat × Place) → LdAcc → LdRes
  | [], acc => .done acc m
  | (e, p) :: r, acc =>
    let zero := fun (acc : LdAcc) (po : Bool) => acc.put es e (bytesOf 0 po es)
    match p with
    | .bad =>
      if dotp then let (v, m) := m.poisonVal es; m.loadGo es rd spec dotp pol r (acc.put es e (bytesOf v true es))
      else if spec then m.loadGo es rd spec dotp pol r { zero acc true with bad := acc.bad ++ [e] }
      else .poison e
    | .out =>
      let acc := { acc with oor := acc.oor + 1 }
      match pol with
      | .poison => let (v, m) := m.poisonVal es; m.loadGo es rd spec dotp pol r (acc.put es e (bytesOf v true es))
      | .skip => m.loadGo es rd spec dotp pol r acc
      | _ => m.loadGo es rd spec dotp pol r (zero acc false)
    | .mem va cl =>
      let acc := if cl then { acc with oor := acc.oor + 1 } else acc
      match rd m e va with
      | (.ok l, m) => m.loadGo es rd spec dotp pol r (acc.put es e l)
      | (.error none, m) => .wait m
      | (.error (some (c, x, va)), m1) =>
        if spec then
          let pg := va.toNat / 65536
          m.loadGo es rd spec dotp pol r { zero acc true with pages := if acc.pages.contains pg then acc.pages else pg :: acc.pages }
        else if dotp then m1.loadGo es rd spec dotp pol r { zero acc true with poict := acc.poict + 1 }
        else .fault e c x va acc m1

/-- Some address would be read from a page that no cache takes or from outside DRAM (R62, R307). -/
def Mach.uncached (m : Mach) (a : Acc) (vas : List Word) : Bool :=
  vas.any fun va => match m.check a va .read with
    | (.ok r, _) => r.home == 3
    | _ => false

/-- A read of an address has a translation and its rights. -/
def Mach.translates (m : Mach) (a : Acc) (va : Word) : Bool := match m.check a va .read with | (.ok _, _) => true | _ => false

/-- The addresses of some places. -/
def addrsOf (l : List (Nat × Place)) : List Word := l.filterMap fun x => match x.2 with | .mem va _ => some va | _ => none

/-- Write what a load gathered, with its counts. -/
def Side.loaded (s : Side) (d : VR) (es : Nat) (r : LdAcc) : Side :=
  let s := s.wvBytes d es r.out
  let s := { s with oorct := s.oorct + w64 r.oor, poict := s.poict + w64 r.poict, stsup := s.stsup + w64 r.pages.length }
  { s with strip := s.strip.map (·.keep (r.bad.map fun e => (e, { val := 0, bad := true }))) }

/-- The held stores that a load of the strip sees: only while a strip is open in the queue. -/
def Side.seen (s : Side) : List HeldStore := if s.strip.isSome then s.held else []

/-- The reader of a load and the places it reads (R340): with the decoded view the sector at the base is read first and fixes the format
and the sector of each item. -/
def Mach.readerOf (m : Mach) (a : Acc) (base : Word) (t : ETy) (dec byp : Bool) (hs : List HeldStore) (item : Nat → Int)
    (pl : List (Nat × Place)) : Option (Reader × List (Nat × Place)) × Mach :=
  if !dec || (addrsOf pl).isEmpty then (some (rawReader a t.size byp hs, pl), m)
  else match m.viewSec a base byp with
    | (.error none, m) => (none, m)
    | (.error (some (c, x)), m) => (some (fun m _ _ => (.error (some (c, x, base)), m), pl), m)
    | (.ok (_, _, tag, _), m) =>
      let f := (tag.map (·.1)).getD 0
      let sec := fun (x : Nat × Place) => match x.2 with
        | .mem _ cl => (x.1, Place.mem (base + BitVec.ofInt 64 (128 * (item x.1 / viewItems f))) cl)
        | p => (x.1, p)
      (some (viewReader a f byp hs item, pl.map sec), m)

/-- The end of a load. `commit` says that the elements below a fault are kept and vstart resumes it (R218); vdirty stays until it completes
(R147). -/
def Mach.vloadEnd (m0 : Mach) (k : Nat) (q : VqEntry) (d : VR) (es : Nat) (commit : Bool) (r : LdRes) : Mach :=
  match r with
  | .wait m => m0.keepClose m (k / 256)
  | .poison e => m0.laneTrap k 0x0c (w64 (0x2000 + e % 1024))
  | .done r m => (m.modSide k (·.loaded d es r)).vfin k true
  | .fault e c x va r m =>
    if commit then (m.modSide k fun s => { s.loaded d es r with vstart := BitVec.ofNat 11 e, vdirty := s.vdirty }).vfault q q.pc c x e va
    else m0.vfault q q.pc c x e va

/-- A load of R339 once its sources are read; `m0` is the machine before that. -/
def Mach.vload (m0 m : Mach) (k : Nat) (q : VqEntry) (d : VR) (pg : PR) (t : ETy) (f : VForm) (dec byp dotp commit : Bool) : Mach :=
  let s := m.side k
  let a := m.vacc k q
  let base := (q.op 0).1
  let act := s.actives pg
  match f.misaligned base t dec act with
  | some (e, va) => m0.vfault q q.pc 0x07 0 e va
  | none =>
    let at_ := act.map fun e => (e, f.place base t e)
    if s.unresolved && m.uncached a (if dec && !act.isEmpty then [base] else addrsOf at_) then m0.trapHead 0x14
    else
    let (rd, m) := m.readerOf a base t dec byp s.seen (f.item t) at_
    match rd with
    | none => m0.keepClose m a.die
    | some (rd, pl) =>
      if s.unresolved && m.uncached a (addrsOf pl) then m0.trapHead 0x14
      else
        let pol := match f with | .index _ _ p => p | _ => .poison
        m0.vloadEnd k q d t.size commit (m.loadGo t.size rd s.unresolved dotp pol pl {})

/-- A vector load from issue on: the form is made from the captured scalars and the index register. -/
def Mach.vldOp (m : Mach) (i : Instr) (ts : Option ETy) (ss : List Src) (vs : List VR) (wait : BitVec 8) (d : VR) (pg : PR)
    (dec dotp commit : Bool) (form : Side → VqEntry → List (VR × VReg) → VForm × Bool) : Mach :=
  m.vec i (m.typeCap ts) none ss [] fun k q m => m.leaveT k q ts .ld wait (some id) fun m =>
    let s := m.side k
    let t := s.ty ts
    m.vop k (!dec || t == .f32) (some d) (s.vl.toNat * t.size) vs fun src m0 m =>
      if m.vmWait k q then m0
      else let (f, byp) := form s q src; m0.vload m k q d pg t f dec byp dotp commit

/-- The bypass of R63: a footprint beyond bythr. -/
def Side.bypass (s : Side) (foot : Nat) : Bool := s.bythr != 0 && s.bythr.toNat < foot

/-- `vld` (R339, R340). -/
def execVld (d : VR) (a : Src) (pg : PR) (ts : Option ETy) (wait : BitVec 8) (dec : Bool) (s : State) : Host.Outcome State Fault Refusal :=
  run (fun m => m.vldOp (.vld d a pg ts wait dec) ts [a] [] wait d pg dec false false fun s _ _ =>
    (.unit, s.bypass (s.vl.toNat * (s.ty ts).size))) s

/-- `vlds` (R339, R340). -/
def execVlds (d : VR) (a b : Src) (pg : PR) (ts : Option ETy) (wait : BitVec 8) (dec : Bool) (s : State) : Host.Outcome State Fault Refusal :=
  run (fun m => m.vldOp (.vlds d a b pg ts wait dec) ts [a, b] [] wait d pg dec false false fun s q _ =>
    let st := (q.op 1).1
    (.stride st, s.bypass (st.toInt.natAbs * (s.vl.toNat - 1) + (s.ty ts).size))) s

/-- `vldx` (R339, R340): normal mode resumes by vstart, `.p` never faults. -/
def execVldx (d : VR) (a : Src) (i : VR) (n : Src) (pg : PR) (ts : Option ETy) (wait : BitVec 8) (pol : Pol) (dec p : Bool) (s : State) :
    Host.Outcome State Fault Refusal :=
  run (fun m => m.vldOp (.vldx d a i n pg ts wait pol dec p) ts [a, n] [i] wait d pg dec p true fun _ q src =>
    (.index (srcOf src i) (q.op 1).1.toNat pol, false)) s

/-- How many of a list of accesses come before the first that fails (R341); the machine alone while one must wait. -/
def Mach.trim (m : Mach) (rd : Reader) :
    List (Nat × Place) → LdAcc → Nat → Except Mach ((Option (Nat × BitVec 8 × BitVec 4 × Word) × LdAcc) × Mach)
  | [], acc, _ => .ok ((none, acc), m)
  | (e, p) :: r, acc, es =>
    match p with
    | .mem va _ => match rd m e va with
      | (.ok l, m) => m.trim rd r (acc.put es e l) es
      | (.error none, m) => .error m
      | (.error (some (c, x, va)), _) => .ok ((some (e, c, x, va), acc), m)
    | _ => m.trim rd r acc es

/-- `vldff` once it has left the queue (R341): it trims at the first element whose access fails; at the lowest active element it traps, in
a strip too.
DEDUCED, unsafe (log 56); DEDUCED, unsafe (log 62). -/
def Mach.vldffGo (m0 m : Mach) (k : Nat) (q : VqEntry) (d : VR) (pg : PR) (t : ETy) : Mach :=
  let s := m.side k
  let a := m.vacc k q
  let base := (q.op 0).1
  let act := s.actives pg
  let dec := s.vtype.getLsbD 7
  match VForm.unit.misaligned base t dec act with
  | some (e, va) => m0.vfault q q.pc 0x07 0 e va
  | none =>
    let at_ := act.map fun e => (e, VForm.unit.place base t e)
    let meets := fun (m : Mach) (vas : List Word) => s.unresolved && m.uncached a (vas.takeWhile fun va => m.translates a va)
    if meets m (if dec && !act.isEmpty then [base] else addrsOf at_) then m0.trapHead 0x14
    else
    let (rd, m) := m.readerOf a base t dec false s.seen (VForm.unit.item t) at_
    match rd with
    | none => m0.keepClose m a.die
    | some (rd, pl) =>
      if meets m (addrsOf pl) then m0.trapHead 0x14
      else match m.trim rd pl {} t.size with
      | .error m => m0.keepClose m a.die
      | .ok ((f, r), m) =>
        match f with
          | some (e, c, x, va) =>
            if some e == act.head? then m0.vfault q q.pc c x e va
            else (m.modSide k fun s =>
              { s.loaded d t.size { r with pages := [0] } with ffi := BitVec.ofNat 11 e, vl := BitVec.ofNat 11 e }).vfin k true
          | none => (m.modSide k fun s => { s.loaded d t.size r with ffi := s.vl }).vfin k true

/-- `vldff` (R341). -/
def execVldff (d : VR) (a : Src) (pg : PR) (ts : Option ETy) (wait : BitVec 8) (s : State) : Host.Outcome State Fault Refusal :=
  run (fun m => m.vec (.vldff d a pg ts wait) (m.typeCap ts) none [a] [] fun k q m =>
    m.leaveT k q ts .ld wait (some fun m => m.modSide k fun s => { s with ffi := 0 }) fun m =>
      let s := m.side k
      let t := s.ty ts
      m.vop k (!s.vtype.getLsbD 7 || t == .f32) (some d) 0 [] fun _ m0 m => if m.vmWait k q then m0 else m0.vldffGo m k q d pg t) s

/-! ## Stores (R342, R343) -/

/-- The elements a store writes, in ascending order: the first poisoned index, those that go to memory, and the out-of-range count. `spoilt`
names those whose lane has not settled them (R154). -/
def storeEls (src : VReg) (es : Nat) (spoilt : Nat → Bool) (pl : List (Nat × Place)) : Option Nat × List HeldEl × Nat :=
  ((pl.find? (·.2 == .bad)).map (·.1),
    pl.filterMap fun x => match x.2 with
      | .mem va _ => some ⟨x.1, va, w64 (src.el es x.1), src.bad es x.1 || spoilt x.1⟩
      | _ => none,
    (pl.filter fun x => match x.2 with | .mem _ cl => cl | .out => true | .bad => false).length)

/-- The bytes of some held stores. -/
def heldSize (l : List HeldStore) : Nat := l.foldl (fun n h => n + h.es * h.els.length) 0

/-- A store in an open strip is held (R202, R307, R311): past the strip's limits it traps, without room it waits. -/
def Mach.hold (m0 m : Mach) (k : Nat) (h : HeldStore) : Mach :=
  let s := m.side k
  let b := h.es * h.els.length
  if 8 ≤ s.held.length || 8192 < heldSize s.held + b then m0.trapHead 0x14
  else if 8 ≤ s.held.length + s.leaving.length || 8192 < heldSize s.held + heldSize s.leaving + b then m0
  else (m.modSide k fun s => { s with held := s.held ++ [h] }).vfin k true

/-- A vector store once its sources are read: the progress word of `vst.nf` in `nf`. The elements out of range are counted before any page is
translated (R342).
DEDUCED, unsafe (log 61). -/
def Mach.vstoreGo (m0 m : Mach) (k : Nat) (q : VqEntry) (v : VReg) (pg : PR) (t : ETy) (f : VForm) (nf : Option Word) : Mach :=
  let s := m.side k
  let a := m.vacc k q
  let es := t.size
  let base := (q.op 0).1
  let act := s.actives pg
  match f.misaligned base t false act with
  | some (e, va) => m0.vfault q q.pc 0x07 0 e va
  | none =>
    let (bad, els, oor) := storeEls v es (m.spoils k es) (act.map fun e => (e, f.place base t e))
    let count := fun (m : Mach) => m.modSide k fun s => { s with oorct := s.oorct + w64 oor }
    match (if s.unresolved then none else bad) with
    | some e => m0.laneTrap k 0x0c (w64 (0x2000 + e % 1024))
    | none =>
      let h : HeldStore := ⟨q.pc, q.lvl, es, els, nf⟩
      if s.strip.isSome then
        m0.hold (count (m.modSide k fun s =>
          { s with strip := s.strip.map (·.keep (bad.toList.map fun e => (e, { val := 0, bad := true }))) })) k h
      else match (match nf with | some va => m.nfWord a va | none => (.ok (monRights 0), m)) with
        | (.fault c x, _) => (count m0).vfault q q.pc c x 0 (nf.getD 0)
        | (_, m) => match m.store a q.pc es els with
          | .wait _ => m0
          | .fault c x el _ => (count m0).vfault q q.pc c x el.e el.va
          | .done m =>
            let m := match nf with | some va => m.addLater k va els.length q.lvl | none => m
            (count m).vfin k true

/-- A vector store from issue on. -/
def Mach.vstOp (m : Mach) (i : Instr) (ts : Option ETy) (ss : List Src) (v : VR) (vs : List VR) (wait : BitVec 8) (pg : PR) (nf : Bool)
    (form : VqEntry → List (VR × VReg) → VForm) : Mach :=
  m.vec i (m.typeCap ts) none ss [] fun k q m => m.leaveT k q ts .st wait (some id) fun m =>
    let s := m.side k
    let t := s.ty ts
    m.vop k true none (s.vl.toNat * t.size) (v :: vs) fun src m0 m =>
      let w := (q.op 1).1
      if nf && w.toNat % 8 ≠ 0 then m0.vfault q q.pc 0x07 0 0 w
      else if s.strip.isNone && m.vmWait k q then m0
      else m0.vstoreGo m k q (srcOf src v) pg t (form q src) (if nf then some w else none)

/-- `vst` (R342). -/
def execVst (v : VR) (a : Src) (pg : PR) (ts : Option ETy) (wait : BitVec 8) (s : State) : Host.Outcome State Fault Refusal :=
  run (fun m => m.vstOp (.vst v a pg ts wait) ts [a] v [] wait pg false fun _ _ => .unit) s

/-- `vst.nf` (R343).
DEDUCED, unsafe (log 63). -/
def execVstNf (v : VR) (a n : Src) (pg : PR) (ts : Option ETy) (wait : BitVec 8) (s : State) : Host.Outcome State Fault Refusal :=
  run (fun m => m.vstOp (.vstNf v a n pg ts wait) ts [a, n] v [] wait pg true fun _ _ => .unit) s

/-- `vsts` (R342). -/
def execVsts (v : VR) (a b : Src) (pg : PR) (ts : Option ETy) (wait : BitVec 8) (s : State) : Host.Outcome State Fault Refusal :=
  run (fun m => m.vstOp (.vsts v a b pg ts wait) ts [a, b] v [] wait pg false fun q _ => .stride (q.op 1).1) s

/-- `vstx` (R342). -/
def execVstx (v : VR) (a : Src) (i : VR) (n : Src) (pg : PR) (ts : Option ETy) (wait : BitVec 8) (pol : Pol) (s : State) :
    Host.Outcome State Fault Refusal :=
  run (fun m => m.vstOp (.vstx v a i n pg ts wait pol) ts [a, n] v [i] wait pg false fun q src =>
    .index (srcOf src i) (q.op 1).1.toNat pol) s

/-! ## Scatter-add (R344) -/

/-- The types of the bank adders (R67). -/
def bankTy (t : ETy) : Bool := t == .i32 || t == .i64 || t == .f32 || t == .bf16

/-- Send one update to the bank adder of its channel (R67): into its die's list, or into the open batch for another die. Stores of the
core to the sector go below first; none while one is held or a write-back finds no log room.
DEDUCED, safe (log 65). -/
def Mach.sendUpd (m : Mach) (a : Acc) (va : Word) (ty : ETy) (op : BankOp) (val : Nat) (pois : Bool) (tok : Option (BitVec 10 × BitVec 3))
    (src : Option (Nat × Nat)) : Option Mach :=
  let v := a.addr va
  let asn := asnTag a.asn v
  let (f, m) := m.frameOf a.die a.pid asn v
  match f with
  | none => some (m.goneEvent a.die a.pid asn v 1)
  | some (mpa, frost) =>
    let held := fun (m : Mach) => (m.core a.core).l1.any fun s => s.is a.tagPid asn (v / 128) && s.held.isSome
    let m := if held m then m.probeGroup a.core a.grp a.tagPid asn 16 (v / 65536) else m
    if held m then none
    else
      let m := match (m.core a.core).l1.find? (·.is a.tagPid asn (v / 128)) with
        | some s => m.l1Down a.core s false
        | none => m
      let m := m.modCore a.core fun c => { c with l1 := c.l1.filter fun s => !(s.is a.tagPid asn (v / 128)) }
      let u : BankUpd := { mpa := mpa, ty := ty, op := op, val := w64 val, pois := pois, tok := tok, frost := frost, pid := a.tagPid, src := src }
      if !m.reach a.die (dieOfMpa mpa) then some (m.lostWrite a.die mpa)
      else if dieOfMpa mpa = a.die then some (m.modDie a.die fun d => { d with upds := d.upds ++ [u] })
      else (m.l2Evict a.die a.tagPid asn (v / 1024) false).map fun m => m.batchPush a.die (.upd u)

/-- Every page of a scatter-add is confirmed before any update leaves (R344): the lowest element that faults. -/
def Mach.confirmAll (m : Mach) (a : Acc) : List HeldEl → Except (BitVec 8 × BitVec 4 × HeldEl) Mach
  | [] => .ok m
  | e :: r =>
    match m.checkWrite a e.va with
    | (.fault c x, _) => .error (c, x, e)
    | (.wait, m) => m.confirmAll a r
    | (.ok _, m) =>
      match (m.frameOf a.die a.pid (asnTag a.asn (a.addr e.va)) (a.addr e.va)).1 with
      | some (mpa, _) => if 2 ^ 39 ≤ mpa then .error (0x08, 0, e) else m.confirmAll a r
      | none => m.confirmAll a r

/-- Send the updates of a scatter-add in ascending element order. -/
def Mach.sendAll (m : Mach) (a : Acc) (t : ETy) (op : BankOp) (src : Nat × Nat) : List HeldEl → Option Mach
  | [] => some m
  | e :: r => (m.sendUpd a e.va t op e.val.toNat e.pois none (some src)).bind fun m => m.sendAll a t op src r

/-- `vscadd` (R344).
DEDUCED, safe (log 64). -/
def execVscadd (a : Src) (i v : VR) (n : Src) (pg : PR) (ts : Option ETy) (wait : BitVec 8) (pol : Pol) (op : BankOp) (s : State) :
    Host.Outcome State Fault Refusal :=
  run (fun m => m.vec (.vscadd a i v n pg ts wait pol op) (m.typeCap ts) none [a, n] [] fun k q m =>
    m.leaveT k q ts .st wait (some id) fun m =>
      let s := m.side k
      let t := s.ty ts
      m.vop k (bankTy t) none (s.vl.toNat * t.size) [i, v] fun src m0 m =>
        if s.strip.isSome then m0.trapHead 0x14
        else if m.vmWait k q then m0
        else
          let acc := m.vacc k q
          let base := (q.op 0).1
          let f := VForm.index (srcOf src i) (q.op 1).1.toNat pol
          let act := s.actives pg
          match f.misaligned base t false act with
          | some (e, va) => m0.vfault q q.pc 0x07 0 e va
          | none =>
            let (bad, els, oor) := storeEls (srcOf src v) t.size (m.spoils k t.size) (act.map fun e => (e, f.place base t e))
            match bad with
            | some e => m0.laneTrap k 0x0c (w64 (0x2000 + e % 1024))
            | none => match m.confirmAll acc els with
              | .error (c, x, el) => m0.vfault q q.pc c x el.e el.va
              | .ok m => match m.sendAll acc t op (k, q.tick) els with
                | none => m0
                | some m => (m.modSide k fun s => { s with oorct := s.oorct + w64 oor }).vfin k true) s

/-! ## Prefetch (R347) -/

/-- Prefetch the sectors of some addresses; a page that has failed once is not tried again. -/
def Mach.vprefetch (m : Mach) (k : Nat) (wr : Bool) : List Word → List Nat → Mach
  | [], _ => m
  | va :: r, failed =>
    let pg := va.toNat / 65536
    if failed.contains pg then m.vprefetch k wr r failed
    else
      let m' := m.prefetch va wr
      m'.vprefetch k wr r (if (m'.side k).stsup = (m.side k).stsup then failed else pg :: failed)

/-- `vpf` (R347). -/
def execVpf (a : Src) (b : Option Src) (pg : PR) (ts : Option ETy) (wait : BitVec 8) (wr : Bool) (s : State) : Host.Outcome State Fault Refusal :=
  run (fun m => m.vec (.vpf a b pg ts wait wr) (m.typeCap ts) none (a :: b.toList) [] fun k q m => m.leaveT k q ts .ld wait (some id) fun m =>
    let s := m.side k
    let t := s.ty ts
    let f := if b.isSome then VForm.stride (q.op 1).1 else .unit
    (m.vprefetch k wr (addrsOf ((s.actives pg).map fun e => (e, f.place (q.op 0).1 t e))) []).vfin k true) s

/-! ## Held stores on their way out (R202, R310, R311) -/

/-- Let P of a side be the sequencer that moves, for one operation. -/
def Mach.asP (m : Mach) (k : Nat) (f : Mach → Mach) : Mach :=
  let c := m.dev.cur
  (f (m.withDev fun d => { d with cur := .side (BitVec.ofNat 10 k) .P })).withDev fun d => { d with cur := c }

/-- The add of a `vst.nf` as the store of an `stl.dev` (R343): once what it covers is confirmed and performed, one atomic step at the word's
coherence point. It waits while that cannot be. -/
def Mach.nfAdd (m : Mach) (k : Nat) (x : NfAdd) : Mach :=
  let a := m.lvlAcc k x.lvl
  if (m.att k).any (fun e => e.q == 0 && e.serial < x.serial) || !m.loadsDone || !(m.side k).leaving.isEmpty then m
  else
    let m' := m.releaseData a .dev
    if !m'.updsDone then m'
    else
      let pop := fun (m : Mach) => m.modSide k fun s => { s with adds := s.adds.tail }
      let v := a.addr x.va
      let asn := asnTag a.asn v
      let (f, m2) := m'.frameOf a.die a.pid asn v
      match f with
      | none => pop (m2.goneEvent a.die a.pid asn v 2)
      | some (mpa, frost) =>
        let m3 := m2.probeGroup a.core a.grp a.tagPid asn 16 (v / 65536)
        if (m3.core a.core).l1.any fun s => s.is a.tagPid asn (v / 128) && s.held.isSome then m'
        else match m3.clearWay a v mpa with
          | none => m'
          | some m3 =>
            if dieOfMpa mpa ≠ a.die && !m3.remoteOk a.die (dieOfMpa mpa) then m3
            else match m3.snoop mpa false with
              | none => m'
              | some m3 =>
                let ((d, p), m3) := m3.chanRead mpa
                if p then pop m3
                else
                  let sh := 8 * (mpa % 128)
                  let new := (d.toNat / 2 ^ sh % 2 ^ 64 + x.n) % 2 ^ 64
                  match m3.chanWrite mpa (BitVec.ofNat 1024 (new * 2 ^ sh)) (byteMask (mpa % 128) 8) false frost a.tagPid false with
                  | none => m'
                  | some m3 => pop m3

/-- HELD_STORE_ENTER_L1 (R202, R311): the oldest store that has left a strip is performed once P's loads are; when none is left, the oldest add of a `vst.nf`
whose stores are confirmed. -/
def execHeldStoreEnterL1 (side : BitVec 10) (s : State) : Host.Outcome State Fault Refusal :=
  run (fun m =>
    let k := side.toNat
    match (m.side k).leaving with
    | h :: _ => m.asP k fun m => if !m.loadsDone then m else match m.storePath (m.lvlAcc k h.lvl) h.pc h.es h.els true with
      | .done m' =>
        let m' := m'.modSide k fun s => { s with leaving := s.leaving.tail }
        match h.nf with
        | some va => m'.addLater k va h.els.length h.lvl
        | none => m'
      | _ => m
    | [] => match (m.side k).adds with
      | [] => m
      | x :: _ => m.asP k (·.nfAdd k x)) s

end Sys2Proof.Machine
end

