-- ==== Sys2Proof/Machine/Matrix.lean ====
section
/-! DEFINITION. The matrix engine (R177 to R180, R349 to R358): its instructions and the commands it performs. -/

namespace Sys2Proof.Machine
open Sys2Proof

/-! ## Instructions of M and S on an engine (R348) -/

/-- The sequencer's own older scalar accesses are performed at core scope: its loads are done and its stores confirmed (R193). -/
def Mach.scalarsDone (m : Mach) : Bool := m.loadsDone && !m.mySide.att.any fun e => e.q.toNat == seqNo m.dev.cur

/-- An engine instruction from issue on (R348, R249, R227): the sequencer, the checks up to step 9, the wait mask, and for MX the owner. -/
def Mach.engine (m : Mach) (r : Role) (pipe : Nat) (capOk : Bool) (d : Option Reg) (ss : List Src) (wait : BitVec 8) (k : Mach → Mach) : Mach :=
  m.roleOnly r fun m => m.issue true capOk d ss [] fun m =>
    if !m.owns m.myNo pipe then m.trapV 0x05 (w64 pipe)
    else if wait ≠ 0 && !m.owns m.myNo 7 then m.trapV 0x05 7
    else match m.maskWait wait with
      | (some t, _) => m.trapToken t
      | (none, true) => m.wait
      | (none, false) => if pipe = 6 && !m.mySide.vowner then m.trapOwner else k m

/-! ## The state of the engine -/

/-- Change the matrix engine of a side's core. -/
def Mach.modMx (m : Mach) (k : Nat) (f : MxState → MxState) : Mach := m.modCore (k / 2) fun c => { c with mx := f c.mx }
/-- The shape (R349): rows and columns. -/
def MxState.dims (x : MxState) : Nat × Nat := (wbits x.shape 0 5 + 1, wbits x.shape 8 8 + 1)
/-- Replace the entries of `n` numbers from `lo` on where `f` gives a value. -/
def Tbl.fill {α : Type} (t : Tbl α) (lo n : Nat) (f : Nat → Option α) : Tbl α :=
  let mid := (List.range n).filterMap fun i => match f (lo + i) with
    | some v => some (lo + i, v)
    | none => t.find? (·.1 == lo + i)
  t.filter (·.1 < lo) ++ mid ++ t.filter (lo + n ≤ ·.1)

/-- What a command names (R180): an accumulator as its number, a bank as its number plus 4. -/
def MKind.names : MKind → List Nat
  | .mld _ b | .mldFr b => [4 + nb b]
  | .mmac a _ b => [a.toNat, 4 + nb b]
  | .mzero a | .mst a _ | .mrd a _ => [a.toNat]
/-- A staged command names the same accumulator or bank (R180). -/
def MxState.blocked (x : MxState) (k : MKind) : Bool :=
  x.slots.any fun s => match s.2 with | .staged c => c.kind.names.any k.names.contains | _ => false

/-- Make a command with the shape and the slice count as they stand. -/
def Mach.mcmd (m : Mach) (k : MKind) (addr : Word) (tick : Nat) : MCmd :=
  let s := m.mySide
  let (r, c) := m.myCore.mx.dims
  { kind := k, addr := addr, m := r, n := c, slices := (s.vtype.extractLsb' 4 3).toNat, asn := s.asn, lvl := m.me.level, tick := tick
    pc := m.me.pc }

/-- Accept a command into the M queue (R193, R195).
DEDUCED, safe (log 73). -/
def Mach.mAccept (m : Mach) (k : MKind) (addr : Word) : Mach :=
  if m.myCore.mx.blocked k then m.wait
  else if !m.scalarsDone then m.stay
  else
    let (t, m) := m.tick
    let c := m.mcmd k addr t
    (m.modMx m.myNo fun x => { x with mq := x.mq ++ [c] }).retire

/-- The scratchpad operand of a matrix command (R353): core field, alignment to 128 and reach of `rows` rows of `rb` bytes. -/
def Mach.mspCheck (m : Mach) (a : Word) (al rb rows : Nat) (k : Mach → Mach) : Mach :=
  let l := a.toNat % 2 ^ 18
  let tv := fun (r : Nat) => spTv r (a.toNat / 2 ^ 18 % 8 * 2 ^ 18 + (l + r * rb) % 2 ^ 18)
  let sp := m.spOwn m.myNo
  if a.toNat / 2 ^ 18 % 8 ≠ m.myNo / 2 % 8 then m.trapV 0x08 (tv 0)
  else if a.toNat % al ≠ 0 then m.trapV 0x07 (tv 0)
  else match (List.range rows).find? fun r => !sp.has (l + (r + 1) * rb - 1) with
    | some r => m.trapV 0x08 (tv r)
    | none => k m
where
  /-- tval of a matrix operand (R212). -/
  spTv (r addr : Nat) : Word := w64 (r % 1024 * 2 ^ 52 + addr % 2 ^ 21)

/-- The pages of `n` bytes from an address, one address on each. -/
def pagesOf (a : Word) (n : Nat) : List Word :=
  if n = 0 then [] else
    a :: ((List.range (n / 65536 + 1)).map fun i => (a &&& ~~~0xffff#64) + w64 (65536 * (i + 1))).filter fun p => p.toNat < a.toNat + n

/-- Translate the pages a matrix or stream instruction reads, before acceptance (R348). -/
def Mach.readPages (m : Mach) (ps : List Word) (k : Mach → Mach) : Mach :=
  match ps with
  | [] => k m
  | p :: r => match m.check m.myAcc p .read with
    | (.fault c x, m) => m.accFault p c x
    | (.wait, m) => m.stay
    | (.ok _, m) => m.readPages r k
/-- Confirm the pages it writes. -/
def Mach.writePages (m : Mach) (ps : List Word) (k : Mach → Mach) : Mach :=
  match ps with
  | [] => k m
  | p :: r => match m.checkWrite m.myAcc p with
    | (.fault c x, m) => m.accFault p c x
    | (.wait, m) => m.stay
    | (.ok _, m) => m.writePages r k

/-! ## Instructions (R349, R350, R353, R357) -/

/-- The types of weights and A rows. -/
def mTy (t : ETy) : Bool := t == .e4m3 || t == .e5m2 || t == .bf16 || t == .f64
/-- The types of `mst` and `mrd`. -/
def outTy (t : ETy) : Bool := t == .f32 || t == .f16 || t == .bf16 || t == .f64

/-- Step 7 for the type of `mld` and `mmac`: split FP64 and mx8 need their capabilities (R277, R350). -/
def Mach.mCap (m : Mach) (t : ETy) : Bool := m.typeCap (some t) && (t != .f64 || m.hasCap 0x11)

/-- `mcfg` (R349). -/
def execMcfg (d : Reg) (a : Src) (wait : BitVec 8) (s : State) : Host.Outcome State Fault Refusal :=
  run (fun m => m.engine .M 6 true (some d) [a] wait fun m =>
    if m.val a &&& ~~~0xff1f#64 ≠ 0 then m.trapHead 0x01
    else
      let v := m.val a
      let old := m.myCore.mx.shape
      ((m.modMx m.myNo fun x => { x with shape := v }).wx d old).retire) s

/-- `mld` (R350). -/
def execMld (a : Src) (t : ETy) (wait : BitVec 8) (bank : Bool) (s : State) : Host.Outcome State Fault Refusal :=
  run (fun m => m.engine .M 6 (m.mCap t) none [a] wait fun m =>
    let n := m.myCore.mx.dims.2
    if !mTy t || (t == .f64 && (32 < n || m.mySide.vtype.extractLsb' 4 3 == 0)) then m.trapHead 0x01
    else if (m.val a).toNat % 128 ≠ 0 then m.trapV 0x07 (m.val a)
    else m.readPages (pagesOf (m.val a) (n * 128 * t.size)) fun m => m.mAccept (.mld t bank) (m.val a)) s

/-- `mld.fr` (R350): the format of the sector at the base fixes how many sectors the tile takes. -/
def execMldFr (a : Src) (wait : BitVec 8) (bank : Bool) (s : State) : Host.Outcome State Fault Refusal :=
  run (fun m => m.engine .M 6 true none [a] wait fun m =>
    let va := m.val a
    if va.toNat % 128 ≠ 0 then m.trapV 0x07 va
    else match m.viewSec m.myAcc va false with
      | (.error (some (c, x)), m) => m.accFault va c x
      | (.error none, m) => m.stay
      | (.ok (_, _, tag, _), m) =>
        let c := viewItems ((tag.map (·.1)).getD 0)
        m.readPages (pagesOf va ((m.myCore.mx.dims.2 * 128 + c - 1) / c * 128)) fun m => m.mAccept (.mldFr bank) va) s

/-- The checks of both forms of `mmac` (R353). -/
def Mach.mmacCheck (m : Mach) (a : Src) (t : ETy) (k : Mach → Mach) : Mach :=
  let (r, c) := m.myCore.mx.dims
  if !mTy t || (t == .f64 && (8 < r || 32 < c)) then m.trapHead 0x01
  else m.mspCheck (m.val a) 128 (128 * t.size) r k

/-- `mmac` (R353). -/
def execMmac (d : BitVec 2) (a : Src) (t : ETy) (wait : BitVec 8) (bank : Bool) (s : State) : Host.Outcome State Fault Refusal :=
  run (fun m => m.engine .M 6 (m.mCap t) none [a] wait fun m =>
    m.mmacCheck a t fun m => m.mAccept (.mmac d t bank) (m.val a)) s

/-- The staging form (R179, R180): an empty slot takes the command, an armed one lets it issue at once. -/
def execMmacStaged (d : BitVec 2) (a : Src) (t : ETy) (wait : BitVec 8) (bank : Bool) (sc : BitVec 2) (s : State) :
    Host.Outcome State Fault Refusal :=
  run (fun m => m.engine .M 6 (m.mCap t) none [a] wait fun m => m.mmacCheck a t fun m =>
    let x := m.myCore.mx
    let kd := MKind.mmac d t bank
    match x.slots.get .empty sc.toNat with
    | .staged _ => m.wait
    | .armed =>
      if x.blocked kd then m.wait
      else if !m.scalarsDone then m.stay
      else (m.modMx m.myNo fun x => { x with slots := x.slots.set sc.toNat .empty }).mAccept kd (m.val a)
    | .empty =>
      if x.blocked kd then m.wait
      else if !m.scalarsDone then m.stay
      else
        let c := m.mcmd kd (m.val a) 0
        (m.modMx m.myNo fun x => { x with slots := x.slots.set sc.toNat (.staged c) }).retire) s

/-- The last byte of a copy that names a slot has landed (R179). -/
def Mach.landSlot (m : Mach) (k : Nat) (sc : Nat) : Mach :=
  match (m.core (k / 2)).mx.slots.get .empty sc with
  | .staged c =>
    let t := (m.side k).tick
    (m.modSide k fun s => { s with tick := t + 1 }).modMx k fun x =>
      { x with slots := x.slots.set sc .empty, mq := x.mq ++ [{ c with tick := t }] }
  | .empty => m.modMx k fun x => { x with slots := x.slots.set sc .armed }
  | .armed => m

/-- `mzero` (R357). -/
def execMzero (d : BitVec 2) (wait : BitVec 8) (s : State) : Host.Outcome State Fault Refusal :=
  run (fun m => m.engine .M 6 true none [] wait fun m => m.mAccept (.mzero d) 0) s

/-- `mst` (R357, R348): its pages are confirmed before acceptance. -/
def execMst (d : BitVec 2) (a : Src) (t : ETy) (wait : BitVec 8) (s : State) : Host.Outcome State Fault Refusal :=
  run (fun m => m.engine .M 6 (m.typeCap (some t)) none [a] wait fun m =>
    let (r, c) := m.myCore.mx.dims
    if !outTy t || (t == .f64 && 32 < c) then m.trapHead 0x01
    else if (m.val a).toNat % t.size ≠ 0 then m.trapV 0x07 (m.val a)
    else m.writePages (pagesOf (m.val a) (r * c * t.size)) fun m => m.mAccept (.mst d t) (m.val a)) s

/-- `mrd` (R357).
DEDUCED, safe (log 75). -/
def execMrd (d : BitVec 2) (a : Src) (t : ETy) (wait : BitVec 8) (s : State) : Host.Outcome State Fault Refusal :=
  run (fun m => m.engine .M 6 (m.typeCap (some t)) none [a] wait fun m =>
    let (r, c) := m.myCore.mx.dims
    if !outTy t || (t == .f64 && 32 < c) then m.trapHead 0x01
    else m.mspCheck (m.val a) (max 128 t.size) (c * t.size) r fun m => m.mAccept (.mrd d t) (m.val a)) s

/-! ## Loading weights (R351, R352): cell (k, c) has number 256 k + c, exponent (g, c) number 256 g + c -/

/-- The digit of a group: rounded to nearest even after scaling (R351). -/
def wDigit (e : Int) : Num → Int
  | .fin s n x => (toInt .rne s n (x + 10 - e)).1
  | _ => 0
/-- The binary exponent of a number. -/
def Num.lg : Num → Option Int
  | .fin _ n e => some (Nat.log2 n + e)
  | _ => none
/-- An infinity or a NaN. -/
def Num.special : Num → Bool
  | .inf _ | .nan _ => true
  | _ => false
/-- Digits and exponent of a group of floats (R351).
DEDUCED, unsafe (log 72). -/
def wGroup (l : List Num) : List Int × Nat :=
  if l.any (·.special) then (l.map fun _ => 0, 0)
  else
    let e := (l.filterMap (·.lg)).foldl max (-124)
    (l.map (wDigit e), (e + 125).toNat)
/-- Digits and exponent of a formatted group (R351). -/
def frGroup (f : BitVec 3) (raw : List Int) (scale : Nat) : List Int × Nat :=
  if f = 3 then (if scale = 255 then (raw.map fun _ => 0, 0) else (raw.map (2 * ·), scale + 1))
  else match floatVal .bf16 scale with
    | .nan _ | .inf _ => (raw.map fun _ => 0, 0)
    | .zero _ => (raw.map fun _ => 0, 2)
    | .fin s n e => (raw.map fun q => if s then -(q * n) else q * n, (e + 135).toNat)

/-- Write a group's digits, marks and exponent into the store (R350): group `g` of 32 k-rows of column `c`. -/
def MxState.putGroup (x : MxState) (bank : Bool) (g c : Nat) (w : List Int × Nat) (bad : List Bool) : MxState :=
  let row := 128 * nb bank + 32 * g
  let cells := w.1.zipIdx.foldl (fun (t : Tbl (BitVec 12)) (d, i) => t.set (256 * (row + i) + c) (BitVec.ofInt 12 d)) x.cells
  let marks := bad.zipIdx.foldl (fun (t : Tbl Bool) (b, i) =>
    if b || t.get false (256 * (row + i) + c) then t.set (256 * (row + i) + c) b else t) x.bad
  { x with cells := cells, bad := marks, exps := x.exps.set (256 * (4 * nb bank + g) + c) (BitVec.ofNat 8 w.2)
           dirtyBank := x.dirtyBank ||| (1#2 <<< nb bank) }

/-- The significand and exponent of an f64 with its top slices (R352): N of `s` slices, the exponent field, a NaN item. -/
def slices (s : Nat) (b : Nat) : Int × Nat × Bool :=
  let x := b / 2 ^ 52 % 2048
  let mm := b % 2 ^ 52 + (if x = 0 then 0 else 2 ^ 52)
  if x = 2047 then (0, 2047, true)
  else
    let n : Int := ((mm * 2 ^ (8 * s) / 2 ^ 54 : Nat) : Int)
    (if b.testBit 63 then -n else n, x, false)
/-- The signed slices of N, most significant first (R352). The top one is what remains, so that the slices sum to N also where that is 128
(DEDUCED, unsafe, log 135). -/
def recode (n : Int) : Nat → List Int
  | 0 => []
  | 1 => [n]
  | s + 1 =>
    let d := (n + 128) % 256 - 128
    recode ((n - d) / 256) s ++ [d]

/-- Write an f64 weight (R352): cells 8c to 8c + 7 of row `row`. -/
def MxState.putF64 (x : MxState) (row c s b : Nat) (bad : Bool) : MxState :=
  let (n, e, _) := slices s b
  let ds := recode n s ++ List.replicate (7 - s) 0 ++ [(e : Int)]
  { x with cells := ds.zipIdx.foldl (fun (t : Tbl (BitVec 12)) (d, i) => t.set (256 * row + 8 * c + i) (BitVec.ofInt 12 d)) x.cells
           bad := (List.range 8).foldl (fun (t : Tbl Bool) i =>
             if bad || t.get false (256 * row + 8 * c + i) then t.set (256 * row + 8 * c + i) bad else t) x.bad }

/-- `n` items of `es` bytes: values with poison; a read whose mapping has gone since acceptance gives poisoned free bytes (R58). An error
with the machine while one must wait. -/
def Mach.mRead (m : Mach) (a : Acc) (va : Word) (es : Nat) : Nat → List (Nat × Bool) → Except Mach (List (Nat × Bool) × Mach)
  | 0, acc => .ok (acc, m)
  | n + 1, acc =>
    match m.load a va es false with
    | (.error none, m) => .error m
    | (.error (some _), m) => let (v, m) := m.poisonVal es; m.mRead a (va + w64 es) es n (acc ++ [(v, true)])
    | (.ok x, m) => m.mRead a (va + w64 es) es n (acc ++ [x])

/-- The plain form of `mld` (R350 to R352). -/
def Mach.mldPlain (m : Mach) (k : Nat) (c : MCmd) (t : ETy) (bank : Bool) : Except Mach Mach :=
  (m.mRead (m.engAcc k c.asn c.lvl) c.addr t.size (128 * c.n) []).map fun (l, m) =>
    let at_ := fun (i : Nat) => (l[i]?).getD (0, false)
    m.modMx k fun x =>
      if t = .f64 then
        { (List.range (128 * c.n)).foldl (fun x i =>
            let (v, p) := at_ i
            x.putF64 (128 * nb bank + i % 128) (i / 128) c.slices v p) x with dirtyBank := x.dirtyBank ||| (1#2 <<< nb bank) }
      else (List.range (4 * c.n)).foldl (fun x j =>
        let col := j / 4
        let g := j % 4
        let its := (List.range 32).map fun i => at_ (128 * col + 32 * g + i)
        x.putGroup bank g col (wGroup (its.map fun y => floatVal t y.1)) (its.map (·.2))) x

/-- The groups of the formatted form one by one (R350, R351). An error with the machine while a read must wait. -/
def Mach.mldGroups (m : Mach) (k : Nat) (c : MCmd) (bank : Bool) (f : BitVec 3) : List Nat → Except Mach Mach
  | [] => .ok m
  | j :: r =>
    let a := m.engAcc k c.asn c.lvl
    let first := 32 * j
    let va := c.addr + w64 (128 * (first / viewItems f))
    match m.viewSec a va false with
    | (.error none, m) => .error m
    | (.error (some _), m) =>
      (m.modMx k (·.putGroup bank (j % 4) (j / 4) (List.replicate 32 0, 0) (List.replicate 32 true))).mldGroups k c bank f r
    | (.ok (d, p, tag, mpa), m) =>
      match tag with
      | some (f', rng) =>
        if f' ≠ f then (m.modMx k (·.putGroup bank (j % 4) (j / 4) (List.replicate 32 0, 0) (List.replicate 32 p))).mldGroups k c bank f r
        else
          let i0 := first % viewItems f
          let ((sc, q), m) := m.scaleOf a.die f rng (mpa / 128 * 128) i0
          let raw := (List.range 32).map fun i => itemRaw f d (i0 + i)
          (m.modMx k (·.putGroup bank (j % 4) (j / 4) (frGroup f raw sc) (List.replicate 32 (p || q)))).mldGroups k c bank f r
      | none => (m.modMx k (·.putGroup bank (j % 4) (j / 4) (List.replicate 32 0, 0) (List.replicate 32 p))).mldGroups k c bank f r

/-- The formatted form. -/
def Mach.mldFormatted (m : Mach) (k : Nat) (c : MCmd) (bank : Bool) : Except Mach Mach :=
  match m.viewSec (m.engAcc k c.asn c.lvl) c.addr false with
  | (.error none, m) => .error m
  | (.error (some _), m) => m.mldGroups k c bank 0 (List.range (4 * c.n))
  | (.ok (_, _, tag, _), m) => m.mldGroups k c bank ((tag.map (·.1)).getD 0) (List.range (4 * c.n))

/-- The oldest command of a side's M queue, when its engine may perform it (R195). -/
def Mach.mHead (m : Mach) (k : Nat) : Option MCmd :=
  match (m.core (k / 2)).mx.mq with
  | c :: _ => if m.owns k 6 && !m.markBlocks k 1 c.tick then some c else none
  | [] => none
/-- The oldest command is complete. -/
def Mach.mPop (m : Mach) (k : Nat) : Mach := m.modMx k fun x => { x with mq := x.mq.tail }

/-- MLD_EXECUTE (R351). -/
def execMldExecute (side : BitVec 10) (s : State) : Host.Outcome State Fault Refusal :=
  run (fun m =>
    let k := side.toNat
    match m.mHead k with
    | some c => match c.kind with
      | .mld t b => match m.mldPlain k c t b with | .ok m => m.mPop k | .error m' => m.keepClose m' (k / 256)
      | .mldFr b => match m.mldFormatted k c b with | .ok m => m.mPop k | .error m' => m.keepClose m' (k / 256)
      | _ => m
    | none => m) s

/-! ## Multiply-accumulate (R354, R355) -/

/-- Bytes of the scratchpad from a linear offset on under granule 3. -/
def Core.spLin (c : Core) (r : SpRange) (l n : Nat) : List (Byte × Bool) := (List.range n).map fun i => c.spRd (r.lin 3 (l + i))
/-- Elements of `es` bytes. -/
def chunksOf (es : Nat) (l : List (Byte × Bool)) : Nat → List (Nat × Bool)
  | 0 => []
  | n + 1 => gatherLe (l.take es) :: chunksOf es (l.drop es) n

/-- A group of an A row: its exponent EA and its truncated integers, or none for a group with an infinity or NaN (R354). -/
def aGroup (l : List Num) : Option (Int × List Int) :=
  if l.any (·.special) then none
  else
    let ea := match l.filterMap (·.lg) with | [] => 0 | x :: r => r.foldl max x
    some (ea, l.map fun v => match v with
      | .fin s n e => (toInt .rtz s n (e + 23 - ea)).1
      | _ => 0)

/-- A digit of the weight store. -/
def MxState.digit (x : MxState) (row c : Nat) : Int := (x.cells.get 0 (256 * row + c)).toInt

/-- One element of `mmac` for a float type: the groups in ascending k.
DESIGN CHOICE, safe (log 22). -/
def MxState.mac (x : MxState) (bank : Bool) (c : Nat) (gs : List (Option (Int × List Int))) (acc : Nat) : Nat :=
  gs.zipIdx.foldl (fun acc (g, i) =>
    let e := x.exps.get 0 (256 * (4 * nb bank + i) + c)
    match g with
    | none => qnan .f32
    | some (ea, us) =>
      if e = 0 then qnan .f32
      else
        let s := us.zipIdx.foldl (fun (t : Int) (u, j) => t + u * x.digit (128 * nb bank + 32 * i + j) c) 0
        let p : Num := if s = 0 then .zero false else .fin (decide (s < 0)) s.natAbs (ea - 23 + (e.toNat : Int) - 135)
        (fAdd .f32 .rne acc (roundF .f32 .rne p).1).1) acc

/-- The value of a stored f64 weight: its slices as one integer with an exponent, and whether it is a NaN item (R352). -/
def MxState.wF64 (x : MxState) (row c : Nat) : Int × Int × Bool :=
  let n := (List.range 7).foldl (fun (t : Int) j => 256 * t + x.digit row (8 * c + j)) 0
  let e := (x.cells.get 0 (256 * row + 8 * c + 7)).toNat
  (n, (max e 1 : Nat) - 1023 - 54, e == 2047)

/-- One element of `mmac` for f64 (R355): `as` holds the row's items as bit patterns.
DEDUCED, unsafe (log 71). -/
def MxState.mac64 (x : MxState) (bank : Bool) (c s : Nat) (as : List Nat) (acc : Nat) : Nat :=
  (List.range 4).foldl (fun acc g =>
    let prods := ((as.drop (32 * g)).take 32).zipIdx.map fun (a, i) =>
      let (n, e, bad) := slices s a
      let (w, ew, bw) := x.wF64 (128 * nb bank + 32 * g + i) c
      (n * w, ((max e 1 : Nat) : Int) - 1023 + 2 - 8 * s + ew, bad || bw)
    if prods.any (·.2.2) then qnan .f64
    else
      let lo : Int := -2400
      let t := prods.foldl (fun (t : Int) (p, e, _) => t + p * (2 ^ (e - lo).toNat : Nat)) 0
      let v : Num := if t = 0 then .zero false else .fin (decide (t < 0)) t.natAbs lo
      (fAdd .f64 .rne acc (roundF .f64 .rne v).1).1) acc

/-- A column of the bank holds an uncorrectable cell. -/
def MxState.badCol (x : MxState) (bank : Bool) (c w : Nat) : Bool :=
  x.bad.any fun (n, b) => b && n / 32768 == nb bank && w * c ≤ n % 256 && n % 256 < w * c + w

/-- The rows of an `mmac` as it runs (R353). -/
def Mach.mmacRun (m : Mach) (k : Nat) (c : MCmd) (ai : BitVec 2) (t : ETy) (bank : Bool) : Mach :=
  let co := m.core (k / 2)
  let sp := m.spOwn k
  let x := co.mx
  let base := 8192 * ai.toNat
  let rows := (List.range c.m).map fun r => co.spLin sp (c.addr.toNat % 2 ^ 18 + r * 128 * t.size) (128 * t.size)
  let one := fun (r cI : Nat) (bytes : List (Byte × Bool)) (pre : List (Option (Int × List Int))) =>
    let hit := bytes.any (·.2) || x.badCol bank cI (if t = .f64 then 8 else 1)
    if t = .f64 then
      let i := base + 256 * r + 2 * cI
      let old := (x.acc.get 0 i).toNat + 2 ^ 32 * (x.acc.get 0 (i + 1)).toNat
      let v := if hit then (Config.freeAcc (m.dev.fresh + i)).toNat + 2 ^ 32 * (Config.freeAcc (m.dev.fresh + i + 1)).toNat
        else x.mac64 bank cI c.slices ((chunksOf 8 bytes 128).map (·.1)) old
      let p := hit || x.accPois.get false i || x.accPois.get false (i + 1)
      [(i, v % 2 ^ 32, p), (i + 1, v / 2 ^ 32, p)]
    else
      let i := base + 256 * r + cI
      let v := if hit then (Config.freeAcc (m.dev.fresh + i)).toNat else x.mac bank cI pre (x.acc.get 0 i).toNat
      [(i, v, hit || x.accPois.get false i)]
  let out := rows.zipIdx.flatMap fun (bytes, r) =>
    let nums := (chunksOf t.size bytes 128).map fun y => floatVal t y.1
    let pre := (List.range 4).map fun g => aGroup ((nums.drop (32 * g)).take 32)
    (List.range c.n).flatMap fun cI => one r cI bytes pre
  let m := m.withDev fun d => { d with fresh := d.fresh + 32768 }
  m.modMx k fun x =>
    { x with acc := out.foldl (fun (a : Tbl (BitVec 32)) (i, v, _) => a.set i (BitVec.ofNat 32 v)) x.acc
             accPois := out.foldl (fun (a : Tbl Bool) (i, _, p) => if p || a.get false i then a.set i p else a) x.accPois
             rowbuf := rows.flatMap fun l => l.map (·.1)
             dirtyAcc := x.dirtyAcc ||| (1#4 <<< ai.toNat) }

/-- An accumulator element as an output type: its pattern and poison (R357). -/
def MxState.outEl (x : MxState) (ai : BitVec 2) (t : ETy) (r c : Nat) : Nat × Bool :=
  let i := 8192 * ai.toNat + 256 * r + (if t = .f64 then 2 * c else c)
  let v := (x.acc.get 0 i).toNat
  match t with
  | .f64 => (v + 2 ^ 32 * (x.acc.get 0 (i + 1)).toNat, x.accPois.get false i || x.accPois.get false (i + 1))
  | .f32 => (v, x.accPois.get false i)
  | t => ((convert t .f32 .rne v).1, x.accPois.get false i)

/-- The output elements of a command in row order: index, pattern, poison. -/
def MxState.outEls (x : MxState) (ai : BitVec 2) (t : ETy) (m n : Nat) : List (Nat × Nat × Bool) :=
  (List.range m).flatMap fun r => (List.range n).map fun c => let (v, p) := x.outEl ai t r c; (r * n + c, v, p)

/-- Confirm the pages of an accepted store again as it is performed; a page that has gone is left out with an event (R58). -/
def Mach.reconfirm (m : Mach) (a : Acc) : List Word → List Nat → List Nat × Mach
  | [], gone => (gone, m)
  | p :: r, gone => match m.checkWrite a p with
    | (.ok _, m) => m.reconfirm a r gone
    | (_, m) => (m.goneEvent a.die a.pid (asnTag a.asn (a.addr p)) (a.addr p) 1).reconfirm a r (p.toNat / 65536 :: gone)

/-- Perform an `mst` (R357). -/
def Mach.mstRun (m : Mach) (k : Nat) (c : MCmd) (ai : BitVec 2) (t : ETy) : Option Mach :=
  let a := m.engAcc k c.asn c.lvl
  let els := ((m.core (k / 2)).mx.outEls ai t c.m c.n).map fun (e, v, p) => (⟨e, c.addr + w64 (e * t.size), w64 v, p⟩ : HeldEl)
  let (gone, m) := m.reconfirm a (pagesOf c.addr (c.m * c.n * t.size)) []
  match m.storePath a c.pc t.size (els.filter fun e => !gone.contains (e.va.toNat / 65536)) true with
  | .done m => some m
  | _ => none

/-- Perform an `mrd` (R357). -/
def Mach.mrdRun (m : Mach) (k : Nat) (c : MCmd) (ai : BitVec 2) (t : ETy) : Mach :=
  let sp := m.spOwn k
  let l0 := c.addr.toNat % 2 ^ 18
  let bytes := ((m.core (k / 2)).mx.outEls ai t c.m c.n).flatMap fun (e, v, p) =>
    (bytesOf v p t.size).zipIdx.map fun (b, i) => (sp.lin 3 (l0 + e * t.size + i), b.1, b.2)
  m.spWrite k (k / 2) bytes

/-- MMAC_EXECUTE (R354, R355, R357): the oldest accepted command that is no weight load. -/
def execMmacExecute (side : BitVec 10) (s : State) : Host.Outcome State Fault Refusal :=
  run (fun m =>
    let k := side.toNat
    match m.mHead k with
    | some c => match c.kind with
      | .mmac a t b => (m.mmacRun k c a t b).mPop k
      | .mzero a =>
        (m.modMx k fun x =>
          { x with acc := x.acc.filter fun y => y.1 / 8192 != a.toNat, accPois := x.accPois.filter fun y => y.1 / 8192 != a.toNat
                   dirtyAcc := x.dirtyAcc ||| (1#4 <<< a.toNat) }).mPop k
      | .mst a t => match m.mstRun k c a t with | some m => m.mPop k | none => m
      | .mrd a t => (m.mrdRun k c a t).mPop k
      | _ => m
    | none => m) s

end Sys2Proof.Machine
end

