-- ==== Sys2Proof/Machine/Stream.lean ====
section
/-! DEFINITION. The stream engine (R170 to R175, R217, R218, R359 to R371): its instructions, and the operations it performs. -/

namespace Sys2Proof.Machine
open Sys2Proof

/-- The stream engine of a side's core. -/
def Mach.sx (m : Mach) (k : Nat) : SxState := (m.core (k / 2)).sx
/-- Change the stream engine of a side's core. -/
def Mach.modSx (m : Mach) (k : Nat) (f : SxState → SxState) : Mach := m.modCore (k / 2) fun c => { c with sx := f c.sx }

/-! ## Circular buffers (R170, R171) -/

/-- The number of slots N. -/
def CBuf.n (b : CBuf) : Nat := b.desc.toNat / 2 ^ 26 % 64 + 1
/-- The bytes of a slot. -/
def CBuf.size (b : CBuf) : Nat := 128 * (b.desc.toNat / 2 ^ 18 % 256)
/-- The linear offset of slot 0. -/
def CBuf.base (b : CBuf) : Nat := b.desc.toNat % 2 ^ 18
/-- The linear offset of the slot with a count. -/
def CBuf.start (b : CBuf) (i : Nat) : Nat := b.base + b.size * (i % b.n)
/-- The descriptor as it reads. -/
def CBuf.word (b : CBuf) : Word :=
  w64 (b.freed % 256 * 2 ^ 56 + b.taken % 256 * 2 ^ 48 + b.filled % 256 * 2 ^ 40 + b.claimed % 256 * 2 ^ 32 + b.desc.toNat)
/-- A valid descriptor: a size, and every slot within the side's reach. -/
def Mach.cbOk (m : Mach) (k : Nat) (b : CBuf) : Bool := b.size ≠ 0 && b.base + b.size * b.n ≤ 16 * (m.spOwn k).reach
/-- No slot can be claimed. -/
def CBuf.full (b : CBuf) : Bool := b.n ≤ b.claimed - b.freed
/-- filled rises over the landed slots, oldest first. -/
def CBuf.advance (b : CBuf) : Nat → CBuf
  | 0 => b
  | n + 1 => if b.landed.contains b.filled then { b with filled := b.filled + 1, landed := b.landed.filter (· != b.filled) }.advance n else b
/-- A slot has received its last byte. -/
def CBuf.land (b : CBuf) (s : Nat) : CBuf := { b with landed := s :: b.landed }.advance (b.claimed - b.filled)
/-- Change a circular buffer. -/
def Mach.modCb (m : Mach) (k : Nat) (n : BitVec 4) (f : CBuf → CBuf) : Mach :=
  m.modSx k fun x => { x with cb := x.cb.set n.toNat (f (x.cb.get {} n.toNat)) }
/-- A circular buffer. -/
def Mach.cbuf (m : Mach) (k : Nat) (n : BitVec 4) : CBuf := (m.sx k).cb.get {} n.toNat

/-! ## The check of a record (R361) -/

/-- The lowest set bit among `n` bits from `lo` on. -/
def lowestSet (r : BitVec 768) (lo n : Nat) : Option Nat := ((List.range n).find? fun i => r.getLsbD (lo + i)).map (lo + ·)

/-- The position of the first reserved field of a record (0x0f); `mx` says that the partition has capability 0x0012. -/
def lyReserved (r : BitVec 768) (mx : Bool) : Option Nat :=
  let t := lyF r 57 4
  let codes := [(57, t == 15 || (t == 14 && !mx)), (61, 5 ≤ lyF r 61 3), (536, lyF r 536 2 == 3), (538, 4 ≤ lyF r 538 3),
                (541, 7 ≤ lyF r 541 4), (545, lyF r 545 2 == 3)].filterMap fun (x : Nat × Bool) => if x.2 then some x.1 else none
  let high := (List.range 5).filter fun i => lyF r 61 3 < 5 && lyRank r ≤ i
  let zeros := (lowestSet r 547 221).toList ++ high.flatMap fun i =>
    (lowestSet r (64 + 56 * i) 56).toList ++ (lowestSet r (344 + 20 * i) 20).toList ++ (lowestSet r (444 + 12 * i) 12).toList
  match codes ++ zeros with
  | [] => none
  | p :: l => some (l.foldl min p)

/-- The bytes of a table row (R367). -/
def rowBytes (r : BitVec 768) : Nat := lyWin r 0 * (lyType r).size
/-- The bytes that one operation of a command puts into a circular buffer. -/
def SOp.slotBytes (o : SOp) : Nat :=
  match o.kind with
  | .cpy => lyCount o.rec_ * (lyType o.rec_).size
  | .sgath _ => o.bsz * rowBytes o.rec_
  | _ => rowBytes o.rec_
/-- An entry's own shape rule is broken (R367, R369, R370). -/
def SOp.shapeBad (o : SOp) : Bool :=
  let table := lyRank o.rec_ ≠ 2 || 2 ^ 32 ≤ o.n || o.bsz = 0
  match o.kind with
  | .cpy => false
  | .sgath _ => table || 1024 < o.bsz
  | .sgred _ => table || !bankTy (lyType o.rec_) || o.n % o.bsz ≠ 0
  | .sscadd _ => table || 1024 < o.bsz || !bankTy (lyType o.rec_)

/-- A layout that no command accepts: a base or stride off its element size, or too many elements (0x10). -/
def lyInvalid (r : BitVec 768) (elems : Bool) : Bool :=
  let es := (lyType r).size
  (lyBase r).toNat % es ≠ 0 || ((List.range (lyRank r)).any fun i => lyStr r i % (es : Int) != 0) || (elems && 2 ^ 32 ≤ lyCount r)

/-- tval bits of a fault in a layout register. -/
def lyAtFault (ly : BitVec 3) : Word := w64 (ly.toNat * 2 ^ 40 + 2 ^ 44)

/-- The check of a command's record: the cause with the high bits of its tval.
DEDUCED, unsafe (log 82). -/
def Mach.recCheck (m : Mach) (k : Nat) (ly : BitVec 3) (o : SOp) : Option (BitVec 8 × Word) :=
  let isAdd := match o.kind with | .sscadd _ => true | _ => false
  match lyReserved o.rec_ (m.hasCap 0x12) with
  | some p => some (0x0f, w64 (p * 2 ^ 48))
  | none =>
    if (!isAdd && (lyDst o.rec_ == 2) != o.cb.isSome) || lyInvalid o.rec_ (o.kind == .cpy) || o.shapeBad then some (0x10, lyAtFault ly)
    else match o.cb with
      | none => none
      | some c => if !m.cbOk k (m.cbuf k c) || (m.cbuf k c).size < o.slotBytes then some (0x10, w64 (c.toNat * 2 ^ 40)) else none

/-! ## Tokens (R172, R173) -/

/-- Count operations on a token: as many as fit in pend, the rest in backlog. -/
def Token.take (t : Token) (ops : Nat) : Token :=
  let p := min ops (255 - t.pend)
  let t := { t with pend := t.pend + p, backlog := t.backlog + (ops - p) }
  { t with status := if t.status = 3 then 3 else if t.pend = 0 then 2 else 1 }
/-- There is backlog room for them. -/
def Token.room (t : Token) (ops : Nat) : Bool := t.backlog + (ops - min ops (255 - t.pend)) ≤ 2 ^ 24 - 1
/-- An operation finishes; its resume element is gone with it (R172). -/
def Token.finish (t : Token) : Token :=
  let t := { t with done := (t.done + 1) % 65536, pend := if t.backlog = 0 then t.pend - 1 else t.pend, backlog := t.backlog - 1 }
  { t with status := if t.pend = 0 && t.status ≠ 3 then 2 else t.status, resume := if t.status = 3 then t.resume else 0 }
/-- A fault stops an operation.
DEDUCED, unsafe (log 78). -/
def Token.fault (t : Token) (cause : BitVec 8) (kind reason : BitVec 4) (resume : Nat) (hi : Word) : Token :=
  { t with status := 3, cause := cause, ckind := kind, creason := reason, resume := resume, tvalHi := hi }
/-- The next command that names a faulted token is its resumption.
DEDUCED, unsafe (log 79). -/
def Token.resumed (t : Token) : Token := { t with status := 1, cause := 0, ckind := 0, creason := 0, tvalHi := 0 }
/-- Raise the counts of a token; they saturate. -/
def Token.count (t : Token) (oor pois : Nat) : Token := { t with oor := min 65535 (t.oor + oor), pois := min 65535 (t.pois + pois) }

/-! ## Acceptance (R348, R361, R364) -/

/-- Change a command of the S queue. -/
def Mach.modOp (m : Mach) (k i : Nat) (f : SOp → SOp) : Mach :=
  m.modSx k fun x => { x with sq := x.sq.zipIdx.map fun (y : SOp × Nat) => if y.2 = i then f y.1 else y.1 }

/-- The last byte of an operation has landed: its slot is written, and its follow-on slot acts (R171, R179). -/
def Mach.opLanded (m : Mach) (k : Nat) (o : SOp) : Mach :=
  let m := match o.cb, o.slot with
    | some c, some s => m.modCb k c (·.land s)
    | _, _ => m
  match o.fo with
  | some sc => m.landSlot k sc.toNat
  | none => m

/-- Put an accepted command into the S queue; a copy with zero extent and a command without operations finish at once (R173, R364). -/
def Mach.sPut (m : Mach) (k : Nat) (o : SOp) : Mach :=
  if o.kind == .cpy && lyCount o.rec_ = 0 then (m.opLanded k o).modToken (k / 2) o.tk.toNat Token.finish
  else if o.ops ≤ o.b then m
  else m.modSx k fun x => { x with sq := x.sq ++ [o] }

/-- Claim a slot for an operation, when its destination is a circular buffer (R171). -/
def Mach.claim (m : Mach) (k : Nat) (o : SOp) : SOp × Mach :=
  match o.cb, o.slot with
  | some c, none => ({ o with slot := some (m.cbuf k c).claimed }, m.modCb k c fun b => { b with claimed := b.claimed + 1 })
  | _, _ => (o, m)

/-- Accept a command (R172, R173, R361): it waits for the sequencer's own scalar accesses, for backlog room, and a copy for a slot of its
circular buffer; a command whose check fails and whose operations never find room counts one. The command that names a faulted token is taken
as the resumption, which starts at the token's resume element; a failed check leaves that 0 (R361). -/
def Mach.sAccept (m : Mach) (ly : BitVec 3) (o : SOp) : Mach :=
  let k := m.myNo
  let t := m.token (k / 2) o.tk.toNat
  let res := t.status == 3
  let mine := fun (x : SOp) => x.faulted && x.tk == o.tk
  let old := if res then (m.sx k).sq.find? mine else none
  let bad := m.recCheck k ly o
  let slot := old.bind fun x => if x.cb == o.cb then x.slot else none
  let full := match o.cb with | some c => bad.isNone && o.kind == .cpy && slot.isNone && (m.cbuf k c).full | none => false
  let ops := if o.shapeBad then max 1 o.ops else o.ops
  let ops := if bad.isSome && !t.room ops then 1 else ops
  if !m.scalarsDone then m.stay
  else if full || (!res && !t.room ops) then m.wait
  else
    let (tick, m) := m.tick
    let m := m.modToken (k / 2) o.tk.toNat fun t => if res then t.resumed else t.take ops
    let o := { o with asn := m.mySide.asn, lvl := m.me.level, tick := tick }
    match bad with
    | some (c, hi) =>
      let m := m.modToken (k / 2) o.tk.toNat (·.fault c 0 0 0 hi)
      (if old.isSome then m else m.modSx k fun x => { x with sq := x.sq ++ [{ o with faulted := true, ops := ops }] }).retire
    | none =>
      let pos := if res then t.resume else 0
      let on := old.filter (·.pos == pos)
      let o := { o with pos := pos, b := if o.kind == .cpy then 0 else pos / o.bsz, slot := slot
                        cache := (on.map (·.cache)).getD [], acc := on.bind (·.acc) }
      let m := if res then m.modSx k fun x => { x with sq := match x.sq.findIdx? mine with | some i => x.sq.eraseIdx i | none => x.sq } else m
      let (o, m) := if o.kind == .cpy then m.claim k o else (o, m)
      (m.sPut k o).retire

/-- A command with its operands, before acceptance. -/
def Mach.sCmd (m : Mach) (kind : SKind) (d : SDst) (ly tk : BitVec 3) (fo : Option (BitVec 2)) (idx : Word) (n bsz : Nat) (it : ETy) (pol : Pol) :
    SOp :=
  { kind := kind, rec_ := (m.sx m.myNo).ly.get 0 ly.toNat, dst := match d with | .x s => some (m.val s) | .cb _ => none
    cb := match d with | .x _ => none | .cb c => some c, tk := tk, fo := fo, idx := idx, n := n, bsz := bsz, it := it, pol := pol
    ops := if kind == .cpy then 1 else (n + bsz - 1) / bsz
    b := 0, pos := 0, slot := none, cache := [], acc := none, started := false, landed := false, faulted := false, asn := 0, lvl := .U, tick := 0 }

/-- The register sources of a destination. -/
def sdstSrcs : SDst → List Src
  | .x s => [s]
  | .cb _ => []

/-- `cpy` (R364): a follow-on slot that is armed, or that another unfinished copy names, traps. -/
def execCpy (d : SDst) (ly tk : BitVec 3) (fo : Option (BitVec 2)) (wait : BitVec 8) (s : State) : Host.Outcome State Fault Refusal :=
  run (fun m => m.engine .S 7 true none (sdstSrcs d) wait fun m =>
    let x := m.sx m.myNo
    let resumes := fun (o : SOp) => o.faulted && o.tk == tk && (m.token (m.myNo / 2) tk.toNat).status == 3
    match fo with
    | none => m.sAccept ly (m.sCmd .cpy d ly tk none 0 0 1 .i8 .poison)
    | some sc =>
      if !m.owns m.myNo 6 then m.trapV 0x05 6
      else if m.myCore.mx.slots.get .empty sc.toNat == .armed || x.sq.any (fun o => o.fo == some sc && !resumes o) then m.trapHead 0x15
      else m.sAccept ly (m.sCmd .cpy d ly tk (some sc) 0 0 1 .i8 .poison)) s

/-- The index types of R367. -/
def idxTy (t : ETy) : Bool := t == .i32 || t == .n32 || t == .i64 || t == .n64

/-- `sgath`, `sgred` and `sscadd` up to acceptance (R367). -/
def Mach.tableCmd (m : Mach) (kind : SKind) (d : SDst) (ly tk : BitVec 3) (a b c : Src) (it : ETy) (wait : BitVec 8) (pol : Pol) : Mach :=
  m.engine .S 7 (m.typeCap (some it)) none ((sdstSrcs d) ++ [a, b, c]) wait fun m =>
    if !idxTy it then m.trapHead 0x01
    else m.sAccept ly (m.sCmd kind d ly tk none (m.val a) (m.val b).toNat (m.val c).toNat it pol)

/-- `sgath` (R368). -/
def execSgath (d : SDst) (ly tk : BitVec 3) (a b c : Src) (it : ETy) (wait : BitVec 8) (pol : Pol) (p : Bool) (s : State) :
    Host.Outcome State Fault Refusal :=
  run (fun m => m.tableCmd (.sgath p) d ly tk a b c it wait pol) s

/-- `sgred` (R369). -/
def execSgred (d : SDst) (ly tk : BitVec 3) (a b c : Src) (it : ETy) (wait : BitVec 8) (pol : Pol) (op : BankOp) (s : State) :
    Host.Outcome State Fault Refusal :=
  run (fun m => m.tableCmd (.sgred op) d ly tk a b c it wait pol) s

/-- `sscadd` (R370). -/
def execSscadd (d : Src) (ly tk : BitVec 3) (a b c : Src) (it : ETy) (wait : BitVec 8) (pol : Pol) (op : BankOp) (s : State) :
    Host.Outcome State Fault Refusal :=
  run (fun m => m.tableCmd (.sscadd op) (.x d) ly tk a b c it wait pol) s

/-- `sbind` (R366): a port takes a pattern. It names no token, so a failed record check goes to the token of its zero tk field
(DEDUCED, unsafe, log 30).
DEDUCED, unsafe (log 86). -/
def execSbind (sp ly : BitVec 3) (wait : BitVec 8) (s : State) : Host.Outcome State Fault Refusal :=
  run (fun m => m.engine .S 7 true none [] wait fun m =>
    let k := m.myNo
    let r := (m.sx k).ly.get 0 ly.toNat
    let bad := match lyReserved r (m.hasCap 0x12) with
      | some p => some ((0x0f : BitVec 8), w64 (p * 2 ^ 48))
      | none => if lyInvalid r true then some (0x10, lyAtFault ly) else none
    if !m.scalarsDone then m.stay
    else match bad with
      | some (c, hi) => (m.modToken (k / 2) 0 (·.fault c 0 0 0 hi)).retire
      | none =>
        let (tick, m) := m.tick
        let own := (m.token (k / 2) 0).status == 3 && !((m.sx k).sq.any fun o => o.faulted && o.tk == 0)
        let m := if own then m.modToken (k / 2) 0 fun t => { t.resumed with status := if t.pend = 0 then 2 else 1 } else m
        let p : Pattern := ⟨r, m.mySide.asn, m.me.level, tick⟩
        (m.modSx k fun x =>
          let q : SPort := x.sp.get {} sp.toNat
          { x with sp := x.sp.set sp.toNat { q with pats := q.pats ++ [p] } }).retire) s

/-- `cbinit` (R371): once no operation whose destination is the buffer is counted in a token. -/
def execCbinit (d : Reg) (cb : BitVec 4) (a : Src) (wait : BitVec 8) (s : State) : Host.Outcome State Fault Refusal :=
  run (fun m => m.engine .S 7 true (some d) [a] wait fun m =>
    let k := m.myNo
    if !m.scalarsDone || (m.sx k).sq.any (fun o => o.cb == some cb) then m.stay
    else
      let b : CBuf := { desc := (m.val a).setWidth 32 }
      ((m.modCb k cb fun _ => b).wx d b.word).retire) s

/-- tval of an invalid descriptor. -/
def cbAtFault (cb : BitVec 4) : Word := w64 (cb.toNat * 2 ^ 40)

/-- `cbget` (R171, R371): the address of the oldest filled slot. -/
def execCbget (d : Reg) (cb : BitVec 4) (wait : BitVec 8) (s : State) : Host.Outcome State Fault Refusal :=
  run (fun m => m.engine .S 7 true (some d) [] wait fun m =>
    let k := m.myNo
    let b := m.cbuf k cb
    if !m.cbOk k b then m.trapV 0x10 (cbAtFault cb)
    else if !m.scalarsDone then m.stay
    else if b.taken = b.filled then m.wait
    else ((m.modCb k cb fun b => { b with taken := b.taken + 1 }).wx d (w64 (k / 2 % 8 * 2 ^ 18 + b.start b.taken))).retire) s

/-- `cbput` (R171, R371). -/
def execCbput (cb : BitVec 4) (wait : BitVec 8) (s : State) : Host.Outcome State Fault Refusal :=
  run (fun m => m.engine .S 7 true none [] wait fun m =>
    let k := m.myNo
    let b := m.cbuf k cb
    if !m.cbOk k b then m.trapV 0x10 (cbAtFault cb)
    else if !m.scalarsDone then m.stay
    else if b.freed = b.taken then m.trapHead 0x15
    else (m.modCb k cb fun b => { b with freed := b.freed + 1 }).retire) s

/-! ## Layout registers (R363) -/

/-- The field of a selector: its lowest bit and its width. -/
def lyField (sel : Nat) : Option (Nat × Nat) :=
  if sel = 0 then some (0, 57)
  else if sel = 1 then some (57, 4)
  else if sel = 2 then some (61, 3)
  else if sel < 8 then some (64 + 56 * (sel - 3), 20)
  else if sel < 13 then some (84 + 56 * (sel - 8), 36)
  else if sel < 18 then some (344 + 20 * (sel - 13), 20)
  else if sel < 23 then some (444 + 12 * (sel - 18), 12)
  else if sel = 23 then some (504, 32)
  else if sel = 24 then some (536, 2)
  else if sel = 25 then some (538, 3)
  else if sel = 26 then some (541, 4)
  else if sel = 27 then some (545, 2)
  else if sel = 28 then some (538, 9)
  else if sel < 41 then some (64 * (sel - 29), 64)
  else none

/-- Replace `w` bits of a record from `lo` on. -/
def lyPut (r : BitVec 768) (lo w v : Nat) : BitVec 768 :=
  let mask := BitVec.ofNat 768 ((2 ^ w - 1) * 2 ^ lo)
  (r &&& ~~~mask) ||| BitVec.ofNat 768 (v % 2 ^ w * 2 ^ lo)

/-- `lyset`: the low bits of a into one field. -/
def execLyset (ly : BitVec 3) (a : Src) (sel : BitVec 6) (wait : BitVec 8) (s : State) : Host.Outcome State Fault Refusal :=
  run (fun m => match lyField sel.toNat with
    | none => m.trapHead 0x01
    | some (lo, w) => m.engine .S 7 true none [a] wait fun m =>
      if !m.scalarsDone then m.stay
      else (m.modSx m.myNo fun x => { x with ly := x.ly.set ly.toNat (lyPut (x.ly.get 0 ly.toNat) lo w (m.val a).toNat) }).retire) s

/-- An access of `lyld` or `lyst` waits: for the sequencer's own scalar accesses, or behind a marker of `qfence` (R195, R363). -/
def Mach.sBlocked (m : Mach) : Bool := !m.scalarsDone || m.markBlocks m.myNo 2 m.mySide.tick

/-- `lyld`: the 96 bytes at a; a poisoned sector traps and leaves the register unchanged. -/
def execLyld (ly : BitVec 3) (a : Src) (wait : BitVec 8) (s : State) : Host.Outcome State Fault Refusal :=
  run (fun m => m.engine .S 7 true none [a] wait fun m =>
    let va := m.val a
    if va.toNat % 32 ≠ 0 then m.trapV 0x07 va
    else if m.sBlocked then m.stay
    else match m.loadWords m.myAcc va 12 with
      | (.error (some (c, x, v)), m) => m.accFault v c x
      | (.error none, m) => m.stay
      | (.ok l, m) =>
        if l.any (·.2) then m.trapV 0x0c 0
        else (m.modSx m.myNo fun x => { x with ly := x.ly.set ly.toNat (BitVec.ofNat 768 (l.foldr (fun w n => w.1.toNat + 2 ^ 64 * n) 0)) }).retire) s

/-- `lyst`: its pages are confirmed before acceptance. -/
def execLyst (ly : BitVec 3) (a : Src) (wait : BitVec 8) (s : State) : Host.Outcome State Fault Refusal :=
  run (fun m => m.engine .S 7 true none [a] wait fun m =>
    let va := m.val a
    if va.toNat % 32 ≠ 0 then m.trapV 0x07 va
    else if m.sBlocked then m.stay
    else m.writePages (pagesOf va 96) fun m =>
      let r := (m.sx m.myNo).ly.get 0 ly.toNat
      let els := (List.range 12).map fun i => (⟨i, va + w64 (8 * i), w64 (r.toNat / 2 ^ (64 * i)), false⟩ : HeldEl)
      match m.store m.myAcc m.me.pc 8 els with
      | .done m => m.retire
      | .wait m => m.stay
      | .fault c x el m => m.accFault el.va c x) s

/-! ## Reading for an operation (R60, R61) -/

/-- The sectors a batch has read. -/
abbrev SecCache := List (Word × Sector × Bool)
/-- What a read gives: bytes with poison, a wait, or a fault. -/
abbrev RdRes := Except (Option (BitVec 8 × BitVec 4)) (Nat × Bool)

/-- An address outside DRAM, whose bytes are read as they are named. -/
def Mach.isIo (m : Mach) (a : Acc) (va : Word) : Bool :=
  match m.check a va .read with
  | (.ok r, m) => r.home == 3 && (match (m.frameOf a.die a.pid (asnTag a.asn (a.addr va)) (a.addr va)).1 with
    | some (mpa, _) => 2 ^ 39 ≤ mpa
    | none => false)
  | _ => false

/-- Bytes inside one sector, from the batch's own read of it.
DEDUCED, safe (log 85). -/
def Mach.rdRun (m : Mach) (a : Acc) (c : SecCache) (va : Word) (n : Nat) : RdRes × SecCache × Mach :=
  let base := va &&& ~~~127#64
  let pick := fun (d : Nat) => d / 2 ^ (8 * (va.toNat % 128)) % 256 ^ n
  match c.find? (·.1 == base) with
  | some (_, d, p) => (.ok (pick d.toNat, p), c, m)
  | none =>
    if m.isIo a va then let (r, m) := m.load a va n false; (r, c, m)
    else match m.load a base 128 false with
      | (.ok (v, p), m) => (.ok (pick v, p), c ++ [(base, BitVec.ofNat 1024 v, p)], m)
      | (.error e, m) => (.error e, c, m)

/-- Bytes at any address, across at most two sectors. -/
def Mach.rdAny (m : Mach) (a : Acc) (c : SecCache) (va : Word) (n : Nat) : RdRes × SecCache × Mach :=
  let k := min n (128 - va.toNat % 128)
  if k = n then m.rdRun a c va n
  else match m.rdRun a c va k with
    | (.ok (v, p), c, m) => match m.rdRun a c (va + w64 k) (n - k) with
      | (.ok (w, q), c, m) => (.ok (v + 256 ^ k * w, p || q), c, m)
      | x => x
    | x => x

/-- Elements of a row one by one; an error with the machine while one must wait. -/
def Mach.rdEls (m : Mach) (a : Acc) (es : Nat) : List ElSrc → SecCache → List (Nat × Bool) →
    Except Mach (Except (BitVec 8 × BitVec 4) (List (Nat × Bool)) × SecCache × Mach)
  | [], c, acc => .ok (.ok acc, c, m)
  | .val v :: r, c, acc => m.rdEls a es r c (acc ++ [(v, false)])
  | .mem va :: r, c, acc => match m.rdAny a c va es with
    | (.ok x, c, m) => m.rdEls a es r c (acc ++ [x])
    | (.error none, _, m) => .error m
    | (.error (some f), c, m) => .ok (.error f, c, m)

/-- The kind and reason of a copy fault (R364): 0 for a translation, 2 for a right. -/
def copyKind (f : BitVec 8 × BitVec 4) : BitVec 4 × BitVec 4 := if f.1 = 0x08 then (2, 0) else (0, f.2)

/-! ## Writing for an operation (R362) -/

/-- Where an operation's dense bytes go: memory, or scratchpad from a linear offset on. -/
inductive SDest where
  | mem (d : Word)
  | sp (r : SpRange) (l0 : Nat)
  deriving DecidableEq, Repr

/-- The destination of a command's current operation.
DEDUCED, unsafe (log 80). -/
def Mach.sDest (m : Mach) (k : Nat) (o : SOp) : SDest :=
  match o.cb with
  | some c => .sp (m.spOwn k) ((m.cbuf k c).start (o.slot.getD 0))
  | none =>
    let d := o.dst.getD 0
    if lyDst o.rec_ = 0 then .mem d else .sp (m.spAddr k (d.toNat % 2 ^ 21)) (d.toNat % 2 ^ 18)

/-- An element on its way to the destination: the number that a fault names, its dense offset, value and poison. -/
structure Piece where
  num : Nat
  off : Nat
  val : Nat
  pois : Bool
  deriving DecidableEq, Repr

/-- Why an operation stops: the element, the kind and the reason of its copy fault. -/
abbrev SStop := Nat × BitVec 4 × BitVec 4

/-- Check the destination of pieces in order; a memory page is confirmed, so that no fault is deferred (R364). -/
def Mach.dstCheck (m : Mach) (a : Acc) (r : BitVec 768) (d : SDest) (es : Nat) : List Piece → Option SStop × Mach
  | [] => (none, m)
  | p :: l =>
    match d with
    | .mem b =>
      let va := b + w64 p.off
      match m.checkWrite a va with
      | (.fault c x, m) => (some (p.num, copyKind (c, x)), m)
      | (_, m) =>
        if va.toNat / 65536 = (va + w64 (es - 1)).toNat / 65536 then m.dstCheck a r d es l
        else match m.checkWrite a (va + w64 (es - 1)) with
          | (.fault c x, m) => (some (p.num, copyKind (c, x)), m)
          | (_, m) => m.dstCheck a r d es l
    | .sp rg l0 =>
      if (List.range es).all fun i => rg.has (lySwz r (l0 + p.off + i)) then m.dstCheck a r d es l else (some (p.num, 1, 0), m)

/-- Write pieces whose destination has been checked; none while a store must wait. -/
def Mach.dstWrite (m : Mach) (k : Nat) (a : Acc) (r : BitVec 768) (d : SDest) (es : Nat) (l : List Piece) : Option Mach :=
  match d with
  | .mem b =>
    let whole := b.toNat % es = 0
    let els := if whole then l.map fun p => (⟨p.num, b + w64 p.off, w64 p.val, p.pois⟩ : HeldEl)
      else l.flatMap fun p => (List.range es).map fun i => ⟨p.num, b + w64 (p.off + i), w64 (p.val / 256 ^ i % 256), p.pois⟩
    match m.store a 0 (if whole then es else 1) els with
    | .done m => some m
    | _ => none
  | .sp rg l0 =>
    some (m.spWrite k rg.core (l.flatMap fun p =>
      (bytesOf p.val p.pois es).zipIdx.map fun (x : (Byte × Bool) × Nat) =>
        (rg.lin (lyGran r) (lySwz r (l0 + p.off + x.2)), x.1.1, x.1.2)))

/-- The bytes of a group land in scratchpad: the byte barriers bound to its token count them (R293). -/
def Mach.barBytes (m : Mach) (k : Nat) (o : SOp) (d : SDest) (bytes : Nat) : Mach :=
  match d with
  | .mem _ => m
  | .sp .. => ((m.sx k).bars.filter fun b => b.tk == o.tk && b.since ≤ o.tick).foldl (fun m b =>
      let c := m.core (k / 2)
      let w := (m.spOwn k).lin barGran b.addr
      let (old, _) := gatherLe ((List.range 4).map fun i => c.spRd (w + i))
      let new := old + bytes
      let m := m.spWrite k (k / 2) ((leBytes (new % 2 ^ 32) 4).zipIdx.map fun (x : Byte × Nat) => (w + x.2, x.1, false))
      if new < b.target then m
      else (m.modSx k fun x => { x with bars := x.bars.filter (· != b) }).arriveFor k) m

/-! ## The groups of an operation (R217) -/

/-- What a group has read: its pieces, the token counts of each position, the stop, and the batch's sectors. -/
structure Grp where
  pieces : List Piece := []
  counts : List (Nat × Nat × Nat) := []
  stop : Option SStop := none
  cache : SecCache := []

/-- Land a group that ends at `fin`: the destination is checked, what lies below the first faulting element is written and counted, and the
token takes the fault or the operation goes on (R173, R217). `bytes` is the size of the whole group. -/
def Mach.grpLand (m0 m : Mach) (k i : Nat) (o : SOp) (a : Acc) (g : Grp) (fin last bytes : Nat) : Mach :=
  let es := (lyType o.rec_).size
  let d := m0.sDest k o
  let tk := o.tk.toNat
  let (st, m) := m.dstCheck a o.rec_ d es g.pieces
  let stop := st.or g.stop
  let lim := match stop with | some (e, _) => e | none => fin
  if stop.isSome && (m0.token (k / 2) tk).status == 3 then m0
  else match m.dstWrite k a o.rec_ d es (g.pieces.filter (·.num < lim)) with
    | none => m0
    | some m =>
      let cs := g.counts.filter (·.1 < lim)
      let m := m.modToken (k / 2) tk (·.count (cs.foldl (fun n c => n + c.2.1) 0) (cs.foldl (fun n c => n + c.2.2) 0))
      match stop with
      | some (e, kd, x) =>
        (m.modToken (k / 2) tk (·.fault 0x11 kd x e 0)).modOp k i fun o => { o with faulted := true, pos := e, cache := g.cache }
      | none =>
        let m := m.barBytes k o d bytes
        let m := m.modToken (k / 2) tk fun t => if t.status = 3 then t else { t with resume := fin }
        if fin < last then m.modOp k i fun o => { o with pos := fin, cache := g.cache }
        else (m.modOp k i fun o => { o with pos := fin, cache := [], landed := true }).opLanded k o

/-- The elements of a copy's group (R364). An error with the machine while a read must wait. -/
def Mach.cpyEls (m : Mach) (a : Acc) (r : BitVec 768) (es e : Nat) : Nat → Grp → Except Mach (Grp × Mach)
  | 0, g => .ok (g, m)
  | n + 1, g =>
    match lyElem r e with
    | .val v => m.cpyEls a r es (e + 1) n { g with pieces := g.pieces ++ [⟨e, e * es, v, false⟩] }
    | .mem va => match m.load a va es false with
      | (.ok (v, p), m) =>
        m.cpyEls a r es (e + 1) n { g with pieces := g.pieces ++ [⟨e, e * es, v, p⟩], counts := if p then g.counts ++ [(e, 0, 1)] else g.counts }
      | (.error none, m) => .error m
      | (.error (some f), m) => .ok ({ g with stop := some (e, copyKind f) }, m)

/-- A group of a copy. -/
def Mach.cpyGroup (m : Mach) (k i : Nat) (o : SOp) : Mach :=
  let es := (lyType o.rec_).size
  let per := 1024 / es
  let first := o.pos / per * per
  let fin := min (first + per) (lyCount o.rec_)
  let a := m.engAcc k o.asn o.lvl
  match m.cpyEls a o.rec_ es o.pos (fin - o.pos) {} with
  | .error m' => m.keepClose m' a.die
  | .ok (g, m') => m.grpLand m' k i o a g fin (lyCount o.rec_) ((fin - first) * es)

/-- A row of poisoned elements of free value (DESIGN CHOICE, safe, log 1). -/
def Mach.poisonRow (m : Mach) (es : Nat) : Nat → List (Nat × Bool) × Mach
  | 0 => ([], m)
  | n + 1 => let (v, m) := m.poisonVal es; let (l, m) := m.poisonRow es n; ((v, true) :: l, m)

/-- The row that a position takes on the gather side (R68, R367): none where the policy skips it, with its counts; `idx` says that
its index was poisoned. -/
structure RowRes where
  row : Option (List (Nat × Bool))
  oor : Nat := 0
  pois : Nat := 0
  idx : Bool := false

/-- Read the index of a position and the row it names. An error with the machine while a read must wait. -/
def Mach.gatherRow (m : Mach) (a : Acc) (o : SOp) (c : SecCache) (j : Nat) (dotp : Bool) :
    Except Mach (Except (BitVec 8 × BitVec 4) RowRes × SecCache × Mach) :=
  let r := o.rec_
  let es := (lyType r).size
  let w := lyWin r 0
  let bound := lyExt r 1
  let zero := List.replicate w (0, false)
  match m.rdAny a c (o.idx + w64 (j * o.it.size)) o.it.size with
  | (.error none, _, m) => .error m
  | (.error (some f), c, m) => .ok (.error f, c, m)
  | (.ok (_, true), c, m) => let (l, m) := m.poisonRow es w; .ok (.ok { row := some l, pois := 1, idx := true }, c, m)
  | (.ok (v, false), c, m) =>
    let x := idxVal o.it v
    let inside := 0 ≤ x && x < bound
    if !inside && (o.pol == .skip) then .ok (.ok { row := none, oor := 1 }, c, m)
    else if !inside && o.pol == .poison then let (l, m) := m.poisonRow es w; .ok (.ok { row := some l, oor := 1 }, c, m)
    else if !inside && (o.pol == .zero || bound = 0) then .ok (.ok { row := some zero, oor := 1 }, c, m)
    else
      let i := if inside then x.toNat else bound - 1
      match m.rdEls a es ((List.range w).map fun y => lyRow r i y) c [] with
      | .error m => .error m
      | .ok (.ok l, c, m) => .ok (.ok { row := some l, oor := nb !inside, pois := (l.filter (·.2)).length }, c, m)
      | .ok (.error f, c, m) =>
        if dotp then .ok (.ok { row := some (zero.map fun y => (y.1, true)), oor := nb !inside, pois := 1 }, c, m)
        else .ok (.error f, c, m)

/-- The rows of an `sgath` group, `n` positions from `j` on; `j0` is the position at dense offset 0. -/
def Mach.gathEls (m : Mach) (a : Acc) (o : SOp) (dotp : Bool) (j0 j : Nat) : Nat → Grp → Except Mach (Grp × Mach)
  | 0, g => .ok (g, m)
  | n + 1, g =>
    match m.gatherRow a o g.cache j dotp with
    | .error m => .error m
    | .ok (.error f, c, m) => .ok ({ g with stop := some (j, copyKind f), cache := c }, m)
    | .ok (.ok x, c, m) =>
      let es := (lyType o.rec_).size
      let ps := match x.row with
        | some l => l.zipIdx.map fun (y : (Nat × Bool) × Nat) => (⟨j, (j - j0) * rowBytes o.rec_ + y.2 * es, y.1.1, y.1.2⟩ : Piece)
        | none => []
      m.gathEls a o dotp j0 (j + 1) n { g with pieces := g.pieces ++ ps, counts := g.counts ++ [(j, x.oor, x.pois)], cache := c }

/-- A group of an `sgath` batch: whole rows that fill 1,024 bytes.
DEDUCED, unsafe (log 83). -/
def Mach.gathGroup (m : Mach) (k i : Nat) (o : SOp) (dotp : Bool) : Mach :=
  let lo := o.b * o.bsz
  let hi := min (lo + o.bsz) o.n
  let rb := rowBytes o.rec_
  let per := if rb = 0 then o.bsz else (1024 + rb - 1) / rb
  let first := lo + (o.pos - lo) / per * per
  let fin := min (first + per) hi
  let a := m.engAcc k o.asn o.lvl
  match m.gathEls a o dotp (if o.cb.isSome then lo else 0) o.pos (fin - o.pos) { cache := o.cache } with
  | .error m' => m.keepClose m' a.die
  | .ok (g, m') => m.grpLand m' k i o a g fin hi ((fin - first) * rb)

/-- One step of a bank adder (R67). -/
def bankArith (t : ETy) (op : BankOp) (x y : Nat) : Nat :=
  match t, op with
  | .i32, .add | .i64, .add => (x + y) % 2 ^ tbits t
  | .i32, .min | .i64, .min => if intVal t y < intVal t x then y else x
  | .i32, .max | .i64, .max => if intVal t x < intVal t y then y else x
  | t, .add => (fAdd t .rne x y).1
  | t, .min => (fMinMax t false x y).1
  | t, .max => (fMinMax t true x y).1

/-- Combine a bag's rows (R369): a poisoned index counts as it is met, poisoned elements with the output row; a stop keeps what is
combined. -/
def Mach.bagRows (m : Mach) (a : Acc) (o : SOp) (op : BankOp) (j : Nat) : Nat → SecCache → Option (List (Nat × Bool)) → Nat × Nat →
    Except Mach ((Option (Nat × BitVec 8 × BitVec 4) × SecCache × Option (List (Nat × Bool)) × Nat × Nat) × Mach)
  | 0, c, acc, ct => .ok ((none, c, acc, ct), m)
  | n + 1, c, acc, ct =>
    match m.gatherRow a o c j false with
    | .error m => .error m
    | .ok (.error f, c, m) => .ok ((some (j, f), c, acc, ct), m)
    | .ok (.ok x, c, m) =>
      let t := lyType o.rec_
      let acc := match acc, x.row with
        | acc, none => acc
        | none, some l => some l
        | some l, some r => some ((l.zip r).map fun (y : (Nat × Bool) × (Nat × Bool)) => (bankArith t op y.1.1 y.2.1, y.1.2 || y.2.2))
      m.bagRows a o op (j + 1) n c acc (ct.1 + x.oor, ct.2 + nb x.idx)

/-- A bag of an `sgred` lands as one group: its output row (R369).
DEDUCED, unsafe (log 81); DEDUCED, safe (log 84). -/
def Mach.bagGroup (m : Mach) (k i : Nat) (o : SOp) (op : BankOp) : Mach :=
  let lo := o.b * o.bsz
  let hi := lo + o.bsz
  let a := m.engAcc k o.asn o.lvl
  let es := (lyType o.rec_).size
  -- The rows that a bag had combined when its unit was saved are combined again; they have been counted (log 18).
  let before := if lo < o.pos && o.cache.isEmpty && o.acc.isNone then m.bagRows a o op lo (o.pos - lo) [] none (0, 0)
    else .ok ((none, o.cache, o.acc, 0, 0), m)
  let all := before.bind fun x => match x with
    | ((none, c, acc, _, _), m) => m.bagRows a o op o.pos (hi - o.pos) c acc (0, 0)
    | ((some f, c, acc, _, _), m) => .ok ((some f, c, acc, 0, 0), m)
  match all with
  | .error m' => m.keepClose m' a.die
  | .ok ((some (j, f), c, acc, oor, pi), m') =>
    if (m.token (k / 2) o.tk.toNat).status == 3 then m
    else
      let (kd, x) := copyKind f
      (m'.modToken (k / 2) o.tk.toNat fun t => (t.count oor pi).fault 0x11 kd x j 0).modOp k i fun o =>
        { o with faulted := true, pos := j, cache := c, acc := acc }
  | .ok ((none, _, acc, oor, pi), m') =>
    let out := acc.getD []
    let base := if o.cb.isSome then 0 else o.b * rowBytes o.rec_
    let ps := out.zipIdx.map fun (y : (Nat × Bool) × Nat) => (⟨lo, base + y.2 * es, y.1.1, y.1.2⟩ : Piece)
    let g : Grp := { pieces := ps, counts := [(lo, oor, pi + nb (out.any (·.2)))] }
    (m.grpLand m' k i { o with acc := none } a g hi hi (rowBytes o.rec_)).modOp k i fun o => { o with acc := none }

/-- What an `sscadd` batch has read: its updates with their table addresses, the counts of each position, and the stop. -/
structure AddGrp where
  els : List HeldEl := []
  counts : List (Nat × Nat × Nat) := []
  stop : Option (Nat × BitVec 8 × BitVec 4) := none
  cache : SecCache := []

/-- The updates of an `sscadd` batch, positions in ascending order (R370). An error with the machine while a read must
wait. -/
def Mach.addRows (m : Mach) (a : Acc) (o : SOp) (j : Nat) : Nat → AddGrp → Except Mach (AddGrp × Mach)
  | 0, g => .ok (g, m)
  | n + 1, g =>
    let r := o.rec_
    let es := (lyType r).size
    let bound := lyExt r 1
    match m.rdAny a g.cache (o.idx + w64 (j * o.it.size)) o.it.size with
    | (.error none, _, m) => .error m
    | (.error (some f), _, m) => .ok ({ g with stop := some (j, f) }, m)
    | (.ok (_, true), c, m) => m.addRows a o (j + 1) n { g with cache := c, counts := g.counts ++ [(j, 0, 1)] }
    | (.ok (v, false), c, m) =>
      let x := idxVal o.it v
      let inside := 0 ≤ x && x < bound
      let g := { g with cache := c, counts := g.counts ++ [(j, nb !inside, 0)] }
      if !inside && (o.pol != .clamp || bound = 0) then m.addRows a o (j + 1) n g
      else
        let i := if inside then x.toNat else bound - 1
        let src := (List.range (lyWin r 0)).map fun y => ElSrc.mem ((o.dst.getD 0) + w64 (j * rowBytes r + y * es))
        match m.rdEls a es src c [] with
        | .error m => .error m
        | .ok (.error f, _, m) => .ok ({ g with stop := some (j, f) }, m)
        | .ok (.ok l, c, m) =>
          let new := l.zipIdx.filterMap fun (y : (Nat × Bool) × Nat) => match lyRow r i y.2 with
            | .mem va => some (⟨j, va, w64 y.1.1, y.1.2⟩ : HeldEl)
            | .val _ => none
          m.addRows a o (j + 1) n { g with cache := c, els := g.els ++ new }

/-- Send the updates of a batch, counted on its token. -/
def Mach.sendTok (m : Mach) (a : Acc) (t : ETy) (op : BankOp) (tok : BitVec 10 × BitVec 3) : List HeldEl → Option Mach
  | [] => some m
  | e :: r => (m.sendUpd a e.va t op e.val.toNat e.pois (some tok) none).bind fun m => m.sendTok a t op tok r

/-- A batch of `sscadd` sends its updates (R370): its table pages are confirmed first, and a fault at a position applies those below it. -/
def Mach.scaddGroup (m : Mach) (k i : Nat) (o : SOp) (op : BankOp) : Mach :=
  let lo := o.b * o.bsz
  let hi := min (lo + o.bsz) o.n
  let a := m.engAcc k o.asn o.lvl
  let tk := o.tk.toNat
  match m.addRows a o o.pos (hi - o.pos) {} with
  | .error m1 => m.keepClose m1 a.die
  | .ok (g, m1) =>
    let (f, m1) := match m1.confirmAll a g.els with
      | .error (c, x, el) => (some (el.e, c, x), m1)
      | .ok m1 => (g.stop, m1)
    let lim := match f with | some (e, _) => e | none => hi
    if f.isSome && (m.token (k / 2) tk).status == 3 then m
    else match m1.sendTok a (lyType o.rec_) op (BitVec.ofNat 10 k, o.tk) (g.els.filter (·.e < lim)) with
      | none => m
      | some m =>
        let cs := g.counts.filter (·.1 < lim)
        let m := m.modToken (k / 2) tk (·.count (cs.foldl (fun n c => n + c.2.1) 0) (cs.foldl (fun n c => n + c.2.2) 0))
        match f with
        | some (e, c) =>
          let (kd, x) := copyKind c
          (m.modToken (k / 2) tk (·.fault 0x11 kd x e 0)).modOp k i fun o => { o with faulted := true, pos := e }
        | none =>
          (m.modToken (k / 2) tk fun t => if t.status = 3 then t else { t with resume := hi }).modOp k i fun o =>
            { o with pos := hi, landed := true }

/-! ## The order of operations (R172, R195) -/

/-- The order in which the groups of two commands land is left open: both write slots of one circular buffer, and a slot that completes early
waits for every older one (R171). All other accesses of the queue arrive in the order in which they were accepted (R165, R195). -/
def SOp.apart (x y : SOp) : Bool := x.cb.isSome && x.cb == y.cb

/-- The side has landed, and its commands of level U stand still until it is back at U (R222), or its unit runs no further (R120). -/
def Mach.still (m : Mach) (k : Nat) (o : SOp) : Bool := ((m.side k).landed || (m.side k).cancelTold) && o.lvl == .U

/-- A group of the `i`-th command may land: its operation has started, and every older command of the queue is apart from it; after a
landing the commands of level U stand still (R222).
DEDUCED, unsafe (log 77). -/
def Mach.mayLand (m : Mach) (k i : Nat) (o : SOp) : Bool :=
  o.started && !o.landed && !o.faulted && !m.still k o && ((m.sx k).sq.take i).all fun x => x.faulted || x.apart o

/-- COPY_GROUP_LANDING (R217): the next element group of a command lands. -/
def execCopyGroupLanding (side : BitVec 10) (i : BitVec 8) (s : State) : Host.Outcome State Fault Refusal :=
  run (fun m =>
    let k := side.toNat
    if !m.owns k 7 then m
    else match (m.sx k).sq[i.toNat]? with
      | none => m
      | some o =>
        if !m.mayLand k i.toNat o then m
        else match o.kind with
          | .cpy => m.cpyGroup k i.toNat o
          | .sgath p => m.gathGroup k i.toNat o p
          | .sgred op => m.bagGroup k i.toNat o op
          | .sscadd op => m.scaddGroup k i.toNat o op) s

/-- The current operation of the `i`-th command is counted in its token's pend (R172). -/
def Mach.inPend (m : Mach) (k i : Nat) (o : SOp) : Bool :=
  let ahead := ((m.sx k).sq.take i).foldl (fun n x => if x.tk == o.tk then n + (x.ops - x.b) else n) 0
  ahead < (m.token (k / 2) o.tk.toNat).pend

/-- The current operation of a command may start: counted in pend, no marker ahead of it, and a slot to claim (R171, R195). -/
def Mach.mayStart (m : Mach) (k i : Nat) (o : SOp) : Bool :=
  !o.started && !o.faulted && !m.still k o && m.inPend k i o && !m.markBlocks k 2 o.tick
    && (match o.cb, o.slot with | some c, none => !(m.cbuf k c).full | _, _ => true)

/-- STREAM_OPERATION_START (R171, R367): the oldest operation that may start does. -/
def execStreamOperationStart (side : BitVec 10) (s : State) : Host.Outcome State Fault Refusal :=
  run (fun m =>
    let k := side.toNat
    if !m.owns k 7 then m
    else match (m.sx k).sq.zipIdx.find? fun (x : SOp × Nat) => m.mayStart k x.2 x.1 with
      | none => m
      | some (o, i) =>
        let (o, m) := m.claim k o
        m.modOp k i fun _ => { o with started := true }) s

/-- An update that a token counts is still on its way (R67). -/
def Mach.updOpen (m : Mach) (tok : BitVec 10 × BitVec 3) : Bool :=
  let is := fun (u : BankUpd) => u.tok == some tok
  let has := fun (w : BWrite) => match w with | .upd u => is u | _ => false
  m.dev.dies.any fun (_, d) => d.upds.any is || d.batch.any has || d.rx.any fun b => b.ws.any has

/-- STREAM_OPERATION_FINISH (R173): operations finish in the order of the queue, once their bytes have landed and their updates are
applied. -/
def execStreamOperationFinish (side : BitVec 10) (s : State) : Host.Outcome State Fault Refusal :=
  run (fun m =>
    let k := side.toNat
    if !m.owns k 7 then m
    else match (m.sx k).sq.zipIdx.find? fun (x : SOp × Nat) => !x.1.faulted with
      | none => m
      | some (o, i) =>
        let isAdd := match o.kind with | .sscadd _ => true | _ => false
        if !o.landed || (isAdd && m.updOpen (side, o.tk)) then m
        else
          let m := m.modToken (k / 2) o.tk.toNat Token.finish
          if o.ops ≤ o.b + 1 then m.modSx k fun x => { x with sq := x.sq.eraseIdx i }
          else m.modOp k i fun o => { o with b := o.b + 1, started := false, landed := false, slot := none, cache := [], acc := none }) s

/-- STREAM_PORT_FETCH (R174): a port reads ahead, up to four groups of the greatest vector. -/
def execStreamPortFetch (side : BitVec 10) (sp : BitVec 3) (s : State) : Host.Outcome State Fault Refusal :=
  run (fun m =>
    let k := side.toNat
    let q := (m.sx k).sp.get {} sp.toNat
    let view := (m.side k).vtype.getLsbD 7
    if !m.owns k 7 || (m.side k).landed || (m.side k).cancelTold || 4096 ≤ (q.avail view).length then m
    else match m.portFill k sp.toNat ((q.avail view).length + 1) view 1 with
      | .error m1 => m.keepClose m1 (k / 256)
      | .ok m => m) s

end Sys2Proof.Machine
end

