-- ==== Sys2Proof/Machine/Text.lean ====
section
/-! DEFINITION. The text engine (R181 to R185, R380 to R386): its instructions, and the commands it performs. -/

namespace Sys2Proof.Machine
open Sys2Proof

/-! ## UTF-8 (R183) -/

/-- What stands at the front of some bytes: a character with its length and code point, the first byte of an ill-formed subpart with the
subpart's length, or a proper prefix of a character. -/
inductive Utf where
  | char (n cp : Nat)
  | bad (n : Nat)
  | more
  deriving DecidableEq, Repr

/-- The length of a character by its first byte, and the range of its second. -/
def utfLead (b : Nat) : Option (Nat × Nat × Nat) :=
  if 0xc2 ≤ b && b ≤ 0xdf then some (2, 0x80, 0xbf)
  else if b = 0xe0 then some (3, 0xa0, 0xbf)
  else if b = 0xed then some (3, 0x80, 0x9f)
  else if 0xe1 ≤ b && b ≤ 0xef then some (3, 0x80, 0xbf)
  else if b = 0xf0 then some (4, 0x90, 0xbf)
  else if b = 0xf4 then some (4, 0x80, 0x8f)
  else if 0xf1 ≤ b && b ≤ 0xf3 then some (4, 0x80, 0xbf)
  else none

/-- A continuation byte. -/
def utfCont (b : Nat) : Bool := 0x80 ≤ b && b ≤ 0xbf

/-- The front of a list of bytes; the empty list is a prefix of every character. -/
def utf8 (l : List Byte) : Utf :=
  match l.map (·.toNat) with
  | [] => .more
  | a :: r =>
    if a < 0x80 then .char 1 a
    else match utfLead a, r with
      | none, _ => .bad 1
      | some _, [] => .more
      | some (n, lo, hi), b :: r =>
        if b < lo || hi < b then .bad 1
        else if n = 2 then .char 2 (a % 32 * 64 + b % 64)
        else match r with
          | [] => .more
          | c :: r =>
            if !utfCont c then .bad 2
            else if n = 3 then .char 3 (a % 16 * 4096 + b % 64 * 64 + c % 64)
            else match r with
              | [] => .more
              | d :: _ => if utfCont d then .char 4 (a % 8 * 262144 + b % 64 * 4096 + c % 64 * 64 + d % 64) else .bad 3

/-- U+FFFD. -/
def utfSub : List Byte := [0xef, 0xbf, 0xbd]

/-- Decode bytes: the complete characters with each ill-formed subpart replaced, and the prefix that is left. -/
def utfDecode : Nat → List Byte → List Byte → List Byte × List Byte
  | 0, l, out => (out, l)
  | k + 1, l, out =>
    if l.isEmpty then (out, [])
    else match utf8 l with
      | .char n _ => utfDecode k (l.drop n) (out ++ l.take n)
      | .bad n => utfDecode k (l.drop n) (out ++ utfSub)
      | .more => (out, l)

/-! ## Context images (R182) -/

/-- The image of a context, 256 bytes. -/
def TextCtx.image (c : TextCtx) : List Byte :=
  let pad := fun (n : Nat) (l : List Byte) => l.take n ++ List.replicate (n - l.length) 0
  pad 3 c.held ++ [BitVec.ofNat 8 c.held.length] ++ leBytes c.ca.toNat 2 ++ [BitVec.ofNat 8 c.pend.length] ++ List.replicate 9 0 ++ pad 48 c.pend
    ++ leBytes c.cg.toNat 4 ++ [BitVec.ofNat 8 c.stack.length] ++ List.replicate 59 0 ++ pad 128 (c.stack.flatMap fun s => leBytes s.toNat 2)

/-- The context of an image, or the byte offset of the first invalid field. -/
def ctxOfImage (l : List Byte) : Except Nat TextCtx :=
  let at_ := fun lo n => (l.drop lo).take n
  let num := fun lo n => leNat (at_ lo n)
  let cnt := num 3 1 % 4
  let held := at_ 0 cnt
  let depth := num 68 1
  let bads : List (Nat × Bool) := [(0, cnt ≠ 0 && utf8 held != .more), (3, 4 ≤ num 3 1), (4, 4096 ≤ num 4 2), (6, 48 < num 6 1),
    (7, num 7 9 ≠ 0), (64, 2 ^ 18 ≤ num 64 4), (68, 64 < depth), (69, num 69 59 ≠ 0)]
    ++ (List.range (min depth 64)).map fun i => (128 + 2 * i, decide (4096 ≤ num (128 + 2 * i) 2))
  match bads.find? (·.2) with
  | some (o, _) => .error o
  | none => .ok { held := held, ca := BitVec.ofNat 12 (num 4 2), pend := at_ 16 (num 6 1), cg := BitVec.ofNat 18 (num 64 4)
                  stack := (List.range depth).map fun i => BitVec.ofNat 12 (num (128 + 2 * i) 2) }

/-! ## Instructions (R380, R381, R386) -/

/-- A side may use its cluster's text engine (R37, R79): its partition lists the feature and owns the engine of that cluster.
DEDUCED, unsafe (log 154). -/
def Mach.textOk (m : Mach) : Bool :=
  m.hasCap 0x10 && (match m.mySide.pid with | some p => m.dev.textPid.get none (clusterOf m.myNo) == some p | none => false)

/-- The common issue of the text instructions (R380, R382): capability, the SX pipe, and the recorded stop cause. -/
def Mach.text (m : Mach) (a : Src) (k : Mach → Mach) : Mach := m.engine .S 7 m.textOk none [a] 0 (·.textStop k)

/-- Accept a command block into the T queue (R381). -/
def Mach.tAccept (m : Mach) (kind : TKind) (final : Bool) (a : Src) : Mach :=
  m.text a fun m =>
    let va := m.val a
    if va.toNat % 128 ≠ 0 then m.trapV 0x07 va
    else if !m.scalarsDone then m.stay
    else m.readPages [va] fun m => m.writePages [va] fun m =>
      match m.loadWords m.myAcc va 8 with
      | (.error (some (c, x, v)), m) => m.accFault v c x
      | (.error none, m) => m.stay
      | (.ok l, m) =>
        if l.any (·.2) then m.trapV 0x0c 0x4000
        else match m.store m.myAcc m.me.pc 1 [⟨0, va + 127, 0, false⟩] with
          | .wait m => m.stay
          | .fault c x _ m => m.accFault (va + 127) c x
          | .done m =>
            let (t, m) := m.tick
            let c : TCmd := { kind := kind, final := final, block := va, params := l.flatMap fun w => leBytes w.1.toNat 8
                              asn := m.mySide.asn, lvl := m.me.level, tick := t }
            (m.modMySide fun s => { s with tq := s.tq ++ [c] }).retire

/-- `txenc` (R383). -/
def execTxenc (a : Src) (final : Bool) (s : State) : Host.Outcome State Fault Refusal := run (fun m => m.tAccept .enc final a) s
/-- `txdec` (R384). -/
def execTxdec (a : Src) (final : Bool) (s : State) : Host.Outcome State Fault Refusal := run (fun m => m.tAccept .dec final a) s
/-- `txmask` (R385). -/
def execTxmask (a : Src) (s : State) : Host.Outcome State Fault Refusal := run (fun m => m.tAccept .mask false a) s
/-- `txstep` (R385). -/
def execTxstep (a : Src) (s : State) : Host.Outcome State Fault Refusal := run (fun m => m.tAccept .step false a) s

/-- `txsave` (R386): its pages are confirmed first, so its faults are precise (R51). -/
def execTxsave (a : Src) (s : State) : Host.Outcome State Fault Refusal :=
  run (fun m => m.text a fun m =>
    let va := m.val a
    if !m.mySide.tq.isEmpty then m.stay
    else if va.toNat % 128 ≠ 0 then m.trapV 0x07 va
    else m.writePages (pagesOf va 256) fun m =>
      let v := leNat m.mySide.text.image
      match m.store m.myAcc m.me.pc 8 ((List.range 32).map fun i => ⟨i, va + w64 (8 * i), w64 (v / 2 ^ (64 * i)), false⟩) with
      | .done m => m.retire
      | .wait m => m.stay
      | .fault c x el m => m.accFault el.va c x) s

/-- `txload` (R386). -/
def execTxload (a : Src) (s : State) : Host.Outcome State Fault Refusal :=
  run (fun m => m.text a fun m =>
    let va := m.val a
    if !m.mySide.tq.isEmpty then m.stay
    else if va.toNat % 128 ≠ 0 then m.trapV 0x07 va
    else match m.loadWords m.myAcc va 32 with
      | (.error (some (c, x, v)), m) => m.accFault v c x
      | (.error none, m) => m.stay
      | (.ok l, m) =>
        if l.any (·.2) then m.trapV 0x0c 0x4000
        else match ctxOfImage (l.flatMap fun w => leBytes w.1.toNat 8) with
          | .error o => m.trapV 0x1c (w64 o)
          | .ok c => (m.modMySide fun s => { s with text := c }).retire) s

/-! ## Performing a command (R381) -/

/-- Why a command stops early: a status of its own, a failed access, a poisoned byte, or a read that must wait, which may close its die's batch
(R198). -/
inductive TxStop where
  | status (n : Nat)
  | fault (c : BitVec 8) (r : BitVec 4) (va : Word)
  | poison
  | wait (closes : Bool)
  deriving DecidableEq, Repr

/-- Read `n` aligned bytes for the text engine. -/
def Mach.txRd (m : Mach) (a : Acc) (va : Word) (n : Nat) : Except TxStop (Nat × Mach) :=
  match m.load a va n false with
  | (.ok (v, false), m) => .ok (v, m)
  | (.ok (_, true), _) => .error .poison
  | (.error none, m) => .error (.wait (m.die a.die).batch.isEmpty)
  | (.error (some (c, r)), _) => .error (.fault c r va)

/-- Read `n` bytes one by one. -/
def Mach.txBytes (m : Mach) (a : Acc) (va : Word) : Nat → Except TxStop (List Byte × Mach)
  | 0 => .ok ([], m)
  | n + 1 => do
    let (b, m) ← m.txRd a va 1
    let (l, m) ← m.txBytes a (va + 1) n
    return (BitVec.ofNat 8 b :: l, m)

/-- Confirm the page of every element. -/
def Mach.confirmPages (m : Mach) (a : Acc) : List HeldEl → Except (BitVec 8 × BitVec 4 × HeldEl) Mach
  | [] => .ok m
  | e :: r => match m.checkWrite a e.va with
    | (.fault c x, _) => .error (c, x, e)
    | (_, m) => m.confirmPages a r

/-- Write items of `es` bytes; each page is confirmed before any is written. -/
def Mach.txWr (m : Mach) (a : Acc) (va : Word) (es : Nat) (l : List Nat) : Except TxStop Mach :=
  let els := l.zipIdx.map fun (x : Nat × Nat) => (⟨x.2, va + w64 (es * x.2), w64 x.1, false⟩ : HeldEl)
  match m.confirmPages a els with
  | .error (c, r, e) => .error (.fault c r e.va)
  | .ok m => match m.store a 0 es els with
    | .done m => .ok m
    | .wait _ => .error (.wait false)
    | .fault c r e _ => .error (.fault c r e.va)

/-- How far a command has come: the context, the consumed and produced counts, and the detail word. -/
structure TxPos where
  ctx : TextCtx
  used : Nat := 0
  made : Nat := 0
  detail : Word := 0
  deriving DecidableEq, Repr

/-- A parameter of a command. -/
def TCmd.par (c : TCmd) (lo n : Nat) : Nat := leNat ((c.params.drop lo).take n)

/-! ### Encoding (R184, R383) -/

/-- The tables and buffers of an encode command. -/
structure EncPar where
  inp : Word
  out : Word
  len : Nat
  cap : Nat
  cls : Word
  trans : Word
  mrg : Word
  m : Nat
  deriving DecidableEq, Repr

/-- Look a pair up in the merge table: its rank and merged id. -/
def Mach.mergeFind (m : Mach) (a : Acc) (p : EncPar) (l r : Nat) (b : Nat) : Nat → Except TxStop (Option (Nat × Nat) × Mach)
  | 0 => .ok (none, m)
  | n + 1 => do
    let at_ := p.mrg + w64 (16 * (b % 2 ^ p.m))
    let (x, m) ← m.txRd a at_ 8
    let (y, m) ← m.txRd a (at_ + 8) 8
    if x / 2 ^ 40 ≠ 0 then .error (.status 3)
    else if y % 2 ^ 32 = 0xffffffff then return (none, m)
    else if x % 2 ^ 20 = l && x / 2 ^ 20 % 2 ^ 20 = r then return (some (y % 2 ^ 32, y / 2 ^ 32 % 2 ^ 20), m)
    else m.mergeFind a p l r (b + 1) n

/-- The bucket at which a search for a pair starts. -/
def mergeHash (p : EncPar) (l r : Nat) : Nat := (l * 2 ^ 20 + r) * 0x9e3779b97f4a7c15 % 2 ^ 64 / 2 ^ (64 - p.m)

/-- The lowest rank among the adjacent pairs, leftmost on a tie: its place and its merged id. -/
def Mach.mergeBest (m : Mach) (a : Acc) (p : EncPar) : Nat → List Nat → Option (Nat × Nat × Nat) → Except TxStop (Option (Nat × Nat × Nat) × Mach)
  | i, l :: r :: t, best => do
    let (f, m) ← m.mergeFind a p l r (mergeHash p l r) (2 ^ p.m)
    let best := match f, best with
      | none, b => b
      | some (k, id), none => some (k, i, id)
      | some (k, id), some (k', i', id') => if k < k' then some (k, i, id) else some (k', i', id')
    m.mergeBest a p (i + 1) (r :: t) best
  | _, _, best => .ok (best, m)

/-- Merge a pre-token until no adjacent pair is in the table. -/
def Mach.mergeAll (m : Mach) (a : Acc) (p : EncPar) : Nat → List Nat → Except TxStop (List Nat × Mach)
  | 0, l => .ok (l, m)
  | n + 1, l => do
    match ← m.mergeBest a p 0 l none with
    | (none, m) => return (l, m)
    | (some (_, i, id), m) => m.mergeAll a p n (l.take i ++ [id] ++ l.drop (i + 2))

/-- Emit a pre-token: its ids whole, or status 1. -/
def Mach.emit (m : Mach) (a : Acc) (p : EncPar) (made : Nat) (bs : List Byte) : Except TxStop (Nat × Mach) :=
  if bs.isEmpty then .ok (made, m)
  else do
    let (ids, m) ← m.mergeAll a p 48 (bs.map (·.toNat))
    if p.cap < made + ids.length then .error (.status 1)
    else
      let m ← m.txWr a (p.out + w64 (4 * made)) 4 ids
      return (made + ids.length, m)

/-- The automaton on a character: its next state and the boundary bit. -/
def Mach.classStep (m : Mach) (a : Acc) (p : EncPar) (st cp : Nat) : Except TxStop ((Nat × Bool) × Mach) := do
  let (off, m) ← m.txRd a (p.cls + w64 (4 * (cp / 256))) 4
  let (c, m) ← m.txRd a (p.cls + w64 (off + cp % 256)) 1
  if 64 ≤ c then .error (.status 3)
  else
    let (t, m) ← m.txRd a (p.trans + w64 (2 * (64 * st + c))) 2
    if 2 ^ 13 ≤ t then .error (.status 3) else return ((t % 4096, t / 4096 % 2 == 1), m)

/-- The bytes of the next character, read one by one until they decide it. -/
def Mach.encChar (m : Mach) (a : Acc) (p : EncPar) (held : List Byte) (pos : Nat) : Nat → List Byte → Except TxStop (List Byte × Mach)
  | 0, l => .ok (l, m)
  | n + 1, l =>
    let i := pos + l.length
    if held.length + p.len ≤ i || (!l.isEmpty && utf8 l != .more) then .ok (l, m)
    else match held[i]? with
      | some b => m.encChar a p held pos n (l ++ [b])
      | none => do
        let (b, m) ← m.txRd a (p.inp + w64 (i - held.length)) 1
        m.encChar a p held pos n (l ++ [BitVec.ofNat 8 b])

/-- The position of an encode command at a pre-token boundary: what is left of the held bytes stays in the carry state. -/
def encPos (c : TextCtx) (pos st made : Nat) : TxPos :=
  { ctx := { c with held := c.held.drop pos, pend := [], ca := BitVec.ofNat 12 st }, used := pos - c.held.length, made := made }

/-- Run an encode command from sequence position `pos` on; `pend` is the pre-token in hand, `st` the automaton state, and `last` the
position to which a stop goes back.
DEDUCED, unsafe (log 87). -/
def Mach.encGo (m : Mach) (a : Acc) (p : EncPar) (final : Bool) (c0 : TextCtx) (pos : Nat) (pend : List Byte) (st : Nat) (last : TxPos) :
    Nat → (TxPos × Option TxStop) × Mach
  | 0 => ((last, none), m)
  | n + 1 =>
    match m.encChar a p c0.held pos 4 [] with
    | .error e => ((last, some e), m)
    | .ok (l, m) =>
      let one := fun (m : Mach) => match m.emit a p last.made pend with
        | .error e => ((last, some e), m)
        | .ok (made, m) =>
          let last := encPos c0 pos st made
          match m.emit a p made (l.take 1) with
          | .error e => ((last, some e), m)
          | .ok (made, m) => m.encGo a p final c0 (pos + 1) [] 0 (encPos c0 (pos + 1) 0 made) n
      if l.isEmpty then
        if final then match m.emit a p last.made pend with
          | .error e => ((last, some e), m)
          | .ok (made, m) => ((encPos c0 pos 0 made, none), m)
        else (({ ctx := { c0 with held := [], pend := pend, ca := BitVec.ofNat 12 st }, used := p.len, made := last.made }, none), m)
      else match utf8 l with
        | .more =>
          if final then one m
          else (({ ctx := { c0 with held := l, pend := pend, ca := BitVec.ofNat 12 st }, used := p.len, made := last.made }, none), m)
        | .bad _ => one m
        | .char k cp =>
          match m.classStep a p st cp with
          | .error e => ((last, some e), m)
          | .ok ((nx, cut), m) =>
            if (cut || 48 < pend.length + k) && !pend.isEmpty then
              match m.emit a p last.made pend with
              | .error e => ((last, some e), m)
              | .ok (made, m) => m.encGo a p final c0 (pos + k) (l.take k) nx (encPos c0 pos st made) n
            else m.encGo a p final c0 (pos + k) (pend ++ l.take k) nx last n

/-- An encode command (R383). -/
def Mach.encRun (m : Mach) (a : Acc) (c : TCmd) (ctx : TextCtx) : (TxPos × Option TxStop) × Mach :=
  let p : EncPar := { inp := w64 (c.par 0 8), out := w64 (c.par 8 8), len := c.par 16 4, cap := c.par 20 4, cls := w64 (c.par 24 8)
                      trans := w64 (c.par 32 8), mrg := w64 (c.par 40 8), m := c.par 48 1 }
  let here : TxPos := { ctx := ctx }
  if p.out.toNat % 4 ≠ 0 || p.cls.toNat % 4 ≠ 0 || p.trans.toNat % 2 ≠ 0 || p.mrg.toNat % 16 ≠ 0 || p.m = 0 || 28 < p.m || c.par 49 15 ≠ 0 then
    ((here, some (.status 3)), m)
  else m.encGo a p c.final ctx 0 ctx.pend ctx.ca.toNat here (ctx.held.length + p.len + 1)

/-! ### Decoding (R183, R384) -/

/-- Decode ids from index `i` on. -/
def Mach.decGo (m : Mach) (a : Acc) (inp out tab : Word) (cap v : Nat) (i : Nat) (pos : TxPos) : Nat → (TxPos × Option TxStop) × Mach
  | 0 => ((pos, none), m)
  | n + 1 =>
    let one : Except TxStop (TxPos × Mach) := do
      let (id, m) ← m.txRd a (inp + w64 (4 * i)) 4
      if v ≤ id then .error (.status 2)
      else
        let (e, m) ← m.txRd a (tab + w64 (8 * id)) 8
        if e / 2 ^ 56 ≠ 0 then .error (.status 3)
        else if e / 2 ^ 48 % 256 = 0 then .error (.status 2)
        else
          let (bs, m) ← m.txBytes a (tab + w64 (e % 2 ^ 48)) (e / 2 ^ 48 % 256)
          let l := pos.ctx.held ++ bs
          let (o, held) := utfDecode l.length l []
          if cap < pos.made + o.length then .error (.status 1)
          else
            let m ← m.txWr a (out + w64 pos.made) 1 (o.map (·.toNat))
            return ({ pos with ctx := { pos.ctx with held := held }, used := pos.used + 1, made := pos.made + o.length }, m)
    match one with
    | .error e => ((pos, some e), m)
    | .ok (pos, m) => m.decGo a inp out tab cap v (i + 1) pos n

/-- A decode command (R384). -/
def Mach.decRun (m : Mach) (a : Acc) (c : TCmd) (ctx : TextCtx) : (TxPos × Option TxStop) × Mach :=
  let inp := w64 (c.par 0 8)
  let out := w64 (c.par 8 8)
  let tab := w64 (c.par 24 8)
  let cap := c.par 20 4
  let v := c.par 32 4
  let here : TxPos := { ctx := ctx }
  if inp.toNat % 4 ≠ 0 || tab.toNat % 8 ≠ 0 || v = 0 || 2 ^ 20 < v || c.par 36 28 ≠ 0 then ((here, some (.status 3)), m)
  else
    let ((pos, st), m) := m.decGo a inp out tab cap v 0 here (c.par 16 4)
    if st.isSome || !c.final || pos.ctx.held.isEmpty then ((pos, st), m)
    else if cap < pos.made + 3 then ((pos, some (.status 1)), m)
    else match m.txWr a (out + w64 pos.made) 1 (utfSub.map (·.toNat)) with
      | .error e => ((pos, some e), m)
      | .ok m => (({ pos with ctx := { pos.ctx with held := [] }, made := pos.made + 3 }, none), m)

/-! ### Constrained generation (R185, R385) -/

/-- A state record. -/
structure StRec where
  mask : Word
  trans : Word
  count : Nat
  acc : Bool
  deriving DecidableEq, Repr

/-- Read a state record. -/
def Mach.stRec (m : Mach) (a : Acc) (tab : Word) (g : Nat) : Except TxStop (StRec × Mach) := do
  let at_ := tab + w64 (24 * g)
  let (x, m) ← m.txRd a at_ 8
  let (y, m) ← m.txRd a (at_ + 8) 8
  let (z, m) ← m.txRd a (at_ + 16) 8
  if z / 2 ^ 33 % 128 ≠ 0 then .error (.status 3)
  else return ({ mask := w64 x, trans := w64 y, count := z % 2 ^ 32, acc := z / 2 ^ 32 % 2 == 1 }, m)

/-- Copy the bytes of a mask; bits for ids from `v` on are 0. -/
def Mach.maskGo (m : Mach) (a : Acc) (src out : Word) (v : Nat) (pos : TxPos) : Nat → (TxPos × Option TxStop) × Mach
  | 0 => ((pos, none), m)
  | n + 1 =>
    let i := pos.made
    let one : Except TxStop Mach := do
      let (b, m) ← m.txRd a (src + w64 i) 1
      m.txWr a (out + w64 i) 1 [if v < 8 * (i + 1) then b % 2 ^ (v - 8 * i) else b]
    match one with
    | .error e => ((pos, some e), m)
    | .ok m => m.maskGo a src out v { pos with made := i + 1 } n

/-- `txmask` as a command. -/
def Mach.maskRun (m : Mach) (a : Acc) (c : TCmd) (ctx : TextCtx) : (TxPos × Option TxStop) × Mach :=
  let tab := w64 (c.par 0 8)
  let v := c.par 16 4
  let here : TxPos := { ctx := ctx }
  if tab.toNat % 8 ≠ 0 || v = 0 || 2 ^ 20 < v || c.par 20 44 ≠ 0 then ((here, some (.status 3)), m)
  else match m.stRec a tab ctx.cg.toNat with
    | .error e => ((here, some e), m)
    | .ok (r, m) =>
      if r.mask.toNat % 128 ≠ 0 then ((here, some (.status 3)), m) else m.maskGo a r.mask (w64 (c.par 8 8)) v here ((v + 7) / 8)

/-- The first transition that matches an id and the stack top. -/
def Mach.transFind (m : Mach) (a : Acc) (t : Nat) (top : Option (BitVec 12)) (va : Word) : Nat → Except TxStop (Option Nat × Mach)
  | 0 => .ok (none, m)
  | n + 1 => do
    let (x, m) ← m.txRd a va 8
    let need := x / 2 ^ 20 % 2 ^ 12
    if x % 2 ^ 20 = t && (need = 0xfff || (match top with | some s => s.toNat == need | none => false)) then return (some x, m)
    else m.transFind a t top (va + 8) n

/-- The stack after a transition's action; none for a refused one. -/
def stackAct (x : Nat) (l : List (BitVec 12)) : Option (List (BitVec 12)) :=
  match x / 2 ^ 32 % 4 with
  | 0 => some l
  | 1 => if 64 ≤ l.length then none else some (l ++ [BitVec.ofNat 12 (x / 2 ^ 34)])
  | 2 => if l.isEmpty then none else some l.dropLast
  | _ => none

/-- `txstep` as a command. A stop shows the state that the command was in and its accepting bit, which is 0 where its record cannot be read
(DEDUCED, unsafe, log 88). -/
def Mach.stepRun (m : Mach) (a : Acc) (c : TCmd) (ctx : TextCtx) : (TxPos × Option TxStop) × Mach :=
  let tab := w64 (c.par 0 8)
  let t := c.par 8 8
  let here : TxPos := { ctx := ctx }
  let shown := fun (g : BitVec 18) (acc : Bool) => w64 (g.toNat + 2 ^ 32 * nb acc)
  let first := if tab.toNat % 8 ≠ 0 then .error (.status 3) else m.stRec a tab ctx.cg.toNat
  match first with
  | .error e => (({ here with detail := shown ctx.cg false }, some e), m)
  | .ok (r, m) =>
    let refused : TxPos := { here with detail := shown ctx.cg r.acc }
    let go : Except TxStop ((TxPos × Option TxStop) × Mach) := do
      if 2 ^ 20 ≤ t || c.par 16 48 ≠ 0 || r.trans.toNat % 8 ≠ 0 then .error (.status 3)
      else
        match ← m.transFind a t ctx.stack.getLast? r.trans r.count with
        | (none, m) => return ((refused, some (.status 4)), m)
        | (some x, m) => match stackAct x ctx.stack with
          | none => return ((refused, some (.status 4)), m)
          | some st =>
            let g := BitVec.ofNat 18 (x / 2 ^ 46)
            let (r, m) ← m.stRec a tab g.toNat
            return (({ ctx := { ctx with cg := g, stack := st }, detail := shown g r.acc }, none), m)
    match go with
    | .error e => ((refused, some e), m)
    | .ok r => r

/-! ### Results (R381, R382) -/

/-- Run a command. -/
def Mach.txRun (m : Mach) (a : Acc) (c : TCmd) (ctx : TextCtx) : (TxPos × Option TxStop) × Mach :=
  match c.kind with
  | .enc => m.encRun a c ctx
  | .dec => m.decRun a c ctx
  | .mask => m.maskRun a c ctx
  | .step => m.stepRun a c ctx

/-- Status and detail of a stop, and the cause that it records.
DEDUCED, unsafe (log 88). -/
def TxStop.report (c : TCmd) (p : TxPos) : Option TxStop → Nat × Word × Option (BitVec 8 × BitVec 4 × Word)
  | none => (0, p.detail, none)
  | some (.status n) => (n, p.detail, none)
  | some (.fault k r va) => (5, va, some (k, r, va))
  | some .poison =>
    let off := match c.kind with | .enc => p.used | .dec => 4 * p.used | _ => 0
    (6, p.detail, some (0x0c, 0, w64 (0x4000 + off % 1024)))
  | some (.wait _) => (0, 0, none)

/-- Write the result of a command: bytes 64 to 126, then the done byte. -/
def Mach.txResult (m : Mach) (a : Acc) (c : TCmd) (p : TxPos) (status : Nat) (detail : Word) : Option Mach :=
  let (gone, m) := m.reconfirm a [c.block] []
  if !gone.isEmpty then some m
  else
    let ws := [w64 p.used, w64 p.made, detail, w64 status, 0, 0, 0]
    let els := ws.zipIdx.map fun (x : Word × Nat) => (⟨x.2, c.block + w64 (64 + 8 * x.2), x.1, false⟩ : HeldEl)
    match m.storePath a 0 8 els true with
    | .done m => match m.storePath a 0 1 ((List.range 8).map fun i => ⟨i, c.block + w64 (120 + i), if i = 7 then 1 else 0, false⟩) true with
      | .done m => some m
      | _ => none
    | _ => none

/-- The text engine of a side's cluster has a command of the side that it may perform. -/
def Mach.textReady (m : Mach) (k : Nat) : Bool := match (m.side k).tq with
  | [] => false
  | c :: _ => !m.markBlocks k 3 c.tick
/-- The turn of a side at its cluster's text engine (R181): round robin from the context behind the one served last. -/
def Mach.textTurn (m : Mach) (k : Nat) : Bool :=
  let base := k / 16 * 16
  let first := (m.cluster (clusterOf k)).served + 1
  ((List.range 16).map fun i => base + (first + i) % 16).find? m.textReady == some k

/-- TEXT_COMMAND_EXECUTE (R181, R381): the oldest command of a side's T queue, when the engine has come round to the side.
DESIGN CHOICE, unsafe (log 89). -/
def execTextCommandExecute (side : BitVec 10) (s : State) : Host.Outcome State Fault Refusal :=
  run (fun m =>
    let k := side.toNat
    match (m.side k).tq with
    | [] => m
    | c :: r =>
      if !m.textTurn k then m
      else
        let a := m.engAcc k c.asn c.lvl
        let ((p, st), m1) := m.txRun a c (m.side k).text
        match st with
        | some (.wait closes) => if closes then m.closeBatch a.die else m
        | _ =>
          let (status, detail, stop) := TxStop.report c p st
          match m1.txResult a c p status detail with
          | none => m
          | some m =>
            (m.modCluster (clusterOf k) fun c => { c with served := k % 16 }).modSide k fun s =>
              { s with tq := r, text := p.ctx, tstop := stop.or s.tstop }) s

end Sys2Proof.Machine
end

