-- ==== Sys2Proof/Machine/MemEvents.lean ====
section
/-! DEFINITION. The moves of sequencers that are no instruction (a line fetch, an interrupt), and the moves of the memory system: replies,
write-backs, bank updates (R67), causal batches (R198), remote reads (R199) and the accesses of a Gale peer (R86). A move that is not
possible changes nothing. -/

namespace Sys2Proof.Machine
open Sys2Proof

/-- Act as a sequencer, and give the move back. -/
def Mach.asSeq (m : Mach) (q : SeqId) (f : Mach → Mach) : Mach :=
  let cur := m.dev.cur
  (f (m.withDev fun d => { d with cur := q })).withDev fun d => { d with cur := cur }

/-! ## Sequencers -/

/-- The line buffer of a sequencer does not hold the instruction at its PC (R243). -/
def Seq.needsLine (s : Seq) : Bool :=
  match s.line with
  | none => true
  | some l => l.base != lineBase s.pc || slotOf s.pc == 0 || Line.count l.bits < slotOf s.pc

/-- LINE_FETCH (R162, R242, R243): a sequencer that may go on fetches the line of its PC, or traps there.
DESIGN CHOICE, safe (log 10). -/
def execLineFetch (q : SeqId) (s : State) : Host.Outcome State Fault Refusal :=
  run (fun m => if m.canMove q && (m.seq q).needsLine then m.asSeq q (·.fetchStep) else m) s

/-- Take a source out of the pending interrupts of a sequencer. -/
def Mach.dropIrq (m : Mach) (q : SeqId) (src : BitVec 8) : Mach :=
  match q with
  | .side k _ => m.modSide k.toNat fun s => { s with irq := s.irq.filter (· != src) }
  | .sup n => m.modSup n.toNat fun u => { u with irq := u.irq.filter (· != src) }

/-- Every value that the sequencer itself awaits has arrived, or is on its way (R137). -/
def Mach.valuesNear (m : Mach) (q : SeqId) : Bool :=
  !m.asks (· == q)

/-- A side runs at level U, in a handler of level U or in none. -/
def Side.lowU (s : Side) : Bool :=
  [s.p, s.m, s.s].all fun q => q.run != .run || q.level == .U

/-- A unit can be stopped now (R221, R222): all three sequencers at a landing point, their own values arrived, the strip's stores gone, the
matrix and text engines done, and no bank update of a token open. -/
def Mach.landReady (m : Mach) (k : Nat) : Bool :=
  let s := m.side k
  let b := BitVec.ofNat 10 k
  !(m.die (k / 256)).resetting && s.lowU && s.atLanding && s.leaving.isEmpty && s.adds.isEmpty && s.tq.isEmpty
    && (!m.owns k 6 || (m.core (k / 2)).mx.mq.isEmpty) && m.valuesNear (.side b .P) && m.valuesNear (.side b .M) && m.valuesNear (.side b .S)
    && (!m.owns k 7 || (List.range 8).all fun t => !m.updOpen (b, BitVec.ofNat 3 t))

/-- An interrupt of a sequencer may be taken now: its values have come, and at level U, where it lands as a pre-emption does, its side's unit can
be stopped (R137, R221, R222). In a handler P waits for the registers that its queue fills. -/
def Mach.intrReady (m : Mach) (q : SeqId) : Bool :=
  m.valuesNear q && (match q with
    | .sup _ => true
    | .side k r =>
      let s := m.side k.toNat
      if (s.seq r).level == .U then s.unit.isNone || m.landReady k.toNat else r != .P || !s.vq.any (·.dst.isSome))

/-- INTERRUPT_TAKE (R211, R206, R221): the first pending interrupt that the sequencer may take. -/
def execInterruptTake (q : SeqId) (s : State) : Host.Outcome State Fault Refusal :=
  run (fun m =>
    if (m.die (dieOf q)).resetting then m
    else match m.takeable q with
    | none => m
    | some src =>
      if !m.intrReady q then m
      else
        let m := (m.dropIrq q src).forgetWaits q
        let m := match q with
          | .side k r => m.modSide k.toNat fun s => { s with landed := s.landed || ((s.seq r).level == Level.U && s.unit.isSome) }
          | .sup _ => m
        let m := m.modSeq q fun x => { x with run := .run }
        m.asSeq q (·.interrupt src (irqLevel src))) s

/-! ## Replies -/

/-- PROBE_COMPLETION (R53, R55). -/
def execProbeCompletion (i : BitVec 8) (s : State) : Host.Outcome State Fault Refusal :=
  run (fun m => match m.dev.probes[i.toNat]? with
    | none => m
    | some p => if (m.die (dieOfCore p.core)).resetting then m else m.probeDone p) s

/-- LOAD_DATA_ARRIVAL (R135): a value fills its register. -/
def execLoadDataArrival (i : BitVec 8) (s : State) : Host.Outcome State Fault Refusal :=
  run (fun m => match m.dev.arrivals[i.toNat]? with
    | none => m
    | some a =>
      (m.withDev fun d => { d with arrivals := d.arrivals.take i.toNat ++ d.arrivals.drop (i.toNat + 1) }).fill a.q a.d a.val a.pois) s

/-- L1_FILL (R158, R331): a sector that the side may read comes into its L1, as a prefetch hint or a hardware prefetch brings it.
DEDUCED, safe (log 91). -/
def execL1Fill (side : BitVec 10) (va : Word) (s : State) : Host.Outcome State Fault Refusal :=
  run (fun m =>
    let a := m.accOf (.side side .P)
    match a.pid with
    | none => m
    | some pid =>
      let v := a.addr va
      match (m.core a.core).rights pid (asnTag a.asn v) v with
      | none => m
      | some r =>
        if !r.allows a.lvl .read || !canonical va || (m.die a.die).resetting || r.home == 3 then m
        else match m.readReady a v with
          | (false, _) => m
          | (true, m) => (m.readSec a r v false).2) s

/-! ## Write-backs (R159, R161, R72) -/

/-- WRITE_BACK (R159, R161): a dirty sector of an L1 goes to L2, or one of an L2 to its channel or into the open batch. -/
def execWriteBack (fromL2 : Bool) (u : BitVec 10) (i : BitVec 12) (s : State) : Host.Outcome State Fault Refusal :=
  run (fun m =>
    if fromL2 then
      match (m.die u.toNat).l2[i.toNat]? with
      | none => m
      | some x =>
        if 4 ≤ u.toNat || (m.die u.toNat).resetting || x.mask == 0 then m
        else match (m.frameOf u.toNat (some x.pid) x.asn (x.sec * 128)).1 with
          | some (_, true) => m
          | _ => (m.must (m.l2Down u.toNat x false)).modDie u.toNat fun d =>
              { d with l2 := d.l2.map fun o => if o.is x.pid x.asn x.sec then { o with mask := 0 } else o }
    else
      match (m.core u.toNat).l1[i.toNat]? with
      | none => m
      | some x => if (m.die (dieOfCore u.toNat)).resetting then m else m.l1Down u.toNat x false) s

/-- FROST_WRITE_BACK (R72, R75): a dirty sector of a Frost page goes to its channel behind its undo entry; without log space it waits. -/
def execFrostWriteBack (die : BitVec 2) (i : BitVec 12) (s : State) : Host.Outcome State Fault Refusal :=
  run (fun m => match (m.die die.toNat).l2[i.toNat]? with
    | none => m
    | some x =>
      if (m.die die.toNat).resetting || x.mask == 0 then m
      else match (m.frameOf die.toNat (some x.pid) x.asn (x.sec * 128)).1 with
        | some (_, true) =>
          match m.l2Down die.toNat x false with
          | none => m
          | some m => m.modDie die.toNat fun d =>
              { d with l2 := d.l2.map fun o => if o.is x.pid x.asn x.sec then { o with mask := 0 } else o }
        | _ => m) s

/-! ## Bank updates (R67) -/

/-- Bring a line into its channel's combining buffer, which holds 32 lines, and make it the most recently used. -/
def Mach.combBring (m : Mach) (mpa : Nat) : CombLine × Mach :=
  let d := dieOfMpa mpa
  let line := mpa / 1024
  match (m.die d).comb.find? (·.line == line) with
  | some c => (c, m)
  | none =>
    let mine := (m.die d).comb.filter fun c => channelOf (c.line * 1024) == channelOf mpa
    let m := if mine.length < 32 then m else match mine.getLast? with
      | some c => m.combFlush (c.line * 1024)
      | none => m
    let po := (List.range 8).foldl (fun n i => if m.poisonAt (line * 1024 + 128 * i) then n + 2 ^ i else n) 0
    (⟨line, BitVec.ofNat 8192 (m.rd (line * 1024) 1024), BitVec.ofNat 8 po⟩, m)

/-- Apply one update at its bank (R67): none when a write-back or an undo entry finds no log space.
DEDUCED, unsafe (log 92). -/
def Mach.bankApply (m : Mach) (u : BankUpd) : Option Mach :=
  let d := dieOfMpa u.mpa
  (m.snoop u.mpa u.forced).bind fun m =>
    (if u.frost then m.undoLog u.mpa u.pid u.forced else some m).map fun m =>
      let (c, m) := m.combBring u.mpa
      let s := u.mpa / 128 % 8
      let w := tbits u.ty
      let lo := 8 * (u.mpa % 1024)
      let bad := u.pois || c.pois.getLsbD s
      let old := c.data.toNat / 2 ^ lo % 2 ^ w
      let c' : CombLine :=
        if bad then { c with pois := c.pois ||| (1#8 <<< s) }
        else { c with data := BitVec.ofNat 8192 (c.data.toNat - old * 2 ^ lo + bankArith u.ty u.op old (u.val.toNat % 2 ^ w) % 2 ^ w * 2 ^ lo) }
      let m := m.modDie d fun x => { x with comb := c' :: x.comb.filter (·.line != c.line) }
      match u.tok with
      | some (side, tk) =>
        if bad then m.modToken (side.toNat / 2) tk.toNat fun t => { t with pois := min 65535 (t.pois + 1) } else m
      | none => m

/-- BANK_UPDATE_APPLY (R67): the oldest update that waits at a channel. -/
def execBankUpdateApply (die : BitVec 2) (ch : BitVec 5) (s : State) : Host.Outcome State Fault Refusal :=
  run (fun m =>
    let d := m.die die.toNat
    match d.upds.find? fun u => channelOf u.mpa == ch.toNat with
    | none => m
    | some u =>
      if d.resetting then m
      else
        let at_ := d.upds.takeWhile fun x => channelOf x.mpa != ch.toNat
        let m1 := m.modDie die.toNat fun x => { x with upds := at_ ++ x.upds.drop (at_.length + 1) }
        (m1.bankApply u).getD m) s

/-! ## Causal batches (R197, R198) -/

/-- BATCH_CLOSE_TIMEOUT (R198): the open batch of a die closes after 1,024 cycles. -/
def execBatchCloseTimeout (die : BitVec 2) (s : State) : Host.Outcome State Fault Refusal :=
  run (fun m => if 1024 ≤ (m.die die.toNat).batchAge && m.canClose die.toNat then m.closeBatch die.toNat else m) s

/-- Apply one write of a batch at its coherence point (R198); on a die whose memory interface is off it is lost (R18, R21). -/
def Mach.applyWrite (m : Mach) (w : BWrite) : Option Mach :=
  if !m.reach w.die w.die then some (m.lostWrite w.die (w.line * 1024))
  else match w with
    | .sec mpa data mask pois frost pid forced => (m.snoop mpa forced).bind fun m => m.chanWrite mpa data mask pois frost pid forced
    | .upd u => m.bankApply u

/-- A die may apply a batch (R198).
DEDUCED, safe (log 93). -/
def Mach.batchReady (m : Mach) (x : Nat) (b : Batch) : Bool :=
  let t := fun k => (b.stamp[k]?).getD 0
  let src := b.src.toNat
  m.vc x src == (t src + 2 ^ 32 - 1) % 2 ^ 32 && (List.range 4).all fun k => k == x || k == src || clockGe (m.vc x k) (t k)

/-- What is left of a batch after a write: the next moves go on with it, or the die's clock takes its number (R198). -/
def Mach.batchRest (m : Mach) (x i : Nat) (b : Batch) (ws : List BWrite) : Mach :=
  m.modDie x fun d =>
    if ws.isEmpty then { d with rx := d.rx.take i ++ d.rx.drop (i + 1), vc := d.vc.set b.src.toNat ((b.stamp[b.src.toNat]?).getD 0) }
    else { d with rx := d.rx.take i ++ { b with ws := ws } :: d.rx.drop (i + 1) }

/-- BATCH_APPLY (R198): the next write of a batch that a die may apply; a reader on that die may see some of a batch before the rest. -/
def execBatchApply (die : BitVec 2) (i : BitVec 8) (s : State) : Host.Outcome State Fault Refusal :=
  run (fun m =>
    let x := die.toNat
    match (m.die x).rx[i.toNat]? with
    | none => m
    | some b =>
      if (m.die x).resetting || !m.batchReady x b then m
      else match b.ws with
        | [] => m.batchRest x i.toNat b []
        | w :: r => match m.applyWrite w with
          | none => m
          | some m => m.batchRest x i.toNat b r) s

/-- The clock that the reply to an acquire carried has come to its die, for every die that it can hear of (R199). -/
def Mach.acqReady (m : Mach) (die : Nat) (clock : List Nat) : Bool :=
  (List.range 4).all fun k => k == die || !m.reach die k || clockGe (m.vc die k) ((clock[k]?).getD 0)

/-- REMOTE_READ_SERVE (R199): the owner serves a read once its clock is at or past the one carried; the answer to an acquire of device scope or
wider then waits for its own die's clock. A read whose line has a write in the open batch closes the batch first (R198), and one that no path
leads to answers poisoned bytes (R18). -/
def execRemoteReadServe (i : BitVec 8) (s : State) : Host.Outcome State Fault Refusal :=
  run (fun m => match m.dev.remote[i.toNat]? with
    | none => m
    | some x =>
      let o := x.die.toNat
      let me := dieOf x.who
      let put := fun (m : Mach) (l : List RemoteRead) =>
        m.withDev fun d => { d with remote := d.remote.take i.toNat ++ l ++ d.remote.drop (i.toNat + 1) }
      if (m.die me).resetting then m
      else match x.got with
        | some (v, p) => if m.acqReady me x.clock then (put m []).endRemote x v p else m
        | none =>
          if !m.reach me o then
            let (v, m) := ((put m []).logErr me 0x08 0 x.va 1).poisonVal x.sz
            m.endRemote x (extLd x.sz x.zx v) true
          else
            let a := m.remoteAcc x
            let line := match (m.frameOf me a.pid (asnTag x.asn (a.addr x.va)) (a.addr x.va)).1 with | some (mpa, _) => mpa / 1024 | none => 0
            if (m.die me).batch.any (·.line == line) then
              let m := m.closeBatch me
              put m [{ x with clock := m.vcList me }]
            else if (List.range 4).all fun k => k == o || clockGe (m.vc o k) ((x.clock[k]?).getD 0) then
              let ((v, p), m) := m.serveRemote x
              match x.acq with
              | some sc => if 4 ≤ scopeRank sc then put m [{ x with got := some (v, p), clock := m.vcList o }] else (put m []).endRemote x v p
              | none => (put m []).endRemote x v p
            else m) s

/-! ## The accesses of a Gale peer (R86) -/

/-- The machine address that a peer's access of eight bytes names: stage 2 of the partition that owns the port, with its rights; the
accessed bit is set, and the dirty bit by a store (R45).
DESIGN CHOICE, unsafe (log 94). -/
def Mach.peerAt (m : Mach) (die : Nat) (pid : BitVec 4) (off : Nat) (wr : Bool) : Option (Nat × Bool × Mach) :=
  let c := m.pctx die pid
  if !c.en || off % 8 ≠ 0 then none
  else match m.stage2 die c off with
    | .error _ => none
    | .ok (a, l) =>
      if 2 ^ 39 ≤ a || !m.reach die (dieOfMpa a) || !ebit l.ent (if wr then 54 else 53) then none
      else some (a, ebit l.ent 59, m.orEnt pid l (if wr then 12 else 4))

/-- GALE_REMOTE_ACCESS (R86): eight bytes of this device's memory, read or written by the peer of a port. A failed translation is a
lost access, logged here. -/
def execGaleRemoteAccess (port : BitVec 4) (off : BitVec 44) (wr : Bool) (v : Word) (s : State) : Host.Outcome State Fault Refusal :=
  run (fun m =>
    let g := m.port port.toNat
    let die := port.toNat / 4
    match g.pid with
    | none => m
    | some pid =>
      if !g.up || (m.die die).resetting then m
      else match m.peerAt die pid off.toNat wr with
        | none => m.logErr die 0x08 (portPlace port.toNat) (w64 off.toNat) 1
        | some (a, frost, m) => if wr then m.physPut a 8 v.toNat frost pid else (m.physGet a 8).2) s

end Sys2Proof.Machine
end

