-- ==== Sys2Proof/Machine/Links.lean ====
section
/-! DEFINITION. What the links, islands and the power controller do on their own: Gale ports (R14 to R17), host window accesses (R87), die
boundaries (R18), islands (R19 to R21) and power windows (R22). A move that is not possible changes nothing. -/

namespace Sys2Proof.Machine
open Sys2Proof

/-! ## Gale ports (R14 to R17) -/

/-- GALE_CRC_RETRANSMIT (R16): a flit fails its CRC and is sent again; when its eighth retransmission has failed, the port goes down.
DEDUCED, safe (log 95). -/
def execGaleCrcRetransmit (port : BitVec 4) (s : State) : Host.Outcome State Fault Refusal :=
  run (fun m =>
    let p := port.toNat
    let g := m.port p
    if !g.up then m
    else if 8 ≤ g.fails then m.portDown p
    else m.modPort p fun g => { g with retries := g.retries + 1, fails := g.fails + 1 }) s

/-- GALE_RETRY_LIMIT (R16): eight retransmissions of one flit have failed. -/
def execGaleRetryLimit (port : BitVec 4) (s : State) : Host.Outcome State Fault Refusal :=
  run (fun m => if (m.port port.toNat).up && 8 ≤ (m.port port.toNat).fails then m.portDown port.toNat else m) s

/-- GALE_LOSS_OF_LOCK (R16): the receiver has lost lock for 10 µs. -/
def execGaleLossOfLock (port : BitVec 4) (s : State) : Host.Outcome State Fault Refusal :=
  run (fun m => if (m.port port.toNat).up then m.portDown port.toNat else m) s

/-- LINK_TRAINED (R16, R17): an enabled port that a partition owns, on a die whose island 4 is powered (R19), comes up and reports its peer. -/
def execLinkTrained (port : BitVec 4) (peer : BitVec 16) (s : State) : Host.Outcome State Fault Refusal :=
  run (fun m =>
    let g := m.port port.toNat
    if g.en && !g.up && g.pid.isSome && !(m.die (port.toNat / 4)).resetting && (m.die (port.toNat / 4)).islState.getLsbD 4 then
      m.modPort port.toNat fun g => { g with up := true, peer := peer, fails := 0 }
    else m) s

/-- PORT_ENABLE (R16, R17): the monitor sets the enable bit, which retrains the link. -/
def execPortEnable (port : BitVec 4) (s : State) : Host.Outcome State Fault Refusal :=
  run (fun m => m.portSetEn port.toNat true) s

/-- PORT_CLEAR_COUNTS (R17): a 1 is written to clr. -/
def execPortClearCounts (port : BitVec 4) (s : State) : Host.Outcome State Fault Refusal :=
  run (fun m => m.modPort port.toNat fun g => { g with dropped := 0, poisoned := 0, retries := 0 }) s

/-- PORT_LOST_CLEAR (R17): a 1 is written to lost. -/
def execPortLostClear (port : BitVec 4) (s : State) : Host.Outcome State Fault Refusal :=
  run (fun m => m.modPort port.toNat fun g => { g with lost := false }) s

/-! ## Host windows (R87) -/

/-- Take an access beyond the package out of the list. -/
def Mach.dropExt (m : Mach) (i : Nat) : Mach := m.withDev fun d => { d with ext := d.ext.take i ++ d.ext.drop (i + 1) }

/-- A host window access fails (R87): a load is answered with poisoned bytes, a store is dropped. -/
def Mach.hostLost (m : Mach) (e : ExtReq) : Mach :=
  let m := m.hostFail e.port
  if e.wr then m else let (v, m) := m.poisonVal e.n; m.extAnswer e v true
/-- A host window access of the list fails. -/
def Mach.extFail (m : Mach) (i : Nat) (e : ExtReq) : Mach := (m.dropExt i).hostLost e

/-- HOST_WINDOW_ACCESS (R87): an access leaves as a PCIe request while the window is enabled and the function serves; else it fails. -/
def execHostWindowAccess (i : BitVec 8) (s : State) : Host.Outcome State Fault Refusal :=
  run (fun m => match m.dev.ext[i.toNat]? with
    | none => m
    | some e =>
      if !e.host || e.issued then m
      else if m.hostOpen e.port then
        m.withDev fun d => { d with ext := d.ext.take i.toNat ++ [{ e with issued := true }] ++ d.ext.drop (i.toNat + 1) }
      else m.extFail i.toNat e) s

/-- HOST_WINDOW_COMPLETION (R87): the host answers an access; one that carries an error or times out fails. -/
def execHostWindowCompletion (i : BitVec 8) (ok : Bool) (v : Sector) (s : State) : Host.Outcome State Fault Refusal :=
  run (fun m => match m.dev.ext[i.toNat]? with
    | none => m
    | some e =>
      if !e.host || !e.issued || e.ans.isSome then m
      else if !ok then m.extFail i.toNat e
      else if e.wr then m.dropExt i.toNat
      else (m.dropExt i.toNat).extAnswer e (v.toNat % 256 ^ e.n) false) s

/-! ## Die boundaries (R11, R18) -/

/-- BOUNDARY_FAILURE (R18): a boundary is taken out of the ring; the boundary event names it.
DEDUCED, unsafe (log 96). -/
def execBoundaryFailure (b : BitVec 2) (s : State) : Host.Outcome State Fault Refusal :=
  run (fun m =>
    if m.dev.bdown.getLsbD b.toNat then m
    else
      (m.withDev fun d => { d with bdown := d.bdown ||| (1#4 <<< b.toNat) }).logErr (ringDie b.toNat) 0x09 0 (b.setWidth 64) 0) s

/-! ## Islands (R19 to R21) and power windows (R22) -/

/-- ISLAND_SWITCH_ON (R20, R21): the monitor sets the on bit of island `i`. -/
def execIslandSwitchOn (i : BitVec 5) (s : State) : Host.Outcome State Fault Refusal :=
  run (fun m => m.islandOn (i.toNat / 8) (i.toNat % 8)) s

/-- ISLAND_SWITCH_OFF (R20, R21): the monitor clears the on bit; the hardware performs the request or refuses it. -/
def execIslandSwitchOff (i : BitVec 5) (s : State) : Host.Outcome State Fault Refusal :=
  run (fun m => m.islandOff (i.toNat / 8) (i.toNat % 8)) s

/-- ISLAND_REFUSED_CLEAR (R20): a 1 is written to a refused bit. -/
def execIslandRefusedClear (i : BitVec 5) (s : State) : Host.Outcome State Fault Refusal :=
  run (fun m => m.modDie (i.toNat / 8) fun d => { d with islRefused := d.islRefused &&& ~~~(1#8 <<< (i.toNat % 8)) }) s

/-- POWER_WINDOW (R22): a window above 1,500 W lowers the issue rate further, one under the limit ends the throttling. It inserts idle issue
slots and changes nothing else. -/
def execPowerWindow (above : Bool) (s : State) : Host.Outcome State Fault Refusal :=
  run (fun m => m.withDev fun d => { d with throttle := if above then d.throttle + 1 else 0 }) s

end Sys2Proof.Machine
end

