-- ==== Sys2Proof/Machine/Boot.lean ====
section
/-! DEFINITION. Resets, boot and life cycle (R24 to R34, R100, R234), errors of SRAM and lanes (R153 to R156, R161, R230, R232), containment and
rollback (R233, R235, R236, R405). A move that is not possible changes nothing. -/

namespace Sys2Proof.Machine
open Sys2Proof

/-! ## The window reset (R100) -/

/-- Steps 1 to 4 of R100 for one window: every field of the control page but epoch at its reset value, both rings zero, epoch up by one,
hostirq.epoch set. The inline data stays, and so does a boot status word, which stands until the monitor serves the window (R29, R101). The image
serves it again by setting ready. -/
def Window.reset (w : Nat) (x : Window) : Window :=
  let fresh := Window.fresh w
  ({ fresh with ident := if wbits x.ident 48 16 = 0x7a3e then x.ident else fresh.ident, unassigned := x.unassigned, epoch := x.epoch + 1
                mem := x.mem.filter fun b => 0x7000 ≤ b.1, flr := true, msix := x.msix } : Window).raise 4

/-- The host window accesses of some functions fail (R87). -/
def Mach.failHost (m : Mach) (vd : Nat → Bool) : Mach :=
  let mine := fun (e : ExtReq) => e.host && vd e.port && e.ans.isNone
  let es := m.dev.ext.filter mine
  es.foldl (·.hostLost ·) (m.withDev fun d => { d with ext := d.ext.filter fun e => !mine e })

/-! ## Device reset, power and life cycle (R24, R27, R34) -/

/-- The boot status word (R29). -/
def bootWord (f : Fuses) (stage a b : Nat) : Word :=
  0x7a3e010000000000 + w64 (stage * 2 ^ 32 + b * 2 ^ 24 + a * 2 ^ 16 + f.lcs.toNat * 2 ^ 8)

/-- A die under a device reset: it cannot be used before its wipe is complete. -/
def Die.inReset : Die := { resetting := true, wiping := true }

/-- A device reset (R24): everything is wiped, DRAM and Frost pages included; the fuses, the boot flash and a life-cycle change that
waits for the wipe stay. -/
def Mach.deviceReset (m : Mach) (lc : Option (BitVec 2)) : Mach :=
  let d := m.dev
  { m with log := .wipe 0 (2 ^ 39) :: m.log
           dev := { Dev.reset with
                    flashA := d.flashA, flashB := d.flashB, fuses := d.fuses, lcPend := lc
                    windows := [(64, { ident := bootWord d.fuses 0 0 0, unassigned := false })]
                    sups := (List.range 32).map fun n => (n, { seq := { run := if n = 0 then .boot else .held, level := .M } })
                    dies := (List.range 4).map fun k => (k, Die.inReset) } }

/-- A device reset is in progress, or the boot ROM runs (R25, R28). -/
def Mach.booting (m : Mach) : Bool := (m.sup 0).seq.run == .boot

/-- DEVICE_RESET (R24, R25): it takes over from a die reset in progress. -/
def execDeviceReset (s : State) : Host.Outcome State Fault Refusal := run (fun m => m.deviceReset m.dev.lcPend) s

/-- POWER_LOSS (R34): the wipe of the next power-on begins; a life-cycle change whose wipe has not completed is abandoned.
DEDUCED, safe (log 105). -/
def execPowerLoss (s : State) : Host.Outcome State Fault Refusal := run (fun m => m.deviceReset none) s

/-- A transition that R33 allows. -/
def lcAllowed (frm dst : BitVec 2) : Bool :=
  (frm == 0 && dst == 1) || (frm == 1 && (dst == 2 || dst == 3)) || (frm == 2 && dst == 3)

/-- LIFE_CYCLE_REQUEST (R33, R34): the request that stands in the life-cycle request register, with its authorisation; an allowed one takes
effect as a device reset.
DESIGN CHOICE, unsafe (log 104). -/
def execLifeCycleRequest (target : BitVec 2) (s : State) : Host.Outcome State Fault Refusal :=
  run (fun m =>
    if m.booting || m.dev.lcReq.extractLsb' 0 2 ≠ target then m
    else if lcAllowed m.dev.fuses.lcs target then m.deviceReset (some target)
    else m.withDev fun d => { d with lcReq := 0 }) s

/-- Debug access is open (R33). -/
def Fuses.debugOpen (f : Fuses) : Bool := f.lcs != 2

/-- The fuse operation of a transition (R34): from BLANK it also burns the root key digest and the identity seed. -/
def Fuses.advance (f : Fuses) (t : BitVec 2) : Fuses :=
  if f.lcs = 0 then { f with lcs := t, rootKey := Config.provisionKey, seed := Config.provisionSeed } else { f with lcs := t }

/-- WIPE_COMPLETE (R27, R34): the storage of a die can be used; once the wipe of a device reset is whole, a waiting transition is burnt. -/
def execWipeComplete (die : BitVec 2) (s : State) : Host.Outcome State Fault Refusal :=
  run (fun m =>
    if !(m.die die.toNat).wiping then m
    else
      let b := m.booting
      let m := m.modDie die.toNat fun d => { d with wiping := false, resetting := d.resetting && !b }
      match m.dev.lcPend with
      | none => m
      | some t =>
        if b && !m.dev.dies.any (fun x => x.2.wiping) then m.withDev fun d => { d with fuses := d.fuses.advance t, lcPend := none } else m) s

/-! ## The boot ROM (R28 to R30) -/

/-- An image kind that the life-cycle state accepts (R33). -/
def kindOk (lcs : BitVec 2) (k : ImgKind) : Bool :=
  k == (if lcs = 0 then .manufacturing else if lcs = 3 then .analysis else .monitor)

/-- The failure code of a signature over an image under the key with a digest (R29, R30), 0 for one that verifies. -/
def Signer.code (g : Signer) (key : BitVec 256) (image : List Byte) : BitVec 8 :=
  if shake256 g.key ≠ key then 0x03 else if (xmssSet g.oid).isNone then 0x04 else if !g.verifies image then 0x05 else 0

/-- The failure code of a slot (R29), 0 for an image that passes. -/
def slotCode (f : Fuses) : Option FlashImg → BitVec 8
  | none => 0x01
  | some i =>
    if !i.readable then 0x01
    else if !i.headerOk then 0x02
    else if i.signer.code f.rootKey i.bytes ≠ 0 then i.signer.code f.rootKey i.bytes
    else if i.version < f.minVersion then 0x06
    else if !kindOk f.lcs i.kind then 0x07
    else if !i.copyOk then 0x08
    else 0

/-- Take over what the partition table of the image's configuration says (R79). -/
def PartTable.install (t : PartTable) (d : Dev) : Dev :=
  { d with parts := t.parts, vds := t.vds
           sides := t.sides.foldl (fun l (k, p) => l.set k { (l.get {} k) with pid := some p }) d.sides
           sups := t.sups.foldl (fun l (n, p) => l.set n { (l.get {} n) with pid := some p }) d.sups
           ports := t.ports.foldl (fun l (n, p) => l.set n { (l.get {} n) with pid := some p }) d.ports
           textPid := t.text.map fun (c, p) => (c, some p)
           clusters := t.sems.foldl (fun l (k, p) =>
             let c := l.get {} (k / 64)
             l.set (k / 64) { c with sems := c.sems.set (k % 64) { pid := some p } }) d.clusters }

/-- Start an image (R28): it is copied into die 0's DRAM, and every supervisor core runs it at level M.
DESIGN CHOICE, unsafe (log 103). -/
def Mach.startImage (m : Mach) (i : FlashImg) (st : Word) : Mach :=
  let m := m.wr 0 i.bytes.length (leNat i.bytes)
  let m := m.modWin 64 fun w => { w with ident := st }
  m.withDev fun d => i.table.install
    { d with monEntry := i.entry, monDigest := shake256 i.bytes, rom := 4
             sups := (List.range 32).map fun n => (n, { (d.sups.get {} n) with seq := { run := .run, level := .M, pc := i.entry } }) }

/-- The boot ROM writes the boot status word and goes on (R29). -/
def Mach.romWord (m : Mach) (stage a b next : Nat) : Mach :=
  (m.modWin 64 fun w => { w with ident := bootWord m.dev.fuses stage a b }).withDev fun d => { d with rom := next }

/-! ### Partitions (R30, R79, R83, R405) -/

/-- A die on which the table gives a partition a side or a supervisor core. -/
def Mach.livesOn (m : Mach) (p : BitVec 4) (die : Nat) : Bool :=
  m.dev.sides.any (fun (k, s) => k / 256 == die && s.pid == some p) || (m.supsOf p).any (· / 8 == die)

/-- The monitor writes the stage 2 tables and the contexts of a partition as its configuration gives them (R83, R405); where it gives none, a
context `c` that has survived stands on every die again.
DESIGN CHOICE, unsafe (log 139). -/
def Mach.giveTables (m : Mach) (p : BitVec 4) (c : PCtx) : Mach :=
  let x := m.part p.toNat
  let m := if x.cfg.en then x.tables.foldl (fun m (a, v) => (m.combFlush a).wr a 8 v.toNat) m else m
  (List.range 4).foldl (fun m die =>
    if m.livesOn p die && (x.cfg.en || !(m.pctx die p).en) then
      m.modDie die fun d => { d with ctx := d.ctx.set p.toNat (if x.cfg.en then x.cfg else c) }
    else m) m

/-- A partition's image starts at level S on its supervisor cores (R30); the dies that it uses are named until the next boot (R36), and its
semaphores count 0 (R294). -/
def Mach.launchImage (m : Mach) (p : BitVec 4) : Mach :=
  let uses := (List.range 4).foldl (fun n d => n ||| (if (m.pctx d p).en then 1#4 <<< d else 0)) 0#4
  let m := (m.modPart p.toNat fun x => { x with dies := uses }).withDev fun d =>
    { d with clusters := d.clusters.map fun (c, y) => (c, { y with sems := y.sems.map fun (n, x) => (n, if x.pid == some p then { pid := some p } else x) }) }
  (m.supsOf p).foldl (fun m n => m.setSup n { pid := some p, seq := { run := .run, level := .S, pc := (m.part p.toNat).entry } }) m

/-- The monitor verifies the image of a partition against the key that its configuration names, and boots it (R30); the schedulers of the dies
refill its devices (R122).
DESIGN CHOICE, unsafe (log 103). -/
def Mach.bootPart (m : Mach) (p : BitVec 4) : Mach :=
  let x := m.part p.toNat
  if x.signer.code x.key x.image ≠ 0 then m
  else
    let m := ((m.modPart p.toNat fun x => { x with on := true }).giveTables p {}).launchImage p
    (List.range 4).foldl (fun m die => if (m.sidesOf p die).isEmpty then m else m.refillPart die p) m

/-- BOOT_ROM (R28 to R30): the ROM writes its word as it starts, tries slot A, then slot B, and halts when both have failed; the monitor that
runs then boots its partitions. -/
def execBootRom (s : State) : Host.Outcome State Fault Refusal :=
  run (fun m =>
    let f := m.dev.fuses
    let a := slotCode f m.dev.flashA
    let b := slotCode f m.dev.flashB
    if m.dev.rom = 4 then
      (m.dev.parts.map fun x => BitVec.ofNat 4 x.1).foldl (·.bootPart ·) (m.withDev fun d => { d with rom := 5 })
    else if !m.booting then m
    else if m.dev.rom = 0 then m.romWord 0 0 0 1
    else if m.dev.dies.any (fun x => x.2.wiping) then m
    else if m.dev.rom = 1 then
      match m.dev.flashA with
      | some i => if a = 0 then m.startImage i (bootWord f 1 0 0) else m.romWord 0 a.toNat 0 2
      | none => m.romWord 0 a.toNat 0 2
    else if m.dev.rom = 2 then
      match m.dev.flashB with
      | some i => if b = 0 then m.startImage i (bootWord f 2 a.toNat 0) else m.romWord 0 a.toNat b.toNat 3
      | none => m.romWord 0 a.toNat b.toNat 3
    else (m.romWord 3 a.toNat b.toNat 3).modSup 0 fun u => { u with seq := { u.seq with run := .halted } }) s

/-! ## Die reset (R24 to R27, R234) -/

/-- The monitor has a supervisor core on a die that survives the reset of die `r` (R26). -/
def Mach.monitorElsewhere (m : Mach) (r : Nat) : Bool :=
  (List.range 4).any fun e => e != r && !(m.die e).resetting && (m.sup (8 * e)).seq.run == .run

/-- A leaf below a node of a partition's stage 2 tables maps a frame of a die. -/
def Mach.nodeMaps (m : Mach) (r : Nat) : List (Nat × Nat) → Nat → Bool
  | [], _ => false
  | (sh, w) :: l, node => (List.range (2 ^ w)).any fun i =>
    let e := BitVec.ofNat 64 (m.rdChan (node + 8 * i) 8)
    ebit e 0 && !entBad true sh e && (if ebit e 1 then m.nodeMaps r l (eaddr e) else eaddr e < 2 ^ 39 && dieOfMpa (eaddr e) == r)
/-- The stage 2 tables of a partition map a frame of a die (R79). -/
def Mach.mapsDie (m : Mach) (r : Nat) (p : BitVec 4) : Bool :=
  (List.range 4).any fun d => let c := m.pctx d p; c.en && c.root2 < 2 ^ 39 && m.nodeMaps r walkLevels c.root2

/-- A partition holds a resource on a die (R235): a side, a supervisor core, a port, a format range, which is one index on every die (R79), or a
frame, which its tables map.
DEDUCED, unsafe (log 100). -/
def Mach.holdsOn (m : Mach) (r : Nat) (p : BitVec 4) : Bool :=
  m.livesOn p r || ((List.range 4).any fun i => (m.port (4 * r + i)).pid == some p) || (m.part p.toNat).fmtMask != 0
    || ((m.die r).own.any fun o => o.pid == p) || m.mapsDie r p

/-- What another die drops when die `r` resets (R234): the batches of `r` and its own writes to `r`; the r component of every stamp counts
as 0. -/
def Die.forget (r : Nat) (d : Die) : Die :=
  let d := d.unTok fun k => k / 256 == r
  { d with rx := (d.rx.filter fun b => b.src.toNat != r).map fun b => { b with stamp := b.stamp.set r 0 }
           seen := d.seen.set r 0
           batch := d.batch.filter fun w => w.die != r }

/-- The group that owns an access runs on a die. -/
def groupOn (r grp : Nat) : Bool := if grp < 1024 then grp / 256 == r else grp != noGroup && (grp - 1024) / 8 == r

/-- Reset a die (R24, R27, R234): everything on it but the Frost rows, their range registers and what the partition table says.
DEDUCED, unsafe (log 98). -/
def Mach.resetDie (m : Mach) (r : Nat) : Mach :=
  let touched := (List.range 16).filterMap fun p => let q := BitVec.ofNat 4 p; if (m.part p).on && m.holdsOn r q then some q else none
  let m := (List.range 4).foldl (fun m i => if (m.port (4 * r + i)).up then m.portDown (4 * r + i) else m) m
  let m := if r = 0 then m.failHost fun _ => true else m
  let m := m.wipeDram r true
  let on := fun (q : SeqId) => dieOf q == r
  m.withDev fun d =>
    let d := d.forgetWays on (fun c => dieOfCore c == r) (groupOn r)
    { d with
      sides := d.sides.map fun (k, s) => if k / 256 = r then (k, s.wiped) else (k, s)
      sups := d.sups.map fun (n, u) => if n / 8 = r then (n, { u.wiped with seq := { run := .held, level := .M } }) else (n, u)
      cores := d.cores.filter fun c => dieOfCore c.1 != r
      clusters := d.clusters.map fun (c, y) => (c, if c / 16 = r then y.wiped else y)
      dies := (List.range 4).map fun k =>
        let x := d.dies.get {} k
        if k = r then (k, { Die.inReset with frostOn := x.frostOn, frostBase := x.frostBase, frostLimit := x.frostLimit, ownCap := x.ownCap })
        else (k, x.forget r)
      ports := d.ports.map fun (p, g) => if p / 4 = r then (p, { pid := g.pid }) else (p, g)
      remote := d.remote.map fun x => { x with clock := x.clock.set r 0 }
      lcReq := if r = 0 then 0 else d.lcReq
      jobs := d.jobs.map fun j => { j with copies := j.copies &&& ~~~(1#4 <<< r) }
      windows := if r = 0 then (List.range 65).map fun w => (w, { (d.windows.get (Window.fresh w) w).reset w with mem := [] }) else d.windows
      rollPend := d.rollPend ++ touched.filter fun p => !d.rollPend.contains p }

/-- The containment logic of a die logs kind 0x0c and requests a die reset (R233). -/
def Mach.requestReset (m : Mach) (d : Nat) : Mach := (m.logErr d 0x0c 0 0 0).modDie d fun x => { x with rstReq := true }

/-- DIE_RESET (R24 to R26, R233): level M asks the containment logic for it, and a requested reset is made. Two requests act as one, a device
reset takes over, and the reset of die 0 becomes one when the monitor has no supervisor core on a surviving die. -/
def execDieReset (die : BitVec 2) (s : State) : Host.Outcome State Fault Refusal :=
  run (fun m =>
    if m.booting || (m.die die.toNat).resetting then m
    else if !(m.die die.toNat).rstReq then m.requestReset die.toNat
    else if die = 0 && !m.monitorElsewhere 0 then m.deviceReset none
    else m.resetDie die.toNat) s

/-- DIE_REJOIN (R27, R234): after its wipe a die rejoins the ring; the clocks are set and the monitor's core on it runs again.
DESIGN CHOICE, unsafe (log 102). -/
def execDieRejoin (die : BitVec 2) (s : State) : Host.Outcome State Fault Refusal :=
  run (fun m =>
    let r := die.toNat
    let d := m.die r
    if m.booting || !d.resetting || d.wiping then m
    else
      let vc : Tbl Nat := (List.range 4).map fun k => (k, if k = r || (m.die k).resetting then 0 else m.vc k k)
      let m := (List.range 4).foldl (fun m x => if x = r then m else m.modDie x fun y => { y with vc := y.vc.set r 0 }) m
      let m := m.modDie r fun x => { x with resetting := false, vc := vc }
      m.modSup (8 * r) fun u => { u with seq := { run := .run, level := .M, pc := m.dev.monEntry } }) s

/-- DIE_CONTAINMENT (R233): the containment logic logs kind 0x0c and requests a die reset.
DESIGN CHOICE, unsafe (log 99). -/
def execDieContainment (die : BitVec 2) (s : State) : Host.Outcome State Fault Refusal :=
  run (fun m => if (m.die die.toNat).resetting then m else m.requestReset die.toNat) s

/-! ## SRAM errors (R161, R166, R219, R230) -/

/-- One copy of a voted counter takes another value. -/
def Tri.strike (t : Tri) : Nat → Tri
  | 0 => { t with a := (t.a + 1) % 2 ^ 32 }
  | 1 => { t with b := (t.b + 2) % 2 ^ 32 }
  | _ => { t with c := (t.c + 3) % 2 ^ 32 }

/-- SRAM_ERROR (R161, R219, R230, R377): a single-bit error is corrected and logged; an uncorrectable one poisons its granule. An error in one
copy of a counter or in an entry of the index scratchpad stays until it is read.
DESIGN CHOICE, unsafe (log 106). -/
def execSramError (at_ : SramLoc) (fixed : Bool) (s : State) : Host.Outcome State Fault Refusal :=
  run (fun m =>
    let kind : BitVec 8 := if fixed then 0x04 else 0x05
    match at_ with
    | .l1 c i => match (m.core c.toNat).l1[i.toNat]? with
      | none => m
      | some x =>
        let m := if fixed then m else m.modCore c.toNat fun k =>
          { k with l1 := k.l1.map fun o => if o.is x.pid x.asn x.sec then { o with pois := true } else o }
        m.logErr (dieOfCore c.toNat) kind (logPlace c.toNat 0 0) (w64 (x.sec * 128)) 0
    | .l2 d i => match (m.die d.toNat).l2[i.toNat]? with
      | none => m
      | some x =>
        let m := if fixed then m else m.modDie d.toNat fun k =>
          { k with l2 := k.l2.map fun o => if o.is x.pid x.asn x.sec then { o with pois := true } else o }
        m.logErr d.toNat kind 0 (w64 (x.sec * 128)) 0
    | .spad c g =>
      let m := if fixed then m else m.modCore c.toNat fun k => { k with spois := k.spois.set g.toNat true }
      m.logErr (dieOfCore c.toNat) kind (logPlace c.toNat 0 0) (w64 (4 * g.toNat)) 0
    | .index c n =>
      let d := dieOfCore c.toNat
      let m := m.logErr d kind (logPlace c.toNat 0 0) (w64 (16 * n.toNat)) 0
      if fixed then m else m.modCore c.toNat fun k => { k with ix := { k.ix with bad := (n.toNat, w64 (m.die d).logLast) :: k.ix.bad } }
    | .dram a => (if fixed then m else m.setPoison a.toNat true).logErr (dieOfMpa a.toNat) kind 0 (w64 a.toNat) 0
    | .vote cl n c => m.modVoted cl.toNat n.toNat fun v => { v with cnt := v.cnt.strike c.toNat }) s

/-! ## Lanes (R153 to R156) -/

/-- LANE_REEXECUTION (R154, R155): a comparison of the next instruction of a core will fail, or a lane's read of a source will meet an uncorrectable
error: the chaining interlock holds the beat until the re-execution has agreed with one of two results or not, and the instruction releases it
before anything can read the beat (R153). An error in the SRAM of a register file or a scratchpad slice comes in the same way.
DEDUCED, unsafe (log 153). -/
def execLaneReexecution (core : BitVec 9) (lane : BitVec 4) (beat : BitVec 3) (res : LaneEnd) (s : State) :
    Host.Outcome State Fault Refusal :=
  run (fun m =>
    let c := core.toNat
    if (m.die (dieOfCore c)).resetting || ((m.side (2 * c)).vq.isEmpty && (m.side (2 * c + 1)).vq.isEmpty) then m
    else m.modCore c fun x => { x with holds := x.holds ++ [⟨lane.toNat, beat.toNat, res⟩] }) s

/-- LANE_RETIREMENT (R156): a core retires at most one lane; checking stops on it. -/
def execLaneRetirement (core : BitVec 9) (lane : BitVec 4) (s : State) : Host.Outcome State Fault Refusal :=
  run (fun m =>
    let c := core.toNat
    if (m.core c).retired.isSome || !(m.core c).laneFails lane.toNat then m
    else (m.modCore c fun x => { x with retired := some lane.toNat }).logErr (dieOfCore c) 0x03 (logPlace c 0 lane.toNat) 0 0) s

/-! ## Rollback (R74, R75, R235, R236, R405) -/

/-- A commit slot is valid (R74), and its recovery point. -/
def Mach.slotPoint (m : Mach) (a : Nat) : Option Nat :=
  if m.rd (a + 7) 1 = 1 && (crc64 0 (m.bytes a 56)).toNat = m.rd (a + 56) 8 then some (m.rd a 6) else none

/-- The recovery point of a partition (R74): the larger of its valid slots, 0 with none or without a Frost range. -/
def Mach.pointOf (m : Mach) (p : BitVec 4) (home : Nat) : Nat :=
  let d := m.die home
  if !d.hasFrost then 0
  else
    let a := d.ctlFrame + 128 * p.toNat
    max ((m.slotPoint a).getD 0) ((m.slotPoint (a + 64)).getD 0)

/-- Restore the Frost sectors of a partition on a die, newest entry first (R75). -/
def Mach.restoreFrom (m : Mach) (die : Nat) (p : BitVec 4) (rpc s : Nat) : Nat → Mach
  | 0 => m
  | n + 1 =>
    let a := (m.die die).logAt s
    let good := m.rd (a + 6) 1 % 16 = p.toNat && rpc < m.rd a 6
      && (crc64 (crc64 0 (m.bytes a 120)) (m.bytes (a + 128) 128)).toNat = m.rd (a + 120) 8
    let sec := m.rd (a + 8) 8
    let m := if good then ((m.combFlush sec).wr sec 128 (m.rd (a + 128) 128)).setPoison sec (m.rd (a + 7) 1 = 2) else m
    m.restoreFrom die p rpc (s - 1) n

/-- The restore of R75 on every die. -/
def Mach.restore (m : Mach) (p : BitVec 4) (rpc : Nat) : Mach :=
  (List.range 4).foldl (fun m die =>
    let d := m.die die
    if !d.hasFrost then m
    else
      let old := m.rd (d.ctlFrame + 0x800) 8
      let nxt := m.rd (d.ctlFrame + 0x808) 8
      m.restoreFrom die p rpc (nxt - 1) (nxt - old)) m

/-- Steps 1 to 3 of R236: the units stop, every line and entry of the partition goes without being written back, and its writes on the
way go too. -/
def Mach.stopPart (m : Mach) (p : BitVec 4) : Mach :=
  let mine := m.dev.sides.filterMap fun (k, s) => if s.pid = some p then some k else none
  let bars := mine.filterMap fun k => match (m.side k).unit with | some u => if u.gang then some (clusterOf k, u.bar) else none | none => none
  let roles : List Role := [.P, .M, .S]
  let m := mine.foldl (fun m k => roles.foldl (fun m r => m.forgetWaits (.side (BitVec.ofNat 10 k) r)) m) m
  let m := mine.foldl (fun m k => (m.dropEngines k).modSide k fun s =>
    { s.freed with att := [], leaving := [], needImg := false
                   trap := { s.trap with s := { s.trap.s with tstat := 0 }, m := { s.trap.m with tstat := 0 } } }) m
  let ofP := fun (w : BWrite) => match w with | .sec _ _ _ _ _ q _ => q == p | .upd u => u.pid == p
  let seqs := fun (q : SeqId) => m.pidOf q == some p
  m.withDev fun d =>
    { d with
      cores := d.cores.map fun (k, c) =>
        (k, { c with l1 := c.l1.filter (·.pid != p), ic := c.ic.filter (·.pid != p), rc := c.rc.filter (·.pid != p) })
      dies := d.dies.map fun (k, x) =>
        (k, { x with l2 := x.l2.filter (·.pid != p), tc := x.tc.filter (·.pid != p), own := x.own.filter (·.pid != p)
                     upds := x.upds.filter (·.pid != p), batch := x.batch.filter (!ofP ·)
                     rx := x.rx.map fun b => { b with ws := b.ws.filter (!ofP ·) }
                     sched := { x.sched with gwait := x.sched.gwait.filter (·.1 != p), front := x.sched.front.filter fun f => (d.vds.get {} (f.1 / 4)).pid != some p } })
      clusters := d.clusters.map fun (k, c) =>
        (k, { c with bars := c.bars.filter fun b => !bars.contains (k, b.1) })
      probes := d.probes.filter (·.pid != p)
      arrivals := d.arrivals.filter fun a => !seqs a.q
      remote := d.remote.filter fun x => !seqs x.who
      ext := d.ext.filter fun e => e.pid != p
      gangs := d.gangs.filter (·.1 != p) }

/-- A partition physical address lies in a Frost page. -/
def Mach.frostAt (m : Mach) (die : Nat) (p : BitVec 4) (ppa : Nat) : Bool :=
  match m.ppaOf die (some p) ppa with | some (_, f) => f | none => false
/-- Every page of a range of partition physical space is a Frost page. -/
def Mach.frostAll (m : Mach) (die : Nat) (p : BitVec 4) (ppa n : Nat) : Bool :=
  (List.range ((ppa + n + 65535) / 65536 - ppa / 65536)).all fun i => m.frostAt die p (max ppa ((ppa / 65536 + i) * 65536))

/-- A job survives a rollback (R236, R405): it existed at the commit, and its counter records, their continuations, its queue block and the ring
of its class lie in Frost pages.
DEDUCED, unsafe (log 107). -/
def Mach.jobStands (m : Mach) (die : Nat) (p : BitVec 4) (j : Job) : Bool :=
  let recs := (List.range 4).map fun i => m.crec die p (j.ppa + 64 * i)
  let cls := match recs.getLast? with | some (some (r, _)) => r.cls | _ => 0
  (m.part p.toNat).jobsAt.contains j.id && m.frostAll die p j.ppa 256 && m.frostAt die p (m.vd j.vd).qblock
    && (recs.all fun r => match r with | some (r, _) => r.next = 0 || m.frostAt die p r.next | none => false)
    && (match m.qdesc die p j.vd cls with | (some q, _) => m.frostAll die p q.base (32 * 2 ^ q.k) | (none, _) => false)

/-- The dies on which a partition's image keeps its list of requests (R405): die 0, and one other that the partition uses. -/
def Mach.listDies (m : Mach) (p : BitVec 4) : BitVec 4 :=
  match (List.range 4).find? fun d => d != 0 && m.livesOn p d with
  | some d => 1#4 ||| (1#4 <<< d)
  | none => 1#4

/-- What a rollback makes of the listed jobs (R405): those that do not stand complete with status 7, in the order of the list; of a job that no
copy of the list names nothing is told, and the restarted image lists the rest anew. A job whose counter the restore has taken back has not ended.
DESIGN CHOICE, unsafe (log 163): a CANCEL that waits for a job which completes with status 7 gets no completion. -/
def Mach.relist (m : Mach) (die : Nat) (p : BitVec 4) : Mach :=
  let lost := m.dev.jobs.filter fun j => j.pid == p && !m.jobStands die p j
  let l := m.listDies p
  m.withDev fun d =>
    { d with jobs := (d.jobs.filter fun j => !(lost.any (·.id == j.id))).map fun j =>
               if j.pid != p then j else if j.copies = 0 then { j with mute := true } else { j with copies := l }
             compls := d.compls ++ (lost.filter fun j => !j.mute && j.copies != 0).map fun j =>
               { w := j.vd, tag := j.tag, status := 7, epoch := some j.epoch, noIrq := j.noIrq, job := w64 j.id, units := 0, cause := 0 }
             ended := d.ended.filter fun x => x.1 != p || (!lost.any (·.ppa == x.2) && match m.crec die p x.2 with
               | some (r, _) => r.pending == 0
               | none => false)
             rollPend := d.rollPend.filter (· != p) }

/-- ROLLBACK (R236, R405): the monitor stops the partition, restores its Frost pages, sets rpi, rebuilds its tables and restarts its image; the
units that had not ended at the commit run again.
DEDUCED, unsafe (log 107). -/
def execRollback (pid : BitVec 4) (s : State) : Host.Outcome State Fault Refusal :=
  run (fun m =>
    if !m.dev.rollPend.contains pid || m.dev.dies.any (fun x => x.2.resetting) then m
    else
      let ctxDie := fun (m : Mach) => ((List.range 4).find? fun d => (m.pctx d pid).en).getD 0
      let m := m.stopPart pid
      let c := if (m.part pid.toNat).cfg.en then (m.part pid.toNat).cfg else m.pctx (ctxDie m) pid
      let rpc := m.pointOf pid c.home.toNat
      let m := (m.restore pid rpc).giveTables pid c
      let m := m.modPart pid.toNat fun x => { x with rpc := BitVec.ofNat 48 rpc, rpi := BitVec.ofNat 48 (rpc + 1) }
      let m := (m.launchImage pid).relist (ctxDie m) pid
      (m.part pid.toNat).outst.reverse.foldl (fun m (v, c, r) =>
        if m.frostAt (ctxDie m) pid (recLaunch r) then m.requeue (ctxDie m) pid v c [r] true else m) m) s

end Sys2Proof.Machine
end

