-- ==== Sys2Proof/Machine/Context.lean ====
section
/-! DEFINITION. Context images (R224 to R226): the eager parts that a landing pre-emption writes and a resumption reads. The places inside a
part that the spec leaves open are the model's own (DESIGN CHOICE, unsafe, log 18). -/

namespace Sys2Proof.Machine
open Sys2Proof

/-! ## The parts as numbers -/

/-- A loop-stack entry in its 32 bytes (R286). -/
def LoopEnt.words (e : LoopEnt) : List Nat := [e.start.toNat, e.fin.toNat, e.count.toNat, e.index.toNat % 2 ^ 62 + e.ctx.toNat * 2 ^ 62]

/-- A sequencer's 512 bytes: PC, run state, x1 to x31, poison mask, ls0 to ls5 with ls0 the first pushed (R286), capsel, and one spare
doubleword. -/
def Seq.image (q : Seq) (spare : Word) : Nat :=
  let st := nb (q.run == .run) + 2 * nb q.inU + 4 * nb q.barArrived + 256 * q.ls.length
  let xs := (List.range 31).map fun i => (q.reg (BitVec.ofNat 5 (i + 1))).val.toNat
  let po := ((List.range 31).map fun i => nb (q.reg (BitVec.ofNat 5 (i + 1))).pois * 2 ^ (i + 1)).foldl (· + ·) 0
  let ls := (List.range 6).flatMap fun i => ((q.ls.reverse[i]?).map LoopEnt.words).getD [0, 0, 0, 0]
  pack 64 ([q.pc.toNat, st] ++ xs ++ [po] ++ ls ++ [q.capsel.toNat, spare.toNat])

/-- A sequencer from its 512 bytes, and the spare doubleword. -/
def Seq.ofImage (v : Nat) : Seq × Word :=
  let w := fun i => w64 (v / 2 ^ (64 * i) % 2 ^ 64)
  let st := w 1
  let po := w 33
  let xs : Tbl XReg := (List.range 31).map fun i => (i + 1, { val := w (2 + i), full := true, pois := po.getLsbD (i + 1) })
  let ls := (List.range (min 6 (wbits st 8 8))).map fun i =>
    { start := w (34 + 4 * i), fin := w (35 + 4 * i), count := w (36 + 4 * i), index := w64 (wbits (w (37 + 4 * i)) 0 62)
      ctx := BitVec.ofNat 2 (wbits (w (37 + 4 * i)) 62 2) }
  ({ run := if st.getLsbD 0 then .run else .idle, inU := st.getLsbD 1, barArrived := st.getLsbD 2, pc := w 0, x := xs, ls := ls.reverse
     capsel := w 58 }, w 59)

/-- The 256 bytes at 0x1700: vector and floating-point control, mailboxes, the trap registers of level U, and the markers that still act. -/
def Side.ctlImage (s : Side) (marks : List Marker) : Nat :=
  let mb := fun i => s.mb.get {} i
  let bits := fun (f : Mailbox → Bool) => ((List.range 8).map fun i => nb (f (mb i)) * 2 ^ i).foldl (· + ·) 0
  pack 64 ([s.vl.toNat + s.vtype.toNat * 2 ^ 16 + s.vstart.toNat * 2 ^ 32 + s.exi.toNat * 2 ^ 48,
      s.ffi.toNat + s.fflags.toNat * 2 ^ 16 + s.frm.toNat * 2 ^ 24 + s.fenable.toNat * 2 ^ 32, s.bythr.toNat,
      bits (·.full) + bits (·.pois) * 2 ^ 8]
    ++ (List.range 8).map (fun i => (mb i).val.toNat)
    ++ [s.trap.u.cause.toNat, s.trap.u.tval.toNat, s.trap.u.epc.toNat, s.trap.u.tstat.toNat, s.trap.u.tvec.toNat]
    ++ marks.length :: marks.map fun k => k.tick % 2 ^ 56 + k.mask.toNat * 2 ^ 56)

/-- A side with the control state of an image. DESIGN CHOICE, unsafe (log 171): a vl that no save can have written is cut to VLMAX, as a write cuts it. -/
def Side.ofCtl (s : Side) (v : Nat) : Side :=
  let w := fun i => w64 (v / 2 ^ (64 * i) % 2 ^ 64)
  let f := fun i lo n => wbits (w i) lo n
  { s with
    vl := BitVec.ofNat 11 (min (f 0 0 11) (vlmax ((ETy.ofBits (BitVec.ofNat 4 (f 0 16 4))).getD .f64))), vtype := BitVec.ofNat 8 (f 0 16 8), vstart := BitVec.ofNat 11 (f 0 32 11), exi := BitVec.ofNat 11 (f 0 48 11)
    ffi := BitVec.ofNat 11 (f 1 0 11), fflags := BitVec.ofNat 5 (f 1 16 5), frm := BitVec.ofNat 3 (f 1 24 3), fenable := BitVec.ofNat 5 (f 1 32 5)
    bythr := BitVec.ofNat 48 (f 2 0 48)
    mb := (List.range 8).map fun i => (i, { val := w (4 + i), full := (w 3).getLsbD i, pois := (w 3).getLsbD (8 + i) })
    trap := { s.trap with u := { cause := w 12, tval := w 13, epc := w 14, tstat := w 15, tvec := w 16 } }
    marks := (List.range (min 14 (w 17).toNat)).map fun i => ⟨f (18 + i) 0 56, BitVec.ofNat 8 (f (18 + i) 56 8)⟩ }

/-- The code of an element type in a staged slot. -/
def slotTy (n : Nat) : ETy := (ETy.ofBits (BitVec.ofNat 4 n)).getD .i8

/-- A staged-command slot in 64 bytes. -/
def Slot.image : Slot → Nat
  | .empty => 0
  | .armed => 2
  | .staged c =>
    let (a, t, b) := match c.kind with | .mmac a t b => (a.toNat, t.toBits.toNat, nb b) | _ => (0, 0, 0)
    pack 64 [1 + a * 2 ^ 8 + t * 2 ^ 16 + b * 2 ^ 24 + c.lvl.code * 2 ^ 32, c.addr.toNat, c.m + c.n * 2 ^ 16 + c.slices * 2 ^ 32 + c.asn.toNat * 2 ^ 48, c.tick, c.pc.toNat]
/-- A slot from its 64 bytes. -/
def Slot.ofImage (v : Nat) : Slot :=
  let w := fun i => w64 (v / 2 ^ (64 * i) % 2 ^ 64)
  match wbits (w 0) 0 8 with
  | 0 => .empty
  | 1 => .staged { kind := .mmac (BitVec.ofNat 2 (wbits (w 0) 8 2)) (slotTy (wbits (w 0) 16 4)) ((w 0).getLsbD 24), addr := w 1
                   m := wbits (w 2) 0 16, n := wbits (w 2) 16 16, slices := wbits (w 2) 32 16, asn := BitVec.ofNat 16 (wbits (w 2) 48 16)
                   lvl := Level.ofCode (wbits (w 0) 32 2), tick := (w 3).toNat, pc := w 4 }
  | _ => .armed

/-! ### The stream engine (R170 to R174, R293, R315) -/

/-- Numbers at byte offsets of a part. -/
def layOut (l : List (Nat × Nat)) : Nat := l.foldl (fun n x => n + x.2 * 2 ^ (8 * x.1)) 0
/-- `n` bytes of a part from a byte offset on. -/
def partAt (v off n : Nat) : Nat := v / 2 ^ (8 * off) % 2 ^ (8 * n)
/-- Doubleword `i` of a part. -/
def wordAt (v i : Nat) : Nat := partAt v (8 * i) 8

/-- A token in 24 bytes: its two words (R172), and what a copy fault reports beside them, the bits of tval above [34:0] (R361) among it. -/
def Token.image (t : Token) : Nat :=
  pack 64 [t.word0.toNat, t.backlog * 2 ^ 40 + t.cause.toNat * 2 ^ 32 + t.resume % 2 ^ 32,
    t.tvalHi.toNat / 2 ^ 35 * 2 ^ 35 + t.ckind.toNat + 16 * t.creason.toNat]
/-- A token from its 24 bytes. -/
def Token.ofImage (v : Nat) : Token :=
  let f := fun i lo n => wordAt v i / 2 ^ lo % 2 ^ n
  { oor := f 0 48 16, pois := f 0 32 16, done := f 0 16 16, status := BitVec.ofNat 4 (f 0 12 4), pend := f 0 0 8, backlog := f 1 40 24
    cause := BitVec.ofNat 8 (f 1 32 8), resume := f 1 0 32, ckind := BitVec.ofNat 4 (f 2 0 4), creason := BitVec.ofNat 4 (f 2 4 4), tvalHi := w64 (f 2 35 29 * 2 ^ 35) }

/-- The counts of a circular buffer matter modulo 256, as they are shown, and modulo its slots (R170). -/
def CBuf.turn (b : CBuf) : Nat := Nat.lcm 256 b.n
/-- A circular buffer in 24 bytes: its descriptor and claimed count, how far the others are behind, and the slots that have landed early. -/
def CBuf.image (b : CBuf) : Nat :=
  pack 64 [b.desc.toNat + b.claimed % b.turn * 2 ^ 32, (b.claimed - b.filled) + (b.claimed - b.taken) * 2 ^ 8 + (b.claimed - b.freed) * 2 ^ 16,
    (b.landed.map fun s => 2 ^ (s - b.filled)).foldl (· + ·) 0]
/-- A circular buffer from its 24 bytes. DESIGN CHOICE, unsafe (log 171): counts that break the order of R171, which no save can have written, are
moved into it. -/
def CBuf.ofImage (v : Nat) : CBuf :=
  let f := fun i lo n => wordAt v i / 2 ^ lo % 2 ^ n
  let b : CBuf := { desc := BitVec.ofNat 32 (f 0 0 32) }
  let c := f 0 32 16 + b.turn
  let unfilled := min (f 1 0 8) b.n
  let untaken := max unfilled (min (f 1 8 8) b.n)
  let filled := c - unfilled
  { b with claimed := c, filled := filled, taken := c - untaken, freed := c - max untaken (min (f 1 16 8) b.n)
           landed := ((List.range 64).filter fun i => f 2 i 1 = 1).map (filled + ·) }

/-- The code of a kind of stream command. -/
def SKind.code : SKind → Nat
  | .cpy => 0
  | .sgath p => 1 + nb p
  | .sgred op => 4 + op.toBits.toNat
  | .sscadd op => 8 + op.toBits.toNat
/-- The code read backwards. -/
def SKind.ofCode (n : Nat) : SKind :=
  let op := (BankOp.ofBits (BitVec.ofNat 2 n)).getD .add
  if n = 0 then .cpy else if n < 4 then .sgath (n = 2) else if n < 8 then .sgred op else .sscadd op

/-- A stream command in 168 bytes: its captured record, operands, and where it stands; its slot is counted back from the buffer's claimed count. -/
def SOp.image (x : SxState) (o : SOp) : Nat :=
  let back := match o.cb, o.slot with | some c, some s => (x.cb.get {} c.toNat).claimed - s | _, _ => 0
  let flags := o.kind.code + o.it.toBits.toNat * 2 ^ 4 + o.pol.toBits.toNat * 2 ^ 8 + o.lvl.code * 2 ^ 10 + o.tk.toNat * 2 ^ 12
    + (match o.fo with | some f => 1 + 2 * f.toNat | none => 0) * 2 ^ 16 + (match o.cb with | some c => 1 + 2 * c.toNat | none => 0) * 2 ^ 20
    + nb o.dst.isSome * 2 ^ 25 + nb o.landed * 2 ^ 26 + nb o.faulted * 2 ^ 27 + o.asn.toNat * 2 ^ 32 + back * 2 ^ 48
  o.rec_.toNat + 2 ^ 768 * pack 64 [(o.dst.getD 0).toNat, o.idx.toNat, o.n, o.bsz, o.ops, o.b, o.pos, o.tick, flags]
/-- A stream command from its 168 bytes; what its batch or bag has read so far is read again. -/
def SOp.ofImage (x : SxState) (v : Nat) : SOp :=
  let f := fun lo n => wordAt v 20 / 2 ^ lo % 2 ^ n
  let cb : Option (BitVec 4) := if f 20 1 = 1 then some (BitVec.ofNat 4 (f 21 4)) else none
  { kind := SKind.ofCode (f 0 4), rec_ := BitVec.ofNat 768 v, dst := if f 25 1 = 1 then some (w64 (wordAt v 12)) else none, cb := cb
    tk := BitVec.ofNat 3 (f 12 3), fo := if f 16 1 = 1 then some (BitVec.ofNat 2 (f 17 2)) else none, idx := w64 (wordAt v 13), n := wordAt v 14
    bsz := wordAt v 15, it := slotTy (f 4 4), pol := (Pol.ofBits (BitVec.ofNat 2 (f 8 2))).getD .poison, ops := wordAt v 16, b := wordAt v 17
    pos := wordAt v 18, slot := match cb with | some c => if f 48 8 = 0 then none else some ((x.cb.get {} c.toNat).claimed - f 48 8) | none => none
    cache := [], acc := none, started := f 26 1 = 1, landed := f 26 1 = 1, faulted := f 27 1 = 1, asn := BitVec.ofNat 16 (f 32 16)
    lvl := Level.ofCode (f 10 2), tick := wordAt v 19 }

/-- A pattern of port `i` in 112 bytes. -/
def Pattern.image (i : Nat) (p : Pattern) : Nat :=
  p.rec_.toNat + 2 ^ 768 * pack 64 [p.asn.toNat + p.lvl.code * 2 ^ 16 + i * 2 ^ 24, p.tick]
/-- A pattern and its port from their 112 bytes. -/
def Pattern.ofImage (v : Nat) : Nat × Pattern :=
  let f := fun lo n => wordAt v 12 / 2 ^ lo % 2 ^ n
  (f 24 3, ⟨BitVec.ofNat 768 v, BitVec.ofNat 16 (f 0 16), Level.ofCode (f 16 2), wordAt v 13⟩)

/-- The patterns that the ports of an engine hold, with their ports. -/
def SxState.patterns (x : SxState) : List (Nat × Pattern) := (List.range 8).flatMap fun i => (x.sp.get {} i).pats.map fun p => (i, p)

/-- The commands and then the patterns of an engine, one behind the other: their bytes, and how many there are. -/
def SxState.work (x : SxState) : Nat × Nat :=
  (pack 1344 (x.sq.map (·.image x)) + 2 ^ (1344 * x.sq.length) * pack 896 (x.patterns.map fun (i, p) => p.image i),
   168 * x.sq.length + 112 * x.patterns.length)
/-- The bytes of the 2 KiB of the stream engine that commands and patterns may take (R225). -/
def workRoom : Nat := 440

/-- The 2 KiB of the stream engine (R225): tokens, ports with their position and vector register, ly0 to ly7, cb0 to cb15, byte barriers, and the
commands and patterns as far as they go. A port reads again what it has read ahead. -/
def SxState.image (x : SxState) (bind : List (VR × BitVec 3)) : Nat :=
  let port := fun i =>
    let q : SPort := x.sp.get {} i
    let b := match bind.find? (·.2.toNat == i) with | some (v, _) => 1 + 2 * v.toNat | none => 0
    pack 64 [q.next - q.buf.length, q.skip + b * 2 ^ 16]
  let bar := fun (b : ByteBar) => pack 64 [1 + b.tk.toNat * 2 + b.addr * 2 ^ 4 + b.target * 2 ^ 32, b.since]
  layOut [(0, pack 192 ((List.range 8).map fun i => (x.tok.get {} i).image)), (0xc0, pack 128 ((List.range 8).map port)),
    (0x140, pack 768 ((List.range 8).map fun i => (x.ly.get 0 i).toNat)), (0x440, pack 192 ((List.range 16).map fun i => (x.cb.get {} i).image)),
    (0x5c0, pack 128 (x.bars.map bar)), (0x640, x.sq.length + x.patterns.length * 2 ^ 16), (0x648, x.work.1 % 256 ^ workRoom)]

/-- How many commands and patterns the 2 KiB name. -/
def workCounts (v : Nat) : Nat × Nat := (partAt v 0x640 2, partAt v 0x642 2)
/-- The engine and the bindings from those 2 KiB and the bytes of the commands and patterns that they do not hold. -/
def SxState.ofImage (v rest : Nat) : SxState × List (VR × BitVec 3) :=
  let (n, np) := workCounts v
  let work := partAt v 0x648 workRoom + 256 ^ workRoom * rest
  let ps := (items 896 (work / 2 ^ (1344 * n)) np).map Pattern.ofImage
  let port := fun i => (i, ({ pats := (ps.filter (·.1 == i)).map (·.2), next := partAt v (0xc0 + 16 * i) 8, skip := partAt v (0xc8 + 16 * i) 2 } : SPort))
  let bars := ((List.range 8).map fun i => partAt v (0x5c0 + 16 * i) 16).filter fun b => b % 2 = 1
  let x : SxState :=
    { tok := (List.range 8).map fun i => (i, Token.ofImage (partAt v (24 * i) 24)), sp := (List.range 8).map port
      ly := (List.range 8).map fun i => (i, BitVec.ofNat 768 (partAt v (0x140 + 96 * i) 96))
      cb := (List.range 16).map fun i => (i, CBuf.ofImage (partAt v (0x440 + 24 * i) 24))
      bars := bars.map fun b => ⟨BitVec.ofNat 3 (b / 2), b / 2 ^ 4 % 2 ^ 18, b / 2 ^ 32 % 2 ^ 32, wordAt b 1⟩ }
  ({ x with sq := (items 1344 work n).map (SOp.ofImage x) },
    (List.range 8).filterMap fun i => let b := partAt v (0xca + 16 * i) 1; if b % 2 = 1 then some (BitVec.ofNat 5 (b / 2), BitVec.ofNat 3 i) else none)

/-- The markers that still hold back an entry (R195). -/
def Mach.liveMarks (m : Mach) (k : Nat) : List Marker :=
  let s := m.side k
  let c := m.core (k / 2)
  s.marks.filter fun x => m.vPend k x
    || (x.mask.getLsbD 1 && m.owns k 6 && c.mx.mq.any fun e => e.tick < x.tick) || (x.mask.getLsbD 2 && m.owns k 7 && c.sx.sq.any fun e => e.tick < x.tick)
    || (x.mask.getLsbD 3 && s.tq.any fun e => e.tick < x.tick)

/-- The bytes behind the table engine's part that commands and patterns take when the 2 KiB of the stream engine are full. -/
def workMore : Nat := 4032
/-- What a side holds fits into an image: a landing waits until no more than 14 markers are left, and no more commands and patterns than have room. -/
def Mach.imageFits (m : Mach) (k : Nat) : Bool :=
  let x := (m.core (k / 2)).sx
  (m.liveMarks k).length ≤ 14 && (!m.owns k 7 || x.work.2 ≤ workRoom + workMore)

/-! ### The index engine -/

/-- The table engine's 64 bytes of parameters and its entries. -/
def IxState.table (x : IxState) : Nat :=
  x.x0.toNat + x.h.toNat * 2 ^ 32 + x.knots.length * 2 ^ 64 + 2 ^ 512 * pack 32 (x.knots.map (·.toNat))
/-- The index scratchpad: 4,096 entries of key, valid and value. DESIGN CHOICE, unsafe (log 18): bit 33 of an entry says that it is uncorrectable,
and its value is then the index of the error's log entry. -/
def IxState.entries (x : IxState) : Nat :=
  pack 128 ((List.range 4096).map fun n =>
    let e := match x.ents.find? (·.1 == n) with
      | some (_, e) => e.key.toNat + 2 ^ 32 + e.val.toNat * 2 ^ 64
      | none => 0
    match x.bad.find? (·.1 == n) with
    | some (_, i) => e % 2 ^ 33 + 2 ^ 33 + i.toNat * 2 ^ 64
    | none => e)
/-- The entries of an image. -/
def ixOfImage (v : Nat) : Tbl IxEnt :=
  ((items 128 v 4096).zipIdx.filter fun (x, _) => x / 2 ^ 32 % 2 = 1).map fun (x, n) => (n, ⟨BitVec.ofNat 32 x, w64 (x / 2 ^ 64 % 2 ^ 64)⟩)
/-- The uncorrectable entries of an image. -/
def badOfImage (v : Nat) : List (Nat × Word) :=
  ((items 128 v 4096).zipIdx.filter fun (x, _) => x / 2 ^ 33 % 2 = 1).map fun (x, n) => (n, w64 (x / 2 ^ 64 % 2 ^ 64))

/-! ## Scratchpad blocks (R226), numbered from the side's own first offset -/

/-- The byte numbers of block `b` of a range, slice by slice. -/
def blockBytes (r : SpRange) (b : Nat) : List Nat :=
  (List.range 16).flatMap fun s => (List.range 64).map fun i => r.at_ s (64 * b + i)
/-- The blocks of a side's range that its written mask names. -/
def Mach.blocks (m : Mach) (k : Nat) : List Nat :=
  let r := m.spOwn k
  (List.range (r.reach / 64)).filter fun b => (m.side k).written.getLsbD (r.base / 64 + b)

/-! ## The save (R223, R225) -/

/-- The header at a save: the fields of the lazy parts stay (R226). -/
def Mach.header (m : Mach) (k : Nat) (u : UnitInfo) (old flen : Nat) : Nat :=
  let s := m.side k
  let x := (m.core (k / 2)).ix
  let ix := m.owns k 5
  let mask := (m.blocks k).foldl (fun n b => n + 2 ^ b) 0
  let put := fun (v lo n x : Nat) => v - v / 2 ^ lo % 2 ^ n * 2 ^ lo + x % 2 ^ n * 2 ^ lo
  let v := put old 0 32 (1 + 2 ^ 8 * (k / 256 + 4 * nb u.gang + 8 * nb (ix && x.usedTab) + 16 * nb (ix && x.usedIx)) + 2 ^ 16 * flen)
  let v := put v 64 32 (s.vl.toNat + 2 ^ 16 * s.vtype.toNat)
  let v := put v 104 24 (2 ^ 8 * (if ix then x.cursor else 0))
  let v := put v 640 256 mask
  put v 896 72 (2 ^ 32 * s.phase + 2 ^ 64 * nb s.arrived)

/-- Write the eager parts of a side's context into the image at `a`; none when an access fails. -/
def Mach.saveImage (m : Mach) (k a : Nat) (u : UnitInfo) : Option Mach :=
  let s := m.side k
  let die := k / 256
  let c := m.core (k / 2)
  let r := m.spOwn k
  let es := s.vq
  let flen := if es.isEmpty then 0 else 64 + 48 * es.length
  let s' := s.unwind
  (m.imgGet die s.pid (a + 0x1000) 256).bind fun ((h, _), m) =>
    let put := fun mo o n v => Mach.imgPut mo die s.pid (a + o) n v
    let mo := put (some m) 0x1000 256 (m.header k u h flen)
    let mo := if es.isEmpty then mo else put mo 0x800 flen (frameBits s.p.pc es)
    let mo := put mo 0x1100 512 (s'.p.image (w64 (k / 2)))
    let mo := put mo 0x1300 512 (s.m.image (if m.owns k 6 then c.mx.shape else 0))
    let mo := put mo 0x1500 512 (s.s.image (w64 s.tick))
    let mo := put mo 0x1700 256 (s.ctlImage (m.liveMarks k))
    let mo := put mo 0x1800 1920 (pack 1024 ((List.range 15).map fun i => (s.pr.get 0 (i + 1)).toNat))
    let mo := if m.owns k 7 then
        let mo := put mo 0x2000 2048 (c.sx.image s.bind)
        let (w, n) := c.sx.work
        if n ≤ workRoom then mo else put mo 0x4040 (n - workRoom) (w / 256 ^ workRoom)
      else mo
    let mo := put mo 0x2800 256 (leNat s.text.image)
    let mo := if m.owns k 6 then put mo 0x2900 256 (pack 512 ((List.range 4).map fun i => (c.mx.slots.get .empty i).image)) else mo
    let mo := if m.owns k 5 && c.ix.usedTab then put mo 0x3000 4160 c.ix.table else mo
    let mo := if m.owns k 5 && c.ix.usedIx then put mo 0x5000 65536 c.ix.entries else mo
    (m.blocks k).foldl (fun mo b =>
      let bs := blockBytes r b
      let mo := put mo (0x60000 + 1024 * b) 1024 (pack 8 (bs.map fun i => (c.spad.get 0 i).toNat))
      put mo (0xa0000 + 32 * b) 32 (pack 1 ((List.range 256).map fun g => nb (c.spois.get false ((bs[4 * g]?).getD 0 / 4))))) mo

/-! ## The restore (R224, R228) -/

/-- The restore in progress: the machine, and whether a read failed or met an uncorrectable error. -/
structure Rest where
  m : Mach
  bad : Bool := false

/-- Read one part of an image. -/
def Rest.get (r : Rest) (k a n : Nat) : Nat × Rest :=
  match r.m.imgGet (k / 256) (r.m.side k).pid a n with
  | some ((v, p), m) => (v, { m := m, bad := r.bad || p != 0 })
  | none => (0, { r with bad := true })

/-- Restore one scratchpad block with its poison. -/
def Rest.block (r : Rest) (k a b : Nat) : Rest :=
  let (v, r) := r.get k (a + 0x60000 + 1024 * b) 1024
  let (p, r) := r.get k (a + 0xa0000 + 32 * b) 32
  let bytes := (blockBytes (r.m.spOwn k) b).zipIdx.map fun (i, j) => (i, BitVec.ofNat 8 (v / 2 ^ (8 * j)), p.testBit (j / 4))
  { r with m := r.m.spWrite k (k / 2) bytes }

/-- A saved scratchpad address names the core that resumes when it named the old one (R224). -/
def rehome (old new : Nat) (a : Word) : Word :=
  if wbits a 18 3 = old % 8 then w64 (a.toNat - wbits a 18 3 * 2 ^ 18 + new % 8 * 2 ^ 18) else a

/-- A stream command on the core that resumes it. -/
def SOp.rehome (old new : Nat) (o : SOp) : SOp :=
  { o with dst := if lyDst o.rec_ = 1 then o.dst.map (Machine.rehome old new) else o.dst }
/-- A staged command on the core that resumes it. -/
def Slot.rehome (old new : Nat) : Slot → Slot
  | .staged c => .staged { c with addr := Machine.rehome old new c.addr }
  | x => x

/-- Read the eager parts of an image into a side (R224): the scratchpad blocks first, the engines it owns, the queue frame, and the
sequencers at their saved PCs. -/
def Mach.restoreImage (m : Mach) (k a : Nat) : Rest :=
  let r : Rest := { m := m }
  let (h, r) := r.get k (a + 0x1000) 256
  let mask := h / 2 ^ 640 % 2 ^ 256
  let r := ((List.range ((r.m.spOwn k).reach / 64)).filter mask.testBit).foldl (fun r b => r.block k a b) r
  let (pv, r) := r.get k (a + 0x1100) 512
  let (mv, r) := r.get k (a + 0x1300) 512
  let (sv, r) := r.get k (a + 0x1500) 512
  let (cv, r) := r.get k (a + 0x1700) 256
  let (pr, r) := r.get k (a + 0x1800) 1920
  let sxO := r.m.owns k 7
  let (xv, r) := if sxO then r.get k (a + 0x2000) 2048 else (0, r)
  let more := min workMore (168 * (workCounts xv).1 + 112 * (workCounts xv).2 - workRoom)
  let (xw, r) := if sxO && more != 0 then r.get k (a + 0x4040) more else (0, r)
  let (sx, bind) := SxState.ofImage xv xw
  let (tx, r) := r.get k (a + 0x2800) 256
  let (sl, r) := r.get k (a + 0x2900) 256
  let tabU := h.testBit 11
  let ixU := h.testBit 12
  let (tv, r) := if tabU then r.get k (a + 0x3000) 4160 else (0, r)
  let (iv, r) := if ixU then r.get k (a + 0x5000) 65536 else (0, r)
  let flen := h / 2 ^ 16 % 2 ^ 16
  let (fv, r) := if flen = 0 then (0, r) else r.get k (a + 0x800) flen
  let frame := if flen = 0 then none else frameOfBits fv
  let r := { r with bad := r.bad || (flen != 0 && frame.isNone) }
  let old := (Seq.ofImage pv).2.toNat
  let new := k / 2
  let m := r.m.modSide k fun s =>
    let s := s.ofCtl cv
    let s := { s with
      p := (Seq.ofImage pv).1, m := (Seq.ofImage mv).1, s := (Seq.ofImage sv).1
      pr := ((items 1024 pr 15).zipIdx.filter fun (v, _) => v != 0).map fun (v, i) => (i + 1, BitVec.ofNat 1024 v)
      text := (match ctxOfImage (leBytes tx 256) with | .ok c => c | .error _ => {})
      bind := if sxO then bind else [], tick := max s.tick (Seq.ofImage sv).2.toNat
      phase := h / 2 ^ 928 % 2 ^ 32, arrived := h.testBit 960 }
    match frame with
    | some f => { s.reissue f.entries with p := { (s.reissue f.entries).p with pc := f.resume } }
    | none => s
  let m := m.modCore new fun c =>
    { c with
      mx := if m.owns k 6 then
          { c.mx with shape := (Seq.ofImage mv).2, mq := []
                      slots := (List.range 4).map fun i => (i, (Slot.ofImage (sl / 2 ^ (512 * i) % 2 ^ 512)).rehome old new) }
        else c.mx
      sx := if sxO then { sx with sq := sx.sq.map (SOp.rehome old new) } else c.sx
      ix := if m.owns k 5 then
          { ents := if ixU then ixOfImage iv else c.ix.ents, bad := if ixU then badOfImage iv else c.ix.bad, cursor := h / 2 ^ 112 % 2 ^ 16, usedIx := ixU, usedTab := tabU
            knots := if tabU then (items 32 (tv / 2 ^ 512) (min 1024 (tv / 2 ^ 64 % 2 ^ 16))).map (BitVec.ofNat 32) else c.ix.knots
            x0 := if tabU then BitVec.ofNat 32 tv else c.ix.x0, h := if tabU then BitVec.ofNat 32 (tv / 2 ^ 32) else c.ix.h }
        else c.ix }
  { r with m := m }

end Sys2Proof.Machine
end

