-- ==== Sys2Proof/Machine/Scheduler.lean ====
section
/-! DEFINITION. The scheduler of a die (R105, R106, R117 to R130): which record an idle side takes, how a unit or gang starts or resumes,
refill and rescue, and how a pre-emption or a cancellation lands (R221 to R224). A move that is not possible changes nothing. -/

namespace Sys2Proof.Machine
open Sys2Proof

/-! ## The fronts of the rings (R113, R123, R124) -/

/-- The fronts of all classes of a partition's devices with nonzero weight (R111).
DESIGN CHOICE, safe (log 108). -/
def Mach.fronts (m : Mach) (die : Nat) (p : BitVec 4) : List Front × Mach :=
  ((m.vdsOf p).filter fun v => (m.vd v).weight ≠ 0).foldl (fun (fm : List Front × Mach) v =>
    let (l, m) := fm.2.frontsOf die p v
    (fm.1 ++ l, m.noteOldest die v l)) ([], m)

/-! ## Idle sides and gang places (R117) -/

/-- A side that may start a unit: of a partition, powered (R21), without a unit, idle, with an image to save into (R223); a side B only
where the partition's list has the feature (R37).
DEDUCED, safe (log 140). -/
def Mach.idleSide (m : Mach) (k : Nat) : Bool :=
  let s := m.side k
  s.pid.isSome && (m.die (k / 256)).islState.getLsbD (k / 64 % 4)
    && (k % 2 = 0 || (m.capList (s.pid.getD 0).toNat).any fun e => capId e == 0x16)
    && s.unit.isNone && !s.needImg && s.p.run == .idle && s.m.run == .idle && s.s.run == .idle
/-- The idle sides of a partition in a cluster. -/
def Mach.idleIn (m : Mach) (p : BitVec 4) (die cl : Nat) : List Nat :=
  (m.sidesOf p die).filter fun k => clusterOf k == cl && m.idleSide k
/-- A free barrier of a cluster, the lowest. -/
def Mach.freeBar (m : Mach) (cl : Nat) : Option Nat := (List.range 64).find? fun b => !(m.bar cl b).used
/-- The cluster of a die with the most idle sides of a partition, the lowest on a tie. -/
def Mach.mostIdle (m : Mach) (p : BitVec 4) (die : Nat) : Nat :=
  ((List.range 16).map (16 * die + ·)).foldl (fun b c => if (m.idleIn p die b).length < (m.idleIn p die c).length then c else b) (16 * die)
/-- Where a gang of `g` starts: a cluster, its sides and a barrier; the cluster of the side that chose first (R117 leaves it open).
DESIGN CHOICE, unsafe (log 110). -/
def Mach.gangPlace (m : Mach) (k : Nat) (p : BitVec 4) (v g : Nat) : Option (List Nat × Nat) :=
  let die := k / 256
  if m.capsides v die < m.running v die + g then none
  else
    (clusterOf k :: (List.range 16).map (16 * die + ·)).findSome? fun c =>
      let ss := (m.idleIn p die c).filter fun j => (match (m.die die).sched.hold.find? (·.1 == j) with | some (_, h) => h == v | none => true)
      match m.freeBar c with
      | some b => if g ≤ ss.length then some (ss.take g, b) else none
      | none => none

/-- The saved members at a front that a rollback has put back (R118, R236): the run of records of the same launch.
DEDUCED, unsafe (log 109). -/
def Mach.gangRun (m : Mach) (die : Nat) (p : BitVec 4) (q : QDesc) (r : BitVec 256) (i : Nat) : Nat → Nat × Mach
  | 0 => (0, m)
  | n + 1 =>
    if (q.tail + 2 ^ 64 - i) % 2 ^ 64 = 0 then (0, m)
    else match m.ringGet die p q i with
      | (some x, m) =>
        if fld x.toNat 3 0 52 = fld r.toNat 3 0 52 then let (c, m) := m.gangRun die p q r (i + 1) n; (c + 1, m) else (0, m)
      | (none, m) => (0, m)

/-- How many records a start from a front takes (R105, R117, R118): one, as many as the gang launch has members, or the members that were pre-empted
together; 0 while the ring does not hold them all. -/
def Mach.takes (m : Mach) (die : Nat) (p : BitVec 4) (f : Front) : Nat × Mach :=
  if !recGang f.rec_ then (1, m)
  else match m.qdesc die p f.v f.cls with
    | (none, m) => (1, m)
    | (some q, m) =>
      if recCtx f.rec_ then
        match m.dev.gangs.find? fun g => g.1 == p && g.2.head? == some f.rec_ with
        | some (_, rs) => (if rs.zipIdx.all fun x => (m.ringGet die p q (f.idx + x.2)).1 == some x.1 then rs.length else 0, m)
        | none => m.gangRun die p q f.rec_ f.idx 16
      else match m.crec die p (recLaunch f.rec_) with
        | some (l, m) => let n := max 1 l.gsize; (if (q.tail + 2 ^ 64 - f.idx) % 2 ^ 64 < n then 0 else n, m)
        | none => (1, m)

/-! ## The choice of R124 -/

/-- A device may start a unit: allowance left and room under its cap. -/
def Mach.mayRun (m : Mach) (die v : Nat) : Bool := decide (0 < (m.vds die v).allow) && m.running v die < m.capsides v die
/-- A device is boosted. -/
def Mach.boosted (m : Mach) (die v : Nat) : Bool :=
  match (m.vds die v).boostEnd with | some e => (m.die die).cyc.toNat < e | none => false

/-- The best of some devices: the greatest A/w, on a tie the first after the last choice.
DESIGN CHOICE, unsafe (log 111). -/
def Mach.bestVd (m : Mach) (die : Nat) (vs : List Nat) : Option Nat :=
  let order := ((List.range 64).map fun i => ((m.die die).sched.last + 1 + i) % 64).filter vs.contains
  order.foldl (fun (b : Option Nat) v => match b with
    | none => some v
    | some u => if (m.vds die u).allow * ((m.vd v).weight : Int) < (m.vds die v).allow * ((m.vd u).weight : Int) then some v else some u) none

/-- The class of a device: those that have waited a period first, the longest wait first; then class 0 first. -/
def Mach.bestCls (m : Mach) (die : Nat) (fs : List Front) : Option Front :=
  let now := (m.die die).cyc.toNat
  let aged := fs.filter fun f => f.since + period ≤ now
  match aged with
  | a :: r => some (r.foldl (fun b f => if f.since < b.since then f else b) a)
  | [] => match fs with
    | a :: r => some (r.foldl (fun b f => if f.cls < b.cls then f else b) a)
    | [] => none

/-- The record that an idle side takes (R124, R117): a gang that would pass its device's capsides is passed over, one that waits for sides is
passed over outside the withheld cluster unless it fits now, and a side that is held goes to its device first. -/
def Mach.choose (m : Mach) (k : Nat) : Option Front × Mach :=
  let die := k / 256
  match (m.side k).pid with
  | none => (none, m)
  | some p =>
    let (fs, m) := m.fronts die p
    let m := m.modSched die fun s =>
      { s with gwait := s.gwait.filter fun x => x.1 != p || fs.any fun f => f.v == x.2.1 && f.cls == x.2.2 && recGang f.rec_ }
    let gw := ((m.die die).sched.gwait.filter (·.1 == p)).map (·.2)
    let size := fun (f : Front) => (m.takes die p f).1
    let under := fun (f : Front) => !recGang f.rec_ || (size f != 0 && m.running f.v die + size f ≤ m.capsides f.v die)
    let gw := gw.filter fun x => decide (0 < (m.vds die x.1).allow) && fs.any fun f => f.v == x.1 && f.cls == x.2 && under f
    let withheld := !gw.isEmpty && clusterOf k == m.mostIdle p die
    let fits := fun (f : Front) => (m.gangPlace k p f.v (size f)).isSome
    let ok := fun (f : Front) => m.mayRun die f.v && under f && (if gw.contains (f.v, f.cls) then withheld || fits f else !withheld)
    let cand : List Front := fs.filter ok
    let held : List Front := match (m.die die).sched.hold.find? (·.1 == k) with
      | some (_, h) => if cand.any (·.v == h) then cand.filter (·.v == h) else cand
      | none => cand
    let pool : List Front := if held.any fun f => m.boosted die f.v then held.filter fun f => m.boosted die f.v else held
    match m.bestVd die (pool.map (·.v)) with
    | none => (none, m)
    | some v => (m.bestCls die (pool.filter (·.v == v)), m.modSched die fun s => { s with last := v })

/-! ## Pop and check (R105, R113, R120) -/

/-- Move records towards the back by `n` slots, the last first: the slots from `h` on, `c` of them. -/
def Mach.ringShift (m : Mach) (die : Nat) (p : BitVec 4) (q : QDesc) (h n : Nat) : Nat → Mach
  | 0 => m
  | c + 1 =>
    let m := match m.ringGet die p q (h + c) with
      | (some r, m) => m.ringPut die p q (h + c + n) [r]
      | (none, m) => m
    m.ringShift die p q h n c

/-- Take `n` records from a front (R113); those before it keep their places. -/
def Mach.pop (m : Mach) (die : Nat) (p : BitVec 4) (v c : Nat) (q : QDesc) (i n : Nat) : List (BitVec 256) × Mach :=
  let (rs, m) := (List.range n).foldl (fun (x : List (BitVec 256) × Mach) j =>
    match x.2.ringGet die p q (i + j) with
    | (some r, m) => (x.1 ++ [r], m)
    | (none, m) => (x.1, m)) ([], m)
  let m := (m.ringShift die p q q.head n ((i + 2 ^ 64 - q.head) % 2 ^ 64)).shiftFronts v c q.head i n
  let m := m.withDev fun d => { d with gangs := d.gangs.filter fun g => !(g.1 == p && g.2.head? == rs.head?) }
  (rs, (m.recPut8 die p (q.ppa + 8) ((q.head + n) % 2 ^ 64)).noteFronts p v c)

/-- Add to a count in word 3 of a class descriptor. -/
def Mach.addCount (m : Mach) (die : Nat) (p : BitVec 4) (q : QDesc) (lo w n : Nat) : Mach :=
  match m.recGet die p (q.ppa + 24) 8 with
  | some ((v, _), m) => m.recPut8 die p (q.ppa + 24) (setFld v 0 lo w (fld v 0 lo w + n))
  | none => m

/-- The check of popped records (R105, R120): the members of a gang are checked together. The records with their launches when they are to start.
DESIGN CHOICE, unsafe (log 164): a record that is both below a cancelled record and malformed is discarded as cancelled. -/
def Mach.checkRecs (m : Mach) (die : Nat) (p : BitVec 4) (q : QDesc) (v : Nat) (rs : List (BitVec 256)) : Option (List (BitVec 256 × CRec)) × Mach :=
  let (cs, m) := rs.foldl (fun (x : List (Option (List CRec)) × Mach) r => let (c, m) := x.2.chain die p (recLaunch r); (x.1 ++ [c], m)) ([], m)
  let fail := fun (m : Mach) (c : BitVec 8) => rs.foldl (fun m r => m.countUnit die p (recLaunch r) (some c)) m
  if cs.any (·.isNone) then (none, (m.addCount die p q 48 16 rs.length).irqNotify v 0x04)
  else if cs.any fun c => (c.getD []).any (·.state == 2) then (none, fail (m.addCount die p q 16 32 rs.length) 0x19)
  else if rs.any fun r => recBad r || (recJoin r).toNat % 64 ≠ 0 then (none, fail m 0x01)
  else (some (rs.zip (cs.filterMap fun c => c.bind (·.head?))), m)

/-! ## Start and resumption (R106, R224) -/

/-- A side before a unit starts on it: what the device keeps for the side itself stays. -/
def Side.blank (s : Side) : Side :=
  { pid := s.pid, v := s.v, vown := s.vown, vdirty := s.vdirty, stsup := s.stsup, oorct := s.oorct, poict := s.poict
    trap := { s.trap with u := {} }, serial := s.serial, att := s.att, tick := s.tick, irq := s.irq, vstale := s.vstale, saveFor := s.saveFor }

/-- The engines that a side owns, as a unit finds them at its start (R106). -/
def Mach.blankEngines (m : Mach) (k : Nat) : Mach :=
  let mx := m.owns k 6
  let sx := m.owns k 7
  let ix := m.owns k 5
  m.modCore (k / 2) fun c =>
    { c with mx := if mx then { c.mx with shape := 0xff1f, slots := [], mq := [] } else c.mx
             sx := if sx then {} else c.sx
             ix := if ix then { c.ix with usedIx := false, usedTab := false } else c.ix }

/-- A side takes a unit: its charge begins, and it is no longer held. -/
def Mach.takeUnit (m : Mach) (k : Nat) (u : UnitInfo) (asn : BitVec 16) : Mach :=
  let die := k / 256
  let m := m.modSide k fun s => { s.blank with unit := some u, asn := asn }
  let m := m.modVds die u.vd fun a => { a with idleSince := none }
  (m.modSched die fun s => { s with hold := s.hold.filter (·.1 != k) }).blankEngines k

/-- A unit that starts with ctx = 0 is a new context, whatever context had its image before: the registers of a side whose vown names the image
are not its own, and what the old context left there is no longer dirty (R106, R227).
DEDUCED, unsafe (log 137). -/
def Mach.disown (m : Mach) (p : Option (BitVec 4)) (img : Nat) : Mach :=
  m.dev.sides.foldl (fun m (j, s) =>
    if s.pid == p && s.vown.getLsbD 0 && wbits s.vown 12 40 * 4096 == img then
      let m := m.modSide j fun s => { s with vstale := true, vdirty := 0 }
      if m.owns j 6 then m.modCore (j / 2) fun c => { c with mx := { c.mx with dirtyAcc := 0, dirtyBank := 0 } } else m
    else m) m

/-- Start a unit from a record with ctx = 0 (R106, R227).
DESIGN CHOICE, unsafe (log 114). -/
def Mach.startUnit (m : Mach) (k : Nat) (f : Front) (r : BitVec 256) (l : CRec) (rank size bar : Nat) : Mach :=
  let die := k / 256
  let p := m.pid0 k
  let gang := recGang r
  let img := wbits (m.side k).trap.m.qframe 12 40 * 4096
  let (mb, m) := match m.recGet die p (l.ppa + 64) 64 with | some ((v, _), m) => (v, m) | none => (0, m)
  let m := (if img = 0 then m else (m.recPut die p (img + 0x1000) 256 0).getD m).disown (m.side k).pid img
  let u : UnitInfo := { rec_ := r, launch := l.ppa, gang := gang, rank := rank, size := size, bar := bar, join := recJoin r, vd := f.v, cls := f.cls
                        img := img, started := (m.die die).cyc.toNat }
  let x : Nat → Nat → Nat × XReg := fun i v => (i, { val := w64 v })
  (m.takeUnit k u l.asn).modSide k fun s =>
    { s with p := { run := .run, pc := w64 (fld r.toNat 0 0 64)
                    x := [x 1 (fld r.toNat 1 0 64), x 2 (if gang then rank else 0), x 3 (if gang then size else 1), x 4 (if gang then bar else 0)] }
             mb := (List.range 8).map fun i => (i, { val := w64 (fld mb i 0 64), full := true }) }

/-- The image of a saved context. -/
def recImg (r : BitVec 256) : Nat := fld r.toNat 0 6 46 * 64

/-- Another side owns the vector state of an image (R227). -/
def Mach.otherOwner (m : Mach) (k img : Nat) : Option Nat :=
  (m.dev.sides.find? fun (j, s) =>
    j != k && s.pid == (m.side k).pid && s.vown.getLsbD 0 && !s.vstale && wbits s.vown 12 40 * 4096 == img).map (·.1)
/-- What a start waits for: the sides that own the vector state of the images it resumes and have not saved it for it (R227). -/
def Mach.unsaved (m : Mach) (l : List (Nat × Nat)) : List (Nat × Nat) :=
  l.filterMap fun (k, img) => (m.otherOwner k img).bind fun j => if (m.side j).saveFor == some (img, true) then none else some (j, img)
/-- Ask the owning sides for the save, each once, by interrupt 0x02 (R227).
DEDUCED, unsafe (log 116). -/
def Mach.askSaves (m : Mach) (l : List (Nat × Nat)) : Mach :=
  l.foldl (fun m (j, img) =>
    if (m.side j).saveFor == some (img, false) then m else (m.modSide j fun s => { s with saveFor := some (img, false) }).irqSide j 0x02) m
/-- The saves have been made, and the start goes on. -/
def Mach.endSaves (m : Mach) (imgs : List Nat) : Mach :=
  m.withDev fun d => { d with sides := d.sides.map fun (j, s) =>
    (j, if s.saveFor.any fun x => imgs.contains x.1 then { s with saveFor := none } else s) }

/-- Resume a unit from a record with ctx = 1 (R224): the acquire of R193, then the restore. A failed restore traps with 0x1a at M and leaves
the partition to be rolled back (R228).
DEDUCED, unsafe (log 115). -/
def Mach.resumeUnit (m : Mach) (k : Nat) (f : Front) (r : BitVec 256) (l : CRec) (rank size bar : Nat) : Mach :=
  let die := k / 256
  let img := recImg r
  let u : UnitInfo := { rec_ := r, launch := l.ppa, gang := recGang r, rank := rank, size := size, bar := bar, join := recJoin r, vd := f.v
                        cls := f.cls, img := img, started := (m.die die).cyc.toNat }
  let m := (m.takeUnit k u l.asn).modSide k fun s => { s with trap := { s.trap with m := { s.trap.m with qframe := w64 img } } }
  let m := m.acquireData (m.accOf (.side (BitVec.ofNat 10 k) .P)) .die
  let rest := m.restoreImage k img
  if rest.bad then
    let m := m.modSide k fun s => { s with p := { s.p with run := .run } }
    let m := m.asSeq (.side (BitVec.ofNat 10 k) .P) fun m => m.enter .M { cause := 0x1a, tval := w64 img } m.me.pc false
    (m.logErr die 0x0b (logPlace (k / 2) (k % 2) 0) (w64 img) 0).withDev fun d =>
      { d with rollPend := if d.rollPend.contains ((m.side k).pid.getD 0) then d.rollPend else d.rollPend ++ [(m.side k).pid.getD 0] }
  else if recGang r then
    rest.m.modSide k fun s =>
      let put := fun (q : Seq) => q.setReg 4 { val := w64 bar }
      { s with p := put s.p, m := put s.m, s := put s.s }
  else rest.m

/-- Take the records of a front and start them on the sides given. -/
def Mach.startOn (m : Mach) (k : Nat) (f : Front) (n : Nat) (sides : List Nat) (bar : Nat) : Mach :=
  let die := k / 256
  let p := m.pid0 k
  match m.qdesc die p f.v f.cls with
  | (none, m) => m
  | (some q, m) =>
    let (rs, m) := m.pop die p f.v f.cls q f.idx n
    match m.checkRecs die p q f.v rs with
    | (none, m) => m
    | (some ls, m) =>
      let gang := recGang f.rec_
      let m := if !gang then m
        else
          let (a, ph) := if !recCtx f.rec_ then (0, 0)
            else match m.recGet die p (recImg f.rec_ + 0x1000) 128 with
              | some ((h, _), _) => (h / 2 ^ 104 % 256, h / 2 ^ 896 % 2 ^ 32)
              | none => (0, 0)
          m.modBar (clusterOf (sides.headD 0)) bar fun _ => { used := true, parts := rs.length, phase := ph, arr := { cnt := Tri.of a } }
      ((sides.zip ls).zipIdx.foldl (fun (m : Mach) (x : (Nat × BitVec 256 × CRec) × Nat) =>
        let (k, r, l) := x.1
        if recCtx r then m.resumeUnit k f r l x.2 rs.length bar else m.startUnit k f r l x.2 rs.length bar) m)

/-- What an idle side does with the record that R124 chooses, for one of the three ways to start. -/
def Mach.tryStart (m : Mach) (k : Nat) (want : BitVec 256 → Bool) (go : Front → Mach → Mach) : Mach :=
  if !m.idleSide k || (m.die (k / 256)).resetting then m
  else match m.choose k with
    | (none, m) => m
    | (some f, m1) => if want f.rec_ then go f m1 else m

/-- UNIT_START (R106, R124). -/
def execUnitStart (side : BitVec 10) (s : State) : Host.Outcome State Fault Refusal :=
  run (fun m => m.tryStart side.toNat (fun r => !recCtx r && !recGang r) fun f m => m.startOn side.toNat f 1 [side.toNat] 0) s

/-- UNIT_RESUME (R224, R227): another side that owns the vector state of the image saves it first, asked by interrupt 0x02. -/
def execUnitResume (side : BitVec 10) (s : State) : Host.Outcome State Fault Refusal :=
  run (fun m => m.tryStart side.toNat (fun r => recCtx r && !recGang r) fun f m =>
    let w := m.unsaved [(side.toNat, recImg f.rec_)]
    if !w.isEmpty then m.askSaves w
    else (m.endSaves [recImg f.rec_]).startOn side.toNat f 1 [side.toNat] 0) s

/-- GANG_START (R117, R118): all members at once on sides of one cluster with a free barrier, or the gang waits. DESIGN CHOICE, unsafe (log 166): it
begins to wait, and to withhold its cluster, once R124 has chosen it for a side and it does not fit. -/
def execGangStart (side : BitVec 10) (s : State) : Host.Outcome State Fault Refusal :=
  run (fun m => m.tryStart side.toNat recGang fun f m =>
    let k := side.toNat
    let die := k / 256
    let p := m.pid0 k
    let (n, m) := m.takes die p f
    match (if n = 0 then none else m.gangPlace k p f.v n) with
    | none => if m.capsides f.v die < m.running f.v die + n then m else m.modSched die fun s =>
        { s with gwait := if s.gwait.contains (p, f.v, f.cls) then s.gwait else s.gwait ++ [(p, f.v, f.cls)] }
    | some (sides, b) =>
      let imgs := if recCtx f.rec_ then
          (match m.qdesc die p f.v f.cls with
            | (some q, m) => (List.range n).filterMap fun j => (m.ringGet die p q (f.idx + j)).1
            | (none, _) => []).map recImg
        else []
      let w := m.unsaved (sides.zip imgs)
      if !w.isEmpty then m.askSaves w
      else ((m.endSaves imgs).startOn k f n sides b).modSched die fun s => { s with gwait := s.gwait.filter (· != (p, f.v, f.cls)) }) s

/-! ## Refill, rescue, boosts and allowances (R121 to R125, R129) -/

/-- The running units of a die in some sides, the longest running first. -/
def Mach.oldest (m : Mach) (ks : List Nat) (want : UnitInfo → Bool) : Option Nat :=
  ((ks.filterMap fun k => match (m.side k).unit with | some u => if want u then some (k, u.started) else none | none => none).foldl
    (fun (b : Option (Nat × Nat)) x => match b with | none => some x | some y => if x.2 < y.2 then some x else some y) none).map (·.1)

/-- Free one side among some for a device (R129): an idle side is held; else a unit of the device at its cap, or of another device, is
pre-empted and its side held. -/
def Mach.freeFor (m : Mach) (die v : Nat) (ks : List Nat) : Mach :=
  let hold := fun (m : Mach) (k : Nat) => m.modSched die fun s => { s with hold := s.hold.set k v }
  let taken := fun k => (m.die die).sched.hold.any (·.1 == k)
  match ks.find? fun k => m.idleSide k && !taken k with
  | some k => hold m k
  | none =>
    let free := ks.filter fun k => !taken k
    match m.oldest free (if m.running v die = m.capsides v die then fun u => u.vd == v else fun u => u.vd != v) with
    | some k => hold (m.preemptUnit k false) k
    | none => m

/-- The rescue of one device whose front has waited a period (R129). -/
def Mach.rescueOne (m : Mach) (die : Nat) (p : BitVec 4) (f : Front) : Mach :=
  if !recGang f.rec_ then m.freeFor die f.v (m.sidesOf p die)
  else
    let (g, m) := m.takes die p f
    let fit := ((List.range 16).map (16 * die + ·)).filter fun c =>
      g ≤ ((m.sidesOf p die).filter fun k => clusterOf k == c).length && (m.freeBar c).isSome
    match fit with
    | [] => m
    | a :: r =>
      let c := r.foldl (fun b c => if (m.idleIn p die b).length < (m.idleIn p die c).length then c else b) a
      (List.range g).foldl (fun m _ => m.freeFor die f.v ((m.sidesOf p die).filter fun k => clusterOf k == c)) m

/-- The partitions with sides on a die. -/
def Mach.partsOn (m : Mach) (die : Nat) : List (BitVec 4) :=
  ((List.range 16).map (BitVec.ofNat 4)).filter fun p => !(m.sidesOf p die).isEmpty

/-- Rescue (R129): each device whose longest-waiting front has waited a period, longest wait first. -/
def Mach.rescue (m : Mach) (die : Nat) : Mach :=
  let now := (m.die die).cyc.toNat
  let (ws, m) := (m.partsOn die).foldl (fun (x : List (BitVec 4 × Front) × Mach) p =>
    let (fs, m) := x.2.fronts die p
    let aged := fs.filter fun f => f.since + period ≤ now
    let worst := (m.vdsOf p).filterMap fun v => match aged.filter (·.v == v) with
      | [] => none
      | a :: r => some (p, r.foldl (fun b f => if f.since < b.since then f else b) a)
    (x.1 ++ worst, m)) ([], m)
  (sortBy (fun (a b : BitVec 4 × Front) => a.2.since < b.2.since) ws).foldl (fun m (p, f) => m.rescueOne die p f) m

/-- REFILL (R122, R129): each period of the die's counter, every device gets its quota anew, then rescue is performed.
DEDUCED, safe (log 112). -/
def execRefill (die : BitVec 2) (s : State) : Host.Outcome State Fault Refusal :=
  run (fun m =>
    let d := die.toNat
    let now := (m.die d).cyc.toNat
    if (m.die d).resetting || now < (m.die d).sched.nextRefill then m
    else
      let m := m.modSched d fun s => { s with nextRefill := now + period }
      ((m.partsOn d).foldl (fun m p => m.refillPart d p) m).rescue d) s

/-- BOOST_END (R123): a boost ends after its 60,000 cycles. -/
def execBoostEnd (die : BitVec 2) (vd : BitVec 6) (s : State) : Host.Outcome State Fault Refusal :=
  run (fun m => match (m.vds die.toNat vd.toNat).boostEnd with
    | some e => if e ≤ (m.die die.toNat).cyc.toNat then m.modVds die.toNat vd.toNat fun a => { a with boostEnd := none } else m
    | none => m) s

/-- ALLOWANCE_EXHAUSTED (R125): every running unit of the device on the die is to be pre-empted.
DEDUCED, unsafe (log 113). -/
def execAllowanceExhausted (die : BitVec 2) (vd : BitVec 6) (s : State) : Host.Outcome State Fault Refusal :=
  run (fun m =>
    if 0 < (m.vds die.toNat vd.toNat).allow then m
    else m.dev.sides.foldl (fun m (k, s) =>
      match s.unit with
      | some u => if k / 256 = die.toNat && u.vd = vd.toNat then m.preemptUnit k false else m
      | none => m) m) s

/-- PREEMPT_REQUEST (R126): level M asks for the pre-emption of a side's unit. -/
def execPreemptRequest (side : BitVec 10) (s : State) : Host.Outcome State Fault Refusal :=
  run (fun m => m.preemptUnit side.toNat false) s

/-! ## Landing (R127, R221 to R223, R120) -/

/-- The sequencers of a side take the values on their way and leave their waits. -/
def Mach.settleSeqs (m : Mach) (k : Nat) : Mach :=
  [Role.P, .M, .S].foldl (fun m r => let q := SeqId.side (BitVec.ofNat 10 k) r; (m.drainArrivals q).forgetWaits q) m

/-- The switch of R227 by which a context comes to own the vector and matrix state of its side before a landing names its image in vown (R223):
the owner's state is saved and the context's own is loaded; none when an access fails.
DEDUCED, unsafe (log 116). -/
def Mach.switchTo (m : Mach) (k : Nat) (u : UnitInfo) : Option Mach :=
  let s := m.side k
  if s.vowner then some m
  else
    let saved := if s.vown.getLsbD 0 && !s.vstale then m.vsaveAt k (wbits s.vown 12 40 * 4096) else some m
    (saved.bind (·.vrestAt k u.img)).map fun m =>
      let m := m.modSide k fun s => { s with vdirty := 0 }
      if m.owns k 6 then m.modCore (k / 2) fun c => { c with mx := { c.mx with dirtyAcc := 0, dirtyBank := 0 } } else m

/-- Steps 2 to 4 of R127 and R223: save into the image at qframe of level M as it stands, name the image as owner of the vector state, push the
record, free the side, raise 0x01.
DEDUCED, unsafe (log 118). -/
def Mach.saveUnit (m : Mach) (k : Nat) (u : UnitInfo) : Mach :=
  let die := k / 256
  let s := m.side k
  let img := wbits s.trap.m.qframe 12 40 * 4096
  match (m.switchTo k u).bind (·.saveImage k img u) with
  | none => m.asSeq (.side (BitVec.ofNat 10 k) .P) fun m => m.enter .M { cause := 0x0d, tval := w64 img } m.me.pc false
  | some m =>
    let r := BitVec.ofNat 256 (setFld (setFld u.rec_.toNat 0 0 64 img) 3 0 6 (1 + 2 * nb u.gang + 4 * die))
    let m := m.modSide k fun s => { s with vown := w64 (img + 1), vstale := false }
    let m := if u.gang then m.gangLeave k u (some r) s.yielded else m.requeue die (m.pid0 k) u.vd u.cls [r] (!s.yielded)
    let m := (m.dropEngines k).modSide k fun s => { s.freed with needImg := true, written := 0, text := {} }
    (m.irqSide k 0x01).noteIdle die u.vd

/-- PREEMPTION_LANDING (R127, R221 to R223): deferred faults and a recorded text stop cause are delivered first; then the release of R193
and the save. -/
def execPreemptionLanding (side : BitVec 10) (s : State) : Host.Outcome State Fault Refusal :=
  run (fun m =>
    let k := side.toNat
    let x := m.side k
    let p := SeqId.side side .P
    match x.unit with
    | none => m
    | some u =>
      if !x.preempt || x.cancelled || !m.landReady k || !m.imageFits k then m
      else
        let told := x.att.filter fun e => e.lvl == .U && e.told && e.fail.isSome
        let m := told.foldl (fun m e => m.probeGroup (k / 2) k e.pid e.asn e.sh (va57 e.va / 2 ^ e.sh)) m
        match (m.side k).att.filter (·.lvl == .U), x.tstop with
        | e :: r, _ => if e.fail.isNone || m.owed p then m else m.asSeq p fun m => m.deliver e (r.filter (·.fail.isSome)).length
        | [], some (c, rs, v) =>
          let q := SeqId.side side (if x.s.run == .run then .S else .P)
          if m.owed q then m
          else m.asSeq q fun m => (m.modMySide fun s => { s with tstop := none }).trap { cause := c, tval := v, reason := rs }
        | [], none =>
          let m := m.settleSeqs k
          let m := m.asSeq p fun m => m.releaseData m.myAcc .die
          let done := (m.withDev fun d => { d with cur := p }).releaseDone .die false
          if done then m.saveUnit k u else m) s

/-- CANCEL_LANDING (R120, R221, R223): a running unit below a cancelled record takes cause 0x19 at S, again whenever it is back at level U, and runs
no further; the entries of its queue go to a frame in the trap area.
DESIGN CHOICE, unsafe (log 117). -/
def execCancelLanding (side : BitVec 10) (s : State) : Host.Outcome State Fault Refusal :=
  run (fun m =>
    let k := side.toNat
    let x := m.side k
    if x.unit.isNone || !x.cancelled || !(m.landReady k || (x.cancelTold && x.lowU && !(m.die (k / 256)).resetting)) then m
    else
      let m := (m.settleSeqs k).modSide k fun s => { s with cancelTold := true, landed := true }
      m.asSeq (.side side .P) fun m =>
        let es := m.mySide.vq
        let t : TrapReq := { cause := 0x19, tval := 0 }
        if es.isEmpty then m.enter .S t m.me.pc false
        else
          let area := wbits (m.trapOf m.dev.cur).s.qframe 12 40 * 4096
          match (if area = 0 then none else m.ppaOf (k / 256) x.pid area) with
          | none => (m.unwindSide k).enter .M { cause := 0x0d, tval := w64 area } m.me.pc false
          | some a => ((m.putFrame a (x.pid.getD 0) m.me.pc es).unwindSide k).enter .S t m.me.pc true) s

end Sys2Proof.Machine
end

