-- ==== Sys2Proof/Machine/HostIface.lean ====
section
/-! DEFINITION. The client interface (R88 to R101), the requests that a supervisor image serves, quotes (R31, R32, R99), and the hypervisor
calls that the monitor serves (R102). A move that is not possible changes nothing. -/

namespace Sys2Proof.Machine
open Sys2Proof

/-! ## Host writes to the control page (R89, R91, R92, R94) -/

/-- A window that takes host writes: not the window of an unowned device, and not under a reset (R89, R100). -/
def Mach.hostWrites (m : Mach) (w : Nat) : Bool := w ≤ 64 && !(m.win w).unassigned && !(m.win w).flr && !(m.die 0).resetting

/-- Interrupt the core that serves a window: the notify supervisor core, or the monitor for the physical function. -/
def Mach.irqWin (m : Mach) (w : Nat) : Mach := if w = 64 then m.irqSup 0 0x03 else m.irqNotify w 0x03

/-- A failed notify check (R92). -/
def Window.notifyErr (x : Window) (e : BitVec 4) : Window :=
  if x.err = 0 then { x with err := e, halted := true }.raise 2 else { x with halted := true }

/-- A write to notify (R92): the checks of rqtail and cphead, then the interrupt. -/
def Mach.notify (m : Mach) (n : Nat) (v : Word) : Mach :=
  let x := m.win n
  let rq := wbits v 0 16
  let cp := wbits v 16 16
  let rq0 := x.rqtail.toNat
  let cp0 := x.cphead.toNat
  let badR := 128 ≤ rq || 127 - (rq0 + 128 - x.reqhead.toNat) % 128 < (rq + 128 - rq0 % 128) % 128
  let badC := 256 ≤ cp || (x.cpltail.toNat + 256 - cp0 % 256) % 256 < (cp + 256 - cp0 % 256) % 256
  if !m.hostWrites n || !x.ready then m
  else if x.halted then
    if badC then m else (m.modWin n fun x => { x with cphead := BitVec.ofNat 16 cp }).irqWin n
  else if badR then m.modWin n (·.notifyErr 1)
  else if badC then m.modWin n (·.notifyErr 2)
  else (m.modWin n fun x => { x with rqtail := BitVec.ofNat 16 rq, cphead := BitVec.ofNat 16 cp }).irqWin n

/-- A write to irqmask (R91, R94): a message goes out for each cause that is set and becomes unmasked. -/
def Window.mask (x : Window) (v : Word) : Window :=
  let new := x.hostirq &&& x.irqmask &&& ~~~(v.extractLsb' 0 3)
  let msgs : List (BitVec 1) := (if new.getLsbD 0 then [0] else []) ++ (if new.getLsbD 1 then [1] else []) ++ (if new.getLsbD 2 then [1] else [])
  { x with irqmask := v.extractLsb' 0 3, msix := x.msix ++ msgs }

/-- A host's write of a doubleword of a window (R90, R91): the Access column gives what the host can change. -/
def Mach.hostWrite (m : Mach) (n off : Nat) (v : Word) : Mach :=
  if !m.hostWrites n then m
  else if 0x1000 ≤ off then m.modWin n (·.wrMem off v.toNat 8)
  else match off / 8 with
    | 2 => m.notify n v
    | 5 => m.modWin n fun x => { x with hostirq := x.hostirq &&& ~~~(v.extractLsb' 0 3) }
    | 6 => m.modWin n (·.mask v)
    | 7 => m.modWin n fun x => { x with hwbase := w64 (wbits v 42 22 * 2 ^ 42 + wbits v 0 1) }
    | _ => m

/-- NOTIFY_WRITE (R92). -/
def execNotifyWrite (w : BitVec 7) (v : Word) (s : State) : Host.Outcome State Fault Refusal := run (fun m => m.hostWrite w.toNat 0x10 v) s
/-- HOSTIRQ_CLEAR (R91): a 1 clears its cause. -/
def execHostirqClear (w : BitVec 7) (v : Word) (s : State) : Host.Outcome State Fault Refusal := run (fun m => m.hostWrite w.toNat 0x28 v) s
/-- IRQMASK_WRITE (R91, R94). -/
def execIrqmaskWrite (w : BitVec 7) (v : Word) (s : State) : Host.Outcome State Fault Refusal := run (fun m => m.hostWrite w.toNat 0x30 v) s

/-- REGISTER_WRITE (R6): a write of a doubleword that has no row of its own: the host's to a client window, the monitor's to the other pages of
device register space.
DESIGN CHOICE, unsafe (log 127). -/
def execRegisterWrite (mpa : BitVec 52) (v : Word) (s : State) : Host.Outcome State Fault Refusal :=
  run (fun m => match region mpa.toNat with
    | .dev d p o =>
      if !pageAssigned d p || o % 8 ≠ 0 then m
      else if 0x100 ≤ p then m.hostWrite (pageWindow p) o v
      else m.devWrite d p o 8 v.toNat
    | _ => m) s

/-- UNSUPPORTED_REQUEST (R88): a host request outside BAR0 completes as an unsupported request and reaches nothing. -/
def execUnsupportedRequest (_w : BitVec 7) (s : State) : Host.Outcome State Fault Refusal := run id s

/-! ## Requests (R93, R96, R98) -/

/-- A field of a request slot: `n` bytes from byte `lo` on. -/
def rqF (r lo n : Nat) : Nat := r / 256 ^ lo % 256 ^ n

/-- The next request of a window with one of some opcodes is copied, and head advances (R93, R98). -/
def Mach.takeReq (m : Mach) (w : Nat) (want : Nat → Bool) (k : Nat → Mach → Mach) : Mach :=
  let x := m.win w
  let head := x.reqhead.toNat
  if !x.ready || x.halted || x.unassigned || head = x.rqtail.toNat % 128 then m
  else
    let r := x.rd (0x1000 + 128 * head) 128
    if want (rqF r 0 1) then k r (m.modWin w fun x => { x with reqhead := BitVec.ofNat 7 ((head + 1) % 128) }) else m

/-- Queue a completion (R97). DESIGN CHOICE, unsafe (log 155): one that is no job's own, a CANCEL's or a QUERY's of a job of an earlier epoch
included, leaves bit 1 of byte 5 clear. -/
def Mach.complete (m : Mach) (w : Nat) (tag status : Nat) (job units cause : Nat) (noIrq : Bool) : Mach :=
  m.withDev fun d =>
    { d with compls := d.compls ++ [{ w := w, tag := BitVec.ofNat 32 tag, status := BitVec.ofNat 8 status, epoch := none, noIrq := noIrq
                                      job := w64 job, units := w64 units, cause := w64 cause }] }

/-- The die on which a partition's image makes its records: the lowest with its context enabled. -/
def Mach.partDie (m : Mach) (p : BitVec 4) : Nat := ((List.range 4).find? fun d => (m.pctx d p).en).getD 0

/-- A counter record of R107. -/
def crecBits (level parent : Nat) (w4 w5 pending : Nat) : Nat :=
  level * 2 ^ 61 + pending + parent * 2 ^ 128 + w4 * 2 ^ 256 + w5 * 2 ^ 320

/-- The records of a job of one launch (R98): job, phase, graph and launch at consecutive places from `a` on. None when the memory cannot
be written.
DESIGN CHOICE, unsafe (log 25). -/
def Mach.makeRecs (m : Mach) (die : Nat) (p : BitVec 4) (a vd cls asn gsize stride n mbs : Nat) : Option Mach :=
  let put := fun (mo : Option Mach) (x v : Nat) => mo.bind fun m => m.recPut die p x 64 v
  let mo := put (some m) a (crecBits 4 0 (vd + 2 ^ 8) 0 1)
  let mo := put mo (a + 64) (crecBits 3 a vd 0 1)
  let mo := put mo (a + 128) (crecBits 2 (a + 64) vd 0 1)
  let mo := put mo (a + 192) (crecBits 1 (a + 128) (vd + cls * 2 ^ 6) (asn + gsize * 2 ^ 24 + stride * 2 ^ 32) n)
  put mo (a + 256) mbs

/-- Push the unit records of a job, one by one or a gang at once: how many stand in the ring. -/
def Mach.pushUnits (m : Mach) (die : Nat) (p : BitVec 4) (vd cls : Nat) : List (List (BitVec 256)) → Nat → Nat × Mach
  | [], c => (c, m)
  | rs :: l, c =>
    match m.pushBack die p vd cls rs with
    | (0, m) => m.pushUnits die p vd cls l (c + rs.length)
    | (_, _) => (c, m)

/-- A SUBMIT that R96 calls malformed.
DEDUCED, unsafe (log 119). -/
def submitBad (r : Nat) : Bool :=
  let n := rqF r 2 2
  rqF r 1 1 / 4 ≠ 0 || n = 0 || (rqF r 1 1 / 2 % 2 = 1 && 16 < n) || rqF r 8 8 ≠ 0 || rqF r 32 2 = 0xffff || 4 ≤ rqF r 34 1 || rqF r 35 1 ≠ 0
    || rqF r 40 8 ≠ 0 || rqF r 112 16 ≠ 0

/-- A job from a well-formed SUBMIT (R98). -/
def Mach.makeJob (m : Mach) (vd : Nat) (p : BitVec 4) (r : Nat) : Mach :=
  let tag := rqF r 4 4
  let noIrq := rqF r 1 1 % 2 = 1
  let n := rqF r 2 2
  let gang := rqF r 1 1 / 2 % 2 = 1 && 2 ≤ n
  let cls := rqF r 34 1
  let die := m.partDie p
  let full := m.complete vd tag 8 0 0 0 noIrq
  let a := ((m.part p.toNat).heap + 63) / 64 * 64
  let m0 := m
  match m.makeRecs die p a vd cls (rqF r 32 2) (if gang then n else 0) (rqF r 36 4) n (rqF r 48 64) with
  | none => full
  | some m =>
    let rec_ := fun i => BitVec.ofNat 256 (rqF r 16 8 + (rqF r 24 8 + i * rqF r 36 4) % 2 ^ 64 * 2 ^ 64 + (a + 192 + 2 * nb gang) * 2 ^ 192)
    let rs := (List.range n).map rec_
    let (c, m) := m.pushUnits die p vd cls (if gang then [rs] else rs.map fun x => [x]) 0
    if c = 0 then m0.complete vd tag 8 0 0 0 noIrq
    else
      let id := ((m.dev.given.get 0 vd) + 1) * 64 + vd
      let j : Job := { id := id, vd := vd, pid := p, ppa := a, tag := BitVec.ofNat 32 tag, noIrq := noIrq, epoch := (m.win vd).epoch, full := c != n
                       mute := false, cancels := [], copies := m.listDies p }
      let m := (m.modPart p.toNat fun x => { x with heap := a + 320 }).withDev fun d =>
        { d with jobs := d.jobs ++ [j], given := d.given.set vd ((d.given.get 0 vd) + 1) }
      if c = n then m
      else
        -- The units that were not pushed never report: the launch counts the pushed ones only.
        let m := match m.crec die p (a + 192) with
          | some (l, m) => (m.recPut die p (a + 192) 64 (setFld l.val 0 0 32 c)).getD m
          | none => m
        (m.cancelRec die p a).2

/-- SUBMIT (R96, R98): the next request, when it is one.
DESIGN CHOICE, unsafe (log 121). -/
def execSubmit (vd : BitVec 6) (s : State) : Host.Outcome State Fault Refusal :=
  run (fun m => m.takeReq vd.toNat (· == 1) fun r m =>
    let w := vd.toNat
    let noIrq := rqF r 1 1 % 2 = 1
    match (m.vd w).pid with
    | none => m
    | some p =>
      if submitBad r then m.complete w (rqF r 4 4) 2 0 0 0 noIrq
      else if (m.pctx (m.partDie p) p).asnCount ≤ rqF r 32 2 then m.complete w (rqF r 4 4) 3 0 0 0 noIrq
      else m.makeJob w p r) s

/-- A CANCEL or QUERY with nonzero bytes where zero is given. -/
def jobReqBad (r : Nat) : Bool := rqF r 1 3 ≠ 0 || rqF r 16 112 ≠ 0

/-- A job id that the image gave to a virtual device.
DESIGN CHOICE, unsafe (log 120). -/
def Mach.gaveJob (m : Mach) (vd id : Nat) : Bool := id % 64 = vd && 1 ≤ id / 64 && id / 64 ≤ m.dev.given.get 0 vd

/-- REQUEST_CANCEL (R98, R119): an open job is cancelled at job level, and the request completes after the job.
DESIGN CHOICE, safe (log 134). -/
def execRequestCancel (vd : BitVec 6) (s : State) : Host.Outcome State Fault Refusal :=
  run (fun m => m.takeReq vd.toNat (· == 2) fun r m =>
    let w := vd.toNat
    let tag := rqF r 4 4
    let id := rqF r 8 8
    if jobReqBad r then m.complete w tag 2 0 0 0 false
    else if !m.gaveJob w id then m.complete w tag 4 id 0 0 false
    else match m.dev.jobs.find? fun j => j.id == id && !j.mute with
      | none => m.complete w tag 0 id 0 0 false
      | some j =>
        let m := if m.dev.ended.contains (j.pid, j.ppa) then m else (m.cancelRec (m.partDie j.pid) j.pid j.ppa).2
        m.withDev fun d =>
          { d with jobs := d.jobs.map fun x => if x.id = id then { x with cancels := x.cancels ++ [BitVec.ofNat 32 tag] } else x }) s

/-- QUERY (R97, R98): the units of a job that have not yet ended. -/
def execQuery (vd : BitVec 6) (s : State) : Host.Outcome State Fault Refusal :=
  run (fun m => m.takeReq vd.toNat (· == 3) fun r m =>
    let w := vd.toNat
    let tag := rqF r 4 4
    let id := rqF r 8 8
    if jobReqBad r then m.complete w tag 2 0 0 0 false
    else if !m.gaveJob w id then m.complete w tag 4 id 0 0 false
    else match m.dev.jobs.find? fun j => j.id == id with
      | none => m.complete w tag 0 id 0 0 false
      | some j =>
        let (n, m) := match m.crec (m.partDie j.pid) j.pid (j.ppa + 192) with
          | some (l, m) => (l.pending, m)
          | none => (0, m)
        m.complete w tag 0 id n 0 false) s

/-- REQUEST_NOP (R96, R101): it completes; an unknown opcode is malformed, and the physical function refuses what it does not serve, a
SUBMIT without an interrupt when its flag says so (R94).
DESIGN CHOICE, safe (log 122). -/
def execRequestNop (w : BitVec 7) (s : State) : Host.Outcome State Fault Refusal :=
  run (fun m =>
    let n := w.toNat
    m.takeReq n (fun o => o = 5 || o = 0 || 6 ≤ o || (n = 64 && o ≠ 4)) fun r m =>
      let ok := rqF r 0 1 = 5
      let bad := rqF r 1 3 ≠ 0 || rqF r 8 120 ≠ 0
      let quiet := rqF r 0 1 = 1 && rqF r 1 1 % 2 = 1
      m.complete n (rqF r 4 4) (if ok then (if bad then 2 else 0) else if n = 64 then 3 else 2) 0 0 0 quiet) s

/-! ## Quotes (R31, R32, R99) -/

/-- The leaf that the next quote takes (R31): the current block's next, or the first of the next fuse's block; none when both are spent. -/
def Dev.nextLeaf (d : Dev) : Option (Nat × Dev) :=
  match d.quoteBlock with
  | some b =>
    if d.quoteLeaf < 1024 then some (1024 * b + d.quoteLeaf, { d with quoteLeaf := d.quoteLeaf + 1 })
    else if d.fuses.burnt < 1024 then
      some (1024 * d.fuses.burnt, { d with quoteBlock := some d.fuses.burnt, quoteLeaf := 1, fuses := { d.fuses with burnt := d.fuses.burnt + 1 } })
    else none
  | none =>
    if d.fuses.burnt < 1024 then
      some (1024 * d.fuses.burnt, { d with quoteBlock := some d.fuses.burnt, quoteLeaf := 1, fuses := { d.fuses with burnt := d.fuses.burnt + 1 } })
    else none

/-- The bytes of a quote (R99). -/
def quoteLen (c : Nat) : Nat := 112 + 8 * c + 4963

/-- Sign a quote (R32): its record and the signature as a number, or status 3 without a usable identity key, or 5 (R31). -/
def Mach.quote (m : Mach) (nonce : Nat) (digest : BitVec 256) (caps : List Word) : Except Nat (Nat × Mach) :=
  let lcs := m.dev.fuses.lcs
  if lcs = 0 || lcs = 3 then .error 3
  else match m.dev.nextLeaf with
    | none => .error 5
    | some (leaf, d) =>
      let cs := caps.take 64
      let c := cs.length
      -- A signature begins with its leaf index, three bytes with the most significant first (RFC 8391).
      let bytes := leBytes 1 4 ++ leBytes leaf 4 ++ leBytes nonce 32 ++ leBytes m.dev.monDigest.toNat 32 ++ leBytes digest.toNat 32
        ++ leBytes lcs.toNat 1 ++ leBytes 0 3 ++ leBytes c 4 ++ cs.flatMap (fun e => leBytes e.toNat 8)
        ++ beBytes leaf 3 ++ (List.range 4960).map fun i => Config.freeQuote (4960 * leaf + i)
      .ok (leNat bytes, { m with dev := d })

/-- The full list of fused features behind the base entry (R36, R101). -/
def Mach.fusedList (m : Mach) : List Word := capChain 0 (0x0001010000000000 :: m.dev.fuses.caps.take 63)
/-- What a window's quote is about (R99, R101): whether it is permitted, the digest, and the capability entries. -/
def Mach.quoteOf (m : Mach) (w : Nat) : Bool × BitVec 256 × List Word :=
  if w = 64 then (true, m.dev.monDigest, m.fusedList)
  else
    let p := ((m.vd w).pid.getD 0).toNat
    ((m.part p).quoteOk, shake256 (m.part p).image, m.capList p)

/-- ATTEST (R96, R99, R101): a quote over the nonce goes into the inline data.
DESIGN CHOICE, unsafe (log 123). -/
def execAttest (w : BitVec 7) (s : State) : Host.Outcome State Fault Refusal :=
  run (fun m =>
    let n := w.toNat
    m.takeReq n (· == 4) fun r m =>
      let done := fun (m : Mach) (st len : Nat) => m.complete n (rqF r 4 4) st 0 len 0 false
      let (ok, dig, caps) := m.quoteOf n
      let off := rqF r 48 4
      let size := rqF r 52 4
      let len := quoteLen (min 64 caps.length)
      if rqF r 1 3 ≠ 0 || rqF r 8 8 ≠ 0 || rqF r 56 72 ≠ 0 then done m 2 0
      else if !ok then done m 3 0
      else if size < len || off < 0x7000 || 0x10000 < off + size then done m 6 0
      else match m.quote (rqF r 16 32) dig caps with
        | .error st => done m st 0
        | .ok (q, m) => done (m.modWin n (·.wrMem off q len)) 0 len) s

/-! ## Completions (R93 to R95, R97, R98) -/

/-- The next job of a window whose counter has completed. -/
def Mach.endedJob (m : Mach) (w : Nat) : Option Job :=
  m.dev.ended.findSome? fun (p, a) => m.dev.jobs.find? fun j => j.pid == p && j.ppa == a && j.vd == w

/-- The image completes a job (R98): the release at system scope has waited for its host window stores; the completion of the job, then
those of its CANCELs. -/
def Mach.endJob (m : Mach) (j : Job) : Mach :=
  if !m.extDone j.pid then m
  else
    let m := match m.supsOf j.pid with
      | n :: _ => m.asSeq (.sup (BitVec.ofNat 5 n)) fun m => m.releaseData m.myAcc .sys
      | [] => m
    let (r, m) := match m.crec (m.partDie j.pid) j.pid j.ppa with
      | some (r, m) => (r.val, m)
      | none => (0, m)
    let x : CRec := ⟨j.ppa, r⟩
    let st := if x.state = 2 then (if j.full then 8 else 1) else 0
    let c : Compl := { w := j.vd, tag := j.tag, status := BitVec.ofNat 8 st, epoch := some j.epoch, noIrq := j.noIrq, job := w64 j.id
                       units := w64 x.failed, cause := w64 x.cause }
    let cs := j.cancels.map fun t => { c with tag := t, status := 0, epoch := none, noIrq := false, units := 0, cause := 0 }
    m.withDev fun d =>
      { d with jobs := d.jobs.filter (·.id != j.id), ended := d.ended.filter (· != (j.pid, j.ppa))
               compls := if j.mute then d.compls else d.compls ++ c :: cs }

/-- A completion entry (R97) with the phase bit of its pass (R95), written in the epoch `now`. -/
def Compl.bits (c : Compl) (pass : Nat) (now : BitVec 32) : Nat :=
  c.tag.toNat + c.status.toNat * 2 ^ 32 + (nb (pass % 2 = 0) + 2 * nb (c.epoch.any (· != now))) * 2 ^ 40 + c.job.toNat * 2 ^ 64 + c.units.toNat * 2 ^ 128
    + c.cause.toNat * 2 ^ 192

/-- Write a completion entry, then cpltail, then hostirq.cpl (R94). -/
def Window.post (x : Window) (c : Compl) : Window :=
  let t := x.cpltail.toNat
  let x := x.wrMem (0x5000 + 32 * t) (c.bits x.cplPass x.epoch) 32
  let x := { x with cpltail := BitVec.ofNat 8 ((t + 1) % 256), cplPass := if t = 255 then x.cplPass + 1 else x.cplPass }
  if c.noIrq then x else x.raise 1

/-- COMPLETION_WRITE (R93, R94): the oldest completion of a window goes into its ring when there is room; without one, the image turns to
the next job that has ended.
DEDUCED, safe (log 124). -/
def execCompletionWrite (w : BitVec 7) (s : State) : Host.Outcome State Fault Refusal :=
  run (fun m =>
    let n := w.toNat
    let x := m.win n
    if 64 < n || !x.ready then m
    else match m.dev.compls.find? (·.w == n) with
      | some c =>
        if (x.cpltail.toNat + 1) % 256 = x.cphead.toNat % 256 then m
        else
          let before := m.dev.compls.takeWhile (·.w != n)
          let m := m.withDev fun d => { d with compls := before ++ d.compls.drop (before.length + 1) }
          m.modWin n (·.post c)
      | none => match m.endedJob n with
        | some j => m.endJob j
        | none => m) s

/-- FUNCTION_LEVEL_RESET (R88, R100): the window of a function resets, its host window accesses fail, and every job of the virtual device is
cancelled without a completion. DESIGN CHOICE, unsafe (log 156): no completion that waits for the window is written any more, that of a NOP or an
ATTEST neither; window 64 is the physical function's, whose reset resets nothing else. -/
def execFunctionLevelReset (w : BitVec 7) (s : State) : Host.Outcome State Fault Refusal :=
  run (fun m =>
    let n := w.toNat
    if 64 < n then m
    else
      let m := m.failHost (· == n)
      let m := (m.dev.jobs.filter (·.vd == n)).foldl (fun m j => (m.cancelRec (m.partDie j.pid) j.pid j.ppa).2) m
      let m := m.withDev fun d =>
        { d with jobs := d.jobs.map fun j => if j.vd = n then { j with mute := true, cancels := [] } else j
                 compls := d.compls.filter (·.w != n) }
      m.modWin n (·.reset n)) s

/-! ## Hypervisor calls (R102) -/

/-- A call that a sequencer has made and the monitor has not yet answered: it stands in the monitor's handler of cause 0x17.
DESIGN CHOICE, unsafe (log 126). -/
def Mach.hcallOf (m : Mach) (q : SeqId) : Option Nat :=
  let s := m.seq q
  let t := (m.trapOf q).m
  if s.run == .run && s.level == .M && tstatIh t.tstat && t.cause == 0x17 && tstatPlev t.tstat == .S && !(m.die (dieOf q)).resetting
  then some (s.reg 10).val.toNat else none

/-- Return from a call (R102, R208): status and results, then the instruction after the `hcall`. -/
def Mach.hcallRet (m : Mach) (q : SeqId) (status : Nat) (res : List (Reg × Word)) : Mach :=
  m.asSeq q fun m =>
    let m := res.foldl (fun m (d, v) => m.wx d v) (m.wx 10 (w64 status))
    let m := m.eret
    let pc := m.me.pc
    let (f, m) := m.fetchLine q pc
    m.goto (nextPc pc (match f with | .line l => Line.count l | _ => 31))

/-- Serve one call number for the partition that made it. -/
def Mach.hcall (m : Mach) (q : SeqId) (want : Nat → Bool) (k : BitVec 4 → Part → (Nat → Word) → Mach → Mach) : Mach :=
  match m.hcallOf q, m.pidOf q with
  | some n, some p => if want n then k p (m.part p.toNat) (fun i => ((m.seq q).reg (BitVec.ofNat 5 i)).val) m else m
  | _, _ => m

/-- HCALL_VERSION (R102): call 0x00; an unknown call has status 1. -/
def execHcallVersion (q : SeqId) (s : State) : Host.Outcome State Fault Refusal :=
  run (fun m => m.hcall q (fun n => n = 0 || Config.hcallCount ≤ n) fun _ _ x m =>
    if x 10 = 0 then m.hcallRet q 0 [(11, Config.monitorVersion), (12, w64 Config.hcallCount)] else m.hcallRet q 1 []) s

/-- HCALL_ASN_TABLE (R102): call 0x01. -/
def execHcallAsnTable (q : SeqId) (s : State) : Host.Outcome State Fault Refusal :=
  run (fun m => m.hcall q (· == 1) fun p _ _ m =>
    let c := m.pctx (dieOf q) p
    m.hcallRet q 0 [(11, w64 c.asBase), (12, w64 c.asnCount)]) s

/-- The machine address of a frame of a partition, when stage 2 maps it to DRAM. -/
def Mach.ownFrame (m : Mach) (die : Nat) (p : BitVec 4) (ppa : Nat) : Option Nat :=
  match m.stage2 die (m.pctx die p) ppa with
  | .ok (a, _) => if a < 2 ^ 39 then some a else none
  | .error _ => none

/-- HCALL_FORMAT_RANGE (R102, R64): call 0x02 sets a range on every die that the partition uses. -/
def execHcallFormatRange (q : SeqId) (s : State) : Host.Outcome State Fault Refusal :=
  run (fun m => m.hcall q (· == 2) fun p pt x m =>
    let i := (x 11).toNat
    let lo := (x 12).toNat
    let hi := (x 13).toNat
    let sc := (x 14).toNat
    let f := (x 15).toNat
    let die := dieOf q
    if 16 ≤ i || 4 ≤ f || lo % 8 ≠ 0 || hi % 8 ≠ 0 || sc % 8 ≠ 0 || hi / 65536 < lo / 65536 then m.hcallRet q 2 []
    else if !pt.fmtMask.getLsbD i then m.hcallRet q 3 []
    else match m.ownFrame die p (lo / 65536 * 65536), m.ownFrame die p sc with
      | some a, some b =>
        let n := hi / 65536 - lo / 65536 + 1
        if (List.range n).any fun j => m.ownFrame die p ((lo / 65536 + j) * 65536) != some (a + 65536 * j) then m.hcallRet q 3 []
        else
          let r : FmtRange := { base := w64 (a / 65536 * 65536 + 2 * f + 1), limit := w64 ((a / 65536 + n - 1) * 65536), scale := w64 (b / 128 * 128) }
          let uses := wbits ((m.capList p.toNat).headD 0) 0 4
          let m := (List.range 4).foldl (fun m d => if uses.testBit d then m.modDie d fun y => { y with fmt := y.fmt.set i r } else m) m
          m.hcallRet q 0 []
      | _, _ => m.hcallRet q 3 []) s

/-- HCALL_QUOTE (R102, R32): call 0x03 writes a quote to the partition's buffer. -/
def execHcallQuote (q : SeqId) (s : State) : Host.Outcome State Fault Refusal :=
  run (fun m => m.hcall q (· == 3) fun p pt x m =>
    let na := (x 11).toNat
    let ba := (x 12).toNat
    let die := dieOf q
    let caps := m.capList p.toNat
    let len := quoteLen (min 64 caps.length)
    if na % 8 ≠ 0 || ba % 8 ≠ 0 then m.hcallRet q 2 []
    else if !pt.quoteOk then m.hcallRet q 3 []
    else if (x 13).toNat < len then m.hcallRet q 6 []
    else match m.ppaGet die (some p) na 32 2 with
      | none => m.hcallRet q 3 []
      | some ((nonce, _), m) =>
        match m.ppaPut die (some p) ba len 0 (len / 1024 + 2) with
        | none => m.hcallRet q 3 []
        | some _ => match m.quote nonce (shake256 pt.image) caps with
          | .error st => m.hcallRet q st []
          | .ok (v, m) => ((m.ppaPut die (some p) ba len v (len / 1024 + 2)).getD m).hcallRet q 0 [(11, w64 len)]) s

/-- HCALL_GALE_PORT (R102, R17): call 0x04 sets the enable bit of an owned port. -/
def execHcallGalePort (q : SeqId) (s : State) : Host.Outcome State Fault Refusal :=
  run (fun m => m.hcall q (· == 4) fun p _ x m =>
    let n := (x 11).toNat
    if 16 ≤ n || 2 ≤ (x 12).toNat then m.hcallRet q 2 []
    else if (m.port n).pid ≠ some p then m.hcallRet q 3 []
    else
      let m := m.portSetEn n ((x 12).getLsbD 0)
      m.hcallRet q 0 [(11, (m.port n).status)]) s

/-- HCALL_VIRTUAL_DEVICE (R102): call 0x05. -/
def execHcallVirtualDevice (q : SeqId) (s : State) : Host.Outcome State Fault Refusal :=
  run (fun m => m.hcall q (· == 5) fun p _ x m =>
    let v := (x 11).toNat
    if 64 ≤ v then m.hcallRet q 2 []
    else if (m.vd v).pid ≠ some p then m.hcallRet q 3 []
    else m.hcallRet q 0 [(11, w64 (nb (m.vd v).commit + 2 * (m.vd v).notify.toNat)), (12, w64 (m.pctx (dieOf q) p).asnCount)]) s

end Sys2Proof.Machine
end

