-- ==== Sys2Proof/Machine/Spad.lean ====
section
/-! DEFINITION. Lane access to the scratchpad (R345, R346). -/

namespace Sys2Proof.Machine
open Sys2Proof

/-- The lane that holds an element (R148). -/
def laneOf (es e : Nat) : Nat := e * es / 8 % 16

/-- tval of a scratchpad fault (R212, R345): the element, its lane in the indexed form, and the scratchpad address. -/
def spTval (e lane addr : Nat) : Word := w64 (e % 1024 * 2 ^ 52 + lane % 16 * 2 ^ 44 + addr % 2 ^ 21)

/-- Where an element of a scratchpad instruction lies: its byte number, beyond the side's reach with the tval of that fault, or nowhere
because its index is poisoned. -/
inductive SpPlace where
  | at_ (i : Nat)
  | out (tval : Word)
  | bad
  deriving DecidableEq, Repr

/-- The block form (R345): linear bytes from the base on under granule 3. -/
def spBlock (r : SpRange) (a : Word) (es e : Nat) : SpPlace :=
  let l := a.toNat % 2 ^ 18 + e * es
  if r.has (l + es - 1) then .at_ (r.lin 3 l) else .out (spTval e 0 (a.toNat / 2 ^ 18 % 8 * 2 ^ 18 + l % 2 ^ 18))

/-- The indexed form (R345): an offset in the slice of the element's own lane; the index is natural. -/
def spIndexed (r : SpRange) (a : Word) (x : VReg) (es e : Nat) : SpPlace :=
  if x.bad es e then .bad
  else
    let o := a.toNat + x.el es e * es
    if o + es ≤ r.reach then .at_ (r.at_ (laneOf es e) o) else .out (spTval e (laneOf es e) o)

/-- The places of the active elements, or the trap of the core field or of alignment (R345).
DEDUCED, safe (log 68). -/
def Mach.spPlaces (m : Mach) (k : Nat) (a : Word) (x : Option VReg) (es : Nat) (act : List Nat) : Except (BitVec 8 × Word) (List (Nat × SpPlace)) :=
  let r := m.spOwn k
  let e0 := act.head?.getD 0
  match x with
  | none =>
    let tv := spTval e0 0 (a.toNat / 2 ^ 18 % 8 * 2 ^ 18 + (a.toNat % 2 ^ 18 + e0 * es) % 2 ^ 18)
    if a.toNat / 2 ^ 18 % 8 ≠ k / 2 % 8 then .error (0x08, tv)
    else if a.toNat % 128 ≠ 0 then .error (0x07, tv)
    else .ok (act.map fun e => (e, spBlock r a es e))
  | some v =>
    if a.toNat % es ≠ 0 then .error (0x07, spTval e0 (laneOf es e0) (a.toNat + v.el es e0 * es))
    else .ok (act.map fun e => (e, spIndexed r a v es e))

/-- A scratchpad instruction from issue on, with its vector destination `d`: `f` acts on the places once no element traps. In an unresolved
strip an element out of reach or with a poisoned index is only poisoned (R345, R307). -/
def Mach.spOp (m : Mach) (i : Instr) (a : Src) (ts : Option ETy) (p : Pipe) (wait : BitVec 8) (pg : PR) (load : Bool) (d : Option VR)
    (tyOk : ETy → Bool) (x : Option VR) (vs : List VR)
    (f : Nat → ETy → List (VR × VReg) → List (Nat × SpPlace) → Mach → Mach) : Mach :=
  m.vec i (m.typeCap ts) none [a] [] fun k q m => m.leaveT k q ts p wait (some id) fun m =>
    let s := m.side k
    let t := s.ty ts
    m.vop k (tyOk t) d (s.vl.toNat * t.size) (x.toList ++ vs) fun src m0 m =>
      if !load && s.strip.isSome then m0.trapHead 0x14
      else if m.vmWait k q then m0
      else match m.spPlaces k (q.op 0).1 (x.map (srcOf src)) t.size (s.actives pg) with
        | .error (c, tv) => m0.trapV c tv
        | .ok pl =>
          let stop := if s.unresolved then none else pl.find? fun y => match y.2 with | .at_ _ => false | _ => true
          match stop with
          | some (e, .bad) => m0.laneTrap k 0x0c (w64 (0x2000 + e % 1024))
          | some (_, .out tv) => m0.laneTrap k 0x08 tv
          | _ => f k t src pl m

/-- The bytes of an element in the scratchpad. -/
def Core.spEl (c : Core) (i es : Nat) : List (Byte × Bool) := (List.range es).map fun j => c.spRd (i + j)

/-- `vspld` (R345).
DEDUCED, unsafe (log 31). -/
def execVspld (d : VR) (a : Src) (i : VR) (pg : PR) (ts : Option ETy) (wait : BitVec 8) (s : State) : Host.Outcome State Fault Refusal :=
  run (fun m => m.spOp (.vspld d a i pg ts wait) a ts .ld wait pg true (some d) (fun _ => true) (if i = 0 then none else some i) []
    fun k t _ pl m =>
      let es := t.size
      let bytes : List El := pl.flatMap fun (e, p) =>
        let bs : List (Byte × Bool) := match p with | .at_ n => (m.core (k / 2)).spEl n es | _ => bytesOf 0 true es
        bs.zipIdx.map fun (b, j) => (e * es + j, b.1.toNat, b.2)
      let bad := pl.filterMap fun (e, p) => if p == .bad then some (e, ({ val := 0, bad := true } : ERes)) else none
      (m.modSide k fun s => let s := s.wvBytes d es bytes; { s with strip := s.strip.map (·.keep bad) }).vfin k true) s

/-- The last write to each byte. -/
def lastWrites (l : List (Nat × Byte × Bool)) : List (Nat × Byte × Bool) := l.foldl (fun (t : Tbl (Byte × Bool)) x => t.set x.1 x.2) []

/-- `vspst` (R345): the highest element supplies a byte that several write.
DEDUCED, safe (log 69). -/
def execVspst (v : VR) (a : Src) (i : VR) (pg : PR) (ts : Option ETy) (wait : BitVec 8) (s : State) : Host.Outcome State Fault Refusal :=
  run (fun m => m.spOp (.vspst v a i pg ts wait) a ts .st wait pg false none (fun _ => true) (if i = 0 then none else some i) [v]
    fun k t src pl m =>
      let es := t.size
      let r := srcOf src v
      let ws := pl.flatMap fun (e, p) => match p with
        | .at_ n => (List.range es).map fun j => (n + j, BitVec.ofNat 8 (r.el 1 (e * es + j)), r.bad 1 (e * es + j) || m.spoils k es e)
        | _ => []
      (m.spWrite k (k / 2) (lastWrites ws)).vfin k true) s

/-- The types of `vspamo` (R346). -/
def spOk (op : SpOp) (t : ETy) : Bool :=
  match op with
  | .add | .min | .max => tyIF t
  | .and | .or | .xor => t.isInt
  | .swap => true

/-- Op of `vspamo` (R346): rounding to nearest even, no flag. -/
def spVal (op : SpOp) (t : ETy) (old b : Nat) : Nat :=
  match op with
  | .add => (vAdd t .rne old b).1
  | .min => (vMinMax t false old b).1
  | .max => (vMinMax t true old b).1
  | .and => old &&& b
  | .or => old ||| b
  | .xor => old ^^^ b
  | .swap => b

/-- The elements of `vspamo` one at a time (R346). -/
def Mach.spAmo (m : Mach) (k : Nat) (t : ETy) (op : SpOp) (c : VReg) : List (Nat × SpPlace) → List El → List El × Mach
  | [], acc => (acc, m)
  | (e, .at_ n) :: r, acc =>
    let es := t.size
    let old := (m.core (k / 2)).spEl n es
    let (v, p) := gatherLe old
    let put := fun (v : Nat) (p : Bool) => m.spWrite k (k / 2) ((bytesOf v p es).zipIdx.map fun (x : (Byte × Bool) × Nat) => (n + x.2, x.1.1, x.1.2))
    let m' := if p || c.bad es e || m.spoils k es e then put v true else put (spVal op t v (c.el es e)) false
    m'.spAmo k t op c r (acc ++ old.zipIdx.map fun (b, j) => (e * es + j, b.1.toNat, b.2))
  | _ :: r, acc => m.spAmo k t op c r acc

/-- `vspamo` (R346). -/
def execVspamo (d : VR) (a : Src) (i c : VR) (pg : PR) (ts : Option ETy) (wait : BitVec 8) (op : SpOp) (s : State) :
    Host.Outcome State Fault Refusal :=
  run (fun m => m.spOp (.vspamo d a i c pg ts wait op) a ts .st wait pg false (some d) (spOk op) (some i) [c] fun k t src pl m =>
    let (l, m) := m.spAmo k t op (srcOf src c) pl []
    (m.modSide k fun s => s.wvBytes d t.size l).vfin k true) s

end Sys2Proof.Machine
end

