-- ==== Sys2Proof/Machine/Dispatch.lean ====
section
/-! DEFINITION. The dispatch: one arm for each constructor of `Instr`, each one direct call of that instruction's meaning. -/

namespace Sys2Proof.Machine
open Sys2Proof

/-- What an instruction or event does to a state. -/
def exec (i : Instr) (s : State) : Host.Outcome State Fault Refusal :=
  match i with
  | .nop => Sys2Proof.Machine.execNop s
  | .add d a b => Sys2Proof.Machine.execAdd d a b s
  | .sub d a b => Sys2Proof.Machine.execSub d a b s
  | .and d a b => Sys2Proof.Machine.execAnd d a b s
  | .or d a b => Sys2Proof.Machine.execOr d a b s
  | .xor d a b => Sys2Proof.Machine.execXor d a b s
  | .sll d a b => Sys2Proof.Machine.execSll d a b s
  | .srl d a b => Sys2Proof.Machine.execSrl d a b s
  | .sra d a b => Sys2Proof.Machine.execSra d a b s
  | .slt d a b => Sys2Proof.Machine.execSlt d a b s
  | .sltn d a b => Sys2Proof.Machine.execSltn d a b s
  | .min d a b => Sys2Proof.Machine.execMin d a b s
  | .max d a b => Sys2Proof.Machine.execMax d a b s
  | .minn d a b => Sys2Proof.Machine.execMinn d a b s
  | .maxn d a b => Sys2Proof.Machine.execMaxn d a b s
  | .addi d a imm => Sys2Proof.Machine.execAddi d a imm s
  | .andi d a imm => Sys2Proof.Machine.execAndi d a imm s
  | .ori d a imm => Sys2Proof.Machine.execOri d a imm s
  | .xori d a imm => Sys2Proof.Machine.execXori d a imm s
  | .slli d a n => Sys2Proof.Machine.execSlli d a n s
  | .srli d a n => Sys2Proof.Machine.execSrli d a n s
  | .srai d a n => Sys2Proof.Machine.execSrai d a n s
  | .slti d a imm => Sys2Proof.Machine.execSlti d a imm s
  | .li d imm => Sys2Proof.Machine.execLi d imm s
  | .lpc d lines slot => Sys2Proof.Machine.execLpc d lines slot s
  | .mul d a b => Sys2Proof.Machine.execMul d a b s
  | .mulh d a b => Sys2Proof.Machine.execMulh d a b s
  | .mulhn d a b => Sys2Proof.Machine.execMulhn d a b s
  | .div d a b => Sys2Proof.Machine.execDiv d a b s
  | .divn d a b => Sys2Proof.Machine.execDivn d a b s
  | .rem d a b => Sys2Proof.Machine.execRem d a b s
  | .remn d a b => Sys2Proof.Machine.execRemn d a b s
  | .clz d a => Sys2Proof.Machine.execClz d a s
  | .ctz d a => Sys2Proof.Machine.execCtz d a s
  | .popc d a => Sys2Proof.Machine.execPopc d a s
  | .sext d a wd => Sys2Proof.Machine.execSext d a wd s
  | .zext d a wd => Sys2Proof.Machine.execZext d a wd s
  | .bfx d a pos len1 => Sys2Proof.Machine.execBfx d a pos len1 s
  | .bfi d a b pos len1 => Sys2Proof.Machine.execBfi d a b pos len1 s
  | .mv d a => Sys2Proof.Machine.execMv d a s
  | .sel d a b c => Sys2Proof.Machine.execSel d a b c s
  | .addsh d a b sh => Sys2Proof.Machine.execAddsh d a b sh s
  | .fadd d a b t rm => Sys2Proof.Machine.execFadd d a b t rm s
  | .fsub d a b t rm => Sys2Proof.Machine.execFsub d a b t rm s
  | .fmul d a b t rm => Sys2Proof.Machine.execFmul d a b t rm s
  | .fma d a b c t rm => Sys2Proof.Machine.execFma d a b c t rm s
  | .fdiv d a b t rm => Sys2Proof.Machine.execFdiv d a b t rm s
  | .fsqrt d a t rm => Sys2Proof.Machine.execFsqrt d a t rm s
  | .fmin d a b t => Sys2Proof.Machine.execFmin d a b t s
  | .fmax d a b t => Sys2Proof.Machine.execFmax d a b t s
  | .fcmp d a b t c => Sys2Proof.Machine.execFcmp d a b t c s
  | .fcvt d a t sr rm => Sys2Proof.Machine.execFcvt d a t sr rm s
  | .fclass d a t => Sys2Proof.Machine.execFclass d a t s
  | .ld d a sz n off => Sys2Proof.Machine.execLd d a sz n off s
  | .st v a sz off => Sys2Proof.Machine.execSt v a sz off s
  | .lda d a sz n sc off => Sys2Proof.Machine.execLda d a sz n sc off s
  | .stl v a sz sc off => Sys2Proof.Machine.execStl v a sz sc off s
  | .amo d a b c op dbl => Sys2Proof.Machine.execAmo d a b c op dbl s
  | .pf a wr off => Sys2Proof.Machine.execPf a wr off s
  | .b c x y lines slot => Sys2Proof.Machine.execB c x y lines slot s
  | .bi c x imm lines slot => Sys2Proof.Machine.execBi c x imm lines slot s
  | .j lines slot => Sys2Proof.Machine.execJ lines slot s
  | .jal d lines slot => Sys2Proof.Machine.execJal d lines slot s
  | .jr a => Sys2Proof.Machine.execJr a s
  | .jalr d a => Sys2Proof.Machine.execJalr d a s
  | .loop a lines slot => Sys2Proof.Machine.execLoop a lines slot s
  | .loopi n lines slot => Sys2Proof.Machine.execLoopi n lines slot s
  | .lbrk => Sys2Proof.Machine.execLbrk s
  | .lix d k => Sys2Proof.Machine.execLix d k s
  | .fork a b => Sys2Proof.Machine.execFork a b s
  | .rdv => Sys2Proof.Machine.execRdv s
  | .tkwait d tk => Sys2Proof.Machine.execTkwait d tk s
  | .tkwaitClear d tk => Sys2Proof.Machine.execTkwaitClear d tk s
  | .barArrive a => Sys2Proof.Machine.execBarArrive a s
  | .barWait a => Sys2Proof.Machine.execBarWait a s
  | .barArrivewait a => Sys2Proof.Machine.execBarArrivewait a s
  | .barArrivebytes a b => Sys2Proof.Machine.execBarArrivebytes a b s
  | .semUp a => Sys2Proof.Machine.execSemUp a s
  | .semDown a => Sys2Proof.Machine.execSemDown a s
  | .fence sc k => Sys2Proof.Machine.execFence sc k s
  | .fenceCommit => Sys2Proof.Machine.execFenceCommit s
  | .qfence mask => Sys2Proof.Machine.execQfence mask s
  | .spawn d a b => Sys2Proof.Machine.execSpawn d a b s
  | .spawnInc d a b => Sys2Proof.Machine.execSpawnInc d a b s
  | .cont d a => Sys2Proof.Machine.execCont d a s
  | .endUnit => Sys2Proof.Machine.execEndUnit s
  | .cancel d a k => Sys2Proof.Machine.execCancel d a k s
  | .yield => Sys2Proof.Machine.execYield s
  | .mbput m a => Sys2Proof.Machine.execMbput m a s
  | .mbget d m => Sys2Proof.Machine.execMbget d m s
  | .trap imm => Sys2Proof.Machine.execTrap imm s
  | .bkpt imm => Sys2Proof.Machine.execBkpt imm s
  | .eret => Sys2Proof.Machine.execEret s
  | .hcall => Sys2Proof.Machine.execHcall s
  | .idle => Sys2Proof.Machine.execIdle s
  | .crd d cr => Sys2Proof.Machine.execCrd d cr s
  | .crw d cr a => Sys2Proof.Machine.execCrw d cr a s
  | .crset d cr a => Sys2Proof.Machine.execCrset d cr a s
  | .crclr d cr a => Sys2Proof.Machine.execCrclr d cr a s
  | .ainvPage a b => Sys2Proof.Machine.execAinvPage a b s
  | .ainvAsn a => Sys2Proof.Machine.execAinvAsn a s
  | .ainvPart a => Sys2Proof.Machine.execAinvPart a s
  | .harv a b f => Sys2Proof.Machine.execHarv a b f s
  | .vqsave a => Sys2Proof.Machine.execVqsave a s
  | .vqload a => Sys2Proof.Machine.execVqload a s
  | .vsave a => Sys2Proof.Machine.execVsave a s
  | .vrest a => Sys2Proof.Machine.execVrest a s
  | .setvl d a t => Sys2Proof.Machine.execSetvl d a t s
  | .vsetvt v => Sys2Proof.Machine.execVsetvt v s
  | .vspec => Sys2Proof.Machine.execVspec s
  | .vcommit => Sys2Proof.Machine.execVcommit s
  | .vbrk d a pg excl => Sys2Proof.Machine.execVbrk d a pg excl s
  | .pset d pg v => Sys2Proof.Machine.execPset d pg v s
  | .plog d a b pg op => Sys2Proof.Machine.execPlog d a b pg op s
  | .pnot d a pg => Sys2Proof.Machine.execPnot d a pg s
  | .pfirst d a pg => Sys2Proof.Machine.execPfirst d a pg s
  | .pcnt d a pg => Sys2Proof.Machine.execPcnt d a pg s
  | .pmv d a pg => Sys2Proof.Machine.execPmv d a pg s
  | .vbind d sp => Sys2Proof.Machine.execVbind d sp s
  | .vadd d a b pg ts rm => Sys2Proof.Machine.execVadd d a b pg ts rm s
  | .vsub d a b pg ts rm => Sys2Proof.Machine.execVsub d a b pg ts rm s
  | .vmul d a b pg ts rm => Sys2Proof.Machine.execVmul d a b pg ts rm s
  | .vmulh d a b pg ts => Sys2Proof.Machine.execVmulh d a b pg ts s
  | .vdiv d a b pg ts => Sys2Proof.Machine.execVdiv d a b pg ts s
  | .vrem d a b pg ts => Sys2Proof.Machine.execVrem d a b pg ts s
  | .vmin d a b pg ts => Sys2Proof.Machine.execVmin d a b pg ts s
  | .vmax d a b pg ts => Sys2Proof.Machine.execVmax d a b pg ts s
  | .vand d a b pg ts => Sys2Proof.Machine.execVand d a b pg ts s
  | .vor d a b pg ts => Sys2Proof.Machine.execVor d a b pg ts s
  | .vxor d a b pg ts => Sys2Proof.Machine.execVxor d a b pg ts s
  | .vsll d a b pg ts => Sys2Proof.Machine.execVsll d a b pg ts s
  | .vsrl d a b pg ts => Sys2Proof.Machine.execVsrl d a b pg ts s
  | .vsra d a b pg ts => Sys2Proof.Machine.execVsra d a b pg ts s
  | .vabs d a pg ts => Sys2Proof.Machine.execVabs d a pg ts s
  | .vneg d a pg ts => Sys2Proof.Machine.execVneg d a pg ts s
  | .vfma d a b c pg ts rm => Sys2Proof.Machine.execVfma d a b c pg ts rm s
  | .vfms d a b c pg ts rm => Sys2Proof.Machine.execVfms d a b c pg ts rm s
  | .vfnma d a b c pg ts rm => Sys2Proof.Machine.execVfnma d a b c pg ts rm s
  | .vfdiv d a b pg ts rm => Sys2Proof.Machine.execVfdiv d a b pg ts rm s
  | .vfsqrt d a pg ts rm => Sys2Proof.Machine.execVfsqrt d a pg ts rm s
  | .vcmp d a b pg ts c => Sys2Proof.Machine.execVcmp d a b pg ts c s
  | .vsel d a b c pg ts => Sys2Proof.Machine.execVsel d a b c pg ts s
  | .vcvt d a pg ts sr rm => Sys2Proof.Machine.execVcvt d a pg ts sr rm s
  | .vdot d a b c pg ts sr rm => Sys2Proof.Machine.execVdot d a b c pg ts sr rm s
  | .vclass d a pg ts => Sys2Proof.Machine.execVclass d a pg ts s
  | .vmv d a pg ts => Sys2Proof.Machine.execVmv d a pg ts s
  | .vrecpe d a pg ts => Sys2Proof.Machine.execVrecpe d a pg ts s
  | .vsadd d a b pg ts => Sys2Proof.Machine.execVsadd d a b pg ts s
  | .vssub d a b pg ts => Sys2Proof.Machine.execVssub d a b pg ts s
  | .vperm d a b pg ts => Sys2Proof.Machine.execVperm d a b pg ts s
  | .vslide d a x pg ts up => Sys2Proof.Machine.execVslide d a x pg ts up s
  | .vcompress d a pg ts => Sys2Proof.Machine.execVcompress d a pg ts s
  | .vexpand d a pg ts => Sys2Proof.Machine.execVexpand d a pg ts s
  | .vsplat d x pg ts => Sys2Proof.Machine.execVsplat d x pg ts s
  | .vins d x ix ts => Sys2Proof.Machine.execVins d x ix ts s
  | .vext d a ix ts => Sys2Proof.Machine.execVext d a ix ts s
  | .vred d a b pg ts op rm => Sys2Proof.Machine.execVred d a b pg ts op rm s
  | .vscan d a pg ts op excl rm => Sys2Proof.Machine.execVscan d a pg ts op excl rm s
  | .vrank d a x pg ts => Sys2Proof.Machine.execVrank d a x pg ts s
  | .vld d a pg ts wait dec => Sys2Proof.Machine.execVld d a pg ts wait dec s
  | .vlds d a sr pg ts wait dec => Sys2Proof.Machine.execVlds d a sr pg ts wait dec s
  | .vldx d a ix n pg ts wait pol dec p => Sys2Proof.Machine.execVldx d a ix n pg ts wait pol dec p s
  | .vldff d a pg ts wait => Sys2Proof.Machine.execVldff d a pg ts wait s
  | .vst v a pg ts wait => Sys2Proof.Machine.execVst v a pg ts wait s
  | .vstNf v a n pg ts wait => Sys2Proof.Machine.execVstNf v a n pg ts wait s
  | .vsts v a sr pg ts wait => Sys2Proof.Machine.execVsts v a sr pg ts wait s
  | .vstx v a ix n pg ts wait pol => Sys2Proof.Machine.execVstx v a ix n pg ts wait pol s
  | .vscadd a ix v n pg ts wait pol op => Sys2Proof.Machine.execVscadd a ix v n pg ts wait pol op s
  | .vspld d a ix pg ts wait => Sys2Proof.Machine.execVspld d a ix pg ts wait s
  | .vspst v a ix pg ts wait => Sys2Proof.Machine.execVspst v a ix pg ts wait s
  | .vspamo d a ix c pg ts wait op => Sys2Proof.Machine.execVspamo d a ix c pg ts wait op s
  | .vpf a sr pg ts wait wr => Sys2Proof.Machine.execVpf a sr pg ts wait wr s
  | .xins d k v pg ts => Sys2Proof.Machine.execXins d k v pg ts s
  | .xlkp d k f pg ts => Sys2Proof.Machine.execXlkp d k f pg ts s
  | .xacc d k v pg ts rm => Sys2Proof.Machine.execXacc d k v pg ts rm s
  | .xdel d k pg ts => Sys2Proof.Machine.execXdel d k pg ts s
  | .xdrain k v ts => Sys2Proof.Machine.execXdrain k v ts s
  | .xclr => Sys2Proof.Machine.execXclr s
  | .xcnt d => Sys2Proof.Machine.execXcnt d s
  | .tbset a n h f => Sys2Proof.Machine.execTbset a n h f s
  | .vtint d a pg ts rm => Sys2Proof.Machine.execVtint d a pg ts rm s
  | .vtlkp d a pg ts rm => Sys2Proof.Machine.execVtlkp d a pg ts rm s
  | .mld a t wait bank => Sys2Proof.Machine.execMld a t wait bank s
  | .mldFr a wait bank => Sys2Proof.Machine.execMldFr a wait bank s
  | .mmac d a t wait bank => Sys2Proof.Machine.execMmac d a t wait bank s
  | .mmacStaged d a t wait bank sc => Sys2Proof.Machine.execMmacStaged d a t wait bank sc s
  | .mzero d wait => Sys2Proof.Machine.execMzero d wait s
  | .mst d a t wait => Sys2Proof.Machine.execMst d a t wait s
  | .mrd d a t wait => Sys2Proof.Machine.execMrd d a t wait s
  | .mcfg d a wait => Sys2Proof.Machine.execMcfg d a wait s
  | .cpy d ly tk fo wait => Sys2Proof.Machine.execCpy d ly tk fo wait s
  | .sbind sp ly wait => Sys2Proof.Machine.execSbind sp ly wait s
  | .sgath d ly tk a b c it wait pol p => Sys2Proof.Machine.execSgath d ly tk a b c it wait pol p s
  | .sgred d ly tk a b c it wait pol op => Sys2Proof.Machine.execSgred d ly tk a b c it wait pol op s
  | .sscadd d ly tk a b c it wait pol op => Sys2Proof.Machine.execSscadd d ly tk a b c it wait pol op s
  | .cbinit d cb a wait => Sys2Proof.Machine.execCbinit d cb a wait s
  | .cbget d cb wait => Sys2Proof.Machine.execCbget d cb wait s
  | .cbput cb wait => Sys2Proof.Machine.execCbput cb wait s
  | .lyset ly a sel wait => Sys2Proof.Machine.execLyset ly a sel wait s
  | .lyld ly a wait => Sys2Proof.Machine.execLyld ly a wait s
  | .lyst ly a wait => Sys2Proof.Machine.execLyst ly a wait s
  | .txenc a final => Sys2Proof.Machine.execTxenc a final s
  | .txdec a final => Sys2Proof.Machine.execTxdec a final s
  | .txmask a => Sys2Proof.Machine.execTxmask a s
  | .txstep a => Sys2Proof.Machine.execTxstep a s
  | .txsave a => Sys2Proof.Machine.execTxsave a s
  | .txload a => Sys2Proof.Machine.execTxload a s
  | .heldStoreEnterL1 side => Sys2Proof.Machine.execHeldStoreEnterL1 side s
  | .mldExecute side => Sys2Proof.Machine.execMldExecute side s
  | .mmacExecute side => Sys2Proof.Machine.execMmacExecute side s
  | .textCommandExecute side => Sys2Proof.Machine.execTextCommandExecute side s
  | .copyGroupLanding side ix => Sys2Proof.Machine.execCopyGroupLanding side ix s
  | .streamOperationStart side => Sys2Proof.Machine.execStreamOperationStart side s
  | .streamOperationFinish side => Sys2Proof.Machine.execStreamOperationFinish side s
  | .streamPortFetch side sp => Sys2Proof.Machine.execStreamPortFetch side sp s
  | .lineFetch q => Sys2Proof.Machine.execLineFetch q s
  | .interruptTake q => Sys2Proof.Machine.execInterruptTake q s
  | .probeCompletion ix => Sys2Proof.Machine.execProbeCompletion ix s
  | .loadDataArrival ix => Sys2Proof.Machine.execLoadDataArrival ix s
  | .bankUpdateApply die ch => Sys2Proof.Machine.execBankUpdateApply die ch s
  | .batchCloseTimeout die => Sys2Proof.Machine.execBatchCloseTimeout die s
  | .batchApply die ix => Sys2Proof.Machine.execBatchApply die ix s
  | .remoteReadServe ix => Sys2Proof.Machine.execRemoteReadServe ix s
  | .hostWindowAccess ix => Sys2Proof.Machine.execHostWindowAccess ix s
  | .bootRom => Sys2Proof.Machine.execBootRom s
  | .dieReset die => Sys2Proof.Machine.execDieReset die s
  | .rollback pid => Sys2Proof.Machine.execRollback pid s
  | .submit vd => Sys2Proof.Machine.execSubmit vd s
  | .requestCancel vd => Sys2Proof.Machine.execRequestCancel vd s
  | .query vd => Sys2Proof.Machine.execQuery vd s
  | .attest w => Sys2Proof.Machine.execAttest w s
  | .requestNop w => Sys2Proof.Machine.execRequestNop w s
  | .wipeComplete die => Sys2Proof.Machine.execWipeComplete die s
  | .dieRejoin die => Sys2Proof.Machine.execDieRejoin die s
  | .unitStart side => Sys2Proof.Machine.execUnitStart side s
  | .unitResume side => Sys2Proof.Machine.execUnitResume side s
  | .gangStart side => Sys2Proof.Machine.execGangStart side s
  | .refill die => Sys2Proof.Machine.execRefill die s
  | .boostEnd die vd => Sys2Proof.Machine.execBoostEnd die vd s
  | .allowanceExhausted die vd => Sys2Proof.Machine.execAllowanceExhausted die vd s
  | .preemptionLanding side => Sys2Proof.Machine.execPreemptionLanding side s
  | .cancelLanding side => Sys2Proof.Machine.execCancelLanding side s
  | .completionWrite w => Sys2Proof.Machine.execCompletionWrite w s
  | .laneRetirement core lane => Sys2Proof.Machine.execLaneRetirement core lane s
  | .lifeCycleRequest target => Sys2Proof.Machine.execLifeCycleRequest target s
  | .l1Fill side va => Sys2Proof.Machine.execL1Fill side va s
  | .writeBack fromL2 u ix => Sys2Proof.Machine.execWriteBack fromL2 u ix s
  | .frostWriteBack die ix => Sys2Proof.Machine.execFrostWriteBack die ix s
  | .galeRemoteAccess port off wr v => Sys2Proof.Machine.execGaleRemoteAccess port off wr v s
  | .hostWindowCompletion ix ok v => Sys2Proof.Machine.execHostWindowCompletion ix ok v s
  | .galeCrcRetransmit port => Sys2Proof.Machine.execGaleCrcRetransmit port s
  | .galeRetryLimit port => Sys2Proof.Machine.execGaleRetryLimit port s
  | .galeLossOfLock port => Sys2Proof.Machine.execGaleLossOfLock port s
  | .linkTrained port peer => Sys2Proof.Machine.execLinkTrained port peer s
  | .portEnable port => Sys2Proof.Machine.execPortEnable port s
  | .portClearCounts port => Sys2Proof.Machine.execPortClearCounts port s
  | .portLostClear port => Sys2Proof.Machine.execPortLostClear port s
  | .boundaryFailure b => Sys2Proof.Machine.execBoundaryFailure b s
  | .islandSwitchOn ix => Sys2Proof.Machine.execIslandSwitchOn ix s
  | .islandSwitchOff ix => Sys2Proof.Machine.execIslandSwitchOff ix s
  | .islandRefusedClear ix => Sys2Proof.Machine.execIslandRefusedClear ix s
  | .powerWindow above => Sys2Proof.Machine.execPowerWindow above s
  | .deviceReset => Sys2Proof.Machine.execDeviceReset s
  | .dieContainment die => Sys2Proof.Machine.execDieContainment die s
  | .sramError at_ fixed => Sys2Proof.Machine.execSramError at_ fixed s
  | .laneReexecution core lane beat res => Sys2Proof.Machine.execLaneReexecution core lane beat res s
  | .preemptRequest side => Sys2Proof.Machine.execPreemptRequest side s
  | .notifyWrite w v => Sys2Proof.Machine.execNotifyWrite w v s
  | .hostirqClear w v => Sys2Proof.Machine.execHostirqClear w v s
  | .irqmaskWrite w v => Sys2Proof.Machine.execIrqmaskWrite w v s
  | .functionLevelReset w => Sys2Proof.Machine.execFunctionLevelReset w s
  | .unsupportedRequest w => Sys2Proof.Machine.execUnsupportedRequest w s
  | .hcallVersion q => Sys2Proof.Machine.execHcallVersion q s
  | .hcallAsnTable q => Sys2Proof.Machine.execHcallAsnTable q s
  | .hcallFormatRange q => Sys2Proof.Machine.execHcallFormatRange q s
  | .hcallQuote q => Sys2Proof.Machine.execHcallQuote q s
  | .hcallGalePort q => Sys2Proof.Machine.execHcallGalePort q s
  | .hcallVirtualDevice q => Sys2Proof.Machine.execHcallVirtualDevice q s
  | .pipeownWrite core v => Sys2Proof.Machine.execPipeownWrite core v s
  | .vtypeWrite q v => Sys2Proof.Machine.execVtypeWrite q v s
  | .vlWrite q v => Sys2Proof.Machine.execVlWrite q v s
  | .frmWrite q v => Sys2Proof.Machine.execFrmWrite q v s
  | .asnWrite q v => Sys2Proof.Machine.execAsnWrite q v s
  | .vdirtyWrite q v => Sys2Proof.Machine.execVdirtyWrite q v s
  | .capselWrite q v => Sys2Proof.Machine.execCapselWrite q v s
  | .registerWrite mpa v => Sys2Proof.Machine.execRegisterWrite mpa v s
  | .powerLoss => Sys2Proof.Machine.execPowerLoss s

end Sys2Proof.Machine
end

