-- ==== Sys2Proof/Machine/Step.lean ====
section
/-! DEFINITION. One step of the machine: a listed move, or the first move that the machine can make on its own (DESIGN CHOICE, unsafe, log 4), and the placing
of an instruction where the step fetches it (DESIGN CHOICE, unsafe, log 5). -/

namespace Sys2Proof.Machine
open Sys2Proof

/-- Give the move to a sequencer. -/
def State.as (s : State) (q : SeqId) : State := { s with dev := { s.dev with cur := q } }
/-- Put the head of the instruction in hand (R212). -/
def State.withHead (s : State) (h : Half) : State := { s with dev := { s.dev with head := h } }

/-- The move of one sequencer. -/
def seqTurn (q : SeqId) (s : State) : Host.Outcome State Fault Refusal :=
  match s.mach.move q with
  | .none => .next s
  | .event i => exec i (s.as q)
  | .ins h i => exec i ((s.as q).withHead h)
  | .bad h => run (·.trapHead 0x01) ((s.as q).withHead h)

/-- The oldest entry of a side's vector queue is performed, unless M or S of the side handles a trap (R142, R143). -/
def vqTurn (k : BitVec 10) (s : State) : Host.Outcome State Fault Refusal :=
  let x := s.mach.side k.toNat
  match x.vq with
  | [] => .next s
  | e :: _ =>
    if x.queueStops then .next s
    else
      match exec e.ins { s with dev := { s.dev with cur := .side k .P, vqNow := some (k, e), head := e.head } } with
      | .next t => .next { t with dev := { t.dev with vqNow := none, cur := s.dev.cur, head := s.dev.head } }
      | o => o

/-- A listed move. -/
def turn (t : Turn) (s : State) : Host.Outcome State Fault Refusal :=
  match t with
  | .event i => if (encode i).isSome then .fault .notAnEvent else exec i s
  | .seq q => seqTurn q s
  | .vq k => vqTurn k s
  | .elapse d n => run (·.elapse d.toNat n.toNat) s

/-- The first of the moves that changes the machine; when none does, every die lets a cycle pass. -/
def firstMove (s : State) : List Turn → Host.Outcome State Fault Refusal
  | [] => run (·.tickAll) s
  | t :: r => match turn t s with
    | .next s' => if s' = s then firstMove s r else .next s'
    | o => o

/-- One step: the first listed move, or a move of the machine's own. -/
def step (s : State) : Host.Outcome State Fault Refusal :=
  match s.turns with
  | t :: r => turn t { s with turns := r }
  | [] => firstMove s s.dev.moves

/-- The sequencer of a side whose class holds an opcode (R132). -/
def roleOf (h : Half) : Role :=
  let op := (h.extractLsb' 6 8).toNat
  if 0xe8 ≤ op then .S else if 0xe0 ≤ op then .M else .P

/-- The state with an instruction stored where the next step fetches it: slot 1 of the line buffer of a running sequencer of side 0,
whose move is listed next. -/
def State.withFetchWord (s : State) (nbits w : Nat) : State :=
  let e := tableEnc nbits w
  let r := roleOf e.head
  let x := s.dev.sides.get {} 0
  let q := { x.seq r with run := .run, pc := 2, line := some ⟨0, Line.ofEnc e⟩ }
  { s with dev := { s.dev with sides := s.dev.sides.set 0 (x.setSeq r q), cur := .side 0 r }, turns := [.seq (.side 0 r)] }

end Sys2Proof.Machine
end

