-- ==== Sys2Proof/Safety.lean ====
section
/-! DEFINITION. What counts as a safe state, and the words in which claims are written: when an instruction issues, when the head of a
vector queue is performed, what an instruction that completes leaves, and what an answer is. -/

namespace Sys2Proof
open Sys2Proof.Machine

/-- The memory of a state is in its canonical form. -/
def Safe (s : State) : Prop := Memory.wf s.mem = true

end Sys2Proof

namespace Sys2Proof.Machine
open Sys2Proof

/-! ## Issue -/

/-- The operands of an instruction can be had (steps 8 and 9 of R250, R137, R278): no empty-register trap is due, every source is full, the
destination is full, and no source is poisoned but those carried. -/
def Mach.ready (m : Mach) (d : Option Reg) (ss carry : List Src) : Bool :=
  m.me.due.isNone && (ss ++ carry).all (fun x => (m.x x.r).full) && d.all (fun r => (m.x r).full) && ss.all (fun x => !(m.x x.r).pois)

/-- An instruction that writes `v` to `xd` and falls through (R133, R288). -/
def Mach.completes (m : Mach) (d : Reg) (v : Word) : Mach := (m.wx d v).retire

/-- No wait mask holds an instruction of a side back (R249). -/
def Mach.waitOk (m : Mach) (k : Nat) (wait : BitVec 8) : Bool := (wait == 0 || m.owns k 7) && m.maskWait wait == (none, false)

/-- An engine instruction passes its checks (R348). -/
def Mach.engineOk (m : Mach) (r : Role) (pipe : Nat) (d : Option Reg) (ss : List Src) (wait : BitVec 8) : Bool :=
  m.isRole r && m.ready d ss [] && m.owns m.myNo pipe && m.waitOk m.myNo wait && (pipe != 6 || m.mySide.vowner)

/-! ## The vector queue -/

/-- The head of a side's queue may leave it (R150, R249, R195). -/
def Mach.leaves (m : Mach) (k : Nat) (e : VqEntry) (p : Pipe) (wait : BitVec 8) : Bool :=
  (m.noPipe k p).isNone && m.waitOk k wait && !m.markBlocks k (if p == .idx then 4 else 0) e.tick
/-- It acts on the vector state: the unit owns it (R227), and for an instruction that R252 names `vl` is not 0. -/
def Mach.acts (m : Mach) (k : Nat) (named : Bool) : Bool := (m.side k).vowner && (!named || (m.side k).vl != 0)
/-- The machine as an instruction that has left the queue sees it. -/
def Mach.left (m : Mach) (k : Nat) : Mach := m.modSide k fun s => { s with vlast := [] }
/-- The queue entry being performed. -/
def Mach.headIs (m : Mach) (k : BitVec 10) (e : VqEntry) : Bool := m.dev.vqNow == some (k, e)

/-- The sources of an instruction as it reads them, with what its vector destination sees of a group that it shares (R174). -/
def Mach.reads (m : Mach) (k n : Nat) (vs : List VR) (d : Option VR) : Option (List (VR × VReg) × Mach) :=
  (m.vsrcs k n vs []).toOption.map fun x => (x.1, x.2.modSide k (·.seeGroup n x.1 d))

/-- An instruction's elements do not trap (R302, R307), when the lanes could read all that it reads: in an unresolved strip never; outside one
no element is poisoned and no flag that it raises is enabled. -/
def Mach.settles (m : Mach) (k : Nat) (rs : List (Nat × ERes)) : Bool :=
  (m.unread k).isEmpty && ((m.side k).unresolved || (rs.all (fun x => !x.2.bad) && rs.all fun x => x.2.fl &&& (m.side k).fenable == 0))
/-- The elements to be written and the machine with their flags (R302, R307). -/
def Mach.settled (m0 m1 : Mach) (k : Nat) (rs : List (Nat × ERes)) (badVal : Nat) : List El × Mach :=
  if (m0.side k).unresolved then
    (rs.map fun (e, r) => if r.bad then (e, badVal, true) else (e, r.val, r.pois), m1.modSide k fun s => { s with strip := s.strip.map (·.keep rs) })
  else (rs.map fun (e, r) => (e, r.val, r.pois), m1.modSide k fun s => { s with fflags := s.fflags ||| rs.foldl (fun f x => f ||| x.2.fl) 0 })

end Sys2Proof.Machine
end

