-- ==== Sys2Proof/Certificates/Slice0/Obligations.lean ====
section
/-! DEFINITION. The statements for the provers. `Does i s m` says that instruction `i` at state `s` answers next with the machine `m`, `Goes i s m`
that it does so when nothing in `m` has to wait; the words before each group of statements say in the spec's terms what an instruction reads and what it gives. -/

namespace Sys2Proof.Claims
open Sys2Proof Sys2Proof.Machine

/-- An instruction answers next with a machine. -/
def Does (i : Instr) (s : State) (m : Mach) : Prop := exec i s = m.answer s
/-- It answers next with the machine that the rules compute from the state and the operands, when in it nothing has to wait: each write has
room in its undo log, each fill a way, each batch a place (R57, R75, R197). `m.stall` is a word of that computed machine, so the condition is
one on the state and the operands alone. -/
def Goes (i : Instr) (s : State) (m : Mach) : Prop := m.stall = false → Does i s m

/-- A side without its sequencers: flags, predicates, vector and control registers, queues, mailboxes, trap registers. -/
def besideSeqs (s : Side) : Side := { s with p := {}, m := {}, s := {} }
/-- A supervisor core without its sequencer. -/
def besideSeq (u : Sup) : Sup := { u with seq := {} }
/-- The device without its sides and supervisor cores. -/
def besideSides (d : Dev) : Dev := { d with sides := [], sups := [] }

/-- The result of a scalar integer instruction by R279: its destination, its sources, and its value from the PC and the values of the
sources. -/
def intValue : Instr → Option (Reg × List Src × (Word → (Src → Word) → Word))
  | .add d a b => some (d, [a, b], fun _ x => x a + x b)
  | .sub d a b => some (d, [a, b], fun _ x => x a - x b)
  | .and d a b => some (d, [a, b], fun _ x => x a &&& x b)
  | .or d a b => some (d, [a, b], fun _ x => x a ||| x b)
  | .xor d a b => some (d, [a, b], fun _ x => x a ^^^ x b)
  | .sll d a b => some (d, [a, b], fun _ x => x a <<< ((x b).extractLsb' 0 6).toNat)
  | .srl d a b => some (d, [a, b], fun _ x => x a >>> ((x b).extractLsb' 0 6).toNat)
  | .sra d a b => some (d, [a, b], fun _ x => (x a).sshiftRight ((x b).extractLsb' 0 6).toNat)
  | .slt d a b => some (d, [a, b], fun _ x => if (x a).toInt < (x b).toInt then 1 else 0)
  | .sltn d a b => some (d, [a, b], fun _ x => if (x a).toNat < (x b).toNat then 1 else 0)
  | .min d a b => some (d, [a, b], fun _ x => if (x a).toInt ≤ (x b).toInt then x a else x b)
  | .max d a b => some (d, [a, b], fun _ x => if (x b).toInt ≤ (x a).toInt then x a else x b)
  | .minn d a b => some (d, [a, b], fun _ x => if (x a).toNat ≤ (x b).toNat then x a else x b)
  | .maxn d a b => some (d, [a, b], fun _ x => if (x b).toNat ≤ (x a).toNat then x a else x b)
  | .addi d a n => some (d, [a], fun _ x => x a + n.signExtend 64)
  | .andi d a n => some (d, [a], fun _ x => x a &&& n.signExtend 64)
  | .ori d a n => some (d, [a], fun _ x => x a ||| n.signExtend 64)
  | .xori d a n => some (d, [a], fun _ x => x a ^^^ n.signExtend 64)
  | .slli d a n => some (d, [a], fun _ x => x a <<< n.toNat)
  | .srli d a n => some (d, [a], fun _ x => x a >>> n.toNat)
  | .srai d a n => some (d, [a], fun _ x => (x a).sshiftRight n.toNat)
  | .slti d a n => some (d, [a], fun _ x => if (x a).toInt < n.toInt then 1 else 0)
  | .li d n => some (d, [], fun _ _ => n.signExtend 64)
  | .lpc d lines slot => some (d, [], fun pc _ => pc / 64 * 64 + BitVec.ofInt 64 (64 * lines.toInt) + BitVec.ofNat 64 (2 * slot.toNat))
  | .mul d a b => some (d, [a, b], fun _ x => BitVec.ofNat 64 ((x a).toNat * (x b).toNat))
  | .mulh d a b => some (d, [a, b], fun _ x => BitVec.ofInt 64 (((x a).toInt * (x b).toInt) / 2 ^ 64))
  | .mulhn d a b => some (d, [a, b], fun _ x => BitVec.ofNat 64 ((x a).toNat * (x b).toNat / 2 ^ 64))
  | .div d a b => some (d, [a, b], fun _ x => if x b = 0 then -1 else BitVec.ofInt 64 ((x a).toInt.tdiv (x b).toInt))
  | .divn d a b => some (d, [a, b], fun _ x => if x b = 0 then -1 else BitVec.ofNat 64 ((x a).toNat / (x b).toNat))
  | .rem d a b => some (d, [a, b], fun _ x => if x b = 0 then x a else BitVec.ofInt 64 ((x a).toInt.tmod (x b).toInt))
  | .remn d a b => some (d, [a, b], fun _ x => if x b = 0 then x a else BitVec.ofNat 64 ((x a).toNat % (x b).toNat))
  | .addsh d a b sh => some (d, [a, b], fun _ x => x a + (x b <<< sh.toNat))
  | .sel d a b c => some (d, [a, b, c], fun _ x => if x a = 0 then x c else x b)
  | _ => none

end Sys2Proof.Claims

section
open Sys2Proof Sys2Proof.Machine Sys2Proof.Claims

/-- The scalar integer instructions write the value that R279 gives, full and unpoisoned, and fall through (R278, R288). -/
def Obligations.IntegerResults : Prop :=
  ∀ (i : Instr) (d : Reg) (ss : List Src) (f : Word → (Src → Word) → Word), intValue i = some (d, ss, f) →
    ∀ s : State, s.mach.ready (some d) ss [] = true → Does i s (s.mach.completes d (f s.mach.me.pc s.mach.val))

/-- What the same instructions leave as it was: every other register and sequencer, every flag, special register, accumulator and
exception register, every other part of the device, and every byte of memory. A destination of x0 writes nothing (R133). -/
def Obligations.IntegerFrame : Prop :=
  ∀ (i : Instr) (d : Reg) (ss : List Src) (f : Word → (Src → Word) → Word), intValue i = some (d, ss, f) →
    ∀ s : State, s.mach.ready (some d) ss [] = true → ∃ t, exec i s = .next t
      ∧ (∀ r, t.mach.me.reg r = if d ≠ 0 ∧ r = d then ⟨f s.mach.me.pc s.mach.val, true, false⟩ else s.mach.me.reg r)
      ∧ (∀ q, q ≠ s.dev.cur → t.mach.seq q = s.mach.seq q)
      ∧ (∀ k, besideSeqs (t.mach.side k) = besideSeqs (s.mach.side k)) ∧ (∀ n, besideSeq (t.mach.sup n) = besideSeq (s.mach.sup n))
      ∧ besideSides t.dev = besideSides s.dev ∧ t.turns = s.turns ∧ ∀ a, Memory.read t.mem a = Memory.read s.mem a

/-- The bit counts and the bit fields of R279: `clz`, `ctz`, `popc`, `sext`, `zext`, `bfx`, `bfi`. -/
def Sys2Proof.Claims.BitResults : Prop :=
  ∀ (s : State) (d : Reg) (a b : Src),
    (s.mach.ready (some d) [a] [] = true → ∃ n ≤ 64, Does (.clz d a) s (s.mach.completes d (BitVec.ofNat 64 n))
      ∧ (∀ j, 64 - n ≤ j → (s.mach.val a).getLsbD j = false) ∧ (n < 64 → (s.mach.val a).getLsbD (63 - n) = true))
    ∧ (s.mach.ready (some d) [a] [] = true → ∃ n ≤ 64, Does (.ctz d a) s (s.mach.completes d (BitVec.ofNat 64 n))
      ∧ (∀ j < n, (s.mach.val a).getLsbD j = false) ∧ (n < 64 → (s.mach.val a).getLsbD n = true))
    ∧ (s.mach.ready (some d) [a] [] = true →
      Does (.popc d a) s (s.mach.completes d (BitVec.ofNat 64 ((List.range 64).filter fun j => (s.mach.val a).getLsbD j).length)))
    ∧ (∀ wd, s.mach.ready (some d) [a] [] = true → ∃ v, Does (.zext d a wd) s (s.mach.completes d v)
      ∧ ∀ j < 64, v.getLsbD j = (decide (j < widBits wd) && (s.mach.val a).getLsbD j))
    ∧ (∀ wd, s.mach.ready (some d) [a] [] = true → ∃ v, Does (.sext d a wd) s (s.mach.completes d v)
      ∧ ∀ j < 64, v.getLsbD j = (s.mach.val a).getLsbD (min j (widBits wd - 1)))
    ∧ (∀ pos len1 : BitVec 6, s.mach.ready (some d) [a] [] = true → ∃ v, Does (.bfx d a pos len1) s (s.mach.completes d v)
      ∧ ∀ j < 64, v.getLsbD j = (decide (j ≤ len1.toNat) && (s.mach.val a).getLsbD (pos.toNat + j)))
    ∧ (∀ pos len1 : BitVec 6, pos.toNat + len1.toNat < 64 → s.mach.ready (some d) [a, b] [] = true →
      ∃ v, Does (.bfi d a b pos len1) s (s.mach.completes d v)
      ∧ ∀ j < 64, v.getLsbD j = if pos.toNat ≤ j ∧ j ≤ pos.toNat + len1.toNat then (s.mach.val b).getLsbD (j - pos.toNat)
          else (s.mach.val a).getLsbD j)

/-- `mv` carries the poison bit with the value (R279, R278), and `nop` only falls through. -/
def Sys2Proof.Claims.MoveAndNop : Prop :=
  (∀ (s : State) (d : Reg) (a : Src), s.mach.ready (some d) [] [a] = true →
    Does (.mv d a) s ((s.mach.wxp d (s.mach.val a) (s.mach.x a.r).pois).retire))
  ∧ ∀ s : State, s.mach.ready none [] [] = true → Does .nop s s.mach.retire

/-- The bit and move instructions (R279): the bit counts and fields, `mv` and `nop`. -/
def Obligations.BitsAndMoves : Prop := Claims.BitResults ∧ Claims.MoveAndNop

end

namespace Sys2Proof.Claims
open Sys2Proof Sys2Proof.Machine

/-- The result and the flags of a scalar floating-point instruction by R280, R282 and R283: its destination, its sources, and the value. -/
def floatValue : Instr → Option (Reg × List Src × (Mach → Word × Fl))
  | .fadd d a b t rm => some (d, [a, b], fun m => fres (fAdd t (rmOf rm m.frm) (m.fsrc t a) (m.fsrc t b)))
  | .fsub d a b t rm => some (d, [a, b], fun m => fres (fSub t (rmOf rm m.frm) (m.fsrc t a) (m.fsrc t b)))
  | .fmul d a b t rm => some (d, [a, b], fun m => fres (fMul t (rmOf rm m.frm) (m.fsrc t a) (m.fsrc t b)))
  | .fma d a b c t rm => some (d, [a, b, c], fun m => fres (fFma t (rmOf rm m.frm) false false (m.fsrc t a) (m.fsrc t b) (m.fsrc t c)))
  | .fdiv d a b t rm => some (d, [a, b], fun m => fres (fDiv t (rmOf rm m.frm) (m.fsrc t a) (m.fsrc t b)))
  | .fsqrt d a t rm => some (d, [a], fun m => fres (fSqrt t (rmOf rm m.frm) (m.fsrc t a)))
  | .fmin d a b t => some (d, [a, b], fun m => fres (fMinMax t false (m.fsrc t a) (m.fsrc t b)))
  | .fmax d a b t => some (d, [a, b], fun m => fres (fMinMax t true (m.fsrc t a) (m.fsrc t b)))
  | .fcmp d a b t c => some (d, [a, b], fun m =>
      (if (fCmp t c (m.fsrc t a) (m.fsrc t b)).1 then 1 else 0, (fCmp t c (m.fsrc t a) (m.fsrc t b)).2))
  | .fcvt d a t st rm => some (d, [a], fun m =>
      let r := convert t st (rmOf rm m.frm) (m.fsrc st a)
      (if t.isSigned then BitVec.ofInt 64 (sgn (tbits t) r.1) else BitVec.ofNat 64 r.1, r.2))
  | _ => none

/-- The exponent and fraction widths of a float type of scalar arithmetic (R277). -/
def widths : ETy → Nat × Nat
  | .f16 => (5, 10)
  | .bf16 => (8, 7)
  | .f32 => (8, 23)
  | _ => (11, 52)

/-- The class word of a pattern by the table of R284. -/
def classWord (t : ETy) (p : Nat) : Nat :=
  let (eb, fb) := widths t
  let e := p / 2 ^ fb % 2 ^ eb
  let f := p % 2 ^ fb
  (if e = 0 then (if f = 0 then 0x1 else 0x2) else if e < 2 ^ eb - 1 then 0x4 else if f = 0 then 0x8 else if f < 2 ^ (fb - 1) then 0x10 else 0x20)
    + 0x100 * (p / 2 ^ (eb + fb) % 2)

/-- The target of a relative branch (R285): whole lines from the line of the PC, and a slot. -/
def relTarget (pc : Word) (lines : Int) (slot : BitVec 5) : Word := pc / 64 * 64 + BitVec.ofInt 64 (64 * lines) + BitVec.ofNat 64 (2 * slot.toNat)

/-- A branch condition (R248). -/
def holds (c : Cond) (x y : Word) : Prop :=
  match c with
  | .eq => x = y
  | .ne => x ≠ y
  | .lt => x.toInt < y.toInt
  | .ge => y.toInt ≤ x.toInt
  | .ltn => x.toNat < y.toNat
  | .gen => y.toNat ≤ x.toNat

/-- A taken branch to a legal target after its other effects `k`; to an illegal one, cause 0x02 with the target in tval and none of them; while
the line of the target has to be waited for, the branch stays. -/
def Branches (i : Instr) (s : State) (t : Word) (k : Mach → Mach) : Prop :=
  ((s.mach.legal t).1 = some true → Goes i s ((k (s.mach.legal t).2).jump t))
  ∧ ((s.mach.legal t).1 = some false → Goes i s ((s.mach.legal t).2.trapV 0x02 t))
  ∧ ((s.mach.legal t).1 = none → Goes i s (s.mach.legal t).2.stay)

/-- The pseudocode of R287 for a count, once the end is legal and the lines of the body give `b` instructions; `m` is the machine after
those lines were read. -/
def Loops (i : Instr) (s : State) (count : Nat) (lines : BitVec 7) (slot : BitVec 5) : Prop :=
  let st := s.mach.me.next
  let e := relTarget s.mach.me.pc lines.toNat slot
  ((s.mach.legal e).1 = some false → Goes i s ((s.mach.legal e).2.trapV 0x02 e))
  ∧ ((s.mach.legal e).1 = none → Goes i s (s.mach.legal e).2.stay)
  ∧ ∀ (b : Nat) (m : Mach), (s.mach.legal e).1 = some true → (s.mach.legal e).2.bodyCount st e 130 (lineBase st) 0 = (.ok b, m) →
    let depth := m.me.ls.length
    (b = 0 ∨ 64 < b → Goes i s (m.trapV 0x13 (loopTval depth b)))
    ∧ (1 ≤ b → b ≤ 64 → 2 ^ 62 ≤ count → Goes i s (m.trapV 0x12 (loopTval depth b)))
    ∧ (1 ≤ b → b ≤ 64 → count = 0 → Goes i s (m.goto e))
    ∧ (1 ≤ b → b ≤ 64 → 0 < count → count < 2 ^ 62 → 6 ≤ depth → Goes i s (m.trapV 0x12 (loopTval 6 b)))
    ∧ (1 ≤ b → b ≤ 64 → 0 < count → count < 2 ^ 62 → depth < 6 →
        Goes i s ((m.modMe fun q => { q with ls := ⟨st, e, BitVec.ofNat 64 count, 0, q.ctx⟩ :: q.ls }).goto st))

/-- The rule of R288 on the entries of one context, the innermost first: the entries left and the PC. -/
def loopRule (q : Word) : List LoopEnt → List LoopEnt × Word
  | [] => ([], q)
  | top :: r =>
    if q = top.fin then
      if top.index + 1 < top.count then ({ top with index := top.index + 1 } :: r, top.start) else loopRule q r
    else if q < top.start ∨ top.fin < q then loopRule q r
    else (top :: r, q)

end Sys2Proof.Claims

section
open Sys2Proof Sys2Proof.Machine Sys2Proof.Claims

/-- Scalar floating-point instructions OR their flags into fflags and write their result; a flag that fenable enables traps with 0x0e and
leaves the destination as it was (R280, R281, R253). -/
def Sys2Proof.Claims.FloatArithmetic : Prop :=
  ∀ (i : Instr) (d : Reg) (ss : List Src) (f : Mach → Word × Fl), floatValue i = some (d, ss, f) →
    ∀ s : State, s.mach.ready (some d) ss [] = true →
      ((f s.mach).2 &&& s.mach.fenable = 0 → Does i s ((s.mach.orFlags (f s.mach).2).completes d (f s.mach).1))
      ∧ ((f s.mach).2 &&& s.mach.fenable ≠ 0 →
          Goes i s ((s.mach.orFlags (f s.mach).2).trapV 0x0e (((f s.mach).2 &&& s.mach.fenable).setWidth 64)))

/-- `fclass` writes the class word of R284 and raises no flag. -/
def Sys2Proof.Claims.ClassWord : Prop :=
  ∀ (s : State) (d : Reg) (a : Src) (t : ETy), t.isF = true → s.mach.ready (some d) [a] [] = true →
    Does (.fclass d a t) s ((s.mach.orFlags 0).completes d (BitVec.ofNat 64 (classWord t ((s.mach.val a).toNat % 2 ^ (8 * t.size)))))

/-- The scalar floating-point instructions (R280 to R284). -/
def Obligations.FloatResults : Prop := Claims.FloatArithmetic ∧ Claims.ClassWord

/-- Branches and jumps (R285): the condition, the target, the link, and an illegal target. -/
def Obligations.BranchResults : Prop :=
  ∀ s : State,
    (∀ c x y (lines : BitVec 15) slot, s.mach.ready none [x, y] [] = true →
      (¬ holds c (s.mach.val x) (s.mach.val y) → Does (.b c x y lines slot) s s.mach.retire)
      ∧ (holds c (s.mach.val x) (s.mach.val y) → Branches (.b c x y lines slot) s (relTarget s.mach.me.pc lines.toInt slot) id))
    ∧ (∀ c x (imm : BitVec 16) (lines : BitVec 21) slot, s.mach.ready none [x] [] = true →
      (¬ holds c (s.mach.val x) (imm.signExtend 64) → Does (.bi c x imm lines slot) s s.mach.retire)
      ∧ (holds c (s.mach.val x) (imm.signExtend 64) → Branches (.bi c x imm lines slot) s (relTarget s.mach.me.pc lines.toInt slot) id))
    ∧ (∀ (lines : BitVec 27) slot, s.mach.ready none [] [] = true → Branches (.j lines slot) s (relTarget s.mach.me.pc lines.toInt slot) id)
    ∧ (∀ d (lines : BitVec 27) slot, s.mach.ready (some d) [] [] = true →
      Branches (.jal d lines slot) s (relTarget s.mach.me.pc lines.toInt slot) fun m => m.wx d m.me.next)
    ∧ (∀ a, s.mach.ready none [a] [] = true →
      Branches (.jr a) s (s.mach.val a) fun m => if a.r = 31 && m.me.inU then m.modMe (·.leaveU) else m)
    ∧ ∀ d a, s.mach.ready (some d) [a] [] = true → Branches (.jalr d a) s (s.mach.val a) fun m => m.wx d m.me.next

/-- The hardware loops (R287, R289): `loop`, `loopi`, `lbrk`, `lix`. -/
def Obligations.LoopResults : Prop :=
  ∀ s : State,
    (∀ a lines slot, s.mach.ready none [a] [] = true → Loops (.loop a lines slot) s (s.mach.val a).toNat lines slot)
    ∧ (∀ (n : BitVec 20) lines slot, s.mach.ready none [] [] = true → Loops (.loopi n lines slot) s n.toNat lines slot)
    ∧ (∀ e, s.mach.ready none [] [] = true → s.mach.me.ls.find? (·.ctx == s.mach.me.ctx) = some e →
        Does .lbrk s (((s.mach.modMe fun q => { q with ls := dropInner q.ctx q.ls }).goto e.fin).modMe fun q => { q with iter := true }))
    ∧ (s.mach.ready none [] [] = true → s.mach.me.ls.find? (·.ctx == s.mach.me.ctx) = none → Goes .lbrk s (s.mach.trapV 0x12 0))
    ∧ (∀ d (k : BitVec 3) e, s.mach.ready (some d) [] [] = true → (s.mach.me.ls.filter (·.ctx == s.mach.me.ctx))[k.toNat]? = some e →
        Does (.lix d k) s (s.mach.completes d e.index))
    ∧ ∀ d (k : BitVec 3), s.mach.ready (some d) [] [] = true → (s.mach.me.ls.filter (·.ctx == s.mach.me.ctx)).length ≤ k.toNat →
        Goes (.lix d k) s (s.mach.trapV 0x12 (k.setWidth 64))

/-- The rule of R288: completing an instruction acts on the entries of the current context as R288 says, keeps the entries of the other
contexts as they are, and ends the sequencer's wait and its due trap; a taken branch goes by the same rule, and a trap, an interrupt and `eret` do not. -/
def Obligations.LoopRule : Prop :=
  ∀ (m : Mach) (q : Word),
    let a := (m.goto q).me
    a.ls.filter (·.ctx == m.me.ctx) = (loopRule q (m.me.ls.filter (·.ctx == m.me.ctx))).1
    ∧ a.pc = (loopRule q (m.me.ls.filter (·.ctx == m.me.ctx))).2
    ∧ a.ls.filter (·.ctx != m.me.ctx) = m.me.ls.filter (·.ctx != m.me.ctx)
    ∧ a.waiting = false ∧ a.due = none ∧ a.x = m.me.x ∧ a.level = m.me.level ∧ (m.goto q).log = m.log
    ∧ (∀ n, m.retire = m.goto m.me.next ∧ (m.jump n).me.pc = (m.goto n).me.pc ∧ (m.jump n).me.ls = (m.goto n).me.ls)
    ∧ (∀ t, (m.trap t).me.ls = m.me.ls) ∧ (∀ src l, (m.interrupt src l).me.ls = m.me.ls) ∧ m.eret.me.ls = m.me.ls

end

namespace Sys2Proof.Claims
open Sys2Proof Sys2Proof.Machine

/-- No store of the current level waits for its probe or has failed, so that a drain point goes on at once (R55). -/
def noPending (m : Mach) : Bool := (m.att m.myAcc.grp).all fun e => e.lvl != m.me.level
/-- An older instruction of the sequencer holds a release back no longer (R188, R189). -/
def settledBefore (m : Mach) : Bool := !m.stripOpen && m.queueDone && m.loadsDone
/-- No older access of the sequencer holds a store or an atomic back (R188, R310, R330). -/
def storeFree (m : Mach) (va : Word) : Bool := !m.behindRead va && !m.behindAcq && !m.behindCommit
/-- The store of an `stl`: what it sends beyond the package is complete with its acknowledgement (R330). `m` is the machine before it. -/
def relMarked (m t : Mach) : Mach :=
  t.withDev fun d => { d with ext := d.ext.take m.dev.ext.length ++ (d.ext.drop m.dev.ext.length).map fun e => { e with rel := some d.cur } }
/-- A read of `w` bytes has its value now: `m` has passed the rights check with `r`; the value, its poison and the machine after it. One that its
owner on another die answers needs that die's clock at or past the reader's, and an acquire of device scope or wider (`wide`) its own die's at
or past the owner's (R199). -/
def readsNow (m : Mach) (va : Word) (r : Rights) (w : Nat) (wide : Bool) : Option ((Nat × Bool) × Mach) :=
  let a := m.myAcc
  let v := a.addr va
  if m.heldByOther a v || (m.readGone a v).isSome then none
  else
    let (o, m) := m.outside a r v
    if o.isSome then none
    else
      match m.remoteDie a v with
      | (none, m) => some (m.readBytes a r v w false)
      | (some (d, mpa), m) =>
        let m := m.closeFor a.die mpa
        if m.remoteOk a.die d && (!wide || m.replyOk a.die d) then some (m.readBytes a r v w false) else none
/-- The same read waits at its owner: the owner's die and the machine in which the batch that holds a write to its line has closed (R199). -/
def readsLater (m : Mach) (va : Word) (r : Rights) (wide : Bool) : Option (Nat × Mach) :=
  let a := m.myAcc
  let v := a.addr va
  if m.heldByOther a v || (m.readGone a v).isSome then none
  else
    let (o, m) := m.outside a r v
    if o.isSome then none
    else
      match m.remoteDie a v with
      | (none, _) => none
      | (some (d, mpa), m) =>
        let m := m.closeFor a.die mpa
        if m.remoteOk a.die d && (!wide || m.replyOk a.die d) then none else some (d, m)
/-- A remote read joins those that wait, and its destination is empty (R135, R199). -/
def remoteSent (m : Mach) (o : Nat) (r : Rights) (d : Reg) (va : Word) (sz : Nat) (n : Bool) (acq : Option Scope) : Mach :=
  (m.empty d).withDev fun x => { x with remote := x.remote ++
    [{ die := BitVec.ofNat 2 o, clock := m.vcList m.myAcc.die, who := x.cur, d := d, sz := sz, zx := n, pid := m.myAcc.pid, asn := m.myAcc.asn
       va := va, tick := m.tickOf x.cur, acq := acq, home := r.home }] }

end Sys2Proof.Claims

section
open Sys2Proof Sys2Proof.Machine Sys2Proof.Claims

/-- `ld` and `lda` (R329, R330, R135): an aligned address whose page may be read, and a value that caches or the memory of the own die
hold, or that of another die whose clock is far enough: the extended value goes on its way to the destination, which is empty until it
arrives; a read that its owner cannot answer yet waits there. An acquire comes first in `lda`. -/
def Obligations.LoadResults : Prop :=
  ∀ (s : State) (d : Reg) (a : Src) (sz : BitVec 2) (n : Bool) (off : BitVec 19) (r : Rights) (m1 m2 : Mach) (x : Nat) (p : Bool),
    let va := s.mach.val a + off.signExtend 64
    let w := 2 ^ sz.toNat
    s.mach.ready (some d) [a] [] = true → va.toNat % w = 0 → s.mach.behindAcq = false → s.mach.check s.mach.myAcc va .read = (.ok r, m1) →
      (readsNow m1 va r w false = some ((x, p), m2) → Goes (.ld d a sz n off) s ((m2.send d (extLd w n x) p).retire))
      ∧ (∀ o, readsLater m1 va r false = some (o, m2) → Goes (.ld d a sz n off) s (remoteSent m2 o r d va w n none).retire)
      ∧ ∀ sc, s.mach.stripOpen = false → let m3 := m1.acquireData s.mach.myAcc sc
          (readsNow m3 va r w (decide (4 ≤ scopeRank sc)) = some ((x, p), m2) → Goes (.lda d a sz n sc off) s ((m2.send d (extLd w n x) p).retire))
          ∧ ∀ o, readsLater m3 va r (decide (4 ≤ scopeRank sc)) = some (o, m2) →
              Goes (.lda d a sz n sc off) s (remoteSent m2 o r d va w n (some sc)).retire

/-- A misaligned scalar access traps with cause 0x07 and its address in tval, and an access that its page forbids takes the precise fault
of the check (R329, R332, R51): `ld`, `lda`, `st`, `stl`, `amo`. -/
def Obligations.ScalarAccessTraps : Prop :=
  ∀ (s : State) (d : Reg) (v a b c : Src) (sz : BitVec 2) (n dbl : Bool) (off : BitVec 19) (sc : Scope) (op : AmoOp),
    let va := s.mach.val a + off.signExtend 64
    let w := 2 ^ sz.toNat
    (s.mach.ready (some d) [a] [] = true → va.toNat % w ≠ 0 → Goes (.ld d a sz n off) s (s.mach.trapV 0x07 va))
    ∧ (s.mach.ready (some d) [a] [] = true → s.mach.stripOpen = false → va.toNat % w ≠ 0 → Goes (.lda d a sz n sc off) s (s.mach.trapV 0x07 va))
    ∧ (s.mach.ready none [a] [v] = true → va.toNat % w ≠ 0 → Goes (.st v a sz off) s (s.mach.trapV 0x07 va))
    ∧ (s.mach.ready none [a] [v] = true → s.mach.stripOpen = false → va.toNat % w ≠ 0 → Goes (.stl v a sz sc off) s (s.mach.trapV 0x07 va))
    ∧ (s.mach.ready (some d) (if op == .cas then [a, b, c] else [a, b]) [] = true → (s.mach.val a).toNat % (if dbl then 8 else 4) ≠ 0 →
        Goes (.amo d a b c op dbl) s (s.mach.trapV 0x07 (s.mach.val a)))
    ∧ (∀ cause reason m1, s.mach.ready (some d) [a] [] = true → va.toNat % w = 0 → s.mach.behindAcq = false →
        s.mach.check s.mach.myAcc va .read = (.fault cause reason, m1) → Goes (.ld d a sz n off) s (m1.accFault va cause reason)
          ∧ (s.mach.stripOpen = false → Goes (.lda d a sz n sc off) s (m1.accFault va cause reason)))
    ∧ (∀ cause reason e m1, let x := s.mach.x v.r
        s.mach.ready none [a] [v] = true → va.toNat % w = 0 →
        s.mach.store s.mach.myAcc s.mach.me.pc w [⟨0, va, x.val, x.pois⟩] = .fault cause reason e m1 →
        (storeFree s.mach va = true → Goes (.st v a sz off) s (m1.accFault va cause reason))
        ∧ (settledBefore s.mach = true → s.mach.ownUpdsDone = true → Goes (.stl v a sz .seq off) s (m1.accFault va cause reason)))
    ∧ ∀ cause reason m1, let va := s.mach.val a
        s.mach.ready (some d) (if op == .cas then [a, b, c] else [a, b]) [] = true → va.toNat % (if dbl then 8 else 4) = 0 →
        storeFree s.mach va = true →
        s.mach.checkWrite s.mach.myAcc va = (.fault cause reason, m1) → Goes (.amo d a b c op dbl) s (m1.accFault va cause reason)

/-- `st` (R53, R329): the store path takes the bytes of the register with its poison, and the instruction falls through, once no older access of
the sequencer holds it back. `stl` (R330): at sequencer scope the same; at wider scopes the data that the release covers moves first, then the store is made at its coherence point.
That the release comes before the store's own probe is DEDUCED, the model's order (log 40). -/
def Sys2Proof.Claims.ScalarStores : Prop :=
  ∀ (s : State) (v a : Src) (sz : BitVec 2) (off : BitVec 19),
    let va := s.mach.val a + off.signExtend 64
    let w := 2 ^ sz.toNat
    let x := s.mach.x v.r
    s.mach.ready none [a] [v] = true → va.toNat % w = 0 →
      (∀ m1, storeFree s.mach va = true → s.mach.store s.mach.myAcc s.mach.me.pc w [⟨0, va, x.val, x.pois⟩] = .done m1 →
          Goes (.st v a sz off) s m1.retire)
      ∧ (∀ m1, settledBefore s.mach = true → s.mach.ownUpdsDone = true →
          s.mach.store s.mach.myAcc s.mach.me.pc w [⟨0, va, x.val, x.pois⟩] = .done m1 →
          Goes (.stl v a sz .seq off) s (relMarked s.mach m1).retire)
      ∧ ∀ sc, sc ≠ .seq → settledBefore s.mach = true → s.mach.ownUpdsDone = true → noPending s.mach = true →
          (s.mach.releaseData s.mach.myAcc (s.mach.scopeOf sc)).releaseDone (s.mach.scopeOf sc) false = true →
          Goes (.stl v a sz sc off) s ((s.mach.releaseData s.mach.myAcc (s.mach.scopeOf sc)).releaseStore (s.mach.scopeOf sc) va w
            ((s.mach.releaseData s.mach.myAcc (s.mach.scopeOf sc)).x v.r))

/-- The store of a release on a confirmed page (R192, R330): it is made, at cluster scope or wider the line goes below, a store to another
die goes with its batch, and at recovery scope the Frost lines go too; then the instruction falls through. That below cluster scope the store only
enters the caches, and that a batch is closed for it at cluster scope or wider alone, is DEDUCED, the model's reading of R199 (log 41). -/
def Sys2Proof.Claims.ReleaseStore : Prop :=
  ∀ (m m0 : Mach) (sc : Scope) (va : Word) (w : Nat) (x : XReg) (r : Rights), let m1 := relMarked m m0
    (m.pageSt m.myAcc va).1.st = .conf r → m.store m.myAcc m.me.pc w [⟨0, va, x.val, x.pois⟩] = .done m0 →
      (scopeRank sc < 2 → m.releaseStore sc va w x = m1.retire)
      ∧ (2 ≤ scopeRank sc → sc ≠ .rc → ∀ f m2,
          (m1.l1Flush m.myAcc.core false).frameOf m.myAcc.die m.myAcc.pid (asnTag m.myAcc.asn (m.myAcc.addr va)) (m.myAcc.addr va) = (f, m2) →
          m.releaseStore sc va w x =
            (if (match f with | some (mpa, _) => mpa < 2 ^ 39 && dieOfMpa mpa != m.myAcc.die | none => false) then
              (m2.remoteFlush m.myAcc.die).closeBatch m.myAcc.die else m2).retire)

/-- `st` and `stl` (R53, R329, R330), and the store that a release makes (R192). -/
def Obligations.StoreResults : Prop := Claims.ScalarStores ∧ Claims.ReleaseStore

/-- Fences, `qfence` and `pf` (R331, R334, R335, R336): what a release covers has moved, what an acquire needs is forgotten, a commit is
made; a marker joins the queues; a prefetch changes no register. -/
def Obligations.FenceResults : Prop :=
  ∀ s : State, s.mach.ready none [] [] = true →
    (∀ sc, settledBefore s.mach = true → scopeRank sc = 0 ∨ noPending s.mach = true →
      (4 ≤ scopeRank (s.mach.scopeOf sc) → s.mach.caughtUp s.mach.myAcc.die = true) →
      Does (.fence sc .acq) s (s.mach.acquireData s.mach.myAcc (s.mach.scopeOf sc)).retire)
    ∧ (∀ sc, settledBefore s.mach = true → scopeRank sc = 0 ∨ noPending s.mach = true →
      (s.mach.releaseData s.mach.myAcc (s.mach.scopeOf sc)).releaseDone (s.mach.scopeOf sc) false = true →
      Goes (.fence sc .rel) s (s.mach.releaseData s.mach.myAcc (s.mach.scopeOf sc)).retire)
    ∧ (∀ sc, settledBefore s.mach = true → scopeRank sc = 0 ∨ noPending s.mach = true →
      (s.mach.releaseData s.mach.myAcc (s.mach.scopeOf sc)).releaseDone (s.mach.scopeOf sc) false = true →
      (4 ≤ scopeRank (s.mach.scopeOf sc) → (s.mach.releaseData s.mach.myAcc (s.mach.scopeOf sc)).caughtUp s.mach.myAcc.die = true) →
      Goes (.fence sc .full) s ((s.mach.releaseData s.mach.myAcc (s.mach.scopeOf sc)).acquireData s.mach.myAcc (s.mach.scopeOf sc)).retire)
    ∧ (let m1 := s.mach.releaseData s.mach.myAcc .rc
       let home := (m1.pctx s.mach.myAcc.die s.mach.myAcc.tagPid).home.toNat
       s.mach.hasCap 0x15 = true → s.mach.mayCommit = true → settledBefore s.mach = true → noPending s.mach = true →
       m1.releaseDone .rc true = true → (m1.die home).hasFrost = true →
       Goes .fenceCommit s (m1.commit s.mach.myAcc.tagPid home).retire)
    ∧ (∀ mask, Does (.qfence mask) s
        ((s.mach.tick.2.modMySide fun x => { x with marks := x.marks ++ [⟨s.mach.tick.1, mask⟩] }).retire))
    ∧ ∀ a wr (off : BitVec 19), s.mach.ready none [a] [] = true →
        Goes (.pf a wr off) s (s.mach.prefetch (s.mach.val a + off.signExtend 64) wr).retire

/-- `amo` (R332, R333): one step at the coherence point. The old value goes on its way to the destination; the new one is written but for a
`cas` whose comparison fails; a poisoned location is not written and its poison comes back, and a poisoned value when no path leads to it (R18). That
one whose mapping has gone answers so too is DEDUCED, the model's choice (log 74), and the bytes of such a value are free (log 1). -/
def Sys2Proof.Claims.AtomicStep : Prop :=
  ∀ (s : State) (d : Reg) (a b c : Src) (op : AmoOp) (dbl : Bool) (r : Rights) (m1 m2 : Mach) (mpa : Nat) (frost : Bool),
    let va := s.mach.val a
    let w := if dbl then 8 else 4
    s.mach.ready (some d) (if op == .cas then [a, b, c] else [a, b]) [] = true → va.toNat % w = 0 →
    storeFree s.mach va = true → s.mach.checkWrite s.mach.myAcc va = (.ok r, m1) → r.rd = true →
    ((∀ gone k, m1.home s.mach.myAcc va gone k = gone m2) →
      Goes (.amo d a b c op dbl) s (((m2.poisonVal w).2.send d (amoExt op (8 * w) (m2.poisonVal w).1) true).retire))
    ∧ ((∀ gone k, m1.home s.mach.myAcc va gone k = k mpa frost m2) →
    ∀ (data : Sector) (p : Bool) (m3 : Mach), m2.chanRead mpa = ((data, p), m3) →
      let y := (m3.val b).toNat % 256 ^ w
      let z := (m3.val c).toNat % 256 ^ w
      let old := data.toNat / 2 ^ (8 * (mpa % 128)) % 256 ^ w
      (p = true → Goes (.amo d a b c op dbl) s ((m3.send d (amoExt op (8 * w) old) true).retire))
      ∧ (p = false → op = .cas → old ≠ z → Goes (.amo d a b c op dbl) s ((m3.send d (amoExt op (8 * w) old) false).retire))
      ∧ ∀ m4, p = false → (op = .cas → old = z) →
          m3.chanWrite mpa (BitVec.ofNat 1024 (amoNew op (8 * w) old y z * 2 ^ (8 * (mpa % 128)))) (byteMask (mpa % 128) w) false frost
            s.mach.myAcc.tagPid false = some m4 →
          Goes (.amo d a b c op dbl) s ((m4.send d (amoExt op (8 * w) old) false).retire))

/-- The values of `amo` (R332) at 64 and at 32 bits: by integers, and for `fadd` the sum rounded to nearest even, a NaN the canonical one. -/
def Sys2Proof.Claims.AtomicValues : Prop :=
  ∀ (bits old b c : Nat), bits = 32 ∨ bits = 64 → old < 2 ^ bits → b < 2 ^ bits → c < 2 ^ bits →
    let si := fun (n : Nat) => (if n < 2 ^ (bits - 1) then (n : Int) else (n : Int) - 2 ^ bits)
    amoNew .add bits old b c = (old + b) % 2 ^ bits ∧ amoNew .swap bits old b c = b
    ∧ (∀ j, (amoNew .and bits old b c).testBit j = (old.testBit j && b.testBit j))
    ∧ (∀ j, (amoNew .or bits old b c).testBit j = (old.testBit j || b.testBit j))
    ∧ (∀ j, (amoNew .xor bits old b c).testBit j = (old.testBit j != b.testBit j))
    ∧ si (amoNew .min bits old b c) = min (si old) (si b) ∧ si (amoNew .max bits old b c) = max (si old) (si b)
    ∧ amoNew .minn bits old b c = min old b ∧ amoNew .maxn bits old b c = max old b
    ∧ amoNew .cas bits old b c = (if old = c then b else old)
    ∧ (amoExt .add bits old).toInt = si old ∧ (amoExt .minn bits old).toNat = old
    ∧ amoNew .fadd bits old b c = (fAdd (if bits = 32 then .f32 else .f64) .rne old b).1 ∧ (amoExt .fadd bits old).toNat = old
    ∧ (let f := if bits = 32 then 23 else 52
       let nan := fun (n : Nat) => 2 ^ (bits - 1 - f) - 1 = n / 2 ^ f % 2 ^ (bits - 1 - f) ∧ n % 2 ^ f ≠ 0
       nan old ∨ nan b → amoNew .fadd bits old b c = if bits = 32 then 0x7fc00000 else 0x7ff8000000000000)

/-- `amo` (R332, R333): its step at the coherence point and its values. -/
def Obligations.AtomicResults : Prop := Claims.AtomicStep ∧ Claims.AtomicValues

end

namespace Sys2Proof.Claims
open Sys2Proof Sys2Proof.Machine

/-- A voted counter can be used now (R230): no copy of it has failed for this sequencer, and two copies agree on the value. -/
def votedNow (m : Mach) (cl n : Nat) : Option (Nat × Mach) :=
  let q := m.dev.cur
  if m.owed q then none
  else
    let waits := (m.voted cl n).waiters.contains q
    let (v, m) := m.readVoted cl n
    let x := m.voted cl n
    if (x.traps.find? (·.1 == q)).isSome || (!waits && x.next.isSome) then none else v.map fun c => (c, m)

/-- A release at cluster scope goes through (R194): older work is done, no store waits for its probe, and the data has moved. -/
def releasedCl (m : Mach) : Option Mach :=
  let m1 := m.releaseData m.myAcc .cl
  if m.queueDone && m.loadsDone && noPending m && m1.releaseDone .cl false then some m1 else none

/-- The unit of the side is a member of a gang whose barrier `n` the source names (R292). -/
def ownBar (m : Mach) (a : Src) (n : Nat) : Bool :=
  m.onSide && m.ready none [a] [] && !m.stripOpen
    && (match m.mySide.unit with | some u => u.gang && m.val a == w64 u.bar && u.bar == n | none => false)

/-- The source names semaphore `n` of the unit's partition (R294). -/
def ownSem (m : Mach) (a : Src) (n : Nat) : Bool :=
  m.onSide && m.ready none [a] [] && !m.stripOpen && (m.val a).toNat == n && n < 64 && m.mySide.pid.isSome
    && ((m.cluster (clusterOf m.myNo)).sems.get {} n).pid == m.mySide.pid

/-- What a wait on a barrier leaves once the phase has changed (R292): an acquire at cluster scope. -/
def barPassed (m : Mach) (cl n : Nat) : Mach :=
  let m := (m.unwaitVoted cl n).modMySide fun s => { s with arrived := false }
  ((m.acquireData m.myAcc .cl).modMe fun q => { q with barArrived := false }).retire

end Sys2Proof.Claims

section
open Sys2Proof Sys2Proof.Machine Sys2Proof.Claims

/-- `fork` and `rdv` (R140, R141, R193): once P's older accesses are done the sequencers named start with P's registers; P goes on once M and S are idle; M and S become idle. -/
def Sys2Proof.Claims.Forks : Prop :=
  ∀ s : State,
    (∀ a b, s.mach.isRole .P = true → s.mach.ready none [a, b] [] = true → s.mach.stripOpen = false →
      (a.r = 0 ∨ s.mach.mySide.m.run = .idle) → (b.r = 0 ∨ s.mach.mySide.s.run = .idle) → s.mach.mySide.p.allFull = true →
      s.mach.queueDone = true → s.mach.loadsDone = true → s.mach.ownUpdsDone = true →
      Does (.fork a b) s ((s.mach.modMySide fun x =>
        { x with m := if a.r = 0 then x.m else x.m.forked x.p (s.mach.val a)
                 s := if b.r = 0 then x.s else x.s.forked x.p (s.mach.val b) }).retire))
    ∧ (s.mach.isRole .P = true → s.mach.ready none [] [] = true → s.mach.stripOpen = false → s.mach.mySide.m.run = .idle →
        s.mach.mySide.s.run = .idle → noPending s.mach = true → Does .rdv s s.mach.retire)
    ∧ (s.mach.isRole .M = true → s.mach.ready none [] [] = true → s.mach.owed s.dev.cur = false →
        Does .rdv s (((s.mach.drainArrivals s.dev.cur).retire).modMe fun q => { q with run := .idle, waiting := false }))
    ∧ (s.mach.isRole .S = true → s.mach.ready none [] [] = true → s.mach.mySide.tstop = none → s.mach.owed s.dev.cur = false →
        Does .rdv s (((s.mach.drainArrivals s.dev.cur).retire).modMe fun q => { q with run := .idle, waiting := false }))

/-- A sequencer that `fork` starts (R140): level U, at the address given, every register with its poison as P holds it, no loop entry. -/
def Sys2Proof.Claims.ForkedState : Prop :=
  ∀ (q p : Seq) (pc : Word), (q.forked p pc).run = .run ∧ (q.forked p pc).level = .U ∧ (q.forked p pc).pc = pc
    ∧ (∀ r, (q.forked p pc).reg r = p.reg r) ∧ (q.forked p pc).ls = [] ∧ (q.forked p pc).waiting = false ∧ (q.forked p pc).due = none

/-- `fork` and `rdv` (R140, R141), and the state of a sequencer that `fork` starts. -/
def Obligations.ForkRendezvous : Prop := Claims.Forks ∧ Claims.ForkedState

/-- `tkwait` and `tkwait.c` (R291, R172): word 0 of a token whose operations are over; the clearing form clears its counts and status 2 in
the same step; a faulted token traps and a pending one waits. -/
def Sys2Proof.Claims.TokenWaits : Prop :=
  ∀ (s : State) (d : Reg) (tk : BitVec 3),
    let t := s.mach.token (coreKey s.dev.cur) tk.toNat
    s.mach.onSide = true → s.mach.ready (some d) [] [] = true → s.mach.owns s.mach.myNo 7 = true → s.mach.stripOpen = false →
      (t.status ≠ 3 → t.pend = 0 → Does (.tkwait d tk) s (s.mach.completes d t.word0))
      ∧ (t.status ≠ 3 → t.pend = 0 → Does (.tkwaitClear d tk) s
          ((s.mach.modToken (coreKey s.dev.cur) tk.toNat fun t =>
            { t with oor := 0, pois := 0, done := 0, status := if t.status = 2 then 0 else t.status }).completes d t.word0))
      ∧ (t.status = 3 → Goes (.tkwait d tk) s (s.mach.trapToken tk.toNat) ∧ Goes (.tkwaitClear d tk) s (s.mach.trapToken tk.toNat))
      ∧ (t.status ≠ 3 → t.pend ≠ 0 → Does (.tkwait d tk) s s.mach.wait ∧ Does (.tkwaitClear d tk) s s.mach.wait)

/-- The gang barriers (R292, R293): an arrival releases at cluster scope and counts; a wait passes when the phase has changed and acquires;
the byte form clears its count word and binds the barrier to a token. -/
def Sys2Proof.Claims.BarrierInstructions : Prop :=
  ∀ (s : State) (a : Src) (n : Nat), ownBar s.mach a n = true →
    let cl := clusterOf s.mach.myNo
    (∀ m1 c m2, releasedCl s.mach = some m1 → votedNow m1 (clusterOf m1.myNo) n = some (c, m2) →
      Goes (.barArrive a) s ((m2.arriveWith m2.myNo n c).retire))
    ∧ (∀ c m1, votedNow s.mach cl n = some (c, m1) → (m1.mySide.arrived && (m1.bar cl n).phase == m1.mySide.phase) = false →
      Does (.barWait a) s (barPassed m1 cl n)
      ∧ (s.mach.me.barArrived = true → Does (.barArrivewait a) s (barPassed m1 cl n)))
    ∧ (∀ c m1, votedNow s.mach cl n = some (c, m1) → (m1.mySide.arrived && (m1.bar cl n).phase == m1.mySide.phase) = true →
      Does (.barWait a) s (m1.waitVoted cl n))
    ∧ (∀ m1 c m2, s.mach.me.barArrived = false → releasedCl s.mach = some m1 → votedNow m1 (clusterOf m1.myNo) n = some (c, m2) →
      Goes (.barArrivewait a) s (((m2.arriveWith m2.myNo n c).modMe fun q => { q with barArrived := true }).barWaitOn n))

/-- `bar.arrivebytes` (R293): legal operands in the side's own scratchpad. That the count word is the 4-byte word at the plain granule is the model's choice
(log 28). -/
def Sys2Proof.Claims.ByteBarrier : Prop :=
  ∀ (s : State) (a b : Src) (n : Nat), ownBar s.mach a n = true → s.mach.ready none [a, b] [] = true → s.mach.owns s.mach.myNo 7 = true →
    let v := s.mach.val b
    let side := s.mach.myNo
    let core := side / 2
    let addr := v.toNat % 2 ^ 21
    let tk := v.extractLsb' 29 3
    let t := v.toNat / 2 ^ 32
    let w := (s.mach.spOwn side).lin barGran (addr % 2 ^ 18)
    let m := s.mach.spWrite side core ((List.range 4).map fun i => (w + i, (0 : Byte), false))
    v.toNat / 2 ^ 21 % 2 ^ 8 = 0 → addr % 4 = 0 → addr / 2 ^ 18 = core % 8 → (s.mach.spOwn side).has (addr % 2 ^ 18) = true →
    ((s.mach.core core).sx.bars.any (·.tk == tk)) = false →
      (t = 0 → Does (.barArrivebytes a b) s (m.arriveFor side).retire)
      ∧ (t ≠ 0 → Does (.barArrivebytes a b) s
          ((m.modCore core fun c => { c with sx := { c.sx with bars := c.sx.bars ++ [⟨tk, addr % 2 ^ 18, t, (m.side side).tick⟩] } }).retire))

/-- An arrival at a barrier (R292): the last participant clears the count and moves the phase on, any other adds one to the count; the
side notes the phase at which it arrived; no other barrier of any cluster changes. That the counts are compared at an arrival is DEDUCED, the model's
choice (log 44). -/
def Sys2Proof.Claims.BarrierArrival : Prop :=
  ∀ (m : Mach) (side n a : Nat), n < 64 →
    let cl := clusterOf side
    let t := m.arriveWith side n a
    (a + 1 = (m.bar cl n).parts →
      (t.voted cl n).cnt = ⟨0, 0, 0⟩ ∧ (t.bar cl n).phase = ((m.bar cl n).phase + 1) % 2 ^ 32)
    ∧ (a + 1 ≠ (m.bar cl n).parts → (t.voted cl n).cnt = ⟨a + 1, a + 1, a + 1⟩ ∧ (t.bar cl n).phase = (m.bar cl n).phase)
    ∧ (t.side side).phase = (m.bar cl n).phase ∧ (t.side side).arrived = true ∧ (t.bar cl n).parts = (m.bar cl n).parts
    ∧ (∀ j, j ≠ n → t.bar cl j = m.bar cl j) ∧ (∀ c j, c ≠ cl → t.bar c j = m.bar c j) ∧ t.log = m.log

/-- The gang barriers (R292, R293): their instructions, and what an arrival does to the barrier. -/
def Obligations.BarrierResults : Prop := Claims.BarrierInstructions ∧ Claims.ByteBarrier ∧ Claims.BarrierArrival

/-- The semaphores of a cluster (R294). -/
def Sys2Proof.Claims.SemaphoreResults : Prop :=
  ∀ (s : State) (a : Src) (n : Nat), ownSem s.mach a n = true →
    let cl := clusterOf s.mach.myNo
    ∀ c m1, votedNow s.mach cl (64 + n) = some (c, m1) →
      (∀ m2, c ≠ 2 ^ 32 - 1 → releasedCl m1 = some m2 → Goes (.semUp a) s ((m2.setCount (clusterOf m2.myNo) (64 + n) (c + 1)).retire))
      ∧ (c = 2 ^ 32 - 1 → Goes (.semUp a) s (m1.trapHead 0x15))
      ∧ (c ≠ 0 → ((m1.voted cl (64 + n)).waiters = [] ∨ (m1.voted cl (64 + n)).waiters.head? = some m1.dev.cur) →
          Does (.semDown a) s
            (let m2 := (m1.unwaitVoted cl (64 + n)).setCount cl (64 + n) (c - 1)
             (m2.acquireData m2.myAcc .cl).retire))
      ∧ (c = 0 → Does (.semDown a) s (m1.waitVoted cl (64 + n)))

/-- The mailboxes (R139, R193): once the putter's own loads are performed a value with its poison goes into an empty mailbox, when no other putter
began to wait before; out of a full one it goes to the sequencer whose turn it is, and any other begins to wait with its destination empty. -/
def Sys2Proof.Claims.MailboxResults : Prop :=
  ∀ (s : State) (k : BitVec 3),
    let b : Mailbox := s.mach.mySide.mb.get {} k.toNat
    s.mach.stripOpen = false →
    (∀ a side r, s.dev.cur = .side side r → s.mach.ready none [] [a] = true → s.mach.loadsDone = true →
      let turn := b.full = false ∧ (b.putters = [] ∨ b.putters.head? = some r)
      (turn → Does (.mbput k a) s ((s.mach.modMySide fun x =>
        { x with mb := x.mb.set k.toNat { b with val := (s.mach.x a.r).val, full := true, pois := (s.mach.x a.r).pois
                                                 putters := b.putters.filter (· != r) } }).retire))
      ∧ (¬ turn → Does (.mbput k a) s ((s.mach.modMySide fun x =>
        { x with mb := x.mb.set k.toNat { b with putters := if b.putters.contains r then b.putters else b.putters ++ [r] } }).wait)))
    ∧ ∀ d side r, s.dev.cur = .side side r → let waits := b.getters.any (·.1 == r)
      s.mach.ready (if waits then none else some d) [] [] = true →
      let turn := b.full = true ∧ (b.getters = [] ∨ b.getters.head?.map (·.1) = some r)
      (turn → Does (.mbget d k) s (((s.mach.modMySide fun x =>
        { x with mb := x.mb.set k.toNat { b with full := false, pois := false, getters := b.getters.filter (·.1 != r) } }).send d b.val b.pois).retire))
      ∧ (¬ turn → Does (.mbget d k) s (((s.mach.modMySide fun x =>
        { x with mb := x.mb.set k.toNat { b with getters := if waits then b.getters else b.getters ++ [(r, d)] } }).empty d).wait))

/-- The semaphores of a cluster (R294) and the mailboxes of a side (R139). -/
def Obligations.SemaphoreMailbox : Prop := Claims.SemaphoreResults ∧ Claims.MailboxResults

/-- `spawn`, `spawn.inc`, `cont` and `cancel` (R114, R115, R119): the status goes to the destination. -/
def Sys2Proof.Claims.WorkInstructions : Prop :=
  ∀ (s : State) (d : Reg) (a b : Src),
    (∀ l m1, s.mach.ready (some d) [a, b] [] = true → s.mach.behindAcq = false → (s.mach.val a).toNat % 32 = 0 → 1 ≤ (s.mach.val b).toNat → (s.mach.val b).toNat ≤ 64 →
      s.mach.loadWords s.mach.myAcc (s.mach.val a) (4 * (s.mach.val b).toNat) = (.ok l, m1) →
      Goes (.spawn d a b) s ((m1.spawnRecs (packRecs l) false).2.completes d (BitVec.ofNat 64 (m1.spawnRecs (packRecs l) false).1))
      ∧ Goes (.spawnInc d a b) s ((m1.spawnRecs (packRecs l) true).2.completes d (BitVec.ofNat 64 (m1.spawnRecs (packRecs l) true).1)))
    ∧ (s.mach.ready (some d) [a, b] [] = true → (s.mach.val a).toNat % 32 = 0 → ((s.mach.val b).toNat = 0 ∨ 64 < (s.mach.val b).toNat) →
      Does (.spawn d a b) s (s.mach.completes d 6) ∧ Does (.spawnInc d a b) s (s.mach.completes d 6))
    ∧ (∀ r m1 mpa frost m2 st m3,
      let va := if a.r = 0 then (match s.mach.mySide.unit with | some u => u.join | none => 0) else s.mach.val a
      s.mach.ready (some d) [a] [] = true → va ≠ 0 → va.toNat % 64 = 0 → s.mach.behindRead va = false →
      s.mach.behindAcq = false → s.mach.checkWrite s.mach.myAcc va = (.ok r, m1) → r.rd = true →
      (∀ gone k, m1.home s.mach.myAcc va gone k = k mpa frost m2) → m2.contAt mpa frost = some (st, m3) →
      Goes (.cont d a) s (m3.completes d (BitVec.ofNat 64 st)))
    ∧ (∀ p, s.mach.ready (some d) [a] [] = true → s.mach.me.level ≠ .U → s.mach.pidOf s.dev.cur = some p →
      Goes (.cancel d a 0) s ((s.mach.cancelRec (dieOf s.dev.cur) p (s.mach.val a).toNat).2.completes d
        (BitVec.ofNat 64 (s.mach.cancelRec (dieOf s.dev.cur) p (s.mach.val a).toNat).1)))
    ∧ ∀ p (k : BitVec 3) u cs m1 r, k ≠ 0 → a.r = 0 → s.mach.ready (some d) [a] [] = true → s.mach.pidOf s.dev.cur = some p →
      s.mach.mySide.unit = some u → s.mach.chain (dieOf s.dev.cur) p u.launch = (some cs, m1) → cs[k.toNat - 1]? = some r →
      Goes (.cancel d a k) s ((m1.cancelRec (dieOf s.dev.cur) p r.ppa).2.completes d (BitVec.ofNat 64 (m1.cancelRec (dieOf s.dev.cur) p r.ppa).1))

/-- A push at the back of a class (R113): status 6 without an enabled class, 3 when fewer than 1,024 slots would stay free, both with nothing
pushed; else each record stands in the slot of its running count, and tail is behind the last. -/
def Sys2Proof.Claims.Pushes : Prop :=
  ∀ (m : Mach) (die : Nat) (p : BitVec 4) (v c : Nat) (rs : List (BitVec 256)),
    (∀ m1, m.qdesc die p v c = (none, m1) → m.pushBack die p v c rs = (6, m1))
    ∧ (∀ q m1, m.qdesc die p v c = (some q, m1) →
      (2 ^ q.k < q.len + rs.length + 1024 → m.pushBack die p v c rs = (3, m1))
      ∧ (q.len + rs.length + 1024 ≤ 2 ^ q.k →
          let m2 := m1.ringPut die p q q.tail rs
          m.pushBack die p v c rs = (0, (m2.recPut8 die p (q.ppa + 16) ((q.tail + rs.length) % 2 ^ 64)).noteFronts p v c)))
    ∧ ∀ (q : QDesc) i r l, m.ringPut die p q i (r :: l)
      = ((m.recPut die p (q.base + 32 * (i % 2 ^ q.k)) 32 r.toNat).getD m).ringPut die p q (i + 1) l

/-- What `spawn` pushes and answers (R114, R116, R117): malformed records or a launch that is none 6, another partition's virtual device 5, a
cancelled launch 1, a complete or miscounted one 2, records that are not the launch's gang 4; else the records are pushed at the back of the launch's
class, for `spawn.inc` behind the rise of the launch's pending count, which stands only with the push. The order of these checks is the model's
choice (log 46). -/
def Sys2Proof.Claims.SpawnRecords : Prop :=
  ∀ (m : Mach) (r0 : BitVec 256) (rest : List (BitVec 256)) (inc : Bool) (die : Nat) (p : BitVec 4), m.home0 = (die, some p) →
    let rs := r0 :: rest
    let n := rs.length
    let bad := fun r => recBad r || recLaunch r != recLaunch r0
    (rs.any bad = true → m.spawnRecs rs inc = (6, m))
    ∧ (rs.all (fun r => !bad r) = true →
      (∀ m1, m.chain die p (recLaunch r0) = (none, m1) → m.spawnRecs rs inc = (6, m1))
      ∧ ∀ l up m1, m.chain die p (recLaunch r0) = (some (l :: up), m1) →
        let gangs := if 2 ≤ l.gsize then n = l.gsize ∧ rs.all recGang = true ∧ m1.gangFits p l.vd l.gsize = true else rs.any recGang = false
        (l.bad = true → m.spawnRecs rs inc = (6, m1))
        ∧ (l.bad = false → (m1.vd l.vd).pid ≠ some p → m.spawnRecs rs inc = (5, m1))
        ∧ (l.bad = false → (m1.vd l.vd).pid = some p →
          (l.state = 2 → m.spawnRecs rs inc = (1, m1)) ∧ (l.state = 1 ∨ l.state = 3 → m.spawnRecs rs inc = (2, m1))
          ∧ (l.state = 0 → ¬ gangs → m.spawnRecs rs inc = (4, m1))
          ∧ (l.state = 0 → gangs →
            let m2 := if inc then m1.putCrec die p { l with val := setFld l.val 0 0 32 (l.pending + n) } else m1
            ∀ st m3, m2.pushBack die p l.vd l.cls rs = (st, m3) → m.spawnRecs rs inc = (st, if st = 0 then m3 else m1))))

/-- One atomic step at a join record (R115, R116): a malformed record is 6 and count 0 is 2, both with nothing changed; a count above 1 falls by one;
with 1 the continuation record behind the count is pushed and the count is 0, status 7; a continuation whose push has status 6 still takes the
count (log 42), and one that another status refuses leaves it. -/
def Sys2Proof.Claims.ContRecord : Prop :=
  ∀ (m : Mach) (die : Nat) (p : BitVec 4) (mpa : Nat) (frost : Bool) (data : Sector) (po : Bool) (m0 : Mach),
    m.home0 = (die, some p) → m.chanRead mpa = ((data, po), m0) →
    let word := fun lo n => data.toNat / 2 ^ (8 * (mpa % 128) + lo) % 2 ^ n
    let c := word 0 32
    let r := BitVec.ofNat 256 (data.toNat / 2 ^ (8 * (mpa % 128) + 256))
    let put := fun (x : Mach) => x.chanWrite mpa (BitVec.ofNat 1024 ((c - 1) * 2 ^ (8 * (mpa % 128)))) (byteMask (mpa % 128) 4) false frost p false
    let bad := po = true ∨ word 32 224 ≠ 0 ∨ recBad r = true
    (bad → m.contAt mpa frost = some (6, m0))
    ∧ (¬ bad →
      (c = 0 → m.contAt mpa frost = some (2, m0))
      ∧ (2 ≤ c → ∀ m1, put m0 = some m1 → m.contAt mpa frost = some (0, m1))
      ∧ (c = 1 → ∀ st m1, m0.pushNamed die p r = (st, m1) →
        (st = 0 → ∀ m2, put m1 = some m2 → m.contAt mpa frost = some (7, m2))
        ∧ (st = 6 → ∀ m2, put m0 = some m2 → m.contAt mpa frost = some (6, m2))
        ∧ (st ≠ 0 → st ≠ 6 → m.contAt mpa frost = some (st, m0))))
    ∧ ∀ x : Mach, (x.crec die p (recLaunch r) = none → (x.pushNamed die p r).1 = 6)
      ∧ ∀ l m1, x.crec die p (recLaunch r) = some (l, m1) →
        ((l.level ≠ 1 ∨ l.bad = true) → x.pushNamed die p r = (6, m1))
        ∧ (l.level = 1 → l.bad = false →
          ((m1.vd l.vd).pid ≠ some p → x.pushNamed die p r = (5, m1))
          ∧ ((m1.vd l.vd).pid = some p →
            ((l.state = 1 ∨ l.state = 3) → x.pushNamed die p r = (2, m1))
            ∧ (l.state = 0 ∨ l.state = 2 → (recGang r = true ∨ 2 ≤ l.gsize) → x.pushNamed die p r = (4, m1))
            ∧ (l.state = 0 ∨ l.state = 2 → recGang r = false → l.gsize < 2 → x.pushNamed die p r = m1.pushBack die p l.vd l.cls [r])))

/-- The cancel of a record (R119, R120): no record 6 or 5, a malformed one 6, a cancelled one 1, a complete or miscounted one 2; else its state is
cancelled, and every running unit of the partition below it is to take 0x19, and no other. -/
def Sys2Proof.Claims.CancelRecord : Prop :=
  ∀ (m : Mach) (die : Nat) (p : BitVec 4) (ppa : Nat),
    ((ppa = 0 ∨ ppa % 64 ≠ 0) → m.cancelRec die p ppa = (6, m))
    ∧ (ppa ≠ 0 → ppa % 64 = 0 →
      (m.crec die p ppa = none → m.cancelRec die p ppa = (5, m))
      ∧ ∀ r m1, m.crec die p ppa = some (r, m1) →
        ((r.level = 0 ∨ 4 < r.level ∨ r.bad = true) → m.cancelRec die p ppa = (6, m1))
        ∧ (1 ≤ r.level → r.level ≤ 4 → r.bad = false →
          (r.state = 2 → m.cancelRec die p ppa = (1, m1)) ∧ (r.state = 1 ∨ r.state = 3 → m.cancelRec die p ppa = (2, m1))
          ∧ (r.state = 0 → m.cancelRec die p ppa
              = (0, (m1.putCrec die p { r with val := setFld r.val 0 59 2 2 }).cancelUnits p ppa))))
    ∧ ∀ k x u, m.dev.sides = [(k, x)] → x.unit = some u →
      (x.pid ≠ some p → m.cancelUnits p ppa = m)
      ∧ (x.pid = some p → ∀ cs m1, m.chain (k / 256) p u.launch = (some cs, m1) →
        m.cancelUnits p ppa = if cs.any (fun r => r.ppa == ppa) then m1.modSide k fun y => { y with cancelled := true } else m1)

/-- `spawn`, `spawn.inc`, `cont` and `cancel` (R113 to R119): the status that they return, and the queue entries, the counts and the cancel marks
that they leave. -/
def Obligations.WorkResults : Prop :=
  Claims.WorkInstructions ∧ Claims.Pushes ∧ Claims.SpawnRecords ∧ Claims.ContRecord ∧ Claims.CancelRecord

/-- `end` and `yield` (R110, R128, R398): a unit at level U whose sequencers, engines, tokens and stores are done publishes its work at device
scope and is over; on M or S at level U `end` is illegal; in a handler, on any sequencer, an open strip or not, the unit fails with the level's
cause; `yield` asks for the unit's pre-emption at the back of its class. That the failing `end` drops the waiting reads, forgets the loads on
their way and clears ih of the levels left is the model's choice (log 45). -/
def Obligations.EndYield : Prop :=
  ∀ s : State, s.mach.onSide = true → s.mach.ready none [] [] = true →
    (let k := s.mach.myNo
     let m1 := s.mach.releaseData s.mach.myAcc .dev
     s.mach.isRole .P = true → s.mach.stripOpen = false →
     s.mach.me.level = .U → s.mach.mySide.m.run = .idle → s.mach.mySide.s.run = .idle → noPending s.mach = true →
     s.mach.tokensOf (k / 2) = (false, none) → s.mach.mySide.tq = [] → s.mach.mySide.tstop = none → (s.mach.core (k / 2)).mx.mq = [] →
     (s.mach.core (k / 2)).mx.slots.all (fun x => x.2 == .empty) = true → s.mach.queueDone = true → s.mach.loadsDone = true →
     s.mach.owed s.dev.cur = false → m1.releaseDone .dev false = true → Goes .endUnit s (m1.unitOver k none))
    ∧ (let k := s.mach.myNo
       let ts := s.mach.trapOf s.dev.cur
       let leave := fun (r : TrapRegs) => { r with tstat := r.tstat &&& ~~~4#64 }
       let m1 := (s.mach.discardHeld k (k / 2) s.mach.me.level).dropReads k
       let ts1 := m1.trapOf s.dev.cur
       s.mach.me.level ≠ .U → noPending s.mach = true → s.mach.mySide.deciding = false →
       Goes .endUnit s (((m1.setTrap s.dev.cur
           { ts1 with s := leave ts1.s, m := if s.mach.me.level == .M then leave ts1.m else ts1.m }).forgetLoads k).unitOver k
           (some ((ts.get s.mach.me.level).cause.extractLsb' 0 8))))
    ∧ (s.mach.isRole .P = false → s.mach.me.level = .U → Goes .endUnit s (s.mach.trapHead 0x01))
    ∧ (s.mach.isRole .P = true → s.mach.stripOpen = false → s.mach.me.level = .U → s.mach.mySide.unit.isSome = true →
        Does .yield s (((s.mach.preemptUnit s.mach.myNo true).retire).modMe fun q =>
          { q with yielding := q.level == .U }))

/-- Inside an open speculative strip the instructions that R306 forbids there trap with 0x14 and their head: those that create, join, signal and
wait, the fences and release stores, a new length or type, and a write of vl, vtype, vstart, exi or ffi. A handler's `end` is not the unit's
own (R110, R389). -/
def Obligations.StripForbids : Prop :=
  ∀ (s : State) (d : Reg) (a b : Src) (k : BitVec 3) (sc : Scope) (fk : FKind) (n : Bool) (sz : BitVec 2) (off : BitVec 19) (cr : BitVec 12)
    (t : ETy) (v : BitVec 8),
    s.mach.isRole .P = true → s.mach.ready none [] [] = true → s.mach.stripOpen = true →
    (s.mach.ready none [a, b] [] = true → Goes (.fork a b) s (s.mach.trapHead 0x14)) ∧ Goes .rdv s (s.mach.trapHead 0x14)
    ∧ Goes (.fence sc fk) s (s.mach.trapHead 0x14) ∧ (s.mach.me.level = .U → Goes .endUnit s (s.mach.trapHead 0x14))
    ∧ Goes .yield s (s.mach.trapHead 0x14) ∧ (s.mach.hasCap 0x15 = true → Goes .fenceCommit s (s.mach.trapHead 0x14))
    ∧ (s.mach.ready (some d) [] [] = true → s.mach.owns s.mach.myNo 7 = true →
        Goes (.tkwait d k) s (s.mach.trapHead 0x14) ∧ Goes (.tkwaitClear d k) s (s.mach.trapHead 0x14))
    ∧ (s.mach.ready none [a, b] [] = true → s.mach.owns s.mach.myNo 7 = true → Goes (.barArrivebytes a b) s (s.mach.trapHead 0x14))
    ∧ (s.dev.vqNow = none →
      (s.mach.ready (some d) [a] [] = true → s.mach.typeCap (some t) = true → Goes (.setvl d a t) s (s.mach.trapHead 0x14))
      ∧ (v.toNat % 16 ≠ 15 → v.toNat / 16 % 8 ≠ 1 → (v.toNat % 16 = 14 → s.mach.hasCap 0x12 = true) →
          (2 ≤ v.toNat / 16 % 8 → v.toNat / 16 % 8 ≤ s.mach.capParam 0x11 % 16) → Goes (.vsetvt v) s (s.mach.trapHead 0x14)))
    ∧ (s.mach.ready (some d) [a] [] = true → cr.toNat ≤ 4 → Goes (.crw d cr a) s (s.mach.trapHead 0x14)
        ∧ Goes (.crset d cr a) s (s.mach.trapHead 0x14) ∧ Goes (.crclr d cr a) s (s.mach.trapHead 0x14))
    ∧ (s.mach.ready none [a] [] = true → Goes (.barArrive a) s (s.mach.trapHead 0x14) ∧ Goes (.barWait a) s (s.mach.trapHead 0x14)
        ∧ Goes (.barArrivewait a) s (s.mach.trapHead 0x14) ∧ Goes (.semUp a) s (s.mach.trapHead 0x14) ∧ Goes (.semDown a) s (s.mach.trapHead 0x14))
    ∧ (s.mach.ready none [] [a] = true → Goes (.mbput k a) s (s.mach.trapHead 0x14))
    ∧ (s.mach.ready (some d) [] [] = true → Goes (.mbget d k) s (s.mach.trapHead 0x14))
    ∧ (s.mach.ready (some d) [a] [] = true → Goes (.lda d a sz n sc off) s (s.mach.trapHead 0x14))
    ∧ (s.mach.ready none [a] [b] = true → Goes (.stl b a sz sc off) s (s.mach.trapHead 0x14))

end

namespace Sys2Proof.Claims
open Sys2Proof Sys2Proof.Machine

/-- Entry `e` at the head of the queue of side `k` is performed now, and acts (R250, R249, R227, R252); the lanes can read its sources (R155). -/
def atHead (s : State) (k : BitVec 10) (e : VqEntry) (p : Pipe) (wait : BitVec 8) (named : Bool) : Bool :=
  s.mach.headIs k e && s.mach.leaves k.toNat e p wait && s.mach.acts k.toNat named && (s.mach.unread k.toNat).isEmpty
/-- The same for an instruction with a tsel field and no second type: an explicit type has the size of vtype's (R248). -/
def atHeadT (s : State) (k : BitVec 10) (e : VqEntry) (ts : Option ETy) (p : Pipe) (wait : BitVec 8) : Bool :=
  atHead s k e p wait true && (s.mach.side k.toNat).sized ts

/-- What a vector instruction takes from the scalar side as P issues it (R143, R277): its element types, the scalar register that it fills,
and its scalar sources, those that consume poison before those that carry it. -/
def vecForm : Instr → Option (List ETy × Option Reg × List Src × List Src)
  | .vbrk .. | .pset .. | .plog .. | .pnot .. | .pmv .. | .vbind .. | .xclr => some ([], none, [], [])
  | .pfirst d _ _ | .pcnt d _ _ => some ([], some d, [], [])
  | .vadd _ _ _ _ ts _ | .vsub _ _ _ _ ts _ | .vmul _ _ _ _ ts _ | .vfdiv _ _ _ _ ts _ => some (ts.toList, none, [], [])
  | .vmulh _ _ _ _ ts | .vdiv _ _ _ _ ts | .vrem _ _ _ _ ts | .vmin _ _ _ _ ts | .vmax _ _ _ _ ts | .vand _ _ _ _ ts | .vor _ _ _ _ ts
  | .vxor _ _ _ _ ts | .vsll _ _ _ _ ts | .vsrl _ _ _ _ ts | .vsra _ _ _ _ ts | .vsadd _ _ _ _ ts | .vssub _ _ _ _ ts
  | .vperm _ _ _ _ ts => some (ts.toList, none, [], [])
  | .vabs _ _ _ ts | .vneg _ _ _ ts | .vclass _ _ _ ts | .vrecpe _ _ _ ts | .vmv _ _ _ ts | .vcompress _ _ _ ts | .vexpand _ _ _ ts =>
    some (ts.toList, none, [], [])
  | .vfma _ _ _ _ _ ts _ | .vfms _ _ _ _ _ ts _ | .vfnma _ _ _ _ _ ts _ => some (ts.toList, none, [], [])
  | .vfsqrt _ _ _ ts _ | .vtint _ _ _ ts _ | .vtlkp _ _ _ ts _ => some (ts.toList, none, [], [])
  | .vcmp _ _ _ _ ts _ | .vsel _ _ _ _ _ ts => some (ts.toList, none, [], [])
  | .vcvt _ _ _ ts st _ => some (ts.toList ++ [st], none, [], [])
  | .vdot _ _ _ _ _ ts st _ => some (ts.toList ++ [st], none, [], [])
  | .vslide _ _ x _ ts _ | .vrank _ _ x _ ts => some (ts.toList, none, [x], [])
  | .vsplat _ x _ ts => some (ts.toList, none, [], [x])
  | .vins _ x i ts => some (ts.toList, none, [i], [x])
  | .vext d _ i ts => some (ts.toList, some d, [i], [])
  | .vred _ _ _ _ ts _ _ | .vscan _ _ _ ts _ _ _ => some (ts.toList, none, [], [])
  | .vld _ a _ ts _ _ | .vldff _ a _ ts _ | .vst _ a _ ts _ => some (ts.toList, none, [a], [])
  | .vlds _ a b _ ts _ _ | .vsts _ a b _ ts _ | .vstNf _ a b _ ts _ => some (ts.toList, none, [a, b], [])
  | .vldx _ a _ n _ ts _ _ _ _ | .vstx _ a _ n _ ts _ _ | .vscadd a _ _ n _ ts _ _ _ => some (ts.toList, none, [a, n], [])
  | .vspld _ a _ _ ts _ | .vspst _ a _ _ ts _ | .vspamo _ a _ _ _ ts _ _ => some (ts.toList, none, [a], [])
  | .vpf a b _ ts _ _ => some (ts.toList, none, a :: b.toList, [])
  | .xins _ _ _ _ ts | .xlkp _ _ _ _ ts | .xdel _ _ _ ts => some (ts.toList, none, [], [])
  | .xacc _ _ _ _ ts _ | .xdrain _ _ ts => some (ts.toList, none, [], [])
  | .tbset a n h _ => some ([], none, [a, n, h], [])
  | _ => none

/-- The queue entry that P makes of an instruction (R143). -/
def entryFor (m : Mach) (i : Instr) (ops : List (Word × Bool)) : VqEntry :=
  { pc := m.me.pc, head := m.dev.head, ins := i, ops := ops, tick := m.mySide.tick, lvl := m.me.level }

/-- P puts an entry at the end of its queue and takes the next acceptance number. -/
def queued (m : Mach) (e : VqEntry) : Mach := m.tick.2.modMySide fun x => { x with vq := x.vq ++ [e] }

/-- The result of an element-wise instruction (R316 to R318, R323): its type field, the types that it accepts, its destination, its
predicate, its sources, and the pattern and the flags of an element from the rounding mode of frm and the elements of the sources. -/
def vecValue : Instr → Option (Option ETy × (ETy → Bool) × VR × PR × List VR × (ETy → BitVec 3 → List Nat → Nat × Fl))
  | .vadd d a b pg ts rm => some (ts, fun t => t.isInt || t.isF, d, pg, [a, b], fun t f l =>
      if t.isInt then (wrapI (tbits t) (intVal t (el1 l) + intVal t (el2 l)), 0) else fAdd t (rmOf rm f) (el1 l) (el2 l))
  | .vsub d a b pg ts rm => some (ts, fun t => t.isInt || t.isF, d, pg, [a, b], fun t f l =>
      if t.isInt then (wrapI (tbits t) (intVal t (el1 l) - intVal t (el2 l)), 0) else fSub t (rmOf rm f) (el1 l) (el2 l))
  | .vmul d a b pg ts rm => some (ts, fun t => t.isInt || t.isF, d, pg, [a, b], fun t f l =>
      if t.isInt then (wrapI (tbits t) (intVal t (el1 l) * intVal t (el2 l)), 0) else fMul t (rmOf rm f) (el1 l) (el2 l))
  | .vmulh d a b pg ts => some (ts, ETy.isInt, d, pg, [a, b], fun t _ l => (wrapI (tbits t) (intVal t (el1 l) * intVal t (el2 l) / 2 ^ tbits t), 0))
  | .vdiv d a b pg ts => some (ts, ETy.isInt, d, pg, [a, b], fun t _ l => ((divRem t.isSigned (tbits t) (el1 l) (el2 l)).1, 0))
  | .vrem d a b pg ts => some (ts, ETy.isInt, d, pg, [a, b], fun t _ l => ((divRem t.isSigned (tbits t) (el1 l) (el2 l)).2, 0))
  | .vmin d a b pg ts => some (ts, fun t => t.isInt || t.isF, d, pg, [a, b], fun t _ l =>
      if t.isInt then (if intVal t (el1 l) < intVal t (el2 l) then el1 l else el2 l, 0) else fMinMax t false (el1 l) (el2 l))
  | .vmax d a b pg ts => some (ts, fun t => t.isInt || t.isF, d, pg, [a, b], fun t _ l =>
      if t.isInt then (if intVal t (el1 l) < intVal t (el2 l) then el2 l else el1 l, 0) else fMinMax t true (el1 l) (el2 l))
  | .vand d a b pg ts => some (ts, ETy.isInt, d, pg, [a, b], fun _ _ l => (el1 l &&& el2 l, 0))
  | .vor d a b pg ts => some (ts, ETy.isInt, d, pg, [a, b], fun _ _ l => (el1 l ||| el2 l, 0))
  | .vxor d a b pg ts => some (ts, ETy.isInt, d, pg, [a, b], fun _ _ l => (el1 l ^^^ el2 l, 0))
  | .vsll d a b pg ts => some (ts, ETy.isInt, d, pg, [a, b], fun t _ l => (el1 l * 2 ^ (el2 l % tbits t) % 2 ^ tbits t, 0))
  | .vsrl d a b pg ts => some (ts, ETy.isInt, d, pg, [a, b], fun t _ l => (el1 l / 2 ^ (el2 l % tbits t), 0))
  | .vsra d a b pg ts => some (ts, ETy.isInt, d, pg, [a, b], fun t _ l => (wrapI (tbits t) (sgn (tbits t) (el1 l) / 2 ^ (el2 l % tbits t)), 0))
  | .vabs d a pg ts => some (ts, fun t => t.isInt || t.isF, d, pg, [a], fun t _ l =>
      if t.isInt then (if t.isSigned then (wrapI (tbits t) ((intVal t (el1 l)).natAbs), 0) else (el1 l, 0)) else (el1 l % 2 ^ (tbits t - 1), 0))
  | .vneg d a pg ts => some (ts, fun t => t.isInt || t.isF, d, pg, [a], fun t _ l =>
      if t.isInt then (wrapI (tbits t) (-(intVal t (el1 l))), 0) else (el1 l ^^^ 2 ^ (tbits t - 1), 0))
  | .vfma d a b c pg ts rm => some (ts, ETy.isF, d, pg, [a, b, c], fun t f l => fFma t (rmOf rm f) false false (el1 l) (el2 l) (el3 l))
  | .vfms d a b c pg ts rm => some (ts, ETy.isF, d, pg, [a, b, c], fun t f l => fFma t (rmOf rm f) false true (el1 l) (el2 l) (el3 l))
  | .vfnma d a b c pg ts rm => some (ts, ETy.isF, d, pg, [a, b, c], fun t f l => fFma t (rmOf rm f) true false (el1 l) (el2 l) (el3 l))
  | .vfdiv d a b pg ts rm => some (ts, ETy.isF, d, pg, [a, b], fun t f l => fDiv t (rmOf rm f) (el1 l) (el2 l))
  | .vfsqrt d a pg ts rm => some (ts, ETy.isF, d, pg, [a], fun t f l => fSqrt t (rmOf rm f) (el1 l))
  | .vclass d a pg ts => some (ts, ETy.isF, d, pg, [a], fun t _ l => (fClass t (el1 l), 0))
  | .vrecpe d a pg ts => some (ts, ETy.isF, d, pg, [a], fun t _ l => recipEst t (el1 l))
  | .vsadd d a b pg ts => some (ts, ETy.isInt, d, pg, [a, b], fun t _ l =>
      (wrapI (tbits t) (max (intMin t) (min (intMax t) (intVal t (el1 l) + intVal t (el2 l)))), 0))
  | .vssub d a b pg ts => some (ts, ETy.isInt, d, pg, [a, b], fun t _ l =>
      (wrapI (tbits t) (max (intMin t) (min (intMax t) (intVal t (el1 l) - intVal t (el2 l)))), 0))
  | _ => none

/-- The results of the active elements of an element-wise instruction. -/
def elemRes (m : Mach) (k : Nat) (t : ETy) (pg : PR) (vs : List VR) (src : List (VR × VReg)) (f : List Nat → Nat × Fl) : List (Nat × ERes) :=
  ((m.side k).actives pg).map fun e =>
    let xs := vs.map fun v => elOf src v t.size e
    (e, { val := (f (xs.map (·.1))).1, fl := (f (xs.map (·.1))).2, bad := xs.any (·.2) })

/-- What a predicate instruction of R313 writes for an element: its destination, its predicate, and the bit. -/
def predValue : Instr → Option (PR × PR × (Side → Nat → Bool))
  | .pset d pg v => some (d, pg, fun _ _ => v)
  | .plog d a b pg op => some (d, pg, fun s e =>
      let x := (s.pred a).getLsbD e
      let y := (s.pred b).getLsbD e
      match op with
      | .and => x && y
      | .or => x || y
      | .xor => x ^^ y
      | .andn => x && !y
      | .orn => x || !y
      | .nand => !(x && y)
      | .nor => !(x || y)
      | .xnor => !(x ^^ y))
  | .pnot d a pg => some (d, pg, fun s e => !(s.pred a).getLsbD e)
  | .pmv d a pg => some (d, pg, fun s e => (s.pred a).getLsbD e)
  | _ => none

/-- The vector instructions that R252 names: with vl = 0 only the queue advances, after the effect given here. -/
def zeroLength (i : Instr) : Option (Pipe × BitVec 8 × (Nat → Mach → Mach)) :=
  match i with
  | .pset .. | .plog .. | .pnot .. | .pmv .. => some (.perm, 0, fun _ m => m)
  | .pfirst d _ _ | .pcnt d _ _ | .vext d _ _ _ => some (.perm, 0, fun k m => m.fill (.side (BitVec.ofNat 10 k) .P) d 0 false)
  | .vbrk .. => some (.perm, 0, fun k m => m.modSide k fun s => { s with exi := 0 })
  | .vcmp .. | .vsel .. | .vmv .. | .vcvt .. | .vdot .. => some (.fma, 0, fun _ m => m)
  | .vperm .. | .vslide .. | .vcompress .. | .vexpand .. | .vsplat .. | .vins .. | .vrank .. | .vred .. | .vscan .. =>
    some (.perm, 0, fun _ m => m)
  | .vld _ _ _ _ w _ | .vlds _ _ _ _ _ w _ | .vldx _ _ _ _ _ _ w _ _ _ | .vspld _ _ _ _ _ w | .vpf _ _ _ _ w _ => some (.ld, w, fun _ m => m)
  | .vldff _ _ _ _ w => some (.ld, w, fun k m => m.modSide k fun s => { s with ffi := 0 })
  | .vst _ _ _ _ w | .vstNf _ _ _ _ _ w | .vsts _ _ _ _ _ w | .vstx _ _ _ _ _ _ w _ | .vscadd _ _ _ _ _ _ w _ _ | .vspst _ _ _ _ _ w
  | .vspamo _ _ _ _ _ _ w _ => some (.st, w, fun _ m => m)
  | .xins .. | .xlkp .. | .xacc .. | .xdel .. | .xdrain .. | .vtint .. | .vtlkp .. => some (.idx, 0, fun _ m => m)
  | i => if (vecValue i).isSome then some (.fma, 0, fun _ m => m) else none

end Sys2Proof.Claims

section
open Sys2Proof Sys2Proof.Machine Sys2Proof.Claims

/-- P puts a vector instruction at the end of the queue with its scalar operands and their poison as they stand, marks a scalar destination
empty and goes on; a full queue makes it wait (R143, R144, R135). -/
def Sys2Proof.Claims.QueueIssue : Prop :=
  ∀ (i : Instr) (ts : List ETy) (d : Option Reg) (ss carry : List Src), vecForm i = some (ts, d, ss, carry) →
    ∀ s : State, s.dev.vqNow = none → s.mach.isRole .P = true → ts.all (fun t => s.mach.typeCap (some t)) = true →
      s.mach.ready d ss carry = true →
      (s.mach.mySide.vq.length < 32 →
        let m := queued s.mach (entryFor s.mach i ((ss ++ carry).map fun x => ((s.mach.x x.r).val, (s.mach.x x.r).pois)))
        Does i s (match d with | some r => m.empty r | none => m).retire)
      ∧ (32 ≤ s.mach.mySide.vq.length → Does i s s.mach.wait)

/-- `setvl`, `vsetvt`, `vspec` and `vcommit` as P issues them (R304 to R306): `setvl` has its length at once, and a reserved code of `vsetvt` is
illegal at once (R250). -/
def Sys2Proof.Claims.ConfigIssue : Prop :=
  ∀ s : State, s.dev.vqNow = none → s.mach.isRole .P = true → s.mach.mySide.vq.length < 32 → s.mach.ready none [] [] = true →
    (∀ d a t, s.mach.typeCap (some t) = true → s.mach.ready (some d) [a] [] = true → s.mach.stripOpen = false →
      let v := BitVec.ofNat 64 (min (s.mach.val a).toNat (1024 / t.size))
      Does (.setvl d a t) s ((queued s.mach (entryFor s.mach (.setvl d a t) [(v, false)])).completes d v))
    ∧ (∀ v : BitVec 8, let t := v.toNat % 16
      let sl := v.toNat / 16 % 8
      (t ≠ 15 → sl ≠ 1 → (t = 14 → s.mach.hasCap 0x12 = true) → (2 ≤ sl → sl ≤ s.mach.capParam 0x11 % 16) → s.mach.stripOpen = false →
        Does (.vsetvt v) s (queued s.mach (entryFor s.mach (.vsetvt v) [])).retire)
      ∧ ((t = 15 ∨ sl = 1) → Goes (.vsetvt v) s (s.mach.trapHead 0x01)))
    ∧ (s.mach.mySide.open_ = false → s.mach.mySide.strip = none → s.mach.mySide.vq.any (·.ins == .vcommit) = false →
      Does .vspec s (((queued s.mach (entryFor s.mach .vspec [])).modMySide fun x => { x with open_ := true }).retire))
    ∧ (s.mach.mySide.open_ = true → Goes .vspec s (s.mach.trapHead 0x14))
    ∧ (s.mach.mySide.open_ = true →
      Does .vcommit s (((queued s.mach (entryFor s.mach .vcommit [])).modMySide fun x => { x with open_ := false }).retire))
    ∧ (s.mach.mySide.open_ = false → Goes .vcommit s (s.mach.trapHead 0x14))

/-- The first half of a vector instruction (R143, R144, R304 to R306): P puts it into its queue. -/
def Obligations.VectorIssue : Prop := Claims.QueueIssue ∧ Claims.ConfigIssue

/-- The same in queue order, with `vbind` and `vbrk` (R304 to R310, R315, R300). -/
def Obligations.ConfigResults : Prop :=
  ∀ (s : State) (k : BitVec 10) (e : VqEntry),
    let m := s.mach.left k.toNat
    let x := m.side k.toNat
    (atHead s k e .none 0 false = true →
      (∀ d a t, Does (.setvl d a t) s ((m.modSide k.toNat fun y =>
        { y with vtype := (y.vtype &&& 0xf0) ||| t.toBits.setWidth 8
                 vl := BitVec.ofNat 11 (min (e.op 0).1.toNat (vlmax { y with vtype := (y.vtype &&& 0xf0) ||| t.toBits.setWidth 8 }.vty)) }).vfin
          k.toNat false))
      ∧ (∀ v, Does (.vsetvt v) s ((m.modSide k.toNat fun y =>
        { y with vtype := v, vl := BitVec.ofNat 11 (min y.vl.toNat (vlmax { y with vtype := v }.vty)) }).vfin k.toNat false))
      ∧ Does .vspec s ((m.modSide k.toNat fun y => { y with strip := some {} }).vpop k.toNat)
      ∧ (∀ t l, x.strip = some t → t.lim = some l → t.pe = none → (t.fl.all fun y => !x.fenable.getLsbD y.1) = true →
          Goes .vcommit s (m.handOver k.toNat x.held))
      ∧ (∀ t, x.strip = some t → t.lim = none → t.pe = none → t.fl = [] →
          let m' := m.modSide k.toNat fun y => { y with exi := y.vl }.resolve y.vl.toNat
          Goes .vcommit s (m'.handOver k.toNat (m'.side k.toNat).held))
      ∧ (∀ t l n, x.strip = some t → t.lim = some l → t.pe = some n → Goes .vcommit s (m.trapV 0x0c (w64 (0x1000 + n % 1024)))))
    ∧ (∀ d sp, atHead s k e .ld 0 false = true →
      (m.owns k.toNat 7 = true → Does (.vbind d sp) s ((m.modSide k.toNat fun y =>
        { y with bind := (y.bind.filter fun b => b.1 != d && b.2 != sp) ++ [(d, sp)] }).vpop k.toNat))
      ∧ (m.owns k.toNat 7 = false → Goes (.vbind d sp) s (m.trapV 0x05 7)))
    ∧ ∀ d a pg excl, atHead s k e .perm 0 true = true →
      let i := ((List.range x.vl.toNat).find? fun j => x.active pg j && (x.pred a).getLsbD j).getD x.vl.toNat
      let lim := if excl then i else min (i + 1) x.vl.toNat
      (x.strip.isNone || x.unresolved) = true →
      Does (.vbrk d a pg excl) s ((m.modSide k.toNat fun y =>
        { y.setPred d (BitVec.ofNat 1024 (2 ^ lim - 1)) with exi := BitVec.ofNat 11 i }.resolve lim).vfin k.toNat true)

/-- The predicate instructions (R313): bit e of the destination takes the value for each active e, and every other bit stays. -/
def Sys2Proof.Claims.PredicateWrites : Prop :=
  ∀ (i : Instr) (d pg : PR) (f : Side → Nat → Bool), predValue i = some (d, pg, f) →
    ∀ (s : State) (k : BitVec 10) (e : VqEntry), atHead s k e .perm 0 true = true →
      let m := s.mach.left k.toNat
      let x := m.side k.toNat
      ∃ b : PBits, Does i s ((m.modSide k.toNat (·.setPred d b)).vfin k.toNat true)
        ∧ ∀ j < 1024, b.getLsbD j = if x.active pg j then f x j else (x.pred d).getLsbD j

/-- `pfirst` and `pcnt` fill their scalar register as they complete (R314, R144). -/
def Sys2Proof.Claims.PredicateScalars : Prop :=
  ∀ (s : State) (k : BitVec 10) (e : VqEntry) (d : Reg) (a pg : PR), atHead s k e .perm 0 true = true →
    let m := s.mach.left k.toNat
    let x := m.side k.toNat
    let on := fun j => x.active pg j && (x.pred a).getLsbD j
    let out := fun v => (m.fill (.side k .P) d v false).vfin k.toNat true
    (∀ j, on j = true → (∀ i < j, on i = false) → Does (.pfirst d a pg) s (out (BitVec.ofNat 64 j)))
    ∧ ((∀ j, on j = false) → Does (.pfirst d a pg) s (out (x.vl.setWidth 64)))
    ∧ Does (.pcnt d a pg) s (out (BitVec.ofNat 64 ((List.range x.vl.toNat).countP on)))

/-- The predicate instructions (R313, R314). -/
def Obligations.PredicateResults : Prop := Claims.PredicateWrites ∧ Claims.PredicateScalars

/-- Element-wise arithmetic (R316 to R318, R323, R302): every active element takes its result, flags accrue, the queue advances. -/
def Sys2Proof.Claims.ArithmeticWrites : Prop :=
  ∀ (i : Instr) (ts : Option ETy) (ok : ETy → Bool) (d : VR) (pg : PR) (vs : List VR) (f : ETy → BitVec 3 → List Nat → Nat × Fl),
    vecValue i = some (ts, ok, d, pg, vs, f) →
    ∀ (s : State) (k : BitVec 10) (e : VqEntry) (src : List (VR × VReg)) (m1 : Mach), atHeadT s k e ts .fma 0 = true →
      let m := s.mach.left k.toNat
      let x := m.side k.toNat
      let t := x.ty ts
      ok t = true → x.stripFull = false → m.reads k.toNat (x.vl.toNat * t.size) vs (some d) = some (src, m1) →
      let rs := elemRes m k.toNat t pg vs src (f t x.frm)
      m.settles k.toNat rs = true →
      Goes i s ((m.settled m1 k.toNat rs 0).2.vdone k.toNat d t.size (m.settled m1 k.toNat rs 0).1)

/-- The stops of element-wise arithmetic: a type that the instruction does not accept, or whose size is not that of vtype's, is illegal; outside
a strip the lowest poisoned element traps with 0x0c, and an enabled flag with 0x0e, its flags accrued; the destination stays (R248, R301, R302,
R212). -/
def Sys2Proof.Claims.ArithmeticTraps : Prop :=
  ∀ (i : Instr) (ts : Option ETy) (ok : ETy → Bool) (d : VR) (pg : PR) (vs : List VR) (f : ETy → BitVec 3 → List Nat → Nat × Fl),
    vecValue i = some (ts, ok, d, pg, vs, f) →
    ∀ (s : State) (k : BitVec 10) (e : VqEntry) (src : List (VR × VReg)) (m1 : Mach), atHead s k e .fma 0 true = true →
      let m := s.mach.left k.toNat
      let x := m.side k.toNat
      let t := x.ty ts
      (x.sized ts = false ∨ ok t = false → Goes i s (m.trapHead 0x01))
      ∧ (x.sized ts = true → ok t = true → x.stripFull = true → Goes i s (m.trapHead 0x14))
      ∧ (x.sized ts = true → ok t = true → x.strip = none → m.reads k.toNat (x.vl.toNat * t.size) vs (some d) = some (src, m1) →
        let rs := elemRes m k.toNat t pg vs src (f t x.frm)
        let fl := rs.foldl (fun a y => a ||| y.2.fl) 0
        (∀ n r, rs.find? (·.2.bad) = some (n, r) → Goes i s (m.laneTrap k.toNat 0x0c (BitVec.ofNat 64 (0x1000 + n % 1024))))
        ∧ ∀ n r, rs.all (fun y => !y.2.bad) = true → rs.find? (fun y => y.2.fl &&& x.fenable != 0) = some (n, r) →
          Goes i s ((m.modSide k.toNat fun y => { y with fflags := y.fflags ||| fl }).laneTrap k.toNat 0x0e
            (BitVec.ofNat 64 ((fl &&& x.fenable).toNat + n % 1024 * 2 ^ 16))))

/-- Element-wise arithmetic (R316 to R318, R323): its results, and where it stops (R301, R302). -/
def Obligations.ArithmeticResults : Prop := Claims.ArithmeticWrites ∧ Claims.ArithmeticTraps

/-- With vl = 0 a vector instruction that R252 names changes no vector register and no predicate, needs no vector owner, and the queue
advances with vstart 0. -/
def Obligations.ZeroLength : Prop :=
  ∀ (i : Instr) (p : Pipe) (w : BitVec 8) (z : Nat → Mach → Mach), zeroLength i = some (p, w, z) →
    ∀ (s : State) (k : BitVec 10) (e : VqEntry), s.mach.headIs k e = true → s.mach.leaves k.toNat e p w = true →
      (s.mach.side k.toNat).vl = 0 → Does i s ((z k.toNat s.mach).vfin k.toNat false)

/-- A write of elements into a vector register (R147, R302): the bytes of each element listed take its value and its poison, the last one
listed for an element counts, and every other byte of every register stays; the dirty bit is set and a binding of it ends. -/
def Sys2Proof.Claims.ElementWrite : Prop :=
  ∀ (s : Side) (d : VR) (t : ETy) (l : List El), (∀ x ∈ l, x.1 < 1024 / t.size) →
    let w := s.wv d t.size l
    let es := t.size
    (∀ e < 1024 / es,
      (w.vreg d).el es e = (match (l.filter (·.1 == e)).getLast? with | some x => x.2.1 % 2 ^ (8 * es) | none => (s.vreg d).el es e)
      ∧ (w.vreg d).bad es e = (match (l.filter (·.1 == e)).getLast? with | some x => x.2.2 | none => (s.vreg d).bad es e))
    ∧ (∀ v, v ≠ d → w.vreg v = s.vreg v) ∧ w.vdirty = s.vdirty ||| (1#32 <<< d.toNat) ∧ (w.bind.all fun b => b.1 != d) = true
    ∧ w.pr = s.pr ∧ w.vl = s.vl ∧ w.p = s.p

end

namespace Sys2Proof.Claims
open Sys2Proof Sys2Proof.Machine

/-- The elements of a vector result with their flags, written, and the queue advances (R302, R147). -/
def finishes (m m1 : Mach) (k : Nat) (d : VR) (es : Nat) (rs : List (Nat × ERes)) : Mach :=
  (m.settled m1 k rs 0).2.vdone k d es (m.settled m1 k rs 0).1

/-- The moves of R320 and R324: type field, pipe, destination, predicate, sources, and the value and poison of element `e`. -/
def moveValue : Instr → Option (Option ETy × Pipe × VR × PR × List VR × (VqEntry → Side → List (VR × VReg) → Nat → Nat → Nat × Bool))
  | .vsel d a b c pg ts => some (ts, .fma, d, pg, [a, b], fun _ x src es e =>
      if (x.pred c).getLsbD e then ((srcOf src a).el es e, (srcOf src a).bad es e) else ((srcOf src b).el es e, (srcOf src b).bad es e))
  | .vmv d a pg ts => some (ts, .fma, d, pg, [a], fun _ _ src es e => ((srcOf src a).el es e, (srcOf src a).bad es e))
  | .vslide d a _ pg ts up => some (ts, .perm, d, pg, [a], fun q x src es e =>
      let n := (q.op 0).1.toNat
      let j := if up then e - n else e + n
      if (up && n ≤ e) || (!up && e + n < x.vl.toNat) then ((srcOf src a).el es j, (srcOf src a).bad es j) else (0, false))
  | .vsplat d _ pg ts => some (ts, .perm, d, pg, [], fun q _ _ es _ => ((q.op 0).1.toNat % 256 ^ es, (q.op 0).2))
  | _ => none

/-- The elements of the sum that `vdot` adds to element `e` (R322): n pairs of the source type. -/
def dotPairs (src : List (VR × VReg)) (b c : VR) (ss n e : Nat) : List (Nat × Nat) :=
  (List.range n).map fun i => ((srcOf src b).el ss (n * e + i), (srcOf src c).el ss (n * e + i))

/-- The forms of R339 and R340: type field, wait mask, destination, predicate, sources, decoded view, `.p`, resumable, and the address form
with the bypass of R63. -/
def loadForm : Instr → Option (Option ETy × BitVec 8 × VR × PR × List VR × Bool × Bool × Bool ×
    (Side → VqEntry → List (VR × VReg) → VForm × Bool))
  | .vld d _ pg ts w dec => some (ts, w, d, pg, [], dec, false, false, fun x _ _ => (.unit, x.bypass (x.vl.toNat * (x.ty ts).size)))
  | .vlds d _ _ pg ts w dec => some (ts, w, d, pg, [], dec, false, false, fun x q _ =>
      (.stride (q.op 1).1, x.bypass ((q.op 1).1.toInt.natAbs * (x.vl.toNat - 1) + (x.ty ts).size)))
  | .vldx d _ i _ pg ts w pol dec p => some (ts, w, d, pg, [i], dec, p, true, fun _ q src => (.index (srcOf src i) (q.op 1).1.toNat pol, false))
  | _ => none

/-- The out-of-range policy of a form; a form without an index has none in use. -/
def formPol : VForm → Pol
  | .index _ _ p => p
  | _ => .poison

/-- The forms of R342 and R343: type field, wait mask, data register, index registers, predicate, `.nf`, and the address form. -/
def storeForm : Instr → Option (Option ETy × BitVec 8 × VR × List VR × PR × Bool × (VqEntry → List (VR × VReg) → VForm))
  | .vst v _ pg ts w => some (ts, w, v, [], pg, false, fun _ _ => .unit)
  | .vstNf v _ _ pg ts w => some (ts, w, v, [], pg, true, fun _ _ => .unit)
  | .vsts v _ _ pg ts w => some (ts, w, v, [], pg, false, fun q _ => .stride (q.op 1).1)
  | .vstx v _ i _ pg ts w pol => some (ts, w, v, [i], pg, false, fun q src => .index (srcOf src i) (q.op 1).1.toNat pol)
  | _ => none

/-- The places of the active elements of an access. -/
def places (m : Mach) (k : Nat) (q : VqEntry) (pg : PR) (t : ETy) (f : VForm) : List (Nat × Place) :=
  ((m.side k).actives pg).map fun e => (e, f.place (q.op 0).1 t e)

/-- The instructions of R374: type field, predicate, failure predicate, vector destination, key and value registers, and the step. -/
def indexForm : Instr → Option (Option ETy × PR × PR × Option VR × VR × Option VR × (ETy → BitVec 3 → IxStep))
  | .xins d k v pg ts => some (ts, pg, d, none, k, some v, fun t _ => ixIns t)
  | .xlkp d k f pg ts => some (ts, pg, f, some d, k, none, fun t _ => ixLkp t)
  | .xacc d k v pg ts rm => some (ts, pg, d, none, k, some v, fun t f => ixAcc t (rmOf rm f))
  | .xdel d k pg ts => some (ts, pg, d, none, k, none, fun _ _ => ixDel)
  | _ => none

end Sys2Proof.Claims

section
open Sys2Proof Sys2Proof.Machine Sys2Proof.Claims

/-- Moves (R320, R324): each active element takes the value and the poison of the element that it names; nothing is consumed. -/
def Sys2Proof.Claims.MoveResults : Prop :=
  ∀ (i : Instr) (ts : Option ETy) (p : Pipe) (d : VR) (pg : PR) (vs : List VR)
    (f : VqEntry → Side → List (VR × VReg) → Nat → Nat → Nat × Bool), moveValue i = some (ts, p, d, pg, vs, f) →
    ∀ (s : State) (k : BitVec 10) (e : VqEntry) (src : List (VR × VReg)) (m1 : Mach), atHeadT s k e ts p 0 = true →
      let m := s.mach.left k.toNat
      let x := m.side k.toNat
      let es := (x.ty ts).size
      x.stripFull = false → m.reads k.toNat (x.vl.toNat * es) vs (some d) = some (src, m1) →
      Goes i s (finishes m m1 k.toNat d es ((x.actives pg).map fun j => (j, { val := (f e x src es j).1, pois := (f e x src es j).2 })))

/-- Comparison, conversion and dot product (R319, R321, R322). -/
def Sys2Proof.Claims.CompareConvertDot : Prop :=
  ∀ (s : State) (k : BitVec 10) (e : VqEntry) (ts : Option ETy) (pg : PR) (src : List (VR × VReg)) (m1 : Mach),
    atHead s k e .fma 0 true = true →
    let m := s.mach.left k.toNat
    let x := m.side k.toNat
    let t := x.ty ts
    let vl := x.vl.toNat
    (∀ d a b c, x.sized ts = true → (t.isInt || t.isF) = true → (c = .un → t.isInt = false) →
      m.reads k.toNat (vl * t.size) [a, b] none = some (src, m1) →
      let rs := (x.actives pg).map fun j =>
        let r := vCmp t c ((srcOf src a).el t.size j) ((srcOf src b).el t.size j)
        (j, ({ val := if r.1 then 1 else 0, fl := r.2, bad := (srcOf src a).bad t.size j || (srcOf src b).bad t.size j } : ERes))
      m.settles k.toNat rs = true →
      Goes (.vcmp d a b pg ts c) s ((m.settled m1 k.toNat rs 1).2.pdone k.toNat d (m.settled m1 k.toNat rs 1).1))
    ∧ (∀ d a st rm, vl ≤ vlmax t → vl ≤ vlmax st → x.stripFull = false → m.reads k.toNat (vl * st.size) [a] (some d) = some (src, m1) →
      let rs := (x.actives pg).map fun j =>
        let r := convert t st (rmOf rm x.frm) ((srcOf src a).el st.size j)
        (j, ({ val := r.1, fl := r.2, bad := (srcOf src a).bad st.size j } : ERes))
      m.settles k.toNat rs = true → Goes (.vcvt d a pg ts st rm) s (finishes m m1 k.toNat d t.size rs))
    ∧ ∀ d a b c st rm, vdotOk t st = true → vl ≤ vlmax t → x.stripFull = false → m.reads k.toNat (vl * t.size) [a, b, c] (some d) = some (src, m1) →
      let n := t.size / st.size
      let rs := (x.actives pg).map fun j =>
        let r := vDot t st (rmOf rm x.frm) ((srcOf src a).el t.size j) (dotPairs src b c st.size n j)
        (j, ({ val := r.1, fl := r.2, bad := (srcOf src a).bad t.size j
                || (List.range n).any fun i => (srcOf src b).bad st.size (n * j + i) || (srcOf src c).bad st.size (n * j + i) } : ERes))
      m.settles k.toNat rs = true → Goes (.vdot d a b c pg ts st rm) s (finishes m m1 k.toNat d t.size rs)

/-- Moves, comparison, conversion and dot product (R319 to R322, R324). -/
def Obligations.MoveCompare : Prop := Claims.MoveResults ∧ Claims.CompareConvertDot

/-- Permutations (R324 to R326): `vperm`, `vcompress`, `vexpand`, `vins`, `vext`, `vrank`. -/
def Obligations.PermutationResults : Prop :=
  ∀ (s : State) (k : BitVec 10) (e : VqEntry) (ts : Option ETy) (pg : PR) (src : List (VR × VReg)) (m1 : Mach),
    atHeadT s k e ts .perm 0 = true →
    let m := s.mach.left k.toNat
    let x := m.side k.toNat
    let t := x.ty ts
    let es := t.size
    let vl := x.vl.toNat
    let act := x.actives pg
    (∀ d a b, x.stripFull = false → m.reads k.toNat (vl * es) [a, b] (some d) = some (src, m1) →
      let rs := act.map fun j =>
        let i := (srcOf src b).el es j
        (j, ({ val := if i < vl then (srcOf src a).el es i else 0, bad := (srcOf src b).bad es j
               pois := decide (i < vl) && (srcOf src a).bad es i } : ERes))
      m.settles k.toNat rs = true → Goes (.vperm d a b pg ts) s (finishes m m1 k.toNat d es rs))
    ∧ (∀ d a, x.stripFull = false → m.reads k.toNat (vl * es) [a] (some d) = some (src, m1) →
      Goes (.vcompress d a pg ts) s (m1.vdone k.toNat d es ((List.range (max vl act.length)).map fun j =>
        match act[j]? with | some i => (j, (srcOf src a).el es i, (srcOf src a).bad es i) | none => (j, 0, false)))
      ∧ Goes (.vexpand d a pg ts) s (m1.vdone k.toNat d es (act.zipIdx.map fun y => (y.1, (srcOf src a).el es y.2, (srcOf src a).bad es y.2))))
    ∧ (∀ d a b, x.stripFull = false → m.reads k.toNat 0 [] (some d) = some ([], m1) →
      let i := (e.op 0).1.toNat
      Goes (.vins d a b ts) s (m1.vdone k.toNat d es (if i < vl then [(i, (e.op 1).1.toNat % 256 ^ es, (e.op 1).2)] else [])))
    ∧ (∀ d a b, m.reads k.toNat (vl * es) [a] none = some (src, m1) →
      let i := (e.op 0).1.toNat
      let v := if i < vl then (srcOf src a).el es i else 0
      Goes (.vext d a b ts) s ((m1.fill (.side k .P) d (if t.isSigned then BitVec.ofInt 64 (sgn (8 * es) v) else BitVec.ofNat 64 v)
        (decide (i < vl) && (srcOf src a).bad es i)).vfin k.toNat true))
    ∧ ∀ d a b, t.isInt = true → x.stripFull = false → m.reads k.toNat 0 [] (some d) = some ([], m1) →
      Goes (.vrank d a b pg ts) s (m1.vdone k.toNat d es (act.zipIdx.map fun y =>
        (y.1, ((e.op 0).1.toNat + (act.take y.2).countP fun j => (x.pred a).getLsbD j) % 256 ^ es, false)))

/-- Reductions and scans outside a strip (R327): element 0 starts a reduction, the identity starts a scan, the active elements follow in
order, and the flags of every step accrue. -/
def Obligations.ReductionResults : Prop :=
  ∀ (s : State) (k : BitVec 10) (e : VqEntry) (ts : Option ETy) (pg : PR) (op : RedOp) (rm : Rm) (src : List (VR × VReg)) (m1 : Mach),
    atHeadT s k e ts .perm 0 = true →
    let m := s.mach.left k.toNat
    let x := m.side k.toNat
    let t := x.ty ts
    let es := t.size
    let act := x.actives pg
    let step := fun (v : Nat) (y : Nat) => redStep op t (rmOf rm x.frm) v y
    x.strip = none → redOk op t = true →
    (∀ d a b, m.reads k.toNat (x.vl.toNat * es) [a, b] (some d) = some (src, m1) →
      (srcOf src b).bad es 0 = false → act.all (fun j => !(srcOf src a).bad es j) = true → x.fenable = 0 →
      let vals := act.map ((srcOf src a).el es)
      let r := vals.foldl (fun (v : Nat × Fl) y => ((step v.1 y).1, v.2 ||| (step v.1 y).2)) ((srcOf src b).el es 0, 0)
      Goes (.vred d a b pg ts op rm) s
        ((m1.modSide k.toNat fun y => { y with fflags := y.fflags ||| r.2 }).vdone k.toNat d es [(0, r.1, false)]))
    ∧ ∀ d a excl, m.reads k.toNat (x.vl.toNat * es) [a] (some d) = some (src, m1) →
      act.all (fun j => !(srcOf src a).bad es j) = true → x.fenable = 0 →
      let vals := act.map ((srcOf src a).el es)
      let upTo := fun n => (vals.take n).foldl (fun (v : Nat × Fl) y => ((step v.1 y).1, v.2 ||| (step v.1 y).2)) (redId op t, 0)
      Goes (.vscan d a pg ts op excl rm) s
        ((m1.modSide k.toNat fun y => { y with fflags := y.fflags ||| (upTo act.length).2 }).vdone k.toNat d es
          (act.zipIdx.map fun y => (y.1, (upTo (if excl then y.2 else y.2 + 1)).1, false)))

/-- Vector loads (R338 to R341): the active elements are read in ascending order, their bytes and poison go to the register, the counts of
the walk accrue; a misaligned access faults with 0x07 at the element that R338 names; `vldff` trims at the first element that fails. -/
def Obligations.VectorLoads : Prop :=
  ∀ (s : State) (k : BitVec 10) (e : VqEntry), let m := s.mach.left k.toNat
    (∀ (i : Instr) (ts : Option ETy) (w : BitVec 8) (d : VR) (pg : PR) (vs : List VR) (dec dotp res : Bool)
      (form : Side → VqEntry → List (VR × VReg) → VForm × Bool) (src : List (VR × VReg)) (m1 : Mach),
      loadForm i = some (ts, w, d, pg, vs, dec, dotp, res, form) → atHeadT s k e ts .ld w = true →
      let x := m.side k.toNat
      let t := x.ty ts
      (dec = true → t = .f32) → x.stripFull = false → m.reads k.toNat (x.vl.toNat * t.size) vs (some d) = some (src, m1) →
      m1.vmWait k.toNat e = false →
      let y := m1.side k.toNat
      let f := form x e src
      (∀ j va, f.1.misaligned (e.op 0).1 t dec (y.actives pg) = some (j, va) → Goes i s (m.vfault e e.pc 0x07 0 j va))
      ∧ ∀ rd pl m2 r m3, f.1.misaligned (e.op 0).1 t dec (y.actives pg) = none →
        (y.unresolved = true → m1.uncached (m1.vacc k.toNat e)
          (if dec && !(y.actives pg).isEmpty then [(e.op 0).1] else addrsOf (places m1 k.toNat e pg t f.1)) = false) →
        m1.readerOf (m1.vacc k.toNat e) (e.op 0).1 t dec f.2 y.seen (f.1.item t) (places m1 k.toNat e pg t f.1) = (some (rd, pl), m2) →
        (y.unresolved = true → m2.uncached (m1.vacc k.toNat e) (addrsOf pl) = false) →
        m2.loadGo t.size rd y.unresolved dotp (formPol f.1) pl {} = .done r m3 →
        Goes i s ((m3.modSide k.toNat (·.loaded d t.size r)).vfin k.toNat true))
    ∧ ∀ (d : VR) (a : Src) (pg : PR) (ts : Option ETy) (w : BitVec 8) (m1 : Mach), atHeadT s k e ts .ld w = true →
      let x := m.side k.toNat
      let t := x.ty ts
      (x.vtype.getLsbD 7 = true → t = .f32) → x.stripFull = false → m.reads k.toNat 0 [] (some d) = some ([], m1) →
      m1.vmWait k.toNat e = false →
      let y := m1.side k.toNat
      VForm.unit.misaligned (e.op 0).1 t (y.vtype.getLsbD 7) (y.actives pg) = none →
      ∀ rd pl m2 f r m3,
        m1.readerOf (m1.vacc k.toNat e) (e.op 0).1 t (y.vtype.getLsbD 7) false y.seen (VForm.unit.item t) (places m1 k.toNat e pg t .unit)
          = (some (rd, pl), m2) →
        m2.trim rd pl {} t.size = .ok ((f, r), m3) → y.unresolved = false →
        (f = none → Goes (.vldff d a pg ts w) s ((m3.modSide k.toNat fun y => { y.loaded d t.size r with ffi := y.vl }).vfin k.toNat true))
        ∧ (∀ j c z va, f = some (j, c, z, va) → some j ≠ (y.actives pg).head? →
          Goes (.vldff d a pg ts w) s ((m3.modSide k.toNat fun y =>
            { y.loaded d t.size { r with pages := [0] } with ffi := BitVec.ofNat 11 j, vl := BitVec.ofNat 11 j }).vfin k.toNat true))
        ∧ ∀ j c z va, f = some (j, c, z, va) → some j = (y.actives pg).head? → Goes (.vldff d a pg ts w) s (m.vfault e e.pc c z j va)

/-- Vector stores outside a strip and into one, scatter-adds and vector prefetches (R342 to R344, R347, R202). -/
def Obligations.VectorStores : Prop :=
  ∀ (s : State) (k : BitVec 10) (e : VqEntry), let m := s.mach.left k.toNat
    (∀ (i : Instr) (ts : Option ETy) (w : BitVec 8) (v : VR) (vs : List VR) (pg : PR) (nf : Bool) (form : VqEntry → List (VR × VReg) → VForm)
      (src : List (VR × VReg)) (m1 : Mach), storeForm i = some (ts, w, v, vs, pg, nf, form) → atHeadT s k e ts .st w = true →
      let x := m.side k.toNat
      let t := x.ty ts
      let f := form e src
      m.reads k.toNat (x.vl.toNat * t.size) (v :: vs) none = some (src, m1) → (nf = true → (e.op 1).1.toNat % 8 = 0) →
      f.misaligned (e.op 0).1 t false ((m1.side k.toNat).actives pg) = none →
      ∀ els oor, storeEls (srcOf src v) t.size (m1.spoils k.toNat t.size) (places m1 k.toNat e pg t f) = (none, els, oor) →
        let count := fun (m : Mach) => m.modSide k.toNat fun y => { y with oorct := y.oorct + BitVec.ofNat 64 oor }
        (∀ m2, nf = false → (m1.side k.toNat).strip = none → x.strip = none → m1.vmWait k.toNat e = false →
          m1.store (m1.vacc k.toNat e) e.pc t.size els = .done m2 → Goes i s ((count m2).vfin k.toNat true))
        ∧ (∀ r m2 m3, nf = true → (m1.side k.toNat).strip = none → x.strip = none → m1.vmWait k.toNat e = false →
          m1.nfWord (m1.vacc k.toNat e) (e.op 1).1 = (.ok r, m2) → m2.store (m1.vacc k.toNat e) e.pc t.size els = .done m3 →
          Goes i s ((count (m3.addLater k.toNat (e.op 1).1 els.length e.lvl)).vfin k.toNat true))
        ∧ (x.strip.isSome = true → (m1.side k.toNat).strip.isSome = true →
          Goes i s (m.hold (count (m1.modSide k.toNat fun y => { y with strip := y.strip.map (·.keep []) })) k.toNat
            ⟨e.pc, e.lvl, t.size, els, if nf then some (e.op 1).1 else none⟩)))
    ∧ (∀ (a n : Src) (i v : VR) (pg : PR) (ts : Option ETy) (w : BitVec 8) (pol : Pol) (op : BankOp) (src : List (VR × VReg)) (m1 : Mach),
      atHeadT s k e ts .st w = true →
      let x := m.side k.toNat
      let t := x.ty ts
      let f := VForm.index (srcOf src i) (e.op 1).1.toNat pol
      bankTy t = true → m.reads k.toNat (x.vl.toNat * t.size) [i, v] none = some (src, m1) → x.strip = none → m1.vmWait k.toNat e = false →
      f.misaligned (e.op 0).1 t false (x.actives pg) = none →
      ∀ els oor m2 m3, storeEls (srcOf src v) t.size (m1.spoils k.toNat t.size) (places m k.toNat e pg t f) = (none, els, oor) →
        m1.confirmAll (m1.vacc k.toNat e) els = .ok m2 → m2.sendAll (m1.vacc k.toNat e) t op (k.toNat, e.tick) els = some m3 →
        Goes (.vscadd a i v n pg ts w pol op) s ((m3.modSide k.toNat fun y => { y with oorct := y.oorct + BitVec.ofNat 64 oor }).vfin k.toNat true))
    ∧ ∀ (a : Src) (b : Option Src) (pg : PR) (ts : Option ETy) (w : BitVec 8) (wr : Bool), atHeadT s k e ts .ld w = true →
      let t := (m.side k.toNat).ty ts
      let f := if b.isSome then VForm.stride (e.op 1).1 else .unit
      Goes (.vpf a b pg ts w wr) s ((m.vprefetch k.toNat wr (addrsOf (places m k.toNat e pg t f)) []).vfin k.toNat true)

/-- The scratchpad instructions of the lanes (R345, R346): with every active element in reach they read, write and combine the bytes at
their places; an index register v0 means the block form. -/
def Obligations.ScratchpadResults : Prop :=
  ∀ (s : State) (k : BitVec 10) (e : VqEntry) (ts : Option ETy) (pg : PR) (w : BitVec 8) (src : List (VR × VReg)) (m1 : Mach),
    let m := s.mach.left k.toNat
    let x := m.side k.toNat
    let t := x.ty ts
    let es := t.size
    let core := k.toNat / 2
    let reg := fun (i : VR) => if i = 0 then none else some i
    let inReach := fun (i : Option VR) (pl : List (Nat × Nat)) =>
      m1.spPlaces k.toNat (e.op 0).1 (i.map (srcOf src)) es (x.actives pg) = .ok (pl.map fun y => (y.1, SpPlace.at_ y.2))
    (∀ d a i pl, atHeadT s k e ts .ld w = true → x.stripFull = false →
      m.reads k.toNat (x.vl.toNat * es) ((reg i).toList ++ []) (some d) = some (src, m1) → m1.vmWait k.toNat e = false → inReach (reg i) pl →
      Goes (.vspld d a i pg ts w) s ((m1.modSide k.toNat fun y =>
        let z := y.wvBytes d es (pl.flatMap fun p => (List.range es).map fun j =>
          let b := (m1.core core).spRd (p.2 + j)
          (p.1 * es + j, b.1.toNat, b.2))
        { z with strip := z.strip.map (·.keep []) }).vfin k.toNat true))
    ∧ (∀ v a i pl, atHeadT s k e ts .st w = true → x.strip = none →
      m.reads k.toNat (x.vl.toNat * es) ((reg i).toList ++ [v]) none = some (src, m1) → m1.vmWait k.toNat e = false → inReach (reg i) pl →
      Goes (.vspst v a i pg ts w) s ((m1.spWrite k.toNat core (lastWrites (pl.flatMap fun p => (List.range es).map fun j =>
        (p.2 + j, BitVec.ofNat 8 ((srcOf src v).el 1 (p.1 * es + j)), (srcOf src v).bad 1 (p.1 * es + j) || m1.spoils k.toNat es p.1)))).vfin k.toNat true))
    ∧ ∀ d a i c op pl, atHeadT s k e ts .st w = true → x.strip = none → spOk op t = true →
      m.reads k.toNat (x.vl.toNat * es) [i, c] (some d) = some (src, m1) → m1.vmWait k.toNat e = false → inReach (some i) pl →
      let r := m1.spAmo k.toNat t op (srcOf src c) (pl.map fun y => (y.1, SpPlace.at_ y.2)) []
      Goes (.vspamo d a i c pg ts w op) s ((r.2.modSide k.toNat fun y => y.wvBytes d es r.1).vfin k.toNat true)

/-- The index scratchpad (R374, R375, R377): the active elements act one after another on tentative entries, which stand once no element traps;
the failure bits go to the predicate; `xdrain` takes the entries from the cursor on and leaves the cursor behind them, or at 0 when none is left
there; a poisoned key or value, and an entry with an uncorrectable error among those read, trap. Which entries a lookup reads, the eight of its
key's set, is the model's choice (log 167). -/
def Sys2Proof.Claims.IndexOps : Prop :=
  ∀ (s : State) (k : BitVec 10) (e : VqEntry),
    let m := s.mach.left k.toNat
    let x := m.side k.toNat
    (∀ (i : Instr) (ts : Option ETy) (pg pd : PR) (wr : Option VR) (key : VR) (val : Option VR) (step : ETy → BitVec 3 → IxStep)
      (src : List (VR × VReg)) (m1 : Mach), indexForm i = some (ts, pg, pd, wr, key, val, step) → atHeadT s k e ts .idx 0 = true →
      let t := x.ty ts
      let kf := fun j => ((srcOf src key).el t.size j, (srcOf src key).bad t.size j)
      let vf := fun j => match val with | some v => ((srcOf src v).el t.size j, (srcOf src v).bad t.size j) | none => (0, false)
      ixTy t = true → (wr = none → x.strip = none) → x.stripFull = false →
      m.reads k.toNat (x.vl.toNat * t.size) (key :: val.toList) wr = some (src, m1) →
      let ix := (m1.core (k.toNat / 2)).ix
      let stops := fun j => (kf j).2 || (vf j).2 || (ixBad ix (kf j).1).isSome
      (∀ j, (x.actives pg).find? stops = some j →
        ((kf j).2 = true → x.unresolved = false → Goes i s (m.laneTrap k.toNat 0x0c (w64 (0x5000 + j % 1024))))
        ∧ ((kf j).2 = false → (vf j).2 = true → x.unresolved = false → Goes i s (m.laneTrap k.toNat 0x0c (w64 (0x1000 + j % 1024))))
        ∧ ∀ v, (kf j).2 = false → (vf j).2 = false → ixBad ix (kf j).1 = some v → Goes i s (m.laneTrap k.toNat 0x0d v))
      ∧ ((x.actives pg).all (fun j => if (kf j).2 || (vf j).2 then x.unresolved else (ixBad ix (kf j).1).isNone) = true →
      ∀ ents rs, ixGo (step t x.frm) kf vf (x.actives pg) (m1.core (k.toNat / 2)).ix.ents [] = (ents, rs) →
        let ers := rs.map fun y => (y.1, y.2.1)
        m.settles k.toNat ers = true →
        Goes i s ((((m.settled m1 k.toNat ers 0).2.modIx k.toNat fun y => { y with ents := ents, usedIx := true }).modSide k.toNat fun y =>
          let z := y.setPred pd (putBits (y.pred pd) (rs.map fun r => (r.1, if r.2.2 then 1 else 0, false)))
          match wr with
          | some d => z.wv d t.size (m.settled m1 k.toNat ers 0).1
          | none => z).vfin k.toNat true)))
    ∧ ∀ (a b : VR) (ts : Option ETy), atHeadT s k e ts .idx 0 = true →
      let t := x.ty ts
      let vl := x.vl.toNat
      let ix := (m.core (k.toNat / 2)).ix
      let took := (ix.ents.filter fun y => ix.cursor ≤ y.1).take vl
      let rest := ix.ents.filter fun z => !took.any (·.1 == z.1)
      let behind := match took.getLast? with | some y => y.1 + 1 | none => ix.cursor
      let upTo := if took.length < vl then 4096 else behind
      ixTy t = true → x.strip = none →
      (∀ n v, ix.bad.find? (fun y => ix.cursor ≤ y.1 && y.1 < upTo) = some (n, v) → Goes (.xdrain a b ts) s (m.laneTrap k.toNat 0x0d v))
      ∧ (ix.bad.all (fun y => decide (y.1 < ix.cursor ∨ upTo ≤ y.1)) = true → Does (.xdrain a b ts) s (((m.modIx k.toNat fun y =>
          { y with ents := rest, cursor := if rest.any (fun z => behind ≤ z.1) then behind else 0, usedIx := true }).modSide k.toNat fun y =>
            { (y.wv a t.size ((List.range vl).map fun j => (j, (match took[j]? with | some z => z.2.key.toNat | none => 0), false))).wv b t.size
                ((List.range vl).map fun j => (j, (match took[j]? with | some z => z.2.val.toNat % 2 ^ (8 * t.size) | none => 0), false))
              with ffi := BitVec.ofNat 11 took.length }).vfin k.toNat true))

/-- `xclr` and `xcnt` (R376, R169): the entries go with their errors and the cursor is 0, whatever `vl`; the count of valid entries is written full
once every older X entry of the queue has completed, and until then the instruction waits. That those entries stand in the one queue of the side
is log 8, and that `xcnt` meets the owner check of its pipe log 70, both the model's choice. -/
def Sys2Proof.Claims.IndexCount : Prop :=
  ∀ s : State,
    (∀ k e, atHead s k e .idx 0 false = true → ((s.mach.left k.toNat).side k.toNat).strip = none →
      Does .xclr s (((s.mach.left k.toNat).modIx k.toNat fun y => { y with ents := [], bad := [], cursor := 0, usedIx := true }).vpop k.toNat))
    ∧ ∀ d, s.mach.isRole .P = true → s.mach.ready (some d) [] [] = true → s.mach.owns s.mach.myNo 5 = true →
      (s.mach.mySide.vq.any (fun e => inX e.ins) = false →
        Does (.xcnt d) s (s.mach.completes d (BitVec.ofNat 64 s.mach.myCore.ix.ents.length)))
      ∧ (s.mach.mySide.vq.any (fun e => inX e.ins) = true → Does (.xcnt d) s s.mach.stay)

/-- The index scratchpad (R374 to R377). -/
def Obligations.IndexResults : Prop := Claims.IndexOps ∧ Claims.IndexCount

/-- The interpolation table (R378, R379): `tbset` reads and converts its knots exactly; `vtint` and `vtlkp` compute each active element from
the knots. -/
def Obligations.TableResults : Prop :=
  ∀ (s : State) (k : BitVec 10) (e : VqEntry),
    let m := s.mach.left k.toNat
    let x := m.side k.toNat
    (atHead s k e .idx 0 false = true → ∀ a n h f l m1,
      let t := knotTy f
      let cnt := (e.op 1).1.toNat
      let step := (e.op 2).1.toNat / 2 ^ 32
      x.strip = none → 2 ≤ cnt → cnt ≤ 1024 → finite32 ((e.op 2).1.toNat % 2 ^ 32) = true →
      (∃ n x, floatVal .f32 step = .fin false n x) → (e.op 0).1.toNat % t.size = 0 → m.loadsDone = true → x.leaving = [] →
      m.knots (m.vacc k.toNat e) (e.op 0).1 t cnt 0 [] = .done l m1 →
      Goes (.tbset a n h f) s ((m1.modIx k.toNat fun y =>
        { y with knots := l, x0 := BitVec.ofNat 32 ((e.op 2).1.toNat % 2 ^ 32), h := BitVec.ofNat 32 step, usedTab := true }).vpop k.toNat))
    ∧ ∀ d a pg ts rm src m1 (near : Bool), atHeadT s k e ts .idx 0 = true →
      let t := x.ty ts
      let ix := (m.core (k.toNat / 2)).ix
      (t = .f16 ∨ t = .bf16 ∨ t = .f32) → ix.knots ≠ [] → x.stripFull = false →
      m.reads k.toNat (x.vl.toNat * t.size) [a] (some d) = some (src, m1) →
      let rs := (x.actives pg).map fun j =>
        let y := ix.interp (rmOf rm x.frm) near (floatVal t ((srcOf src a).el t.size j))
        let r := roundF t (rmOf rm x.frm) y.1
        (j, ({ val := r.1, fl := y.2 ||| r.2, bad := (srcOf src a).bad t.size j } : ERes))
      m.settles k.toNat rs = true →
      Goes (if near then .vtlkp d a pg ts rm else .vtint d a pg ts rm) s (finishes m m1 k.toNat d t.size rs)

end

namespace Sys2Proof.Claims
open Sys2Proof Sys2Proof.Machine

/-- A matrix command goes into the M queue with the shape and the slice count as they stand (R348, R349, R353). -/
def mQueued (m : Mach) (kind : MKind) (addr : Word) : Mach :=
  let m2 := m.tick.2
  (m2.modMx m2.myNo fun x => { x with mq := x.mq ++ [m2.mcmd kind addr m.tick.1] }).retire

/-- Nothing holds a matrix command back: no staged command names what it names, and the sequencer's own scalar accesses are done
(R180, R193). -/
def mFree (m : Mach) (kind : MKind) : Bool := !m.myCore.mx.blocked kind && m.scalarsDone

/-- A scratchpad operand of `rows` rows of `rb` bytes at `a` lies in reach of the side on its own core (R353). -/
def mReach (m : Mach) (a : Word) (al rb rows : Nat) : Bool :=
  a.toNat / 2 ^ 18 % 8 == m.myNo / 2 % 8 && a.toNat % al == 0
    && (List.range rows).all fun r => (m.spOwn m.myNo).has (a.toNat % 2 ^ 18 + (r + 1) * rb - 1)

/-- The bytes of row `r` of the scratchpad operand of a multiply-accumulate, with their poison (R353). -/
def aRow (m : Mach) (k : Nat) (c : MCmd) (es r : Nat) : List (Byte × Bool) :=
  (List.range (128 * es)).map fun i => (m.core (k / 2)).spRd ((m.spOwn k).lin 3 (c.addr.toNat % 2 ^ 18 + r * 128 * es + i))
/-- Item `j` of a row of items of `es` bytes. -/
def rowItem (row : List (Byte × Bool)) (es j : Nat) : Nat := (gatherLe ((row.drop (es * j)).take es)).1

/-- The group step of R354: `A` holds the 32 items of the row, `w` the digits of the column, `X` its exponent. -/
def groupStep (A : List Machine.Num) (w : Nat → Int) (X : Nat) (acc : Nat) : Nat :=
  if A.any (·.special) = true ∨ X = 0 then qnan .f32
  else
    let EA := match A.filterMap (·.lg) with | [] => 0 | e :: r => r.foldl max e
    let u := A.map fun v => match v with | .fin s n e => (toInt .rtz s n (e + 23 - EA)).1 | _ => 0
    let S := ((List.range 32).map fun j => (u[j]?).getD 0 * w j).sum
    let t : Machine.Num := if S = 0 then .zero false else .fin (decide (S < 0)) S.natAbs (EA - 23 + (X : Int) - 135)
    (fAdd .f32 .rne acc (roundF .f32 .rne t).1).1
/-- The sum of R354 for row bytes `row` and column `cI`: the four groups in ascending k. -/
def macSum (x : MxState) (b : Bool) (t : ETy) (row : List (Byte × Bool)) (cI acc : Nat) : Nat :=
  (List.range 4).foldl (fun acc g => groupStep ((List.range 32).map fun j => floatVal t (rowItem row t.size (32 * g + j)))
    (fun j => (x.cells.get 0 (256 * (128 * nb b + 32 * g + j) + cI)).toInt) (x.exps.get 0 (256 * (4 * nb b + g) + cI)).toNat acc) acc
/-- The sum of R355: in each group the exact sum of the products of the sliced values, here in units of 2^-2400, then rounded and accumulated. -/
def macSum64 (x : MxState) (b : Bool) (s : Nat) (row : List (Byte × Bool)) (cI acc : Nat) : Nat :=
  (List.range 4).foldl (fun acc g =>
    let a := fun j => slices s (rowItem row 8 (32 * g + j))
    let w := fun j => x.wF64 (128 * nb b + 32 * g + j) cI
    if (List.range 32).any (fun j => (a j).2.2 || (w j).2.2) = true then qnan .f64
    else
      let T := ((List.range 32).map fun j =>
        (a j).1 * (w j).1 * 2 ^ (((max (a j).2.1 1 : Nat) : Int) - 1023 + 2 - 8 * s + (w j).2.1 + 2400).toNat).sum
      let v : Machine.Num := if T = 0 then .zero false else .fin (decide (T < 0)) T.natAbs (-2400)
      (fAdd .f64 .rne acc (roundF .f64 .rne v).1).1) acc

/-- What a multiply-accumulate leaves (R353 to R355, R220): in rows 0 to m - 1 and columns 0 to n - 1 of its accumulator the sum over the row
and the column; poison where a byte of the row or a cell of the column is poisoned, with no value named, or where the element was; every
other element, every cell and every exponent as it was. -/
def Accumulates (m m1 : Mach) (k : Nat) (c : MCmd) (ai : BitVec 2) (t : ETy) (b : Bool) : Prop :=
  let x := (m.core (k / 2)).mx
  let y := (m1.core (k / 2)).mx
  let at_ := fun r cI => 8192 * ai.toNat + 256 * r + (if t = .f64 then 2 * cI else cI)
  let bad := fun r cI => (aRow m k c t.size r).any (·.2) || x.badCol b cI (if t = .f64 then 8 else 1)
  (∀ r < c.m, ∀ cI < c.n, let i := at_ r cI
    (t ≠ .f64 →
      (bad r cI = false → y.acc.get 0 i = BitVec.ofNat 32 (macSum x b t (aRow m k c t.size r) cI (x.acc.get 0 i).toNat))
      ∧ y.accPois.get false i = (bad r cI || x.accPois.get false i))
    ∧ (t = .f64 →
      (bad r cI = false → let v := macSum64 x b c.slices (aRow m k c 8 r) cI ((x.acc.get 0 i).toNat + 2 ^ 32 * (x.acc.get 0 (i + 1)).toNat)
        y.acc.get 0 i = BitVec.ofNat 32 (v % 2 ^ 32) ∧ y.acc.get 0 (i + 1) = BitVec.ofNat 32 (v / 2 ^ 32))
      ∧ y.accPois.get false i = (bad r cI || x.accPois.get false i || x.accPois.get false (i + 1))
      ∧ y.accPois.get false (i + 1) = y.accPois.get false i))
  ∧ (∀ n, (∀ r < c.m, ∀ cI < c.n, n ≠ at_ r cI ∧ (t = .f64 → n ≠ at_ r cI + 1)) →
      y.acc.get 0 n = x.acc.get 0 n ∧ y.accPois.get false n = x.accPois.get false n)
  ∧ y.cells = x.cells ∧ y.exps = x.exps ∧ y.bad = x.bad ∧ y.slots = x.slots ∧ y.mq = x.mq ∧ m1.log = m.log

/-- The stream commands that name a token and a record (R364, R368 to R370): destination, record, token, further sources, wait mask,
whether the index type is legal, and the command as it reads its operands. -/
def streamForm : Instr → Option (SDst × BitVec 3 × BitVec 3 × List Src × BitVec 8 × Bool × (Mach → SOp))
  | .cpy d ly tk none w => some (d, ly, tk, [], w, true, fun m => m.sCmd .cpy d ly tk none 0 0 1 .i8 .poison)
  | .sgath d ly tk a b c it w pol p =>
    some (d, ly, tk, [a, b, c], w, idxTy it, fun m => m.sCmd (.sgath p) d ly tk none (m.val a) (m.val b).toNat (m.val c).toNat it pol)
  | .sgred d ly tk a b c it w pol op =>
    some (d, ly, tk, [a, b, c], w, idxTy it, fun m => m.sCmd (.sgred op) d ly tk none (m.val a) (m.val b).toNat (m.val c).toNat it pol)
  | .sscadd d ly tk a b c it w pol op =>
    some (.x d, ly, tk, [a, b, c], w, idxTy it, fun m => m.sCmd (.sscadd op) (.x d) ly tk none (m.val a) (m.val b).toNat (m.val c).toNat it pol)
  | _ => none

/-- Coordinate `i` of element `e` of a window (R360): E = w0 + win0 * (w1 + win1 * (w2 + …)). -/
def winCoord (r : BitVec 768) (e i : Nat) : Int :=
  lyOrg r i + ((e / ((List.range i).map (lyWin r)).prod % lyWin r i : Nat) : Int)
/-- Where the element at coordinates `c` comes from (R360). -/
def winEl (r : BitVec 768) (c : Nat → Int) : ElSrc :=
  let at_ := fun (c : Nat → Int) => lyBase r + BitVec.ofInt 64 ((List.range (lyRank r)).map fun i => c i * lyStr r i).sum
  let dims := List.range (lyRank r)
  if dims.all (fun i => decide (0 ≤ c i) && decide (c i < lyExt r i)) then .mem (at_ c)
  else if lyF r 536 2 = 0 then .val (lyFill r)
  else if lyF r 536 2 = 1 ∨ dims.any (fun i => lyExt r i == 0) = true then .val 0
  else .mem (at_ fun i => min (max (c i) 0) ((lyExt r i : Int) - 1))
/-- Reads of `es` bytes one after another: the values with their poison, when none fails and none has to wait. -/
def readEls (m : Mach) (a : Acc) (es : Nat) : List ElSrc → Option (List (Nat × Bool) × Mach)
  | [] => some ([], m)
  | .val v :: r => (readEls m a es r).map fun x => ((v, false) :: x.1, x.2)
  | .mem va :: r => match m.load a va es false with
    | (.ok v, m) => (readEls m a es r).map fun x => (v :: x.1, x.2)
    | _ => none
/-- The rows of positions one after another, when none fails and none has to wait. -/
def tableRows (m : Mach) (a : Acc) (o : SOp) (dotp : Bool) (c : SecCache) : List Nat → Option (List RowRes × SecCache × Mach)
  | [] => some ([], c, m)
  | j :: r => match m.gatherRow a o c j dotp with
    | .ok (.ok x, c, m) => (tableRows m a o dotp c r).map fun y => (x :: y.1, y.2)
    | _ => none

/-- A stream command can be accepted now as a first attempt (R172, R361): its record and layout are legal, its token is not faulted and has
backlog room, a copy finds a slot, and the sequencer's own scalar accesses are done. -/
def sFree (m : Mach) (ly : BitVec 3) (o : SOp) : Bool :=
  let t := m.token (m.myNo / 2) o.tk.toNat
  m.scalarsDone && t.status != 3 && t.room o.ops && m.recCheck m.myNo ly o == none
    && !(o.kind == .cpy && (match o.cb with | some c => (m.cbuf m.myNo c).full | none => false))

/-- The machine after acceptance (R172, R173, R171): the token counts the operations, a copy claims its slot, the command joins the queue. -/
def sAccepted (m : Mach) (o : SOp) : Mach :=
  let k := m.myNo
  let m1 := m.tick.2.modToken (k / 2) o.tk.toNat (·.take o.ops)
  let o := { o with asn := m1.mySide.asn, lvl := m1.me.level, tick := m.tick.1 }
  let (o, m2) := if o.kind == .cpy then m1.claim k o else (o, m1)
  (m2.sPut k o).retire

end Sys2Proof.Claims

section
open Sys2Proof Sys2Proof.Machine Sys2Proof.Claims

/-- The matrix instructions (R349, R350, R353, R357, R179): `mcfg` sets the shape and returns the old one; the others are accepted into the M
queue once their operands, pages and reach are legal; the staging form goes by the state of its slot. -/
def Sys2Proof.Claims.MatrixIssue : Prop :=
  ∀ (s : State) (w : BitVec 8) (a : Src), let m := s.mach
    let dims := (m.myCore.mx.shape.toNat % 2 ^ 5 + 1, m.myCore.mx.shape.toNat / 2 ^ 8 % 2 ^ 8 + 1)
    (∀ d, m.engineOk .M 6 (some d) [a] w = true →
      (m.val a &&& ~~~0xff1f#64 = 0 → Does (.mcfg d a w) s (((m.modMx m.myNo fun x => { x with shape := m.val a }).completes d m.myCore.mx.shape)))
      ∧ (m.val a &&& ~~~0xff1f#64 ≠ 0 → Goes (.mcfg d a w) s (m.trapHead 0x01)))
    ∧ (∀ d, m.engineOk .M 6 none [] w = true → mFree m (.mzero d) = true → Does (.mzero d w) s (mQueued m (.mzero d) 0))
    ∧ (m.engineOk .M 6 none [a] w = true →
      (∀ t b m1, (t = .e4m3 ∨ t = .e5m2 ∨ t = .bf16 ∨ (t = .f64 ∧ m.hasCap 0x11 = true ∧ dims.2 ≤ 32 ∧ m.mySide.vtype.extractLsb' 4 3 ≠ 0)) →
        (m.val a).toNat % 128 = 0 → (∀ k, m.readPages (pagesOf (m.val a) (dims.2 * 128 * t.size)) k = k m1) → mFree m1 (.mld t b) = true →
        Goes (.mld a t w b) s (mQueued m1 (.mld t b) (m1.val a)))
      ∧ (∀ b d p tag f m1 m2, (m.val a).toNat % 128 = 0 → m.viewSec m.myAcc (m.val a) false = (.ok (d, p, tag, f), m1) →
        (∀ k, m1.readPages (pagesOf (m.val a) ((m1.myCore.mx.dims.2 * 128 + viewItems ((tag.map (·.1)).getD 0) - 1)
          / viewItems ((tag.map (·.1)).getD 0) * 128)) k = k m2) → mFree m2 (.mldFr b) = true →
        Goes (.mldFr a w b) s (mQueued m2 (.mldFr b) (m.val a)))
      ∧ (∀ d t b, (t = .e4m3 ∨ t = .e5m2 ∨ t = .bf16 ∨ (t = .f64 ∧ m.hasCap 0x11 = true ∧ dims.1 ≤ 8 ∧ dims.2 ≤ 32)) →
        mReach m (m.val a) 128 (128 * t.size) dims.1 = true →
        (mFree m (.mmac d t b) = true → Does (.mmac d a t w b) s (mQueued m (.mmac d t b) (m.val a)))
        ∧ ∀ sc : BitVec 2, mFree m (.mmac d t b) = true →
          (m.myCore.mx.slots.get .empty sc.toNat = .empty → Does (.mmacStaged d a t w b sc) s ((m.modMx m.myNo fun x =>
            { x with slots := x.slots.set sc.toNat (.staged (m.mcmd (.mmac d t b) (m.val a) 0)) }).retire))
          ∧ (m.myCore.mx.slots.get .empty sc.toNat = .armed →
              let m1 := m.modMx m.myNo fun x => { x with slots := x.slots.set sc.toNat .empty }
              mFree m1 (.mmac d t b) = true → Does (.mmacStaged d a t w b sc) s (mQueued m1 (.mmac d t b) (m.val a)))
          ∧ (∀ c, m.myCore.mx.slots.get .empty sc.toNat = .staged c → Does (.mmacStaged d a t w b sc) s m.wait))
      ∧ (∀ d t m1, (t = .f32 ∨ t = .f16 ∨ t = .bf16 ∨ (t = .f64 ∧ dims.2 ≤ 32)) → (m.val a).toNat % t.size = 0 →
        (∀ k, m.writePages (pagesOf (m.val a) (dims.1 * dims.2 * t.size)) k = k m1) → mFree m1 (.mst d t) = true →
        Goes (.mst d a t w) s (mQueued m1 (.mst d t) (m1.val a)))
      ∧ ∀ d t, (t = .f32 ∨ t = .f16 ∨ t = .bf16 ∨ (t = .f64 ∧ dims.2 ≤ 32)) → mReach m (m.val a) 128 (dims.2 * t.size) dims.1 = true →
        mFree m (.mrd d t) = true → Does (.mrd d a t w) s (mQueued m (.mrd d t) (m.val a)))

/-- The matrix engine performs the oldest command of its queue (R350 to R357): weight loads, multiply-accumulates, stores and reads leave
the queue with their effect; a multiply-accumulate leaves in every element of its rows and columns the sum of R354 or R355; `mzero` makes every element of its accumulator zero and unpoisoned and no other. -/
def Sys2Proof.Claims.MatrixPerform : Prop :=
  ∀ (s : State) (side : BitVec 10) (c : MCmd), let k := side.toNat
    let m := s.mach
    m.mHead k = some c →
    (∀ t b m1, c.kind = .mld t b → m.mldPlain k c t b = .ok m1 → Goes (.mldExecute side) s (m1.mPop k))
    ∧ (∀ b m1, c.kind = .mldFr b → m.mldFormatted k c b = .ok m1 → Goes (.mldExecute side) s (m1.mPop k))
    ∧ (∀ a t b, c.kind = .mmac a t b → Does (.mmacExecute side) s ((m.mmacRun k c a t b).mPop k)
        ∧ (c.m ≤ 32 → c.n ≤ (if t = .f64 then 128 else 256) → Accumulates m (m.mmacRun k c a t b) k c a t b))
    ∧ (∀ a t m1, c.kind = .mst a t → m.mstRun k c a t = some m1 → Goes (.mmacExecute side) s (m1.mPop k))
    ∧ (∀ a t, c.kind = .mrd a t → Does (.mmacExecute side) s ((m.mrdRun k c a t).mPop k))
    ∧ ∀ a : BitVec 2, c.kind = .mzero a → ∃ m1 : Mach, Does (.mmacExecute side) s (m1.mPop k)
        ∧ (∀ n, (m1.core (k / 2)).mx.acc.get 0 n = if n / 8192 = a.toNat then 0 else (m.core (k / 2)).mx.acc.get 0 n)
        ∧ (∀ n, (m1.core (k / 2)).mx.accPois.get false n = if n / 8192 = a.toNat then false else (m.core (k / 2)).mx.accPois.get false n)
        ∧ (m1.core (k / 2)).mx.cells = (m.core (k / 2)).mx.cells ∧ (m1.core (k / 2)).mx.exps = (m.core (k / 2)).mx.exps
        ∧ (m1.core (k / 2)).mx.mq = (m.core (k / 2)).mx.mq ∧ m1.log = m.log

/-- The matrix engine (R349 to R357): the acceptance of its commands and their performance. -/
def Obligations.MatrixResults : Prop := Claims.MatrixIssue ∧ Claims.MatrixPerform

/-- The stream commands (R364, R367 to R370): accepted, they count on their token and join the S queue; a copy with a follow-on slot needs
that slot free; an index type that is no index type is illegal. -/
def Obligations.StreamCommands : Prop :=
  (∀ (i : Instr) (d : SDst) (ly tk : BitVec 3) (ss : List Src) (w : BitVec 8) (ok : Bool) (cmd : Mach → SOp),
    streamForm i = some (d, ly, tk, ss, w, ok, cmd) → ∀ s : State, s.mach.engineOk .S 7 none (sdstSrcs d ++ ss) w = true →
      (ok = true → sFree s.mach ly (cmd s.mach) = true → Does i s (sAccepted s.mach (cmd s.mach)))
      ∧ (ok = false → Goes i s (s.mach.trapHead 0x01)))
  ∧ ∀ (s : State) (d : SDst) (ly tk : BitVec 3) (sc : BitVec 2) (w : BitVec 8), s.mach.engineOk .S 7 none (sdstSrcs d) w = true →
      s.mach.owns s.mach.myNo 6 = true → s.mach.myCore.mx.slots.get .empty sc.toNat ≠ .armed →
      (s.mach.sx s.mach.myNo).sq.all (fun o => o.fo != some sc) = true →
      let o := s.mach.sCmd .cpy d ly tk (some sc) 0 0 1 .i8 .poison
      sFree s.mach ly o = true → Does (.cpy d ly tk (some sc) w) s (sAccepted s.mach o)

/-- Ports, circular buffers and layout registers (R366, R371, R363): `sbind`, `cbinit`, `cbget`, `cbput`, `lyset`, `lyld`, `lyst`. -/
def Obligations.StreamRegisters : Prop :=
  ∀ (s : State) (w : BitVec 8), let m := s.mach
    let k := m.myNo
    m.scalarsDone = true →
    (m.engineOk .S 7 none [] w = true →
      (∀ sp ly, lyReserved ((m.sx k).ly.get 0 ly.toNat) (m.hasCap 0x12) = none → lyInvalid ((m.sx k).ly.get 0 ly.toNat) true = false →
        (m.token (k / 2) 0).status ≠ 3 →
        Does (.sbind sp ly w) s ((m.tick.2.modSx k fun x =>
          let q : SPort := x.sp.get {} sp.toNat
          { x with sp := x.sp.set sp.toNat { q with pats := q.pats ++ [⟨(m.sx k).ly.get 0 ly.toNat, m.mySide.asn, m.me.level, m.tick.1⟩] } }).retire))
      ∧ ∀ cb, m.cbOk k (m.cbuf k cb) = true →
        ((m.cbuf k cb).freed ≠ (m.cbuf k cb).taken → Does (.cbput cb w) s ((m.modCb k cb fun b => { b with freed := b.freed + 1 }).retire))
        ∧ ((m.cbuf k cb).freed = (m.cbuf k cb).taken → Goes (.cbput cb w) s (m.trapHead 0x15)))
    ∧ (∀ d cb, m.engineOk .S 7 (some d) [] w = true →
      (m.cbOk k (m.cbuf k cb) = true → (m.cbuf k cb).taken ≠ (m.cbuf k cb).filled →
        Does (.cbget d cb w) s ((m.modCb k cb fun b => { b with taken := b.taken + 1 }).completes d
          (BitVec.ofNat 64 (k / 2 % 8 * 2 ^ 18 + (m.cbuf k cb).start (m.cbuf k cb).taken))))
      ∧ (m.cbOk k (m.cbuf k cb) = true → (m.cbuf k cb).taken = (m.cbuf k cb).filled → Does (.cbget d cb w) s m.wait)
      ∧ (m.cbOk k (m.cbuf k cb) = false → Goes (.cbget d cb w) s (m.trapV 0x10 (BitVec.ofNat 64 (cb.toNat * 2 ^ 40)))))
    ∧ (∀ d cb a, m.engineOk .S 7 (some d) [a] w = true → (m.sx k).sq.all (fun o => o.cb != some cb) = true →
      Does (.cbinit d cb a w) s ((m.modCb k cb fun _ => { desc := (m.val a).setWidth 32 }).completes d ((m.val a) &&& 0xffffffff)))
    ∧ ∀ (ly : BitVec 3) (a : Src), m.engineOk .S 7 none [a] w = true →
      (∀ (sel : BitVec 6) lo n, lyField sel.toNat = some (lo, n) → Does (.lyset ly a sel w) s ((m.modSx k fun x =>
        { x with ly := x.ly.set ly.toNat (lyPut (x.ly.get 0 ly.toNat) lo n (m.val a).toNat) }).retire))
      ∧ (∀ l m1, (m.val a).toNat % 32 = 0 → m.sBlocked = false → m.loadWords m.myAcc (m.val a) 12 = (.ok l, m1) →
        l.all (fun x => !x.2) = true → Goes (.lyld ly a w) s ((m1.modSx m1.myNo fun x =>
          { x with ly := x.ly.set ly.toNat (BitVec.ofNat 768 (l.foldr (fun w n => w.1.toNat + 2 ^ 64 * n) 0)) }).retire))
      ∧ ∀ m1 m2, (m.val a).toNat % 32 = 0 → m.sBlocked = false → (∀ k, m.writePages (pagesOf (m.val a) 96) k = k m1) →
        m1.store m1.myAcc m1.me.pc 8 ((List.range 12).map fun i =>
          ⟨i, m.val a + BitVec.ofNat 64 (8 * i), BitVec.ofNat 64 (((m1.sx m1.myNo).ly.get 0 ly.toNat).toNat / 2 ^ (64 * i)), false⟩) = .done m2 →
        Goes (.lyst ly a w) s m2.retire

/-- The stream engine at work (R171 to R174, R217, R367): the oldest operation that may start claims its slot; an element group lands; the
oldest operation finishes; a port reads ahead. -/
def Sys2Proof.Claims.StreamMoves : Prop :=
  ∀ (s : State) (side : BitVec 10), let k := side.toNat
    let m := s.mach
    m.owns k 7 = true →
    (∀ o i, (m.sx k).sq.zipIdx.find? (fun x => m.mayStart k x.2 x.1) = some (o, i) →
      Does (.streamOperationStart side) s ((m.claim k o).2.modOp k i fun _ => { (m.claim k o).1 with started := true }))
    ∧ (∀ (i : BitVec 8) o, (m.sx k).sq[i.toNat]? = some o → m.mayLand k i.toNat o = true →
      (o.kind = .cpy → Goes (.copyGroupLanding side i) s (m.cpyGroup k i.toNat o))
      ∧ (∀ p, o.kind = .sgath p → Goes (.copyGroupLanding side i) s (m.gathGroup k i.toNat o p))
      ∧ (∀ op, o.kind = .sgred op → Goes (.copyGroupLanding side i) s (m.bagGroup k i.toNat o op))
      ∧ (∀ op, o.kind = .sscadd op → Goes (.copyGroupLanding side i) s (m.scaddGroup k i.toNat o op)))
    ∧ (∀ o i, (m.sx k).sq.zipIdx.find? (fun x => !x.1.faulted) = some (o, i) → o.landed = true → m.updOpen (side, o.tk) = false →
      let m1 := m.modToken (k / 2) o.tk.toNat Token.finish
      (o.ops ≤ o.b + 1 → Does (.streamOperationFinish side) s (m1.modSx k fun x => { x with sq := x.sq.eraseIdx i }))
      ∧ (o.b + 1 < o.ops → Does (.streamOperationFinish side) s (m1.modOp k i fun o =>
          { o with b := o.b + 1, started := false, landed := false, slot := none, cache := [], acc := none })))
    ∧ ∀ (sp : BitVec 3) m1, let view := (m.side k).vtype.getLsbD 7
      let ahead := (((m.sx k).sp.get {} sp.toNat).avail view).length
      ahead < 4096 → (m.side k).landed = false → (m.side k).cancelTold = false → m.portFill k sp.toNat (ahead + 1) view 1 = .ok m1 →
      Goes (.streamPortFetch side sp) s m1

/-- A group of a copy (R217, R359 to R364): the elements from the position on are read where the layout record says, element e from the address of
its coordinates or from the oob rule, and stored at byte e * esize of the destination: in scratchpad at the place that swizzle and granule give
it, in memory at d + e * esize, on pages confirmed before. Then the command stands behind the group. -/
def Sys2Proof.Claims.CopyBytes : Prop :=
  ∀ (s : State) (side : BitVec 10) (i : BitVec 8) (o : SOp) (vals : List (Nat × Bool)) (m1 : Mach), let k := side.toNat
    let m := s.mach
    let r := o.rec_
    let es := (lyType r).size
    let per := 1024 / es
    let fin := min (o.pos / per * per + per) (lyCount r)
    let n := fin - o.pos
    let a := m.engAcc k o.asn o.lvl
    let stands := fun (m2 : Mach) => (m2.sx k).sq[i.toNat]? = some { o with pos := fin, cache := [], landed := decide (lyCount r ≤ fin) }
    m.owns k 7 = true → (m.sx k).sq[i.toNat]? = some o → m.mayLand k i.toNat o = true → o.kind = .cpy → (m.sx k).bars = [] →
    readEls m a es ((List.range n).map fun j => winEl r (winCoord r (o.pos + j))) = some (vals, m1) →
    (∀ rg l0, m.sDest k o = .sp rg l0 → lyGran r ≤ 6 →
      let place := fun x => lySwz r (l0 + x)
      (∀ j < n, ∀ b < es, rg.has (place ((o.pos + j) * es + b)) = true) →
      ∃ m2 : Mach, Goes (.copyGroupLanding side i) s m2 ∧ stands m2
        ∧ ∀ j v, vals[j]? = some v → ∀ b < es, let x := (m2.core rg.core).spRd (rg.lin (lyGran r) (place ((o.pos + j) * es + b)))
          x.1 = BitVec.ofNat 8 (v.1 / 256 ^ b) ∧ (v.2 = true → x.2 = true))
    ∧ ∀ d m2 m3, m.sDest k o = .mem d → d.toNat % es = 0 →
      let put := vals.zipIdx.map fun (v, j) => (⟨o.pos + j, (o.pos + j) * es, v.1, v.2⟩ : Piece)
      m1.dstCheck a r (.mem d) es put = (none, m2) →
      m2.store a 0 es (put.map fun p => ⟨p.num, d + w64 p.off, w64 p.val, p.pois⟩) = .done m3 →
      ∃ m4 : Mach, Goes (.copyGroupLanding side i) s m4 ∧ stands m4 ∧ m4.log = m3.log ∧ ∀ c, (m4.core c).l1 = (m3.core c).l1

/-- A group of a gather (R61, R368): the rows of its positions lie one behind the other at the destination, row j of a command at byte
j * rowBytes, of a batch in a circular buffer from the batch's first position on. -/
def Sys2Proof.Claims.GatherBytes : Prop :=
  ∀ (s : State) (side : BitVec 10) (i : BitVec 8) (o : SOp) (dotp : Bool) (rows : List RowRes) (c1 : SecCache) (m1 : Mach), let k := side.toNat
    let m := s.mach
    let r := o.rec_
    let es := (lyType r).size
    let rb := lyWin r 0 * es
    let lo := o.b * o.bsz
    let hi := min (lo + o.bsz) o.n
    let per := if rb = 0 then o.bsz else (1024 + rb - 1) / rb
    let fin := min (lo + (o.pos - lo) / per * per + per) hi
    let n := fin - o.pos
    let from_ := if o.cb.isSome then lo else 0
    m.owns k 7 = true → (m.sx k).sq[i.toNat]? = some o → m.mayLand k i.toNat o = true → o.kind = .sgath dotp → (m.sx k).bars = [] → lo ≤ o.pos →
    tableRows m (m.engAcc k o.asn o.lvl) o dotp o.cache ((List.range n).map (o.pos + ·)) = some (rows, c1, m1) →
    ∀ rg l0, m.sDest k o = .sp rg l0 → lyGran r ≤ 6 →
      let place := fun j y => lySwz r (l0 + (o.pos + j - from_) * rb + y)
      (∀ j < n, ∀ y < rb, rg.has (place j y) = true) →
      ∃ m2 : Mach, Goes (.copyGroupLanding side i) s m2
        ∧ (m2.sx k).sq[i.toNat]? = some { o with pos := fin, cache := if fin < hi then c1 else [], landed := decide (hi ≤ fin) }
        ∧ ∀ j x row y v, rows[j]? = some x → x.row = some row → row[y]? = some v → ∀ b < es,
          let z := (m2.core rg.core).spRd (rg.lin (lyGran r) (place j (y * es + b)))
          z.1 = BitVec.ofNat 8 (v.1 / 256 ^ b) ∧ (v.2 = true → z.2 = true)

/-- The row of a position (R68, R367): the index is read at idx + j * isize; inside the bound the elements of table row x lie at base +
(org0 + y) * str0 + x * str1; outside the policy decides: no row, a row of poison, a row of zeros, or the last row. -/
def Sys2Proof.Claims.TableRow : Prop :=
  ∀ (m : Mach) (a : Acc) (o : SOp) (c : SecCache) (j : Nat) (dotp : Bool) (v : Nat) (c1 : SecCache) (m1 : Mach),
    let r := o.rec_
    let es := (lyType r).size
    let bound := lyExt r 1
    let x := idxVal o.it v
    let inside := 0 ≤ x ∧ x < bound
    let row := fun (i : Int) => (List.range (lyWin r 0)).map fun y => winEl r fun q => if q = 0 then lyOrg r 0 + (y : Nat) else i
    lyRank r = 2 → m.rdAny a c (o.idx + w64 (j * o.it.size)) o.it.size = (.ok (v, false), c1, m1) →
    (∀ l c2 m2, inside → m1.rdEls a es (row x) c1 [] = .ok (.ok l, c2, m2) →
      ∃ res, m.gatherRow a o c j dotp = .ok (.ok res, c2, m2) ∧ res.row = some l ∧ res.oor = 0 ∧ res.pois = l.countP (·.2))
    ∧ (¬ inside → o.pol = .skip → ∃ res, m.gatherRow a o c j dotp = .ok (.ok res, c1, m1) ∧ res.row = none ∧ res.oor = 1)
    ∧ (¬ inside → o.pol = .poison → ∃ res l m2, m.gatherRow a o c j dotp = .ok (.ok res, c1, m2) ∧ res.row = some l ∧ res.oor = 1
        ∧ l.length = lyWin r 0 ∧ l.all (·.2) = true)
    ∧ (¬ inside → o.pol = .zero ∨ (o.pol = .clamp ∧ bound = 0) → ∃ res, m.gatherRow a o c j dotp = .ok (.ok res, c1, m1)
        ∧ res.row = some (List.replicate (lyWin r 0) (0, false)) ∧ res.oor = 1)
    ∧ ∀ l c2 m2, ¬ inside → o.pol = .clamp → bound ≠ 0 → m1.rdEls a es (row ((bound : Int) - 1)) c1 [] = .ok (.ok l, c2, m2) →
      ∃ res, m.gatherRow a o c j dotp = .ok (.ok res, c2, m2) ∧ res.row = some l ∧ res.oor = 1

/-- The stream engine at work (R171 to R174, R217, R367), and the bytes that the groups of copies and gathers read and write (R359 to R368). -/
def Obligations.StreamPerform : Prop := Claims.StreamMoves ∧ Claims.CopyBytes ∧ Claims.GatherBytes ∧ Claims.TableRow

/-- The counts of a token (R172, R173): operations beyond 255 wait in the backlog; a finished operation counts in done and lets the next of
the backlog be counted; status 2 says that none is pending; a faulted token stays faulted; out-of-range and poison counts saturate. -/
def Sys2Proof.Claims.TokenCounts : Prop :=
  ∀ (t : Token) (n oor pois : Nat), t.pend ≤ 255 → t.status ≠ 3 →
    (t.take n).pend = min (t.pend + n) 255 ∧ (t.take n).pend + (t.take n).backlog = t.pend + t.backlog + n
    ∧ (t.take n).status = (if (t.take n).pend = 0 then 2 else 1)
    ∧ (1 ≤ t.pend → t.finish.done = (t.done + 1) % 65536 ∧ t.finish.pend + t.finish.backlog + 1 = t.pend + t.backlog
        ∧ t.finish.status = if t.pend = 1 ∧ t.backlog = 0 then 2 else t.status)
    ∧ (∀ c kd r re hi, (t.fault c kd r re hi).status = 3 ∧ ((t.fault c kd r re hi).finish).status = 3 ∧ (t.fault c kd r re hi).resumed.status = 1)
    ∧ (t.count oor pois).oor = min 65535 (t.oor + oor) ∧ (t.count oor pois).pois = min 65535 (t.pois + pois)

/-- The tokens (R172, R173, R291): the instructions that wait on one, and its counts. -/
def Obligations.TokenResults : Prop := Claims.TokenWaits ∧ Claims.TokenCounts

/-- The text instructions (R380, R381, R386): a command block is read and its done byte cleared as the command enters the T queue; the context
is saved as its image and loaded from a valid one. -/
def Sys2Proof.Claims.TextIssue : Prop :=
  ∀ (s : State) (a : Src), let m := s.mach
    m.textOk = true → m.engineOk .S 7 none [a] 0 = true → m.mySide.tstop = none → (m.val a).toNat % 128 = 0 →
    (∀ m1 m2 l m3, m.scalarsDone = true → (∀ k, m.readPages [m.val a] k = k m1) → (∀ k, m1.writePages [m.val a] k = k m2) →
      m2.loadWords m2.myAcc (m.val a) 8 = (.ok l, m3) → l.all (fun x => !x.2) = true →
      ∀ m4, m3.store m3.myAcc m3.me.pc 1 [⟨0, m.val a + 127, 0, false⟩] = .done m4 →
      let put := fun (kind : TKind) (final : Bool) => (m4.tick.2.modMySide fun x => { x with tq := x.tq ++
        [{ kind := kind, final := final, block := m.val a, params := l.flatMap fun w => leBytes w.1.toNat 8, asn := m4.tick.2.mySide.asn
           lvl := m4.tick.2.me.level, tick := m4.tick.1 }] }).retire
      (∀ f, Goes (.txenc a f) s (put .enc f) ∧ Goes (.txdec a f) s (put .dec f)) ∧ Goes (.txmask a) s (put .mask false)
        ∧ Goes (.txstep a) s (put .step false))
    ∧ (m.mySide.tq = [] →
      (∀ m1, m.store m.myAcc m.me.pc 8 ((List.range 32).map fun i =>
          ⟨i, m.val a + BitVec.ofNat 64 (8 * i), BitVec.ofNat 64 (leNat m.mySide.text.image / 2 ^ (64 * i)), false⟩) = .done m1 →
        Goes (.txsave a) s m1.retire)
      ∧ ∀ l m1, m.loadWords m.myAcc (m.val a) 32 = (.ok l, m1) → l.all (fun x => !x.2) = true →
        (∀ c, ctxOfImage (l.flatMap fun w => leBytes w.1.toNat 8) = .ok c → Goes (.txload a) s ((m1.modMySide fun x => { x with text := c }).retire))
        ∧ ∀ o, ctxOfImage (l.flatMap fun w => leBytes w.1.toNat 8) = .error o → Goes (.txload a) s (m1.trapV 0x1c (BitVec.ofNat 64 o)))

/-- TEXT_COMMAND_EXECUTE (R181, R381): when the engine of the cluster has come round to the side, its oldest command runs on the context, the result
goes to its block, the context that it leaves stands, and the engine has served the side last. -/
def Sys2Proof.Claims.TextPerform : Prop :=
  ∀ (s : State) (side : BitVec 10) (c : TCmd) (r : List TCmd) (p : TxPos) (st : Option TxStop) (m1 m2 : Mach), let k := side.toNat
    (s.mach.side k).tq = c :: r → s.mach.textTurn k = true →
    s.mach.txRun (s.mach.engAcc k c.asn c.lvl) c (s.mach.side k).text = ((p, st), m1) → (∀ b, st ≠ some (.wait b)) →
    m1.txResult (s.mach.engAcc k c.asn c.lvl) c p (TxStop.report c p st).1 (TxStop.report c p st).2.1 = some m2 →
    Goes (.textCommandExecute side) s ((m2.modCluster (clusterOf k) fun y => { y with served := k % 16 }).modSide k fun x =>
      { x with tq := r, text := p.ctx, tstop := (TxStop.report c p st).2.2.or x.tstop })

/-- The text engine (R380, R381, R386): the acceptance of its commands and their performance. -/
def Obligations.TextResults : Prop := Claims.TextIssue ∧ Claims.TextPerform

end

namespace Sys2Proof.Claims
open Sys2Proof Sys2Proof.Machine

/-- A control register access passes the checks that come before its operands (R296, R298, R144, R306): the register exists for the
sequencer, P's queue is empty for a register of the side's configuration, and inside an open strip none of those is written. -/
def crFree (m : Mach) (n : Nat) (wr : Bool) : Bool :=
  (m.onSide || !crSide n) && !(wr && decide (n ≤ 4) && m.stripOpen) && !(decide (n ≤ 0x0b) && m.isRole .P && !m.mySide.vq.isEmpty)

/-- The writing control register forms (R296): destination, register, source, and the new value from the old one and the source. -/
def crForm : Instr → Option (Reg × BitVec 12 × Src × (Word → Word → Word))
  | .crw d n a => some (d, n, a, fun _ x => x)
  | .crset d n a => some (d, n, a, fun o x => o ||| x)
  | .crclr d n a => some (d, n, a, fun o x => o &&& ~~~x)
  | _ => none

end Sys2Proof.Claims

section
open Sys2Proof Sys2Proof.Machine Sys2Proof.Claims

/-- What a trap saves and where it goes (R206, R210), and the way back (R208): a trap that a sequencer takes at S or M writes cause, tval and
epc, keeps ie and puts the level, the sequencer and ih into tstat, and goes to tvec at the new level; no `x` register, no other
sequencer's PC and no byte of memory changes; `eret` then stands at the same level and the same PC as before. -/
def Obligations.TrapAndReturn : Prop :=
  ∀ (m : Mach) (t : TrapReq) (l : Level), m.dev.vqNow = none → m.dev.arrivals = [] → m.owed m.dev.cur = false → m.othersOwed m.dev.cur = false → t.record = none → t.epc = none →
    m.trapLevel t false = some l → l ≠ .U →
    let m1 := m.trap t
    let old := (m.trapOf m.dev.cur).get l
    let new := (m1.trapOf m.dev.cur).get l
    m1.me.level = l ∧ m1.me.pc = old.tvec &&& ~~~1#64 ∧ new.epc = m.me.pc ∧ new.tval = t.tval
    ∧ new.cause = w64 (t.kind.toNat * 4096 + t.reason.toNat * 256 + t.cause.toNat)
    ∧ tstatPlev new.tstat = m.me.level ∧ tstatIh new.tstat = true ∧ new.tstat.getLsbD 8 = old.tstat.getLsbD 8
    ∧ wbits new.tstat 6 2 = seqNo m.dev.cur ∧ new.tvec = old.tvec ∧ new.qframe = old.qframe
    ∧ (∀ r, m1.me.reg r = m.me.reg r) ∧ m1.me.ls = m.me.ls ∧ (∀ q, q ≠ m.dev.cur → (m1.seq q).pc = (m.seq q).pc) ∧ m1.log = m.log
    ∧ (m.mySide.frame = none → m1.eret.me.level = m.me.level ∧ m1.eret.me.pc = m.me.pc ∧ tstatIh ((m1.eret.trapOf m.dev.cur).get l).tstat = false)

/-- The instructions that trap, return and wait (R295, R208, R102): `trap`, `bkpt`, `eret`, `hcall` and `idle`. -/
def Sys2Proof.Claims.TrapsAndWaits : Prop :=
  ∀ s : State,
    s.mach.ready none [] [] = true →
    (∀ n, Goes (.trap n) s (s.mach.trapV 0x16 (n.setWidth 64)) ∧ Goes (.bkpt n) s (s.mach.trapV 0x18 (n.setWidth 64)))
    ∧ (s.mach.me.level ≠ .U → Does .eret s s.mach.eret)
    ∧ (s.mach.me.level = .S → Goes .hcall s (s.mach.trapV 0x17 0)) ∧ (s.mach.me.level = .M → Goes .hcall s (s.mach.trapHead 0x01))
    ∧ (s.mach.me.level ≠ .U → (pickIrq (s.mach.trapOf s.dev.cur) s.mach.me.level (s.mach.irqOf s.dev.cur)).isSome = true → Does .idle s s.mach.retire)
    ∧ (s.mach.me.level ≠ .U → pickIrq (s.mach.trapOf s.dev.cur) s.mach.me.level (s.mach.irqOf s.dev.cur) = none → Does .idle s s.mach.wait)

/-- The privileged instructions at level U trap with 0x04 and their head (R78, R295, R297), and on a supervisor core those that sides alone
have with 0x01 (R76). -/
def Sys2Proof.Claims.PrivilegeTraps : Prop :=
  ∀ (s : State) (a b : Src) (f : BitVec 4) (d : Reg) (n : BitVec 12),
    (s.mach.me.level = .U →
      Goes .eret s (s.mach.trapHead 0x04) ∧ Goes .hcall s (s.mach.trapHead 0x04) ∧ Goes .idle s (s.mach.trapHead 0x04)
      ∧ Goes (.ainvPage a b) s (s.mach.trapHead 0x04) ∧ Goes (.ainvAsn a) s (s.mach.trapHead 0x04) ∧ Goes (.ainvPart a) s (s.mach.trapHead 0x04)
      ∧ Goes (.harv a b f) s (s.mach.trapHead 0x04)
      ∧ (s.mach.onSide = true → Goes (.vqsave a) s (s.mach.trapHead 0x04) ∧ Goes (.vqload a) s (s.mach.trapHead 0x04)
          ∧ Goes (.vsave a) s (s.mach.trapHead 0x04) ∧ Goes (.vrest a) s (s.mach.trapHead 0x04)))
    ∧ (s.mach.onSide = false → Goes (.vqsave a) s (s.mach.trapHead 0x01) ∧ Goes (.vqload a) s (s.mach.trapHead 0x01)
        ∧ Goes (.vsave a) s (s.mach.trapHead 0x01) ∧ Goes (.vrest a) s (s.mach.trapHead 0x01)
        ∧ (crSide n.toNat = true → Goes (.crd d n) s (s.mach.trapHead 0x01) ∧ Goes (.crw d n a) s (s.mach.trapHead 0x01)))
    ∧ (s.mach.onSide = true ∨ crSide n.toNat = false →
        (crReadable s.mach.me.level n.toNat = false → Goes (.crd d n) s (s.mach.trapHead 0x04))
        ∧ (crWritable s.mach.me.level n.toNat = false → Goes (.crw d n a) s (s.mach.trapHead 0x04) ∧ Goes (.crset d n a) s (s.mach.trapHead 0x04)
            ∧ Goes (.crclr d n a) s (s.mach.trapHead 0x04)))

/-- `trap`, `bkpt`, `eret`, `hcall` and `idle` (R295, R208, R102), and the traps of privileged instructions (R76, R78). -/
def Obligations.TrapInstructions : Prop := Claims.TrapsAndWaits ∧ Claims.PrivilegeTraps

/-- Reads and writes of control registers (R296, R135): a read fills its destination, a count on its way as a load is; a write returns the
old value and leaves the new one; a value that the register does not accept is illegal. -/
def Sys2Proof.Claims.ControlAccess : Prop :=
  ∀ (s : State) (d : Reg) (n : BitVec 12),
    (crFree s.mach n.toNat false = true → crReadable s.mach.me.level n.toNat = true → s.mach.ready (some d) [] [] = true →
      (n.toNat = 6 → s.mach.me.level = .U → s.mach.mySide.vowner = true) →
      (crCounts n.toNat = false → Does (.crd d n) s (s.mach.completes d (s.mach.crGet n.toNat)))
      ∧ (crCounts n.toNat = true → Does (.crd d n) s ((s.mach.send d (s.mach.crGet n.toNat) false).retire)))
    ∧ (∀ i a f, crForm i = some (d, n, a, f) → crFree s.mach n.toNat true = true → crWritable s.mach.me.level n.toNat = true →
      s.mach.ready (some d) [a] [] = true →
      (∀ m1, s.mach.crPut n.toNat (f (s.mach.crGet n.toNat) (s.mach.val a)) = .done m1 → Does i s (m1.completes d (s.mach.crGet n.toNat)))
      ∧ (s.mach.crPut n.toNat (f (s.mach.crGet n.toNat) (s.mach.val a)) = .bad → Goes i s (s.mach.trapHead 0x01))
      ∧ (s.mach.crPut n.toNat (f (s.mach.crGet n.toNat) (s.mach.val a)) = .wait → Does i s s.mach.stay))
    ∧ ∀ (v : Word), let m := s.mach
      m.crPut 0x00 v = .done (m.modMySide fun x => { x with vl := BitVec.ofNat 11 (min v.toNat (vlmax x.vty)) })
      ∧ ((v.toNat % 8 = 0 ∨ 6 ≤ v.toNat % 8) → m.crPut 0x09 v = .bad)
      ∧ (v.toNat % 2 ^ 16 = 0xffff → m.crPut 0x24 v = .bad)
      ∧ m.crPut 0x10 v = .done (m.modMe fun q => { q with capsel := v }) ∧ m.crPut 0x11 v = .done m

/-- What an invalidation does (R58, R297): it removes the partition's matching rights, translation cache entries and owner pairs, stores that wait
for their probe are probed again, and the instruction falls through; with no unconfirmed store of the partition nothing else changes. -/
def Sys2Proof.Claims.Invalidates (i : Instr) (s : State) (pid : BitVec 4) (hit : BitVec 16 → Nat → Nat → Nat → Nat → Bool) : Prop :=
  Goes i s ((s.mach.inval pid hit).retire)
  ∧ ((∀ g, (s.mach.att g).all (·.pid != pid) = true) → Does i s ((s.mach.withDev fun d =>
      { d with
        cores := d.cores.map fun (k, c) => (k, { c with rc := c.rc.filter fun r => !(r.pid == pid && hit r.asn (r.page * 2 ^ r.sh) (2 ^ r.sh) r.s2 r.s2sh) })
        dies := d.dies.map fun (k, x) => (k, { x with
          tc := x.tc.filter fun t => !(t.pid == pid && hit t.asn (t.vpn * 65536 / 2 ^ t.sh * 2 ^ t.sh) (2 ^ t.sh) t.s2 t.s2sh)
          own := x.own.filter fun o => !(o.pid == pid && hit o.asn (o.vpn * 65536 / 2 ^ o.sh * 2 ^ o.sh) (2 ^ o.sh) o.s2 o.s2sh) }) }).retire))

/-- Invalidation (R297, R58): at S a page or an address space of the own partition, never the global one; at M every translation through a
stage 2 page, an address space, or a whole partition. -/
def Sys2Proof.Claims.Invalidations : Prop :=
  ∀ (s : State) (a b : Src), let m := s.mach
    let pid := (m.pidOf s.dev.cur).getD 0
    (m.me.level = .S → m.ready none [a, b] [] = true →
      ((m.val b).toNat % 2 ^ 16 = 0xffff → Goes (.ainvPage a b) s (m.trapHead 0x04))
      ∧ ((m.val b).toNat % 2 ^ 16 ≠ 0xffff → Claims.Invalidates (.ainvPage a b) s pid fun x base n _ _ =>
          x == (m.val b).setWidth 16 && base ≤ va57 (m.val a) && va57 (m.val a) < base + n))
    ∧ (m.me.level = .M → m.ready none [a, b] [] = true →
        Claims.Invalidates (.ainvPage a b) s ((m.val b).setWidth 4) fun _ _ _ p sh => (m.val a).toNat / 2 ^ sh == p)
    ∧ (m.me.level ≠ .U → m.ready none [a] [] = true →
      ((m.me.level = .S ∧ (m.val a).toNat % 2 ^ 16 = 0xffff) → Goes (.ainvAsn a) s (m.trapHead 0x04))
      ∧ ((m.me.level = .S → (m.val a).toNat % 2 ^ 16 ≠ 0xffff) →
        Claims.Invalidates (.ainvAsn a) s pid fun x _ _ _ _ => x == (m.val a).setWidth 16))
    ∧ (m.me.level = .M → m.ready none [a] [] = true → Claims.Invalidates (.ainvPart a) s ((m.val a).setWidth 4) fun _ _ _ _ _ => true)
    ∧ (m.me.level = .S → m.ready none [a] [] = true → Goes (.ainvPart a) s (m.trapHead 0x04))

/-- Harvest (R297, R59): over a range of whole 64 KiB pages it clears d in every leaf that it finds, at S of the current address space and at
M of a partition's stage 2, takes w from the rights entries that hold the page, and falls through. At M, and where no die has a Frost
range, nothing makes it wait. -/
def Sys2Proof.Claims.Harvests : Prop :=
  ∀ (s : State) (a b : Src) (f : BitVec 4), let m := s.mach
    let pid := (m.pidOf s.dev.cur).getD 0
    let range := (m.val a).toNat % 65536 = 0 ∧ (m.val b).toNat % 65536 = 0 ∧ 0 < (m.val b).toNat ∧ (m.val b).toNat ≤ 2 ^ 40
    (m.me.level = .S → m.ready none [a, b] [] = true → f ≠ 0 → Goes (.harv a b f) s (m.trapHead 0x01))
    ∧ (m.me.level = .M ∨ (m.me.level = .S ∧ f = 0) → m.ready none [a, b] [] = true → ¬ range → Goes (.harv a b f) s (m.trapV 0x07 (m.val a)))
    ∧ (m.me.level = .M → m.ready none [a, b] [] = true → range →
      Does (.harv a b f) s ((m.harvest (fun x p => (x.stage2 (dieOf s.dev.cur) (x.pctx (dieOf s.dev.cur) f) p).toOption.map (·.2)) f
        (fun base len r => let x := r.s2 * 2 ^ r.s2sh; x < base + len && base < x + 2 ^ r.s2sh) (m.val a).toNat ((m.val b).toNat / 65536)).retire))
    ∧ (m.me.level = .S → f = 0 → m.ready none [a, b] [] = true → range →
      let m1 := m.harvest (fun x v => if canonical (w64 v) then x.leaf1 (dieOf s.dev.cur) pid (m.asnOf s.dev.cur) (v % 2 ^ 57) else none) pid
        (fun base len r => let x := r.page * 2 ^ r.sh
          r.asn == m.asnOf s.dev.cur && x < base % 2 ^ 57 + len && base % 2 ^ 57 < x + 2 ^ r.sh) (m.val a).toNat ((m.val b).toNat / 65536)
      Goes (.harv a b f) s m1.retire ∧ ((∀ d, (m.die d).hasFrost = false) → Does (.harv a b f) s m1.retire))
    ∧ ∀ (x : Mach) (l : Leaf) (hit : Rights → Bool), let e := BitVec.ofNat 64 (x.rdChan l.ea 8)
      let x1 := x.harvLeaf pid l hit
      (e.getLsbD 3 = false → x1 = x)
      ∧ (e.getLsbD 3 = true → l.frost = false → x1.log = .put l.ea 8 (e &&& ~~~8#64).toNat :: (x.combFlush l.ea).log
          ∧ ∀ k r, r ∈ (x1.core k).rc → r.pid = pid → hit r = true → r.w = false)

/-- Queue frames (R297, R213): `vqsave` writes the frame of the queue and unloads it, and without one only falls through; `vqload` reads a frame by
its length; a misaligned address traps with 0x07, and a failed access or a bad frame with 0x0d. -/
def Sys2Proof.Claims.QueueFrames : Prop :=
  ∀ (s : State) (a : Src), let m := s.mach
    let p := (m.val a).toNat
    let die := dieOf s.dev.cur
    m.onSide = true → m.me.level ≠ .U → m.ready none [a] [] = true →
    (p % 64 ≠ 0 → Goes (.vqsave a) s (m.trapV 0x07 (m.val a)) ∧ Goes (.vqload a) s (m.trapV 0x07 (m.val a)))
    ∧ (p % 64 = 0 →
      (m.mySide.frame = none → Does (.vqsave a) s m.retire)
      ∧ (∀ f, m.mySide.frame = some f → let put := m.ppaPut die m.mySide.pid p (64 + 48 * f.entries.length) (frameBits f.resume f.entries) 8
          (∀ m1, put = some m1 → Goes (.vqsave a) s ((m1.modMySide fun x => { x with frame := none }).retire))
          ∧ (put = none → Goes (.vqsave a) s (m.trapV 0x0d (w64 p))))
      ∧ (m.ppaGet die m.mySide.pid p 64 18 = none → Goes (.vqload a) s (m.trapV 0x0d (w64 p)))
      ∧ ∀ h m1, m.ppaGet die m.mySide.pid p 64 18 = some (h, m1) →
        let got := m1.ppaGet (dieOf m1.dev.cur) m1.mySide.pid p (min (h.1 % 2 ^ 16) 2048) 18
        (got = none → Goes (.vqload a) s (m.trapV 0x0d (w64 p)))
        ∧ ∀ v m2, got = some (v, m2) →
          (∀ f, frameOfBits v.1 = some f → Goes (.vqload a) s ((m2.modMySide fun x => { x with frame := some f }).retire))
          ∧ (frameOfBits v.1 = none → Goes (.vqload a) s (m2.trapV 0x0d (w64 p))))

/-- Context images (R297, R225 to R227): `vsave` writes and `vrest` reads the vector part of an image once the matrix engine is done; a misaligned
address traps with 0x07, a failed access with 0x0d. -/
def Sys2Proof.Claims.ImageParts : Prop :=
  ∀ (s : State) (a : Src), let m := s.mach
    let p := (m.val a).toNat
    m.onSide = true → m.me.level ≠ .U → m.ready none [a] [] = true →
    (p % 4096 ≠ 0 → Goes (.vsave a) s (m.trapV 0x07 (m.val a)) ∧ Goes (.vrest a) s (m.trapV 0x07 (m.val a)))
    ∧ (p % 4096 = 0 → (m.owns m.myNo 6 = true → m.myCore.mx.mq = []) →
      (∀ m1, m.vsaveAt m.myNo p = some m1 → Goes (.vsave a) s m1.retire) ∧ (∀ m1, m.vrestAt m.myNo p = some m1 → Goes (.vrest a) s m1.retire)
      ∧ (m.vsaveAt m.myNo p = none → Goes (.vsave a) s (m.trapV 0x0d (w64 p))) ∧ (m.vrestAt m.myNo p = none → Goes (.vrest a) s (m.trapV 0x0d (w64 p))))

/-- Invalidation, harvest, queue frames and context images (R297): each of `ainv.page`, `ainv.asn`, `ainv.part`, `harv`, `vqsave`, `vqload`, `vsave` and
`vrest` completes with its effect, and traps where the rule says so. That rights entries keep the stage 2 page of their translation, that the
low 16 bits of the operand name the address space, and that held stores are probed again, is DEDUCED (log 29); the encodings of frame and image
are log 17 and 18. -/
def Obligations.SystemResults : Prop := Claims.Invalidations ∧ Claims.Harvests ∧ Claims.QueueFrames ∧ Claims.ImageParts

/-- Empty and poisoned sources of the scalar instructions (R136, R250, R251, R278): an empty source with W = 0 traps with 0x03, its register and its
sequencer; while the sequencer awaits values the trap is due, and it is taken then even if the register has been filled; an empty source with
W = 1, or an empty destination, makes the instruction wait; a poisoned one traps with 0x0c. -/
def Obligations.SourceTraps : Prop :=
  ∀ (i : Instr) (d : Reg) (ss : List Src), ((∃ f, intValue i = some (d, ss, f)) ∨ ∃ f, floatValue i = some (d, ss, f)) →
    ∀ s : State, let m := s.mach
    let empty := fun (v : Word) =>
      let m1 := m.modMe fun q => { q with waiting := false, due := some v }
      (m.owed s.dev.cur = false → Goes i s (m1.trapV 0x03 v)) ∧ (m.owed s.dev.cur = true → Does i s m1)
    (∀ v, m.me.due = some v → empty v)
    ∧ (m.me.due = none →
      (∀ x, ss.find? (fun x => !x.w && !(m.x x.r).full) = some x → empty (BitVec.ofNat 64 (x.r.toNat + 256 * seqNo s.dev.cur)))
      ∧ (ss.all (fun x => x.w || (m.x x.r).full) = true →
        ((ss.any (fun x => !(m.x x.r).full) = true ∨ (m.x d).full = false) → Does i s m.wait)
        ∧ (∀ x, ss.all (fun x => (m.x x.r).full) = true → (m.x d).full = true → ss.find? (fun x => (m.x x.r).pois) = some x →
            Goes i s (m.trapV 0x0c (BitVec.ofNat 64 x.r.toNat)))))

end

section
open Sys2Proof Sys2Proof.Machine Sys2Proof.Claims

/-- The error log of die `d` has one entry more, behind the others or, when it is full, in the place of the oldest (R232). -/
def Sys2Proof.Claims.Logged (m m1 : Mach) (d : Nat) (e : LogEnt) : Prop :=
  (m1.die d).log = if (m.die d).log.length < 1024 then (m.die d).log ++ [e] else (m.die d).log.set ((m.die d).logLost % 1024) e

/-- The moves of sequencers that are no instruction, and those of the memory system: a line fetch (R162, R243), an interrupt (R211), a probe
reply (R53), a load's value (R135), prefetches and write-backs (R158, R159, R72), and the stores that have left a strip (R202). -/
def Sys2Proof.Claims.SequencerMoves : Prop :=
  ∀ s : State, let m := s.mach
    (∀ q, m.canMove q = true → (m.seq q).needsLine = true → Goes (.lineFetch q) s (m.asSeq q (·.fetchStep)))
    ∧ (∀ q src, (m.die (dieOf q)).resetting = false → m.takeable q = some src → m.intrReady q = true →
        let m1 := (m.dropIrq q src).forgetWaits q
        let m2 := match q with
          | .side k r => m1.modSide k.toNat fun x => { x with landed := x.landed || ((x.seq r).level == Level.U && x.unit.isSome) }
          | .sup _ => m1
        Goes (.interruptTake q) s ((m2.modSeq q fun x => { x with run := .run }).asSeq q (·.interrupt src (irqLevel src))))
    ∧ (∀ (i : BitVec 8) p, m.dev.probes[i.toNat]? = some p → (m.die (dieOfCore p.core)).resetting = false →
        Goes (.probeCompletion i) s (m.probeDone p))
    ∧ (∀ (i : BitVec 8) a, m.dev.arrivals[i.toNat]? = some a → ∃ m1 : Mach, Does (.loadDataArrival i) s m1
        ∧ m1.dev.arrivals = m.dev.arrivals.eraseIdx i.toNat ∧ (m1.seq a.q).reg a.d = (if a.d = 0 then {} else ⟨a.val, true, a.pois⟩)
        ∧ (∀ q, q ≠ a.q → m1.seq q = m.seq q) ∧ (∀ r, r ≠ a.d → (m1.seq a.q).reg r = (m.seq a.q).reg r) ∧ m1.log = m.log)
    ∧ (∀ side va pid r m1, let a := m.accOf (.side side .P)
        a.pid = some pid → (m.core a.core).rights pid (asnTag a.asn (a.addr va)) (a.addr va) = some r → r.allows a.lvl .read = true →
        canonical va = true → (m.die a.die).resetting = false → r.home ≠ 3 → m.readReady a (a.addr va) = (true, m1) →
        Goes (.l1Fill side va) s (m1.readSec a r (a.addr va) false).2)
    ∧ (∀ (u : BitVec 10) (i : BitVec 12) x, (m.core u.toNat).l1[i.toNat]? = some x → (m.die (dieOfCore u.toNat)).resetting = false →
        Goes (.writeBack false u i) s (m.l1Down u.toNat x false))
    ∧ (∀ (d : BitVec 2) (i : BitVec 12) x m1, (m.die d.toNat).l2[i.toNat]? = some x → (m.die d.toNat).resetting = false → x.mask ≠ 0 →
        m.l2Down d.toNat x false = some m1 →
        let out := m1.modDie d.toNat fun y => { y with l2 := y.l2.map fun o => if o.is x.pid x.asn x.sec then { o with mask := 0 } else o }
        ((∀ a, (m.frameOf d.toNat (some x.pid) x.asn (x.sec * 128)).1 ≠ some (a, true)) → Goes (.writeBack true (d.setWidth 10) i) s out)
        ∧ ∀ a, (m.frameOf d.toNat (some x.pid) x.asn (x.sec * 128)).1 = some (a, true) → Goes (.frostWriteBack d i) s out)
    ∧ ∀ (side : BitVec 10) h r m1, (m.side side.toNat).leaving = h :: r → h.nf = none →
        let a := m.withDev fun d => { d with cur := .side side .P }
        a.loadsDone = true → a.storePath (a.lvlAcc side.toNat h.lvl) h.pc h.es h.els true = .done m1 →
        Goes (.heldStoreEnterL1 side) s ((m1.modSide side.toNat fun x => { x with leaving := x.leaving.tail }).withDev fun d =>
          { d with cur := s.dev.cur })

/-- The moves between channels, dies and devices: a bank update (R67), the causal batches (R198), remote reads (R199) and the accesses of
a Gale peer (R86). -/
def Sys2Proof.Claims.TrafficEvents : Prop :=
  ∀ s : State, let m := s.mach
    (∀ (d : BitVec 2) (ch : BitVec 5) before u after m1, (m.die d.toNat).upds = before ++ u :: after → channelOf u.mpa = ch.toNat →
        before.all (fun x => channelOf x.mpa != ch.toNat) = true → (m.die d.toNat).resetting = false →
        (m.modDie d.toNat fun x => { x with upds := before ++ after }).bankApply u = some m1 → Goes (.bankUpdateApply d ch) s m1)
    ∧ (∀ d : BitVec 2, 1024 ≤ (m.die d.toNat).batchAge → m.canClose d.toNat = true → Goes (.batchCloseTimeout d) s (m.closeBatch d.toNat))
    ∧ (∀ (d : BitVec 2) (i : BitVec 8) b, (m.die d.toNat).rx[i.toNat]? = some b → (m.die d.toNat).resetting = false →
        m.batchReady d.toNat b = true →
        (b.ws.length ≤ 1 → ∀ m1, (b.ws = [] ∧ m1 = m ∨ ∃ w, b.ws = [w] ∧ m.applyWrite w = some m1) →
          Goes (.batchApply d i) s (m1.modDie d.toNat fun x =>
            { x with rx := x.rx.take i.toNat ++ x.rx.drop (i.toNat + 1), vc := x.vc.set b.src.toNat ((b.stamp[b.src.toNat]?).getD 0) }))
        ∧ ∀ w x r m1, b.ws = w :: x :: r → m.applyWrite w = some m1 → Goes (.batchApply d i) s (m1.modDie d.toNat fun y =>
            { y with rx := y.rx.take i.toNat ++ { b with ws := x :: r } :: y.rx.drop (i.toNat + 1) }))
    ∧ (∀ (d : BitVec 2) (i : BitVec 8) b, (m.die d.toNat).rx[i.toNat]? = some b → m.batchReady d.toNat b = false → Does (.batchApply d i) s m)
    ∧ (∀ (i : BitVec 8) x, m.dev.remote[i.toNat]? = some x → (m.die (dieOf x.who)).resetting = false →
        let me := dieOf x.who
        let put := fun (n : Mach) (l : List RemoteRead) =>
          n.withDev fun d => { d with remote := d.remote.take i.toNat ++ l ++ d.remote.drop (i.toNat + 1) }
        let a := m.remoteAcc x
        let open_ := ∃ c ∈ (m.die me).batch, c.line =
          match (m.frameOf me a.pid (asnTag x.asn (a.addr x.va)) (a.addr x.va)).1 with | some (mpa, _) => mpa / 1024 | none => 0
        let late := ∃ k < 4, k ≠ x.die.toNat ∧ clockGe (m.vc x.die.toNat k) ((x.clock[k]?).getD 0) = false
        (∀ v p, x.got = some (v, p) →
          (m.acqReady me x.clock = true → Goes (.remoteReadServe i) s ((put m []).endRemote x v p))
          ∧ (m.acqReady me x.clock = false → Does (.remoteReadServe i) s m))
        ∧ (x.got = none → m.reach me x.die.toNat = false → ∀ v m1, ((put m []).logErr me 0x08 0 x.va 1).poisonVal x.sz = (v, m1) →
          Goes (.remoteReadServe i) s (m1.endRemote x (extLd x.sz x.zx v) true))
        ∧ (x.got = none → m.reach me x.die.toNat = true →
          (open_ → Goes (.remoteReadServe i) s (put (m.closeBatch me) [{ x with clock := (m.closeBatch me).vcList me }]))
          ∧ (¬ open_ → late → Does (.remoteReadServe i) s m)
          ∧ (¬ open_ → ¬ late → ∀ v p m1, m.serveRemote x = ((v, p), m1) →
            (x.acq.all (scopeRank · < 4) = true → Goes (.remoteReadServe i) s ((put m1 []).endRemote x v p))
            ∧ (x.acq.any (4 ≤ scopeRank ·) = true →
              Goes (.remoteReadServe i) s (put m1 [{ x with got := some (v, p), clock := m1.vcList x.die.toNat }])))))
    ∧ ∀ (p : BitVec 4) (off : BitVec 44) wr v pid, (m.port p.toNat).pid = some pid → (m.port p.toNat).up = true →
        (m.die (p.toNat / 4)).resetting = false →
        (m.peerAt (p.toNat / 4) pid off.toNat wr = none →
          Does (.galeRemoteAccess p off wr v) s (m.logErr (p.toNat / 4) 0x08 (portPlace p.toNat) (w64 off.toNat) 1))
        ∧ ∀ a frost m1, m.peerAt (p.toNat / 4) pid off.toNat wr = some (a, frost, m1) →
          (wr = false → Goes (.galeRemoteAccess p off wr v) s (m1.physGet a 8).2)
          ∧ (wr = true → Goes (.galeRemoteAccess p off wr v) s (m1.physPut a 8 v.toNat frost pid))

/-- What a fetch puts into the line buffer, and where it traps (R162, R220, R242 to R244). -/
def Sys2Proof.Claims.Fetches : Prop :=
  ∀ (m : Mach) (l : BitVec 512) (m1 : Mach), let pc := m.me.pc
    (badTarget pc = true → m.fetchStep = m.trapV 0x02 pc)
    ∧ (badTarget pc = false →
      (m.fetchLine m.dev.cur pc = (.wait, m1) → m.fetchStep = m1.stay)
      ∧ (m.fetchLine m.dev.cur pc = (.poison, m1) → m.fetchStep = m1.trapV 0x0c 0x3000)
      ∧ (∀ c r, m.fetchLine m.dev.cur pc = (.fault c r, m1) → m.fetchStep = m1.trap { cause := c, tval := pc, reason := r })
      ∧ (m.fetchLine m.dev.cur pc = (.line l, m1) →
        (Line.valid l = false → m.fetchStep = m1.trapV 0x01 ((Line.half l (slotOf pc)).setWidth 64))
        ∧ (Line.valid l = true → Line.count l < slotOf pc → m.fetchStep = m1.trapV 0x02 pc)
        ∧ (Line.valid l = true → slotOf pc ≤ Line.count l → m.fetchStep = m1.modMe fun q => { q with line := some ⟨lineBase pc, l⟩ })))
    ∧ ∀ (r : Rights) s, let a := m.accOf m.dev.cur
      let va := if a.pid.isNone then pc.toNat % 2 ^ 52 else va57 pc
      m.check a pc .fetch = (.ok r, m1) → r.home ≠ 3 → ((m1.codeDown a va).core a.core).ic.find?
          (fun s => s.pid == a.tagPid && s.asn == asnTag a.asn va && s.sec == va / 128) = some s → s.pois = false →
        (m.fetchLine m.dev.cur pc).1 = .line (s.data.extractLsb' (8 * (va / 64 % 2 * 64)) 512)

/-- What a fill brings (R158, R160): a whole L2 sector serves a read; else the sector comes from its channel, with its poison; the L1 holds it whole and
clean. -/
def Sys2Proof.Claims.Fills : Prop :=
  (∀ (m : Mach) (die : Nat) (pid : BitVec 4) (asn : BitVec 16) (sec : Nat) (home : BitVec 2) (alloc mark : Bool),
    (∀ s, (m.die die).l2.find? (·.is pid asn sec) = some s → s.have_ = fullMask →
      (m.l2Read die pid asn sec home alloc mark).1 = (s.data, s.pois, s.tag))
    ∧ ∀ mpa frost m0, (m.die die).l2.find? (·.is pid asn sec) = none → m.frameOf die (some pid) asn (sec * 128) = (some (mpa, frost), m0) → mpa < 2 ^ 39 →
      m0.reach die die = true → dieOfMpa mpa = die → let c := m0.combFlush mpa
      (m.l2Read die pid asn sec home alloc mark).1 = (BitVec.ofNat 1024 (c.rd (mpa / 128 * 128) 128), c.poisonAt (mpa / 128 * 128), (c.die die).tagOf mpa))
  ∧ ∀ (m : Mach) (a : Acc) (r : Rights) (va : Nat) (d : Sector) (p : Bool) (m1 m2 : Mach), let asn := asnTag a.asn va
    let sec := va / 128
    r.home = 0 → (m.core a.core).l1.find? (·.is a.tagPid asn sec) = none → m.l2Read a.die a.tagPid asn sec 0 true false = ((d, p, none), m1) →
    m1.l1Room a.core a.tagPid asn sec = some m2 →
    (m.readSec a r va false).1 = (d, p, none)
    ∧ ((m.readSec a r va false).2.core a.core).l1.find? (·.is a.tagPid asn sec) = some ⟨a.tagPid, asn, sec, d, fullMask, 0, none, p, []⟩

/-- What a write-back leaves (R159, R161, R72, R219): one of an L1 leaves the sector clean there and its dirty bytes in the L2 sector; one of an L2 puts
its dirty bytes, and no other, into its channel behind the undo entry of a Frost sector, and poison follows the data. -/
def Sys2Proof.Claims.WriteBacks : Prop :=
  (∀ (m : Mach) (core : Nat) (x : L1Sec), x.mask ≠ 0 → x.held = none → let m1 := m.l1Down core x false
    (m1.core core).l1 = (m.core core).l1.map (fun o => if o.is x.pid x.asn x.sec then { o with mask := 0 } else o)
    ∧ ∀ s, (m.die (dieOfCore core)).l2.find? (·.is x.pid x.asn x.sec) = some s → (m1.die (dieOfCore core)).l2.find? (·.is x.pid x.asn x.sec)
        = some { s with data := mergeSec s.data x.data x.mask, have_ := s.have_ ||| x.mask, mask := s.mask ||| x.mask, imark := false
                        pois := if x.mask = fullMask ∧ x.pois = false then false else s.pois || x.pois })
  ∧ ∀ (m : Mach) (die : Nat) (x : L2Sec) (mpa : Nat) (frost : Bool) (m0 c : Mach), x.mask ≠ 0 →
    m.frameOf die (some x.pid) x.asn (x.sec * 128) = (some (mpa, frost), m0) → m0.reach die die = true → dieOfMpa mpa = die → let a := mpa / 128 * 128
    (if frost then (m0.combFlush mpa).undoLog a x.pid false else some (m0.combFlush mpa)) = some c → ∃ m1, m.l2Down die x false = some m1
      ∧ (∀ i < 128, m1.byte (a + i) = if x.mask.getLsbD i then x.data.extractLsb' (8 * i) 8 else c.byte (a + i))
      ∧ (∀ b, (b < a ∨ a + 128 ≤ b) → m1.byte b = c.byte b)
      ∧ m1.poisonAt a = if x.pois then true else if x.mask = fullMask then false else c.poisonAt a

/-- What a probe reply leaves (R53, R55): a store that the tables allow is confirmed, and its sectors are normal, dirty with the same bytes; one that they
do not keeps its sectors held and waits for its fault. -/
def Sys2Proof.Claims.ProbeReplies : Prop :=
  ∀ (m : Mach) (core grp : Nat) (pid : BitVec 4) (asn : BitVec 16) (sh no : Nat) (e : AttEnt), grp < 1024 → m.att grp = [e] →
    e.onPage pid asn sh no = true →
    (∀ r m1, m.confirm core pid asn e.lvl (va57 e.va) = (.ok r, m1) → r.home = 0 → let m2 := m.probeGroup core grp pid asn sh no
      m2.att grp = [] ∧ (m2.core core).l1 = (m1.core core).l1.map fun s =>
        if s.onPage pid asn r.sh r.page && s.held == some grp then s.settle [e.serial] else s)
    ∧ (∀ f m1, m.confirm core pid asn e.lvl (va57 e.va) = (.error f, m1) → let m2 := m.probeGroup core grp pid asn sh no
      m2.att grp = [{ e with fail := some f, told := false }] ∧ (m2.core core).l1 = (m1.core core).l1)
    ∧ ∀ s : L1Sec, s.parts.all (fun p => p.1 == e.serial) = true → s.settle [e.serial] = { s with parts := [], held := none }

/-- The moves of sequencers that are no instruction, and those of the memory system. That an L1
fill may come at any time is DEDUCED (log 91), that one move applies one write of a batch too (log 93), and that a die waits for the greatest clock that any
reply has carried (log 13); that a peer's access has eight bytes is the model's choice (log 94). -/
def Obligations.MemoryEvents : Prop :=
  Claims.SequencerMoves ∧ Claims.TrafficEvents ∧ Claims.Fetches ∧ Claims.Fills ∧ Claims.WriteBacks ∧ Claims.ProbeReplies

/-- Gale ports (R14 to R17), host window accesses (R87), die boundaries (R18), islands (R19 to R21) and power windows (R22). That each failed CRC is one
move is DEDUCED (log 95), and so is the die on which a boundary's event falls (log 96); that the enable bit of a port that no partition owns stays 0
is the model's choice (log 145), and that the on bit reads 1 after a refusal (log 147). -/
def Obligations.LinkEvents : Prop :=
  ∀ s : State, let m := s.mach
    (∀ p : BitVec 4, let g := m.port p.toNat
      (g.up = true → g.fails < 8 → Does (.galeCrcRetransmit p) s (m.modPort p.toNat fun g => { g with retries := g.retries + 1, fails := g.fails + 1 }))
      ∧ (g.up = true → 8 ≤ g.fails → Does (.galeCrcRetransmit p) s (m.portDown p.toNat) ∧ Does (.galeRetryLimit p) s (m.portDown p.toNat))
      ∧ (g.up = true → Does (.galeLossOfLock p) s (m.portDown p.toNat))
      ∧ (∀ peer, g.en = true → g.up = false → g.pid.isSome = true → (m.die (p.toNat / 4)).resetting = false →
          (m.die (p.toNat / 4)).islState.getLsbD 4 = true → Does (.linkTrained p peer) s (m.modPort p.toNat fun g => { g with up := true, peer := peer, fails := 0 }))
      ∧ (g.pid.isSome = true → g.en = false → Does (.portEnable p) s (m.modPort p.toNat fun g => { g with en := true, fails := 0 }))
      ∧ (g.pid.isNone = true ∨ g.en = true → Does (.portEnable p) s m)
      ∧ Does (.portClearCounts p) s (m.modPort p.toNat fun g => { g with dropped := 0, poisoned := 0, retries := 0 })
      ∧ Does (.portLostClear p) s (m.modPort p.toNat fun g => { g with lost := false })
      ∧ ((m.portDown p.toNat).port p.toNat).up = false ∧ ((m.portDown p.toNat).port p.toNat).en = false
      ∧ (m.portDown p.toNat).dev.ext.filter (fun e => e.host || e.port != p.toNat) = m.dev.ext.filter (fun e => e.host || e.port != p.toNat)
      ∧ ∀ e ∈ (m.portDown p.toNat).dev.ext, e.host = false → e.port = p.toNat → e.ans.isSome = true)
    ∧ (∀ (i : BitVec 8) e, m.dev.ext[i.toNat]? = some e → e.host = true →
      (e.issued = false → m.hostOpen e.port = true →
        Does (.hostWindowAccess i) s (m.withDev fun d => { d with ext := d.ext.take i.toNat ++ { e with issued := true } :: d.ext.drop (i.toNat + 1) }))
      ∧ (e.issued = false → m.hostOpen e.port = false → Goes (.hostWindowAccess i) s (m.extFail i.toNat e))
      ∧ (∀ v, e.issued = true → e.ans = none → Goes (.hostWindowCompletion i false v) s (m.extFail i.toNat e))
      ∧ (∀ v, e.issued = true → e.ans = none → e.wr = true → Does (.hostWindowCompletion i true v) s (m.dropExt i.toNat))
      ∧ ∀ v, e.issued = true → e.ans = none → e.wr = false →
          Goes (.hostWindowCompletion i true v) s ((m.dropExt i.toNat).extAnswer e (v.toNat % 256 ^ e.n) false))
    ∧ (∀ b : BitVec 2, m.dev.bdown.getLsbD b.toNat = false → ∃ m1 : Mach, Does (.boundaryFailure b) s m1
        ∧ (∀ j < 4, m1.dev.bdown.getLsbD j = (m.dev.bdown.getLsbD j || decide (j = b.toNat))) ∧ m1.log = m.log
        ∧ Logged m m1 (ringDie b.toNat) ⟨0x09, 0, (m.die (ringDie b.toNat)).cyc, b.setWidth 64, 0⟩)
    ∧ (∀ i : BitVec 5, let d := i.toNat / 8
        let n := i.toNat % 8
        (n < 7 → (m.die d).islState.getLsbD n = false → ∃ m1 : Mach, Does (.islandSwitchOn i) s m1
          ∧ (m1.die d).islState.getLsbD n = true ∧ (m1.die d).islOn.getLsbD n = true)
        ∧ (n < 7 → (m.die d).islState.getLsbD n = true → m.islandRefuses d n = false → ∃ m1 : Mach, Does (.islandSwitchOff i) s m1
          ∧ (m1.die d).islState.getLsbD n = false ∧ (m1.die d).islOn.getLsbD n = false ∧ (m1.die d).islRefused.getLsbD n = false)
        ∧ (n < 7 → (m.die d).islState.getLsbD n = true → m.islandRefuses d n = true → ∃ m1 : Mach, Does (.islandSwitchOff i) s m1
          ∧ (m1.die d).islState = (m.die d).islState ∧ (m1.die d).islRefused.getLsbD n = true ∧ (m1.die d).islOn.getLsbD n = true)
        ∧ ∃ m1 : Mach, Does (.islandRefusedClear i) s m1 ∧ ∀ j < 8, (m1.die d).islRefused.getLsbD j = ((m.die d).islRefused.getLsbD j && decide (j ≠ n)))
    ∧ ∀ above, Does (.powerWindow above) s (m.withDev fun d => { d with throttle := if above then d.throttle + 1 else 0 })

end

section
open Sys2Proof Sys2Proof.Machine Sys2Proof.Claims

/-- Resets, boot and life cycle (R24 to R34, R234): what a device reset leaves, the boot ROM's choice of an image, and how a die is reset,
wiped and joined again. -/
def Sys2Proof.Claims.ResetMoves : Prop :=
  ∀ s : State, let m := s.mach
    Does .deviceReset s (m.deviceReset m.dev.lcPend) ∧ Does .powerLoss s (m.deviceReset none)
    ∧ (∀ lc, let t := m.deviceReset lc
        (∀ a < 2 ^ 39, t.byte a = 0) ∧ t.dev.flashA = m.dev.flashA ∧ t.dev.flashB = m.dev.flashB ∧ t.dev.fuses = m.dev.fuses ∧ t.dev.lcPend = lc
        ∧ (t.sup 0).seq.run = .boot ∧ (∀ n < 32, n ≠ 0 → (t.sup n).seq.run = .held) ∧ (∀ n < 32, (t.sup n).seq.level = .M)
        ∧ ∀ d < 4, (t.die d).resetting = true ∧ (t.die d).wiping = true ∧ (t.die d).cyc = 0)
    ∧ (∀ t, (m.booting = true ∨ m.dev.lcReq.extractLsb' 0 2 ≠ t) → Does (.lifeCycleRequest t) s m)
    ∧ (m.booting = false → let t := m.dev.lcReq.extractLsb' 0 2
        (lcAllowed m.dev.fuses.lcs t = true → Does (.lifeCycleRequest t) s (m.deviceReset (some t)))
        ∧ (lcAllowed m.dev.fuses.lcs t = false → Does (.lifeCycleRequest t) s (m.withDev fun d => { d with lcReq := 0 })))
    ∧ (∀ d : BitVec 2, (m.die d.toNat).wiping = true → m.dev.lcPend = none →
        Does (.wipeComplete d) s (m.modDie d.toNat fun x => { x with wiping := false, resetting := x.resetting && !m.booting }))
    ∧ (∀ (d : BitVec 2) t, (m.die d.toNat).wiping = true → m.dev.lcPend = some t → m.booting = true →
        let m1 := m.modDie d.toNat fun x => { x with wiping := false, resetting := false }
        m1.dev.dies.all (fun x => !x.2.wiping) = true →
        Does (.wipeComplete d) s (m1.withDev fun x => { x with fuses := x.fuses.advance t, lcPend := none }))
    ∧ (m.dev.rom = 4 → Does .bootRom s
        ((m.dev.parts.map fun x => BitVec.ofNat 4 x.1).foldl (·.bootPart ·) (m.withDev fun d => { d with rom := 5 })))
    ∧ (m.booting = true → m.dev.rom = 0 → Does .bootRom s ((m.modWin 64 fun w => { w with ident := bootWord m.dev.fuses 0 0 0 }).withDev fun d =>
        { d with rom := 1 }))
    ∧ (m.booting = true → m.dev.dies.all (fun x => !x.2.wiping) = true → let f := m.dev.fuses
        let a := slotCode f m.dev.flashA
        let b := slotCode f m.dev.flashB
        (m.dev.rom = 1 →
          (∀ i, m.dev.flashA = some i → a = 0 → Does .bootRom s (m.startImage i (bootWord f 1 0 0)))
          ∧ (a ≠ 0 → Does .bootRom s ((m.modWin 64 fun w => { w with ident := bootWord f 0 a.toNat 0 }).withDev fun d => { d with rom := 2 })))
        ∧ (m.dev.rom = 2 →
          (∀ j, m.dev.flashB = some j → b = 0 → Does .bootRom s (m.startImage j (bootWord f 2 a.toNat 0)))
          ∧ (b ≠ 0 → Does .bootRom s ((m.modWin 64 fun w => { w with ident := bootWord f 0 a.toNat b.toNat }).withDev fun d => { d with rom := 3 })))
        ∧ (m.dev.rom = 3 → ∃ m1 : Mach, Does .bootRom s m1 ∧ (m1.sup 0).seq.run = .halted ∧ (m1.win 64).ident = bootWord f 3 a.toNat b.toNat))
    ∧ (∀ d : BitVec 2, m.booting = false → (m.die d.toNat).resetting = false →
        ((m.die d.toNat).rstReq = false → Does (.dieReset d) s ((m.logErr d.toNat 0x0c 0 0 0).modDie d.toNat fun x => { x with rstReq := true }))
        ∧ ((m.die d.toNat).rstReq = true →
          ((d ≠ 0 ∨ m.monitorElsewhere 0 = true) → Does (.dieReset d) s (m.resetDie d.toNat))
          ∧ (d = 0 → m.monitorElsewhere 0 = false → Does (.dieReset d) s (m.deviceReset none))))
    ∧ (∀ d : BitVec 2, (m.die d.toNat).resetting = false →
        Does (.dieContainment d) s ((m.logErr d.toNat 0x0c 0 0 0).modDie d.toNat fun x => { x with rstReq := true }))
    ∧ ∀ d : BitVec 2, m.booting = false → (m.die d.toNat).resetting = true → (m.die d.toNat).wiping = false → ∃ m1 : Mach, Does (.dieRejoin d) s m1
        ∧ (m1.die d.toNat).resetting = false ∧ m1.vc d.toNat d.toNat = 0
        ∧ (∀ k < 4, k ≠ d.toNat → m1.vc k d.toNat = 0 ∧ m1.vc d.toNat k = if (m.die k).resetting then 0 else m.vc k k)
        ∧ (m1.sup (8 * d.toNat)).seq = { run := .run, level := .M, pc := m.dev.monEntry } ∧ m1.log = m.log

/-- Errors of SRAM and lanes, and rollback (R154 to R156, R161, R219, R230, R236): the event, what it poisons, and what it leaves. -/
def Sys2Proof.Claims.ErrorEvents : Prop :=
  ∀ s : State, let m := s.mach
    (∀ (c : BitVec 10) (i : BitVec 12) x fixed, (m.core c.toNat).l1[i.toNat]? = some x → ∃ m1 : Mach, Does (.sramError (.l1 c i) fixed) s m1
        ∧ (m1.core c.toNat).l1 = (if fixed then (m.core c.toNat).l1 else
            (m.core c.toNat).l1.map fun o => if o.is x.pid x.asn x.sec then { o with pois := true } else o) ∧ m1.log = m.log)
    ∧ (∀ cl n (c : BitVec 2), ∃ m1 : Mach, ∀ fixed, Does (.sramError (.vote cl n c) fixed) s m1
        ∧ (m1.voted cl.toNat n.toNat).cnt = (m.voted cl.toNat n.toNat).cnt.strike c.toNat)
    ∧ (∀ a < 2 ^ 32, (Tri.of a).vote = some (a, false) ∧ ∀ n < 3, ((Tri.of a).strike n).vote = some (a, true))
    ∧ (∀ (core : BitVec 9) (lane : BitVec 4) (beat : BitVec 3) res, (m.die (dieOfCore core.toNat)).resetting = false →
        ((m.side (2 * core.toNat)).vq ≠ [] ∨ (m.side (2 * core.toNat + 1)).vq ≠ []) → Does (.laneReexecution core lane beat res) s
          (m.modCore core.toNat fun x => { x with holds := x.holds ++ [⟨lane.toNat, beat.toNat, res⟩] }))
    ∧ (∀ k h, k < 1024 → m.holdsOf k = [h] → let c := k / 2
        let x := m.core c
        let cyc := (m.die (dieOfCore c)).cyc
        let y := (m.lanes k).core c
        let event := fun kind : BitVec 8 => Logged m (m.lanes k) (dieOfCore c) ⟨kind, logPlace c (k % 2) h.lane, cyc, w64 x.nchk, w64 h.beat⟩
        y.holds = [] ∧ y.nchk = (if x.checks then x.nchk + 1 else x.nchk)
        ∧ (h.res = .agree → y.laneEv = x.laneEv ++ [(h.lane, cyc.toNat)] ∧ y.laneUnc = x.laneUnc ∧ event 0x01 ∧ ((m.lanes k).side k).v = (m.side k).v)
        ∧ (h.res ≠ .agree → y.laneEv = x.laneEv
          ∧ (h.res = .differ → y.laneUnc = h.lane :: x.laneUnc ∧ event 0x02)
          ∧ (h.res = .unread → y.laneUnc = x.laneUnc ∧ event 0x05)
          ∧ ∀ v mask, (m.side k).vlast = [(v, mask)] → (((m.lanes k).side k).v.get {} v.toNat).pois
              = ((m.side k).v.get {} v.toNat).pois ||| chunkOf h.lane h.beat mask))
    ∧ (∀ (core : BitVec 9) (lane : BitVec 4), (m.core core.toNat).retired = none → (m.core core.toNat).laneFails lane.toNat = true →
        Does (.laneRetirement core lane) s ((m.modCore core.toNat fun x => { x with retired := some lane.toNat }).logErr (dieOfCore core.toNat) 0x03
          (logPlace core.toNat 0 lane.toNat) 0 0))
    ∧ ∀ p : BitVec 4, m.dev.rollPend.contains p = true → m.dev.dies.all (fun x => !x.2.resetting) = true → (m.part p.toNat).outst = [] →
        let die := ((List.range 4).find? fun d => (m.pctx d p).en).getD 0
        let m1 := m.stopPart p
        let c := if (m1.part p.toNat).cfg.en then (m1.part p.toNat).cfg else m1.pctx die p
        let rpc := m1.pointOf p c.home.toNat
        ∃ m2 : Mach, Goes (.rollback p) s m2 ∧ m2.log = ((m1.restore p rpc).giveTables p c).log
          ∧ (m2.part p.toNat).rpc = BitVec.ofNat 48 rpc ∧ (m2.part p.toNat).rpi = BitVec.ofNat 48 (rpc + 1)
          ∧ m2.dev.rollPend = m.dev.rollPend.filter (· != p)

/-- Resets, boot and life cycle, errors and rollback. The model's choices: a die reset is first a request (log 99), where the monitor runs on a die that
joins again (log 102), the moves of the boot ROM and of the monitor (log 103), the place of the life-cycle request (log 104), how an error strikes and
what a lane event logs (log 106); DEDUCED: what a rollback takes and leaves (log 107), and when a held beat is released (log 153). -/
def Obligations.ResetEvents : Prop := Claims.ResetMoves ∧ Claims.ErrorEvents

/-- The choice of an idle side (R105, R106, R117, R121, R124), while no gang of its partition waits for sides: among the fronts whose device has allowance
and room, a device for which the side is held, then a boosted device, then the device with the greatest allowance for its weight; of its classes those
that have waited a period, the longest wait first, else the lowest class. -/
def Sys2Proof.Claims.Choice : Prop :=
  ∀ (m : Mach) (k : Nat) (p : BitVec 4) (fs : List Front) (m1 : Mach), (m.side k).pid = some p → m.fronts (k / 256) p = (fs, m1) →
    let die := k / 256
    let m2 := m1.modSched die fun x =>
      { x with gwait := x.gwait.filter fun y => y.1 != p || fs.any fun f => f.v == y.2.1 && f.cls == y.2.2 && recGang f.rec_ }
    (m2.die die).sched.gwait.all (fun y => y.1 != p) = true →
    let now := (m2.die die).cyc.toNat
    let allow := fun v => (m2.vds die v).allow
    let w := fun v => ((m2.vd v).weight : Int)
    let aged := fun (f : Front) => f.since + 1200000 ≤ now
    let can := fun (f : Front) => f ∈ fs ∧ 0 < allow f.v ∧ m2.running f.v die < m2.capsides f.v die
      ∧ (recGang f.rec_ = true → let n := (m2.takes die p f).1; n ≠ 0 ∧ m2.running f.v die + n ≤ m2.capsides f.v die)
    let heldFor := fun v => ((m2.die die).sched.hold.find? (·.1 == k)).map (·.2) = some v
    let near := fun f => can f ∧ ((∃ g, can g ∧ heldFor g.v) → heldFor f.v)
    let pool := fun f => near f ∧ ((∃ g, near g ∧ m2.boosted die g.v = true) → m2.boosted die f.v = true)
    ((∀ f, ¬ can f) → (m.choose k).1 = none)
    ∧ ((∃ f, can f) → ∃ f, (m.choose k).1 = some f ∧ pool f ∧ ((m.choose k).2.die die).sched.last = f.v
      ∧ ∀ g, pool g → allow g.v * w f.v ≤ allow f.v * w g.v
        ∧ (g.v = f.v → (aged f → aged g → f.since ≤ g.since) ∧ (¬ aged f → ¬ aged g ∧ f.cls ≤ g.cls)))

/-- How a unit starts (R106): on the side alone, P at level U at the code address of the record, x1 the frame pointer, x2 to x4 the gang's rank, size and
barrier or 0, 1 and 0, every other register 0 and full, the mailboxes full with the launch's eight doublewords, and the control registers of the unit
at their start values; and which record and launch it starts from (R105, R113, R120). What the page of its image holds then is the model's
choice (log 114). -/
def Sys2Proof.Claims.Started : Prop :=
  (∀ (m : Mach) (k : Nat) (f : Front) (r : BitVec 256) (l : CRec) (rank size bar : Nat),
    let s := (m.startUnit k f r l rank size bar).side k
    let gang := recGang r
    let word := fun (v i : Nat) => w64 (v / 2 ^ (64 * i) % 2 ^ 64)
    (s.p.run = .run ∧ s.p.level = .U ∧ s.p.inU = false ∧ s.p.pc = word r.toNat 0 ∧ s.p.ls = []
      ∧ ∀ i : Reg, s.p.reg i = { val := if i = 1 then word r.toNat 1 else if i = 2 then w64 (if gang then rank else 0)
                                        else if i = 3 then w64 (if gang then size else 1) else if i = 4 then w64 (if gang then bar else 0) else 0 })
    ∧ s.m.run = .idle ∧ s.s.run = .idle ∧ s.asn = l.asn ∧ s.pid = (m.side k).pid
    ∧ s.vl = 0 ∧ s.vtype = 0 ∧ s.vstart = 0 ∧ s.exi = 0 ∧ s.ffi = 0 ∧ s.fflags = 0 ∧ s.frm = 1 ∧ s.fenable = 0 ∧ s.bythr = 0 ∧ s.vq = [] ∧ s.held = []
    ∧ s.bind = [] ∧ s.open_ = false ∧ s.strip = none ∧ s.trap.u = {} ∧ s.pr = []
    ∧ s.stsup = (m.side k).stsup ∧ s.oorct = (m.side k).oorct ∧ s.poict = (m.side k).poict
    ∧ (∀ v po m1, m.recGet (k / 256) (m.pid0 k) (l.ppa + 64) 64 = some ((v, po), m1) → ∀ i < 8, s.mb.get {} i = { val := word v i, full := true })
    ∧ ∃ u, s.unit = some u ∧ u.launch = l.ppa ∧ u.gang = gang ∧ u.rank = rank ∧ u.size = size ∧ u.bar = bar ∧ u.join = recJoin r ∧ u.vd = f.v
        ∧ u.cls = f.cls)
  ∧ ∀ (m : Mach) (k : Nat) (f : Front) (q : QDesc) (r : BitVec 256) (m1 m2 : Mach), recGang f.rec_ = false →
    m.qdesc (k / 256) (m.pid0 k) f.v f.cls = (some q, m1) → m1.pop (k / 256) (m.pid0 k) f.v f.cls q f.idx 1 = ([r], m2) →
    (∀ l m3, m2.checkRecs (k / 256) (m.pid0 k) q f.v [r] = (some [(r, l)], m3) →
      (recCtx r = false → m.startOn k f 1 [k] 0 = m3.startUnit k f r l 0 1 0) ∧ (recCtx r = true → m.startOn k f 1 [k] 0 = m3.resumeUnit k f r l 0 1 0))
    ∧ (∀ m3, m2.checkRecs (k / 256) (m.pid0 k) q f.v [r] = (none, m3) → m.startOn k f 1 [k] 0 = m3)
    ∧ ∀ c m3, m2.chain (k / 256) (m.pid0 k) (recLaunch r) = (c, m3) →
      let count := fun (cause : BitVec 8) => m3.countUnit (k / 256) (m.pid0 k) (recLaunch r) (some cause)
      (∀ l up, c = some (l :: up) →
        ((∃ x ∈ l :: up, x.state = 2) → m2.checkRecs (k / 256) (m.pid0 k) q f.v [r] = (none, count 0x19))
        ∧ ((∀ x ∈ l :: up, x.state ≠ 2) →
          ((recBad r = true ∨ (recJoin r).toNat % 64 ≠ 0) → m2.checkRecs (k / 256) (m.pid0 k) q f.v [r] = (none, count 0x01))
          ∧ (recBad r = false → (recJoin r).toNat % 64 = 0 → m2.checkRecs (k / 256) (m.pid0 k) q f.v [r] = (some [(r, l)], m3))))

/-- The scheduler of a die (R106, R117, R121 to R129) and the landings (R120, R127, R221): starts, boosts, refills and pre-emptions. Where a gang starts
is the model's choice (log 110), that a side is asked once for a save is DEDUCED (log 116), and how a cancellation lands is the model's choice
(log 117). -/
def Sys2Proof.Claims.SchedulerMoves : Prop :=
  ∀ s : State, let m := s.mach
    (∀ (side : BitVec 10) f m1, m.idleSide side.toNat = true → (m.die (side.toNat / 256)).resetting = false → m.choose side.toNat = (some f, m1) →
      (recCtx f.rec_ = false → recGang f.rec_ = false → Goes (.unitStart side) s (m1.startOn side.toNat f 1 [side.toNat] 0))
      ∧ (recCtx f.rec_ = true → recGang f.rec_ = false →
          (m1.unsaved [(side.toNat, recImg f.rec_)] = [] →
            Goes (.unitResume side) s ((m1.endSaves [recImg f.rec_]).startOn side.toNat f 1 [side.toNat] 0))
          ∧ ∀ j img r, m1.unsaved [(side.toNat, recImg f.rec_)] = (j, img) :: r →
            Goes (.unitResume side) s (m1.askSaves [(j, img)]))
      ∧ (recGang f.rec_ = true → let p := m1.pid0 side.toNat
          let die := side.toNat / 256
          ∀ n m2, m1.takes die p f = (n, m2) →
          (n = 0 ∨ m2.gangPlace side.toNat p f.v n = none → m2.running f.v die + n ≤ m2.capsides f.v die → Goes (.gangStart side) s (m2.modSched die fun x =>
            { x with gwait := if x.gwait.contains (p, f.v, f.cls) then x.gwait else x.gwait ++ [(p, f.v, f.cls)] }))
          ∧ ∀ sides b imgs, n ≠ 0 → m2.gangPlace side.toNat p f.v n = some (sides, b) →
            (recCtx f.rec_ = false ∧ imgs = [] ∨ recCtx f.rec_ = true ∧ ∃ q m3, m2.qdesc die p f.v f.cls = (some q, m3)
              ∧ imgs = ((List.range n).filterMap fun j => (m3.ringGet die p q (f.idx + j)).1).map recImg) →
            (m2.unsaved (sides.zip imgs) = [] → Goes (.gangStart side) s (((m2.endSaves imgs).startOn side.toNat f n sides b).modSched die fun x =>
              { x with gwait := x.gwait.filter (· != (p, f.v, f.cls)) }))
            ∧ (m2.unsaved (sides.zip imgs) ≠ [] → Goes (.gangStart side) s (m2.askSaves (m2.unsaved (sides.zip imgs))))))
    ∧ (∀ j img, (m.side j).saveFor ≠ some (img, false) →
        m.askSaves [(j, img)] = (m.modSide j fun x => { x with saveFor := some (img, false) }).irqSide j 0x02)
    ∧ (∀ j img, (m.side j).saveFor = some (img, false) → m.askSaves [(j, img)] = m)
    ∧ (∀ d : BitVec 2, (m.die d.toNat).resetting = false → (m.die d.toNat).sched.nextRefill ≤ (m.die d.toNat).cyc.toNat →
        let m1 := m.modSched d.toNat fun x => { x with nextRefill := (m.die d.toNat).cyc.toNat + 1200000 }
        Goes (.refill d) s (((m1.partsOn d.toNat).foldl (fun x p => x.refillPart d.toNat p) m1).rescue d.toNat))
    ∧ (∀ die p v, die < 4 → v ∈ m.vdsOf p → ((m.refillPart die p).vds die v).allow = ((m.quota die v p : Nat) : Int))
    ∧ (∀ die v p, let sides := (m.sidesOf p die).length
        let w := (m.vd v).weight
        let tot := ((m.vdsOf p).map fun u => (m.vd u).weight).foldl (· + ·) 0
        tot ≠ 0 → m.quota die v p = min (if w = 0 then 0 else max (sides * 1200000 * w / tot) 1200000) (m.capsides v die * 1200000))
    ∧ (∀ (d : BitVec 2) (v : BitVec 6) e, (m.vds d.toNat v.toNat).boostEnd = some e → e ≤ (m.die d.toNat).cyc.toNat →
        Does (.boostEnd d v) s (m.modVds d.toNat v.toNat fun a => { a with boostEnd := none }))
    ∧ (∀ (d : BitVec 2) (v : BitVec 6), (m.vds d.toNat v.toNat).allow ≤ 0 → ∃ m1 : Mach, Does (.allowanceExhausted d v) s m1
        ∧ (∀ k x u, (k, x) ∈ m.dev.sides → m.side k = x → x.unit = some u → k / 256 = d.toNat → u.vd = v.toNat → (m1.side k).preempt = true)
        ∧ m1.log = m.log)
    ∧ (∀ side : BitVec 10, Does (.preemptRequest side) s (m.preemptUnit side.toNat false)
        ∧ ∀ u, (m.side side.toNat).unit = some u → u.gang = false → m.preemptUnit side.toNat false =
            m.modSide side.toNat fun x => { x with preempt := true, yielded := x.yielded || false })
    ∧ (∀ (side : BitVec 10) u, (m.side side.toNat).unit = some u → (m.side side.toNat).preempt = true → (m.side side.toNat).cancelled = false →
        m.landReady side.toNat = true → m.imageFits side.toNat = true → (m.side side.toNat).att.all (fun e => e.lvl != .U) = true → (m.side side.toNat).tstop = none →
        let m1 := (m.settleSeqs side.toNat).asSeq (.side side .P) fun x => x.releaseData x.myAcc .die
        (m1.withDev fun d => { d with cur := .side side .P }).releaseDone .die false = true →
        Goes (.preemptionLanding side) s (m1.saveUnit side.toNat u))
    ∧ ∀ (side : BitVec 10), (m.side side.toNat).unit.isSome = true → (m.side side.toNat).cancelled = true →
        (m.landReady side.toNat = true ∨ (m.side side.toNat).cancelTold = true ∧ (m.side side.toNat).lowU = true ∧ (m.die (side.toNat / 256)).resetting = false) →
        let m1 := (m.settleSeqs side.toNat).modSide side.toNat fun x => { x with cancelTold := true, landed := true }
        (m1.side side.toNat).vq = [] → Does (.cancelLanding side) s (m1.asSeq (.side side .P) fun x => x.enter .S { cause := 0x19, tval := 0 } x.me.pc false)

/-- The scheduler of a die: its moves, which record a side takes, and how a unit starts (R105, R106, R117, R120 to R129). -/
def Obligations.SchedulerEvents : Prop := Claims.SchedulerMoves ∧ Claims.Choice ∧ Claims.Started

end

namespace Sys2Proof.Claims
open Sys2Proof Sys2Proof.Machine

/-- The request at the front of a window's ring, when the image takes one (R93, R98), and the machine behind it. -/
def nextReq (m : Mach) (w : Nat) : Option (Nat × Mach) :=
  let x := m.win w
  if !x.ready || x.halted || x.unassigned || x.reqhead.toNat = x.rqtail.toNat % 128 then none
  else some (x.rd (0x1000 + 128 * x.reqhead.toNat) 128, m.modWin w fun x => { x with reqhead := BitVec.ofNat 7 ((x.reqhead.toNat + 1) % 128) })

/-- The register that an event writes for a sequencer (R299, R300, R296, R147, R35). -/
def eventReg : Instr → Option (SeqId × Nat × Word)
  | .vtypeWrite q v => some (q, 0x01, v)
  | .vlWrite q v => some (q, 0x00, v)
  | .frmWrite q v => some (q, 0x09, v)
  | .asnWrite q v => some (q, 0x24, v)
  | .vdirtyWrite q v => some (q, 0x06, v)
  | .capselWrite q v => some (q, 0x10, v)
  | _ => none

/-- vl is at most VLMAX of the side's type. -/
def vlKept (x : Side) : Prop := x.vl.toNat ≤ vlmax x.vty
/-- At most 255 operations are pending. -/
def pendKept (t : Token) : Prop := t.pend ≤ 255
/-- The counts of a circular buffer of N slots. -/
def countsKept (b : CBuf) : Prop := b.freed ≤ b.taken ∧ b.taken ≤ b.filled ∧ b.filled ≤ b.claimed ∧ b.claimed ≤ b.freed + b.n

/-- The instructions that store through a partition's tables as they are executed. -/
def stores : Instr → Bool
  | .st .. | .stl .. | .amo .. | .lyst .. | .txenc .. | .txdec .. | .txmask .. | .txstep .. | .txsave .. => true
  | _ => false

end Sys2Proof.Claims

section
open Sys2Proof Sys2Proof.Machine Sys2Proof.Claims

/-- The host's writes and the requests of the client interface (R88 to R101): the checks of notify, the interrupt causes and masks, the
requests that an image serves, the completion ring, and a function level reset, which cancels every job of the virtual device without a completion. That
an unknown opcode is malformed, and that the physical function refuses what it does not serve, is log 122; that the reset takes the completions that
wait for the window, and that window 64 is the physical function's, log 156. -/
def Sys2Proof.Claims.HostMoves : Prop :=
  ∀ s : State, let m := s.mach
    (∀ (w : BitVec 7) (rq cp : Nat), let x := m.win w.toNat
      let v := w64 (rq + 65536 * cp)
      rq < 65536 → cp < 65536 → m.hostWrites w.toNat = true → x.ready = true → x.halted = false →
      let free := 127 - (x.rqtail.toNat + 128 - x.reqhead.toNat) % 128
      let out := (x.cpltail.toNat + 256 - x.cphead.toNat % 256) % 256
      ((128 ≤ rq ∨ free < (rq + 128 - x.rqtail.toNat % 128) % 128) → Does (.notifyWrite w v) s (m.modWin w.toNat (·.notifyErr 1)))
      ∧ (rq < 128 → (rq + 128 - x.rqtail.toNat % 128) % 128 ≤ free →
        ((256 ≤ cp ∨ out < (cp + 256 - x.cphead.toNat % 256) % 256) → Does (.notifyWrite w v) s (m.modWin w.toNat (·.notifyErr 2)))
        ∧ (cp < 256 → (cp + 256 - x.cphead.toNat % 256) % 256 ≤ out → Does (.notifyWrite w v) s
            ((m.modWin w.toNat fun x => { x with rqtail := BitVec.ofNat 16 rq, cphead := BitVec.ofNat 16 cp }).irqWin w.toNat))))
    ∧ (∀ (w : BitVec 7) v, (m.hostWrites w.toNat = false ∨ (m.win w.toNat).ready = false) → Does (.notifyWrite w v) s m)
    ∧ (∀ (w : BitVec 7) v, m.hostWrites w.toNat = true →
        Does (.hostirqClear w v) s (m.modWin w.toNat fun x => { x with hostirq := x.hostirq &&& ~~~(v.extractLsb' 0 3) })
        ∧ ∃ m1 : Mach, Does (.irqmaskWrite w v) s m1 ∧ (m1.win w.toNat).irqmask = v.extractLsb' 0 3
          ∧ (m1.win w.toNat).hostirq = (m.win w.toNat).hostirq
          ∧ ((m.win w.toNat).hostirq &&& (m.win w.toNat).irqmask &&& ~~~(v.extractLsb' 0 3) = 0 → (m1.win w.toNat).msix = (m.win w.toNat).msix))
    ∧ (∀ w, Does (.unsupportedRequest w) s m)
    ∧ (∀ (vd : BitVec 6) r m1, nextReq m vd.toNat = some (r, m1) → let w := vd.toNat
      let tag := rqF r 4 4
      let id := rqF r 8 8
      (rqF r 0 1 = 1 → ∀ p, (m.vd w).pid = some p → let quiet := decide (rqF r 1 1 % 2 = 1)
        (submitBad r = true → Does (.submit vd) s (m1.complete w tag 2 0 0 0 quiet))
        ∧ (submitBad r = false → (m.pctx (m.partDie p) p).asnCount ≤ rqF r 32 2 → Does (.submit vd) s (m1.complete w tag 3 0 0 0 quiet))
        ∧ (submitBad r = false → rqF r 32 2 < (m.pctx (m.partDie p) p).asnCount → Goes (.submit vd) s (m1.makeJob w p r)))
      ∧ (rqF r 0 1 = 2 →
        (jobReqBad r = true → Does (.requestCancel vd) s (m1.complete w tag 2 0 0 0 false))
        ∧ (jobReqBad r = false → m.gaveJob w id = false → Does (.requestCancel vd) s (m1.complete w tag 4 id 0 0 false))
        ∧ (jobReqBad r = false → m.gaveJob w id = true → (m.dev.jobs.find? fun j => j.id == id && !j.mute) = none →
            Does (.requestCancel vd) s (m1.complete w tag 0 id 0 0 false))
        ∧ ∀ j, jobReqBad r = false → m.gaveJob w id = true → (m.dev.jobs.find? fun j => j.id == id && !j.mute) = some j →
            m.dev.ended.contains (j.pid, j.ppa) = false →
            Goes (.requestCancel vd) s ((m1.cancelRec (m1.partDie j.pid) j.pid j.ppa).2.withDev fun d =>
              { d with jobs := d.jobs.map fun x => if x.id = id then { x with cancels := x.cancels ++ [BitVec.ofNat 32 tag] } else x }))
      ∧ (rqF r 0 1 = 3 → jobReqBad r = false → m.gaveJob w id = true →
        ((m.dev.jobs.find? fun j => j.id == id) = none → Does (.query vd) s (m1.complete w tag 0 id 0 0 false))
        ∧ ∀ j (l : CRec) (m2 : Mach), (m.dev.jobs.find? fun j => j.id == id) = some j → m1.crec (m1.partDie j.pid) j.pid (j.ppa + 192) = some (l, m2) →
            Goes (.query vd) s (m2.complete w tag 0 id l.pending 0 false)))
    ∧ (∀ (w : BitVec 7) r m1, nextReq m w.toNat = some (r, m1) → let n := w.toNat
      (rqF r 0 1 = 5 → Does (.requestNop w) s (m1.complete n (rqF r 4 4) (if rqF r 1 3 = 0 ∧ rqF r 8 120 = 0 then 0 else 2) 0 0 0 false))
      ∧ (rqF r 0 1 = 4 → rqF r 1 3 = 0 → rqF r 8 8 = 0 → rqF r 56 72 = 0 → let (ok, dig, caps) := m1.quoteOf n
        (ok = false → Does (.attest w) s (m1.complete n (rqF r 4 4) 3 0 0 0 false))
        ∧ (ok = true → quoteLen (min 64 caps.length) ≤ rqF r 52 4 → 0x7000 ≤ rqF r 48 4 → rqF r 48 4 + rqF r 52 4 ≤ 0x10000 →
          (∀ q m2, m1.quote (rqF r 16 32) dig caps = .ok (q, m2) → Does (.attest w) s
            ((m2.modWin n (·.wrMem (rqF r 48 4) q (quoteLen (min 64 caps.length)))).complete n (rqF r 4 4) 0 0 (quoteLen (min 64 caps.length)) 0 false))
          ∧ ∀ e, m1.quote (rqF r 16 32) dig caps = .error e → Does (.attest w) s (m1.complete n (rqF r 4 4) e 0 0 0 false))))
    ∧ (∀ (w : BitVec 7) c before after, w.toNat ≤ 64 → (m.win w.toNat).ready = true → m.dev.compls = before ++ c :: after → c.w = w.toNat →
      before.all (fun x => x.w != w.toNat) = true →
      ((m.win w.toNat).cpltail.toNat + 1) % 256 ≠ (m.win w.toNat).cphead.toNat % 256 →
      Does (.completionWrite w) s ((m.withDev fun d => { d with compls := before ++ after }).modWin w.toNat (·.post c)))
    ∧ ∀ w : BitVec 7, w.toNat ≤ 64 →
        let n := w.toNat
        let cancelled := (m.dev.jobs.filter (·.vd == n)).foldl (fun x j => (x.cancelRec (x.partDie j.pid) j.pid j.ppa).2) (m.failHost (· == n))
        Goes (.functionLevelReset w) s ((cancelled.withDev fun d =>
          { d with jobs := d.jobs.map fun j => if j.vd = n then { j with mute := true, cancels := [] } else j
                   compls := d.compls.filter (·.w != n) }).modWin n (·.reset n))

/-- What a reset leaves of a window (R100): the control page at its reset values but for the epoch, which is one higher, and the interrupt of the
epoch; both rings zero; the inline data as they were; it serves nothing before the image sets ready again. A boot status word stays (R29, R101). -/
def Sys2Proof.Claims.WindowReset : Prop :=
  ∀ (w : Nat) (x : Window), let y := x.reset w
    y.epoch = x.epoch + 1 ∧ y.hostirq = 4 ∧ y.ready = false ∧ y.halted = false ∧ y.err = 0 ∧ y.flr = true
    ∧ y.rqtail = 0 ∧ y.reqhead = 0 ∧ y.cpltail = 0 ∧ y.cphead = 0 ∧ y.hwbase = 0 ∧ y.irqmask = (Window.fresh w).irqmask ∧ y.cplPass = 0
    ∧ y.ident = (if wbits x.ident 48 16 = 0x7a3e then x.ident else (Window.fresh w).ident)
    ∧ ∀ a, (0x1000 ≤ a → a < 0x7000 → y.byte a = 0) ∧ (0x7000 ≤ a → y.byte a = x.byte a)

/-- A completion entry in its ring (R93 to R95): its bytes, cpltail behind it, and the cause cpl unless the request asked for none. -/
def Sys2Proof.Claims.CompletionRing : Prop :=
  ∀ (x : Window) (c : Compl), let y := x.post c
    y.rd (0x5000 + 32 * x.cpltail.toNat) 32 = c.bits x.cplPass x.epoch ∧ y.cpltail.toNat = (x.cpltail.toNat + 1) % 256
    ∧ (c.noIrq = true → y.hostirq = x.hostirq) ∧ (c.noIrq = false → y.hostirq = x.hostirq ||| 1#3)
    ∧ (c.bits x.cplPass x.epoch).testBit 40 = decide (x.cplPass % 2 = 0)
    ∧ (c.bits x.cplPass x.epoch).testBit 41 = c.epoch.any (· != x.epoch)
    ∧ ∀ a, 0x1000 ≤ a → a < 0x5000 → y.rd a 1 = x.rd a 1

/-- The client interface (R88 to R101): which requests one window serves and with what, the accesses of a window without a row of its own, and the
effect of a reset on the completions that wait are the model's choice (log 122, 127, 156). -/
def Obligations.HostEvents : Prop := Claims.HostMoves ∧ Claims.CompletionRing ∧ Claims.WindowReset

/-- The hypervisor calls (R102): each call's status and results, returned to the instruction behind the `hcall`. -/
def Obligations.HypervisorCalls : Prop :=
  ∀ (s : State) (q : SeqId) (p : BitVec 4) (n : Nat), let m := s.mach
    let x := fun i : Reg => ((m.seq q).reg i).val
    m.hcallOf q = some n → m.pidOf q = some p →
    (n = 0 → Goes (.hcallVersion q) s (m.hcallRet q 0 [(11, Config.monitorVersion), (12, w64 Config.hcallCount)]))
    ∧ (n ≠ 0 → Config.hcallCount ≤ n → Goes (.hcallVersion q) s (m.hcallRet q 1 []))
    ∧ (n = 1 → Goes (.hcallAsnTable q) s (m.hcallRet q 0 [(11, w64 (m.pctx (dieOf q) p).asBase), (12, w64 (m.pctx (dieOf q) p).asnCount)]))
    ∧ (n = 2 → let bad := 16 ≤ (x 11).toNat ∨ 4 ≤ (x 15).toNat ∨ (x 12).toNat % 8 ≠ 0 ∨ (x 13).toNat % 8 ≠ 0 ∨ (x 14).toNat % 8 ≠ 0
          ∨ (x 13).toNat / 65536 < (x 12).toNat / 65536
        (bad → Goes (.hcallFormatRange q) s (m.hcallRet q 2 []))
        ∧ (¬ bad → (m.part p.toNat).fmtMask.getLsbD (x 11).toNat = false → Goes (.hcallFormatRange q) s (m.hcallRet q 3 []))
        ∧ ∀ a b, ¬ bad → (m.part p.toNat).fmtMask.getLsbD (x 11).toNat = true →
          (∀ j, j ≤ (x 13).toNat / 65536 - (x 12).toNat / 65536 →
            m.ownFrame (dieOf q) p (((x 12).toNat / 65536 + j) * 65536) = some (a + 65536 * j)) →
          m.ownFrame (dieOf q) p (x 14).toNat = some b →
          ∃ m1 : Mach, Goes (.hcallFormatRange q) s (m1.hcallRet q 0 [])
            ∧ ∀ d < 4, (wbits ((m.capList p.toNat).headD 0) 0 4).testBit d = true →
              (m1.die d).fmt.get {} (x 11).toNat = { base := w64 (a / 65536 * 65536 + 2 * (x 15).toNat + 1)
                                                     limit := w64 ((a / 65536 + ((x 13).toNat / 65536 - (x 12).toNat / 65536)) * 65536)
                                                     scale := w64 (b / 128 * 128) })
    ∧ (n = 3 → (x 11).toNat % 8 = 0 → (x 12).toNat % 8 = 0 → let pt := m.part p.toNat
        let caps := m.capList p.toNat
        let len := quoteLen (min 64 caps.length)
        (pt.quoteOk = false → Goes (.hcallQuote q) s (m.hcallRet q 3 []))
        ∧ (pt.quoteOk = true → (x 13).toNat < len → Goes (.hcallQuote q) s (m.hcallRet q 6 []))
        ∧ ∀ nonce po m1 m2 v m3 m4, pt.quoteOk = true → len ≤ (x 13).toNat → m.ppaGet (dieOf q) (some p) (x 11).toNat 32 2 = some ((nonce, po), m1) →
          m1.ppaPut (dieOf q) (some p) (x 12).toNat len 0 (len / 1024 + 2) = some m2 →
          m1.quote nonce (shake256 pt.image) caps = .ok (v, m3) →
          m3.ppaPut (dieOf q) (some p) (x 12).toNat len v (len / 1024 + 2) = some m4 →
          Goes (.hcallQuote q) s (m4.hcallRet q 0 [(11, w64 len)]))
    ∧ (n = 4 →
        ((16 ≤ (x 11).toNat ∨ 2 ≤ (x 12).toNat) → Goes (.hcallGalePort q) s (m.hcallRet q 2 []))
        ∧ ((x 11).toNat < 16 → (x 12).toNat < 2 →
          ((m.port (x 11).toNat).pid ≠ some p → Goes (.hcallGalePort q) s (m.hcallRet q 3 []))
          ∧ ((m.port (x 11).toNat).pid = some p → let m1 := m.portSetEn (x 11).toNat ((x 12).getLsbD 0)
              Goes (.hcallGalePort q) s (m1.hcallRet q 0 [(11, (m1.port (x 11).toNat).status)]))))
    ∧ (n = 5 →
        (64 ≤ (x 11).toNat → Goes (.hcallVirtualDevice q) s (m.hcallRet q 2 []))
        ∧ ((x 11).toNat < 64 → (m.vd (x 11).toNat).pid ≠ some p → Goes (.hcallVirtualDevice q) s (m.hcallRet q 3 []))
        ∧ ((x 11).toNat < 64 → (m.vd (x 11).toNat).pid = some p → Goes (.hcallVirtualDevice q) s (m.hcallRet q 0
            [(11, w64 (nb (m.vd (x 11).toNat).commit + 2 * (m.vd (x 11).toNat).notify.toNat)), (12, w64 (m.pctx (dieOf q) p).asnCount)])))

/-- The register writes that are steps of their own (R6, R35, R81, R147, R296, R299, R300): they act as the write of the sequencer named
does; a value that the register does not accept changes nothing. -/
def Sys2Proof.Claims.RegisterEvents : Prop :=
  ∀ s : State, let m := s.mach
    (∀ i q n v, eventReg i = some (q, n, v) → ((∃ k r, q = .side k r) ∨ crSide n = false) →
      let m0 := m.withDev fun d => { d with cur := q }
      (∀ m1, m0.crPut n v = .done m1 → Does i s (m1.withDev fun d => { d with cur := s.dev.cur }))
      ∧ (m0.crPut n v = .bad → Does i s m))
    ∧ (∀ (core : BitVec 9) v,
        (m.pipeBusy core.toNat (v.setWidth 8) = false → Does (.pipeownWrite core v) s (m.modCore core.toNat fun c => { c with pipeown := v.setWidth 8 }))
        ∧ (m.pipeBusy core.toNat (v.setWidth 8) = true → Does (.pipeownWrite core v) s m))
    ∧ ∀ (mpa : BitVec 52) v,
        (∀ d p o, region mpa.toNat = .dev d p o → pageAssigned d p = true → o % 8 = 0 →
          (p < 0x100 → Does (.registerWrite mpa v) s (m.devWrite d p o 8 v.toNat))
          ∧ (0x100 ≤ p → Does (.registerWrite mpa v) s (m.hostWrite (pageWindow p) o v)))
        ∧ (∀ (w : BitVec 7) o, m.hostWrites w.toNat = true → let t := m.hostWrite w.toNat o v
          (o < 0x1000 → o / 8 ≠ 2 → o / 8 ≠ 5 → o / 8 ≠ 6 → o / 8 ≠ 7 → t = m)
          ∧ (o / 8 = 7 → t = m.modWin w.toNat fun x => { x with hwbase := w64 (wbits v 42 22 * 2 ^ 42 + wbits v 0 1) }))
        ∧ (region mpa.toNat = .dram → Does (.registerWrite mpa v) s m)

/-- The control registers (R296, R298 to R300): the instructions and the writes that are steps of their own. -/
def Obligations.ControlRegisters : Prop := Claims.ControlAccess ∧ Claims.RegisterEvents

end

section
open Sys2Proof Sys2Proof.Machine Sys2Proof.Claims

/-- Words written out from the encodings of the spec decode to the instructions that they stand for, one of each family (R245 to R247, R266). -/
def Obligations.DecodeWords : Prop :=
  decode ⟨0x4086, 0x9a50⟩ = some (.add 6 ⟨true, 6⟩ ⟨true, 5⟩)
  ∧ decode ⟨0xc605, 0xa00⟩ = some (.li 5 10)
  ∧ decode ⟨0x90e6, 0xd6180000⟩ = some (.stl ⟨true, 6⟩ ⟨true, 21⟩ 3 .dev 0)
  ∧ decode ⟨0x9401, 0x96000003⟩ = some (.b .ne ⟨true, 5⟩ ⟨true, 0⟩ 0 3)
  ∧ decode ⟨0x1a40, 0⟩ = some .endUnit
  ∧ decode ⟨0xe809, 0x0420c3800000⟩ = some (.vfma 9 1 2 3 0 (some .f32) .dyn)
  ∧ decode ⟨0xf840, 0xb00020000006⟩ = some (.mmacStaged 0 ⟨true, 12⟩ .e4m3 0 false 1)
  ∧ decode ⟨0xfa2c, 0x000001a00005⟩ = some (.cpy (.x ⟨true, 12⟩) 2 3 (some 1) 0)
  ∧ decode ⟨0xfd40, 0xa40000000001⟩ = some (.txdec ⟨true, 9⟩ true)

/-- Decode and encode agree (R245 to R248, R266, R271 to R277): every well-formed instruction comes back from its word, whatever its
operands. -/
def Obligations.DecodeEncode : Prop :=
  ∀ (i : Instr) (e : Enc), i.wf = true → encode i = some e → decode e = some i

/-- A word that decodes has no bit beside its instruction: the instruction is well formed and its word is that word. A tail shorter than
48 bits is extended by zeros (R241, R245, R250). -/
def Obligations.WordOfInstruction : Prop :=
  ∀ (i : Instr) (e : Enc), decode e = some i → e.tail.toNat < 2 ^ (16 * headTl e.head) → i.wf = true ∧ encode i = some e

/-- A step runs the decoded instruction (R243, R250): a listed sequencer that may go on performs what its line buffer holds at its PC, a head
that decodes to nothing traps with 0x01 and that head; a listed queue performs its oldest entry and gives the move back; a listed event
is performed. -/
def Obligations.StepRunsDecoded : Prop :=
  ∀ (s : State) (r : List Turn), let s0 : State := { s with turns := r }
    (∀ q l, s.turns = .seq q :: r → (s.mach.seq q).run ≠ .boot → s.mach.takeable q = none → s.mach.canMove q = true →
      (s.mach.seq q).line = some l → l.base = lineBase (s.mach.seq q).pc → slotOf (s.mach.seq q).pc ≠ 0 →
      slotOf (s.mach.seq q).pc ≤ Line.count l.bits →
      let e := Line.slot l.bits (slotOf (s.mach.seq q).pc)
      (∀ i, decode e = some i → step s = exec i ((s0.as q).withHead e.head))
      ∧ (decode e = none → step s = (((s0.as q).withHead e.head).mach.trapHead 0x01).answer s0))
    ∧ (∀ k e x t, s.turns = .vq k :: r → (s.mach.side k.toNat).vq = e :: x → (s.mach.side k.toNat).queueStops = false →
      exec e.ins { s0 with dev := { s.dev with cur := .side k .P, vqNow := some (k, e), head := e.head } } = .next t →
      step s = .next { t with dev := { t.dev with vqNow := none, cur := s.dev.cur, head := s.dev.head } })
    ∧ ∀ i, s.turns = .event i :: r → encode i = none → step s = exec i s0

/-- No step spoils the memory: what a step leaves is in canonical form when what it found was. -/
def Obligations.StepKeepsMemory : Prop := ∀ s t : State, Safe s → step s = .next t → Safe t

/-- Predicate 0 of every side reads all ones and nothing writes it (R248, R272). -/
def Sys2Proof.Claims.PredicateZero : Prop := ∀ (x : Side) (b : PBits), x.pred 0 = BitVec.allOnes 1024 ∧ x.setPred 0 b = x

/-- No step takes a bound away that it finds kept: vl is at most VLMAX of vtype on every side (R299, R300), no token has more than 255 operations pending
(R172), and the counts of every circular buffer obey freed ≤ taken ≤ filled ≤ claimed ≤ freed + N (R171). -/
def Obligations.StepKeepsBounds : Prop :=
  Claims.PredicateZero
  ∧ (∀ s t : State, step s = .next t → (∀ k, vlKept (s.mach.side k)) → ∀ k, vlKept (t.mach.side k))
  ∧ (∀ s t : State, step s = .next t → (∀ c n, pendKept (s.mach.token c n)) → ∀ c n, pendKept (t.mach.token c n))
  ∧ ∀ s t : State, step s = .next t → (∀ c n, countsKept ((s.mach.core c).sx.cb.get {} n)) → ∀ c n, countsKept ((t.mach.core c).sx.cb.get {} n)

/-- What level U cannot change (R78, R206, R210, R296): an instruction that a sequencer executes at level U, and that is no store, leaves the vectors and the
trap areas of levels S and M of every side and supervisor core as they are; when the sequencer is at level U afterwards, which it leaves by a trap alone,
it leaves every trap register of those levels. (A store may reach the island register of a die, where the partition's tables lead it there.) -/
def Obligations.LevelUProtects : Prop :=
  ∀ (i : Instr) (s t : State), (encode i).isSome = true → stores i = false → s.dev.vqNow = none → s.mach.me.level = .U → exec i s = .next t →
    (∀ q l, l ≠ .U → ((t.mach.trapOf q).get l).tvec = ((s.mach.trapOf q).get l).tvec
      ∧ ((t.mach.trapOf q).get l).qframe = ((s.mach.trapOf q).get l).qframe)
    ∧ ((t.mach.seq s.dev.cur).level = .U → ∀ l, l ≠ .U → (t.mach.trapOf s.dev.cur).get l = (s.mach.trapOf s.dev.cur).get l)

/-- Every instruction and event answers with a next state: none faults and none is refused. Only a listed event that is an instruction
stops a step. -/
def Obligations.EveryInstructionAnswers : Prop :=
  (∀ (i : Instr) (s : State), ∃ t, exec i s = .next t)
  ∧ ∀ s : State, (∃ t, step s = .next t) ∨ (step s = .fault .notAnEvent ∧ ∃ i r, s.turns = .event i :: r ∧ (encode i).isSome = true)

/-- What reset leaves (R24, R25, R27, R28, R85, R89): memory in canonical form that reads zero everywhere, supervisor core 0 of die 0 at the
boot ROM at level M, no sequencer of a side running, every register, token and accumulator zero; the boot status word of stage 0. -/
def Obligations.ResetState : Prop :=
  Safe State.reset ∧ (∀ a, Memory.read State.reset.mem a = 0) ∧ (State.reset.mach.sup 0).seq.run = .boot ∧ (State.reset.mach.sup 0).seq.level = .M
  ∧ (∀ k r, (State.reset.mach.seq (.side k r)).run = .idle ∧ ∀ x, (State.reset.mach.seq (.side k r)).reg x = {})
  ∧ (∀ k, vlKept (State.reset.mach.side k)) ∧ (∀ c n, pendKept (State.reset.mach.token c n))
  ∧ (∀ c n, countsKept ((State.reset.mach.core c).sx.cb.get {} n))
  ∧ (∀ k, (State.reset.mach.side k).vl = 0 ∧ (State.reset.mach.side k).vq = [] ∧ (∀ p, (State.reset.mach.side k).pred p = if p = 0 then -1 else 0))
  ∧ (∀ c n, State.reset.mach.token c n = {} ∧ (State.reset.mach.core c).mx.acc.get 0 n = 0) ∧ (State.reset.mach.win 64).ident = 0x7a3e010000000000
  ∧ ∀ d, (State.reset.mach.die d).cyc = 0 ∧ (State.reset.mach.die d).resetting = false

/-- Machine physical addresses (R39, R84): with bits [51:39] zero an address is DRAM of the die that bits [38:37] name, and with any other
value it is not; device pages, Gale remote windows and host windows lie as the table of R84 says, and any other address is reserved; a walk that ends
in a reserved region or an unassigned page fails as reason 3, and outside DRAM the home attribute is 3. -/
def Obligations.AddressSpace : Prop :=
  ∀ a : BitVec 52, let f := fun lo n => a.toNat / 2 ^ lo % 2 ^ n
    (f 39 13 = 0 → region a.toNat = .dram ∧ dieOfMpa a.toNat = f 37 2 ∧ a.toNat = f 37 2 * 2 ^ 37 + f 0 37)
    ∧ (f 39 13 ≠ 0 → region a.toNat ≠ .dram)
    ∧ (f 48 4 = 1 → f 39 9 = 0 → region a.toNat = .dev (f 37 2) (f 16 21) (f 0 16))
    ∧ (f 48 4 = 4 → region a.toNat = .gale (f 44 4) (f 0 44))
    ∧ (f 48 4 = 8 → region a.toNat = .host (f 42 6) (f 0 42))
    ∧ ((f 48 4 ≤ 1 ∧ f 39 9 ≠ 0 ∨ f 48 4 ∉ [0, 1, 4, 8]) → region a.toNat = .reserved)
    ∧ ∀ (m : Mach) (die : Nat) (pid : BitVec 4) (asn : BitVec 16) (va : Nat), let c := m.pctx die pid
        (∀ root l1 mpa l2, c.en = true → m.root1 die c asn = .ok root → descend (m.tab1 die c) false 0 2 va walkLevels root = .ok l1 →
          m.stage2 die c (eaddr l1.ent + va % 2 ^ l1.sh) = .ok (mpa, l2) →
          (region mpa = .reserved ∨ ∃ d p o, region mpa = .dev d p o ∧ pageAssigned d p = false) → m.walk die pid asn va = .error 3)
        ∧ ∀ t, m.walk die pid asn va = .ok t → region t.mpa ≠ .dram → t.home = 3

end

namespace Sys2Proof.Claims
open Sys2Proof Sys2Proof.Machine

/-- The byte of an address that an L1 holds, if it holds it. -/
def l1Byte (m : Mach) (core : Nat) (pid : BitVec 4) (asn : BitVec 16) (b : Nat) : Option Byte :=
  match (m.core core).l1.find? (·.is pid asn (b / 128)) with
  | some x => if x.have_.getLsbD (b % 128) then some (x.data.extractLsb' (8 * (b % 128)) 8) else none
  | none => none

/-- A side without what a vector instruction may change: its vector registers, fflags, vstart, the strip, the dirty bits, and its queue. -/
def besideVector (s : Side) : Side :=
  { s with v := [], fflags := 0, vstart := 0, strip := none, vdirty := 0, vq := [], vlast := [], bind := [] }
/-- A core without the count of its lane instructions. -/
def besideLanes (c : Core) : Core := { c with nchk := 0 }

end Sys2Proof.Claims

section
open Sys2Proof Sys2Proof.Machine Sys2Proof.Claims

/-- What an element-wise instruction leaves as it was (R147, R302), when no source is bound to a port and no lane holds a beat: every vector register but its
destination, the bytes of the elements of the destination that are not active or lie at vl or above, every predicate, scalar register,
control register and queue entry behind it, every other side, core, cluster and die, and every byte of memory. -/
def Sys2Proof.Claims.BesideElements : Prop :=
  ∀ (i : Instr) (ts : Option ETy) (ok : ETy → Bool) (d : VR) (pg : PR) (vs : List VR) (f : ETy → BitVec 3 → List Nat → Nat × Fl),
    vecValue i = some (ts, ok, d, pg, vs, f) →
    ∀ (s : State) (k : BitVec 10) (e : VqEntry) (src : List (VR × VReg)) (m1 : Mach), atHeadT s k e ts .fma 0 = true →
      let m := s.mach.left k.toNat
      let x := m.side k.toNat
      let t := x.ty ts
      ok t = true → x.stripFull = false → m.reads k.toNat (x.vl.toNat * t.size) vs (some d) = some (src, m1) →
      vs.all (fun v => x.bind.all (·.1 != v)) = true → (m.core (k.toNat / 2)).holds = [] →
      m.settles k.toNat (elemRes m k.toNat t pg vs src (f t x.frm)) = true →
      ∃ u, exec i s = .next u ∧ let y := u.mach.side k.toNat
        (∀ v, v ≠ d → y.vreg v = x.vreg v)
        ∧ (∀ j < 1024 / t.size, (x.active pg j = false ∨ x.vl.toNat ≤ j) →
            (y.vreg d).el t.size j = (x.vreg d).el t.size j ∧ (y.vreg d).bad t.size j = (x.vreg d).bad t.size j)
        ∧ y.vdirty = x.vdirty ||| (1#32 <<< d.toNat) ∧ y.vq = x.vq.tail ∧ y.vstart = 0 ∧ (∀ b, b ∈ y.bind ↔ b ∈ x.bind ∧ b.1 ≠ d)
        ∧ besideVector y = besideVector x
        ∧ (∀ j, j ≠ k.toNat → u.mach.side j = s.mach.side j) ∧ (∀ c, besideLanes (u.mach.core c) = besideLanes (s.mach.core c))
        ∧ (∀ n, u.mach.sup n = s.mach.sup n) ∧ u.dev.clusters = s.dev.clusters ∧ u.dev.dies = s.dev.dies ∧ u.turns = s.turns
        ∧ ∀ a, Memory.read u.mem a = Memory.read s.mem a

/-- What an element-wise vector instruction writes and what it leaves as it was (R147, R302). -/
def Obligations.VectorFrame : Prop := Claims.ElementWrite ∧ Claims.BesideElements

/-- What a scalar store leaves as it was (R53, R158, R329): one that finds its sector in L1 and its page confirmed there changes the bytes
from its address on, as many as its width, and nothing else: no other byte that the L1 holds, no register, no flag, no other core, and no
byte of DRAM. -/
def Obligations.StoreFrame : Prop :=
  ∀ (s : State) (v a : Src) (sz : BitVec 2) (off : BitVec 19) (r : Rights) (sh : Nat), let m := s.mach
    let va := m.val a + off.signExtend 64
    let w := 2 ^ sz.toNat
    let acc := m.myAcc
    let p := acc.addr va
    let asn := asnTag acc.asn p
    m.ready none [a] [v] = true → storeFree m va = true → va.toNat % w = 0 → 16 ≤ sh → m.pageSt acc va = (⟨sh, p / 2 ^ sh, .conf r⟩, m) → r.home ≠ 3 → m.heldByOther acc p = false →
    (m.att acc.grp).length ≤ 64 → (m.core acc.core).l1.any (·.is acc.tagPid asn (p / 128)) = true →
    ∃ t, exec (.st v a sz off) s = .next t
      ∧ (∀ b, l1Byte t.mach acc.core acc.tagPid asn b = if p ≤ b ∧ b < p + w then some ((m.x v.r).val.extractLsb' (8 * (b - p)) 8)
          else l1Byte m acc.core acc.tagPid asn b)
      ∧ (∀ q x b, (q ≠ acc.tagPid ∨ x ≠ asn) → l1Byte t.mach acc.core q x b = l1Byte m acc.core q x b)
      ∧ (∀ n, t.mach.me.reg n = m.me.reg n) ∧ (∀ q, q ≠ s.dev.cur → t.mach.seq q = m.seq q)
      ∧ (∀ k, besideSeqs (t.mach.side k) = besideSeqs (m.side k)) ∧ (∀ n, besideSeq (t.mach.sup n) = besideSeq (m.sup n))
      ∧ (∀ c, c ≠ acc.core → t.mach.core c = m.core c) ∧ t.dev.dies = s.dev.dies ∧ t.dev.clusters = s.dev.clusters ∧ t.turns = s.turns
      ∧ ∀ b, Memory.read t.mem b = Memory.read s.mem b

end
end

