-- ==== Sys2Proof/Laws/Memory.lean ====
section
/-! SUPPORT. The laws of memory: read after write, the canonical form under every memory operation, and the journal of a step. -/

namespace Sys2Proof.Machine
open Sys2Proof

/-! ## One byte -/

theorem Memory.wfFrom_mono {lo lo' : Nat} (h : lo' ≤ lo) : ∀ {m : List Host.Cell}, Memory.wfFrom lo m = true → Memory.wfFrom lo' m = true
  | [], _ => rfl
  | (a, b) :: r, w => by
    simp only [Memory.wfFrom, Bool.and_eq_true, decide_eq_true_eq] at w ⊢
    exact ⟨⟨Nat.le_trans h w.1.1, w.1.2⟩, w.2⟩

/-- Below its first address a canonical memory reads as the default. -/
theorem Memory.read_below : ∀ {m : List Host.Cell} {lo x : Nat}, Memory.wfFrom lo m = true → x < lo → Memory.read m x = Memory.default
  | [], _, _, _, _ => rfl
  | (a, b) :: r, lo, x, w, h => by
    simp only [Memory.wfFrom, Bool.and_eq_true, decide_eq_true_eq] at w
    have hne : a ≠ x := by omega
    simp only [Memory.read, hne, if_false]
    exact Memory.read_below w.2 (by omega)

theorem Memory.read_write_self : ∀ {m : List Host.Cell} {lo : Nat} (x : Nat) (v : Byte), Memory.wfFrom lo m = true →
    Memory.read (Memory.write m x v) x = v
  | [], _, x, v, _ => by
    by_cases hv : v = Memory.default <;> simp [Memory.write, Memory.read, hv]
  | (a, b) :: r, lo, x, v, w => by
    have w' := w
    simp only [Memory.wfFrom, Bool.and_eq_true, decide_eq_true_eq] at w'
    by_cases h1 : x < a
    · by_cases hv : v = Memory.default
      · have hne : a ≠ x := by omega
        have := Memory.read_below w'.2 (show x < a + 1 by omega)
        simp [Memory.write, h1, hv, Memory.read, hne, this]
      · simp [Memory.write, h1, hv, Memory.read]
    · by_cases h2 : a = x
      · subst h2
        by_cases hv : v = Memory.default
        · simp [Memory.write, hv, Memory.read_below w'.2 (Nat.lt_succ_self a)]
        · simp [Memory.write, hv, Memory.read]
      · simp [Memory.write, h1, h2, Memory.read, Memory.read_write_self x v w'.2]

theorem Memory.read_write_ne : ∀ {m : List Host.Cell} {x y : Nat} (v : Byte), y ≠ x → Memory.read (Memory.write m x v) y = Memory.read m y
  | [], x, y, v, h => by
    by_cases hv : v = Memory.default <;> simp [Memory.write, Memory.read, hv, h.symm]
  | (a, b) :: r, x, y, v, h => by
    by_cases h1 : x < a
    · by_cases hv : v = Memory.default <;> simp [Memory.write, h1, hv, Memory.read, h.symm]
    · by_cases h2 : a = x
      · subst h2
        by_cases hv : v = Memory.default <;> simp [Memory.write, hv, Memory.read, h.symm]
      · simp [Memory.write, h1, h2, Memory.read, Memory.read_write_ne v h]

/-! ## The canonical form -/

theorem Memory.wfFrom_write : ∀ {m : List Host.Cell} {lo x : Nat} (v : Byte), Memory.wfFrom lo m = true → lo ≤ x →
    Memory.wfFrom lo (Memory.write m x v) = true
  | [], lo, x, v, _, h => by
    by_cases hv : v = Memory.default <;> simp [Memory.write, Memory.wfFrom, hv, h]
  | (a, b) :: r, lo, x, v, w, h => by
    have w' := w
    simp only [Memory.wfFrom, Bool.and_eq_true, decide_eq_true_eq] at w'
    obtain ⟨⟨hlo, hb⟩, hr⟩ := w'
    by_cases h1 : x < a
    · by_cases hv : v = Memory.default
      · simpa [Memory.write, h1, hv] using w
      · simp only [Memory.write, h1, hv, if_true, if_false, Memory.wfFrom, Bool.and_eq_true, decide_eq_true_eq]
        exact ⟨⟨h, hv⟩, ⟨by omega, hb⟩, hr⟩
    · by_cases h2 : a = x
      · subst h2
        by_cases hv : v = Memory.default
        · simpa [Memory.write, hv] using Memory.wfFrom_mono (by omega) hr
        · simpa [Memory.write, hv, Memory.wfFrom, hlo] using hr
      · have := Memory.wfFrom_write v hr (show a + 1 ≤ x by omega)
        simp [Memory.write, h1, h2, Memory.wfFrom, hlo, hb, this]

theorem Memory.write_wf {m : List Host.Cell} (x : Nat) (v : Byte) (w : Memory.wf m = true) : Memory.wf (Memory.write m x v) = true :=
  Memory.wfFrom_write v w (Nat.zero_le x)

theorem Memory.writeN_wf (n : Nat) : ∀ {m : List Host.Cell} (a v : Nat), Memory.wf m = true → Memory.wf (Memory.writeN m a v n) = true := by
  induction n with
  | zero => intro m a v w; exact w
  | succ n ih => intro m a v w; exact ih _ _ (Memory.write_wf _ _ w)

theorem Memory.wfFrom_filter (p : Host.Cell → Bool) : ∀ {m : List Host.Cell} {lo : Nat}, Memory.wfFrom lo m = true →
    Memory.wfFrom lo (m.filter p) = true
  | [], _, _ => rfl
  | (a, b) :: r, lo, w => by
    have w' := w
    simp only [Memory.wfFrom, Bool.and_eq_true, decide_eq_true_eq] at w'
    have ih := Memory.wfFrom_filter p w'.2
    by_cases hp : p (a, b) = true
    · simp [hp, Memory.wfFrom, w'.1.1, w'.1.2, ih]
    · simpa [hp] using Memory.wfFrom_mono (by omega) ih

theorem Memory.wipe_wf (lo hi : Nat) {m : List Host.Cell} (w : Memory.wf m = true) : Memory.wf (Memory.wipe lo hi m) = true :=
  Memory.wfFrom_filter _ w

theorem MemOp.apply_wf {m : List Host.Cell} (o : MemOp) (w : Memory.wf m = true) : Memory.wf (o.apply m) = true := by
  cases o with
  | put a n v => exact Memory.writeN_wf n a v w
  | wipe lo hi => exact Memory.wipe_wf lo hi w

theorem applyLog_wf {m : List Host.Cell} (w : Memory.wf m = true) : ∀ l : List MemOp, Memory.wf (applyLog m l) = true
  | [] => w
  | o :: r => MemOp.apply_wf o (applyLog_wf w r)

/-- What a meaning answers when nothing makes its move wait. -/
theorem run_answer {f : Mach → Mach} {s : State} (h : (f s.mach).stall = false) : run f s = (f s.mach).answer s := by
  simp [run, h]

/-- A move that waits leaves everything as it was, but that reads beyond the package have gone out. -/
theorem run_stall {f : Mach → Mach} {s : State} (h : (f s.mach).stall = true) :
    run f s = .next { s with dev := { s.dev with ext := s.dev.ext ++ (f s.mach).sent } } := by
  simp [run, h]

/-- All that a meaning can do to memory: it answers next, and memory keeps its canonical form. -/
theorem run_next_wf {f : Mach → Mach} {s t : State} (h : run f s = .next t) (w : Memory.wf s.mem = true) : Memory.wf t.mem = true := by
  cases hs : (f s.mach).stall
  · rw [run_answer hs, Mach.answer, Host.Outcome.next.injEq] at h
    subst h
    exact applyLog_wf w _
  · rw [run_stall hs, Host.Outcome.next.injEq] at h
    subst h
    exact w

/-! ## Wide writes, wipes and the journal -/

theorem Memory.read_writeN (n : Nat) : ∀ {m : List Host.Cell} (a v x : Nat), Memory.wf m = true →
    Memory.read (Memory.writeN m a v n) x = if a ≤ x ∧ x < a + n then BitVec.ofNat 8 (v / 256 ^ (x - a)) else Memory.read m x := by
  induction n with
  | zero =>
    intro m a v x _
    rw [if_neg (by omega : ¬ (a ≤ x ∧ x < a + 0)), Memory.writeN]
  | succ n ih =>
    intro m a v x w
    rw [Memory.writeN, ih _ _ _ (Memory.write_wf _ _ w)]
    by_cases h0 : x = a
    · subst h0
      rw [if_neg (by omega), if_pos (by omega), Memory.read_write_self x _ w]
      simp
    · rw [Memory.read_write_ne _ h0]
      by_cases h1 : a + 1 ≤ x ∧ x < a + 1 + n
      · have h2 : a ≤ x ∧ x < a + (n + 1) := by omega
        have h3 : x - a = (x - (a + 1)) + 1 := by omega
        rw [if_pos h1, if_pos h2, h3, Nat.pow_succ, Nat.mul_comm, Nat.div_div_eq_div_mul]
      · have h2 : ¬ (a ≤ x ∧ x < a + (n + 1)) := by omega
        rw [if_neg h1, if_neg h2]

theorem Memory.read_wipe (lo hi : Nat) : ∀ {m : List Host.Cell} {b : Nat} (x : Nat), Memory.wfFrom b m = true →
    Memory.read (Memory.wipe lo hi m) x = if lo ≤ x ∧ x < hi then Memory.default else Memory.read m x
  | [], _, x, _ => by simp [Memory.wipe, Memory.read]
  | (a, v) :: r, b, x, w => by
    have w' := w
    simp only [Memory.wfFrom, Bool.and_eq_true, decide_eq_true_eq] at w'
    have ih := Memory.read_wipe lo hi x w'.2
    unfold Memory.wipe at ih ⊢
    by_cases h : lo ≤ a ∧ a < hi
    · rw [List.filter_cons_of_neg (by simp [h]), ih]
      by_cases hx : lo ≤ x ∧ x < hi
      · simp [hx]
      · have hne : a ≠ x := by rintro rfl; exact hx h
        simp [hx, Memory.read, hne]
    · rw [List.filter_cons_of_pos (by simp; omega)]
      by_cases hne : a = x
      · subst hne
        simp [Memory.read, h]
      · simp only [Memory.read, hne, if_false, ih]

/-- The journal read back is the memory it makes. -/
theorem readLog_applyLog {m : List Host.Cell} (w : Memory.wf m = true) (x : Nat) :
    ∀ l : List MemOp, readLog m l x = Memory.read (applyLog m l) x
  | [] => rfl
  | .put a n v :: r => by
    simp only [readLog, applyLog, MemOp.apply, Memory.read_writeN n a v x (applyLog_wf w r), readLog_applyLog w x r]
    simp
  | .wipe lo hi :: r => by
    simp only [readLog, applyLog, MemOp.apply, Memory.read_wipe lo hi x (applyLog_wf w r), readLog_applyLog w x r]
    simp [Memory.default]

end Sys2Proof.Machine
end

