-- ==== Sys2Proof/Laws/State.lean ====
section
/-! SUPPORT. The laws of the state: each update of the working machine leaves every other field as it was, and what an update writes
reads back. -/

namespace Sys2Proof.Machine
open Sys2Proof

/-! ## Sparse tables -/

@[simp] theorem Tbl.get_set_eq {α : Type} (d : α) (t : Tbl α) (k : Nat) (v : α) : (Tbl.set t k v).get d k = v := Tbl.get_set_self d t k v

/-- The second write of a key is the one that stands. -/
@[simp] theorem Tbl.set_set {α : Type} (t : Tbl α) (k : Nat) (v w : α) : Tbl.set (Tbl.set t k v) k w = Tbl.set t k w := by
  induction t with
  | nil => simp [Tbl.set]
  | cons p r ih =>
    obtain ⟨j, u⟩ := p
    by_cases h1 : k < j
    · simp [Tbl.set, h1]
    · by_cases h2 : j = k
      · subst h2; simp [Tbl.set]
      · simp [Tbl.set, h1, h2, ih]

/-! ## The journal and the moves listed are not touched by an update of the device -/

@[simp] theorem Mach.withDev_log (m : Mach) (f : Dev → Dev) : (m.withDev f).log = m.log := rfl
@[simp] theorem Mach.withDev_base (m : Mach) (f : Dev → Dev) : (m.withDev f).base = m.base := rfl
@[simp] theorem Mach.withDev_stall (m : Mach) (f : Dev → Dev) : (m.withDev f).stall = m.stall := rfl
@[simp] theorem Mach.withDev_sent (m : Mach) (f : Dev → Dev) : (m.withDev f).sent = m.sent := rfl
@[simp] theorem Mach.withDev_link (m : Mach) (f : Dev → Dev) : (m.withDev f).link = m.link := rfl
@[simp] theorem Mach.setSide_log (m : Mach) (k : Nat) (x : Side) : (m.setSide k x).log = m.log := rfl
@[simp] theorem Mach.setSide_base (m : Mach) (k : Nat) (x : Side) : (m.setSide k x).base = m.base := rfl
@[simp] theorem Mach.setSide_stall (m : Mach) (k : Nat) (x : Side) : (m.setSide k x).stall = m.stall := rfl
@[simp] theorem Mach.setSide_sent (m : Mach) (k : Nat) (x : Side) : (m.setSide k x).sent = m.sent := rfl
@[simp] theorem Mach.setSide_link (m : Mach) (k : Nat) (x : Side) : (m.setSide k x).link = m.link := rfl
@[simp] theorem Mach.modSide_log (m : Mach) (k : Nat) (f : Side → Side) : (m.modSide k f).log = m.log := rfl
@[simp] theorem Mach.modSide_base (m : Mach) (k : Nat) (f : Side → Side) : (m.modSide k f).base = m.base := rfl
@[simp] theorem Mach.modSide_stall (m : Mach) (k : Nat) (f : Side → Side) : (m.modSide k f).stall = m.stall := rfl
@[simp] theorem Mach.modSide_sent (m : Mach) (k : Nat) (f : Side → Side) : (m.modSide k f).sent = m.sent := rfl
@[simp] theorem Mach.modSide_link (m : Mach) (k : Nat) (f : Side → Side) : (m.modSide k f).link = m.link := rfl
@[simp] theorem Mach.setCore_log (m : Mach) (k : Nat) (x : Core) : (m.setCore k x).log = m.log := rfl
@[simp] theorem Mach.setCore_base (m : Mach) (k : Nat) (x : Core) : (m.setCore k x).base = m.base := rfl
@[simp] theorem Mach.setCore_stall (m : Mach) (k : Nat) (x : Core) : (m.setCore k x).stall = m.stall := rfl
@[simp] theorem Mach.setCore_sent (m : Mach) (k : Nat) (x : Core) : (m.setCore k x).sent = m.sent := rfl
@[simp] theorem Mach.setCore_link (m : Mach) (k : Nat) (x : Core) : (m.setCore k x).link = m.link := rfl
@[simp] theorem Mach.modCore_log (m : Mach) (k : Nat) (f : Core → Core) : (m.modCore k f).log = m.log := rfl
@[simp] theorem Mach.modCore_base (m : Mach) (k : Nat) (f : Core → Core) : (m.modCore k f).base = m.base := rfl
@[simp] theorem Mach.modCore_stall (m : Mach) (k : Nat) (f : Core → Core) : (m.modCore k f).stall = m.stall := rfl
@[simp] theorem Mach.modCore_sent (m : Mach) (k : Nat) (f : Core → Core) : (m.modCore k f).sent = m.sent := rfl
@[simp] theorem Mach.modCore_link (m : Mach) (k : Nat) (f : Core → Core) : (m.modCore k f).link = m.link := rfl
@[simp] theorem Mach.setSup_log (m : Mach) (k : Nat) (x : Sup) : (m.setSup k x).log = m.log := rfl
@[simp] theorem Mach.setSup_base (m : Mach) (k : Nat) (x : Sup) : (m.setSup k x).base = m.base := rfl
@[simp] theorem Mach.setSup_stall (m : Mach) (k : Nat) (x : Sup) : (m.setSup k x).stall = m.stall := rfl
@[simp] theorem Mach.setSup_sent (m : Mach) (k : Nat) (x : Sup) : (m.setSup k x).sent = m.sent := rfl
@[simp] theorem Mach.setSup_link (m : Mach) (k : Nat) (x : Sup) : (m.setSup k x).link = m.link := rfl
@[simp] theorem Mach.modSup_log (m : Mach) (k : Nat) (f : Sup → Sup) : (m.modSup k f).log = m.log := rfl
@[simp] theorem Mach.modSup_base (m : Mach) (k : Nat) (f : Sup → Sup) : (m.modSup k f).base = m.base := rfl
@[simp] theorem Mach.modSup_stall (m : Mach) (k : Nat) (f : Sup → Sup) : (m.modSup k f).stall = m.stall := rfl
@[simp] theorem Mach.modSup_sent (m : Mach) (k : Nat) (f : Sup → Sup) : (m.modSup k f).sent = m.sent := rfl
@[simp] theorem Mach.modSup_link (m : Mach) (k : Nat) (f : Sup → Sup) : (m.modSup k f).link = m.link := rfl
@[simp] theorem Mach.setDie_log (m : Mach) (k : Nat) (x : Die) : (m.setDie k x).log = m.log := rfl
@[simp] theorem Mach.setDie_base (m : Mach) (k : Nat) (x : Die) : (m.setDie k x).base = m.base := rfl
@[simp] theorem Mach.setDie_stall (m : Mach) (k : Nat) (x : Die) : (m.setDie k x).stall = m.stall := rfl
@[simp] theorem Mach.setDie_sent (m : Mach) (k : Nat) (x : Die) : (m.setDie k x).sent = m.sent := rfl
@[simp] theorem Mach.setDie_link (m : Mach) (k : Nat) (x : Die) : (m.setDie k x).link = m.link := rfl
@[simp] theorem Mach.modDie_log (m : Mach) (k : Nat) (f : Die → Die) : (m.modDie k f).log = m.log := rfl
@[simp] theorem Mach.modDie_base (m : Mach) (k : Nat) (f : Die → Die) : (m.modDie k f).base = m.base := rfl
@[simp] theorem Mach.modDie_stall (m : Mach) (k : Nat) (f : Die → Die) : (m.modDie k f).stall = m.stall := rfl
@[simp] theorem Mach.modDie_sent (m : Mach) (k : Nat) (f : Die → Die) : (m.modDie k f).sent = m.sent := rfl
@[simp] theorem Mach.modDie_link (m : Mach) (k : Nat) (f : Die → Die) : (m.modDie k f).link = m.link := rfl
@[simp] theorem Mach.modCluster_log (m : Mach) (k : Nat) (f : Cluster → Cluster) : (m.modCluster k f).log = m.log := rfl
@[simp] theorem Mach.modCluster_base (m : Mach) (k : Nat) (f : Cluster → Cluster) : (m.modCluster k f).base = m.base := rfl
@[simp] theorem Mach.modCluster_stall (m : Mach) (k : Nat) (f : Cluster → Cluster) : (m.modCluster k f).stall = m.stall := rfl
@[simp] theorem Mach.modCluster_sent (m : Mach) (k : Nat) (f : Cluster → Cluster) : (m.modCluster k f).sent = m.sent := rfl
@[simp] theorem Mach.modCluster_link (m : Mach) (k : Nat) (f : Cluster → Cluster) : (m.modCluster k f).link = m.link := rfl
@[simp] theorem Mach.modPort_log (m : Mach) (k : Nat) (f : GalePort → GalePort) : (m.modPort k f).log = m.log := rfl
@[simp] theorem Mach.modPort_base (m : Mach) (k : Nat) (f : GalePort → GalePort) : (m.modPort k f).base = m.base := rfl
@[simp] theorem Mach.modPort_stall (m : Mach) (k : Nat) (f : GalePort → GalePort) : (m.modPort k f).stall = m.stall := rfl
@[simp] theorem Mach.modPort_sent (m : Mach) (k : Nat) (f : GalePort → GalePort) : (m.modPort k f).sent = m.sent := rfl
@[simp] theorem Mach.modPort_link (m : Mach) (k : Nat) (f : GalePort → GalePort) : (m.modPort k f).link = m.link := rfl
@[simp] theorem Mach.modWin_log (m : Mach) (k : Nat) (f : Window → Window) : (m.modWin k f).log = m.log := rfl
@[simp] theorem Mach.modWin_base (m : Mach) (k : Nat) (f : Window → Window) : (m.modWin k f).base = m.base := rfl
@[simp] theorem Mach.modWin_stall (m : Mach) (k : Nat) (f : Window → Window) : (m.modWin k f).stall = m.stall := rfl
@[simp] theorem Mach.modWin_sent (m : Mach) (k : Nat) (f : Window → Window) : (m.modWin k f).sent = m.sent := rfl
@[simp] theorem Mach.modWin_link (m : Mach) (k : Nat) (f : Window → Window) : (m.modWin k f).link = m.link := rfl
@[simp] theorem Mach.modPart_log (m : Mach) (k : Nat) (f : Part → Part) : (m.modPart k f).log = m.log := rfl
@[simp] theorem Mach.modPart_base (m : Mach) (k : Nat) (f : Part → Part) : (m.modPart k f).base = m.base := rfl
@[simp] theorem Mach.modPart_stall (m : Mach) (k : Nat) (f : Part → Part) : (m.modPart k f).stall = m.stall := rfl
@[simp] theorem Mach.modPart_sent (m : Mach) (k : Nat) (f : Part → Part) : (m.modPart k f).sent = m.sent := rfl
@[simp] theorem Mach.modPart_link (m : Mach) (k : Nat) (f : Part → Part) : (m.modPart k f).link = m.link := rfl
@[simp] theorem Mach.wr_base (m : Mach) (a n v : Nat) : (m.wr a n v).base = m.base := rfl
@[simp] theorem Mach.wr_stall (m : Mach) (a n v : Nat) : (m.wr a n v).stall = m.stall := rfl
@[simp] theorem Mach.wr_sent (m : Mach) (a n v : Nat) : (m.wr a n v).sent = m.sent := rfl
@[simp] theorem Mach.wr_link (m : Mach) (a n v : Nat) : (m.wr a n v).link = m.link := rfl
@[simp] theorem Mach.wr_dev (m : Mach) (a n v : Nat) : (m.wr a n v).dev = m.dev := rfl
@[simp] theorem Mach.withDev_dev (m : Mach) (f : Dev → Dev) : (m.withDev f).dev = f m.dev := rfl

/-! ## One part of the device changes -/

@[simp] theorem Mach.modSide_cores (m : Mach) (k : Nat) (f : Side → Side) : (m.modSide k f).dev.cores = m.dev.cores := rfl
@[simp] theorem Mach.modSide_sups (m : Mach) (k : Nat) (f : Side → Side) : (m.modSide k f).dev.sups = m.dev.sups := rfl
@[simp] theorem Mach.modSide_clusters (m : Mach) (k : Nat) (f : Side → Side) : (m.modSide k f).dev.clusters = m.dev.clusters := rfl
@[simp] theorem Mach.modSide_dies (m : Mach) (k : Nat) (f : Side → Side) : (m.modSide k f).dev.dies = m.dev.dies := rfl
@[simp] theorem Mach.modSide_poison (m : Mach) (k : Nat) (f : Side → Side) : (m.modSide k f).dev.poison = m.dev.poison := rfl
@[simp] theorem Mach.modSide_probes (m : Mach) (k : Nat) (f : Side → Side) : (m.modSide k f).dev.probes = m.dev.probes := rfl
@[simp] theorem Mach.modSide_arrivals (m : Mach) (k : Nat) (f : Side → Side) : (m.modSide k f).dev.arrivals = m.dev.arrivals := rfl
@[simp] theorem Mach.modSide_remote (m : Mach) (k : Nat) (f : Side → Side) : (m.modSide k f).dev.remote = m.dev.remote := rfl
@[simp] theorem Mach.modSide_ext (m : Mach) (k : Nat) (f : Side → Side) : (m.modSide k f).dev.ext = m.dev.ext := rfl
@[simp] theorem Mach.modSide_ports (m : Mach) (k : Nat) (f : Side → Side) : (m.modSide k f).dev.ports = m.dev.ports := rfl
@[simp] theorem Mach.modSide_bdown (m : Mach) (k : Nat) (f : Side → Side) : (m.modSide k f).dev.bdown = m.dev.bdown := rfl
@[simp] theorem Mach.modSide_throttle (m : Mach) (k : Nat) (f : Side → Side) : (m.modSide k f).dev.throttle = m.dev.throttle := rfl
@[simp] theorem Mach.modSide_windows (m : Mach) (k : Nat) (f : Side → Side) : (m.modSide k f).dev.windows = m.dev.windows := rfl
@[simp] theorem Mach.modSide_compls (m : Mach) (k : Nat) (f : Side → Side) : (m.modSide k f).dev.compls = m.dev.compls := rfl
@[simp] theorem Mach.modSide_jobs (m : Mach) (k : Nat) (f : Side → Side) : (m.modSide k f).dev.jobs = m.dev.jobs := rfl
@[simp] theorem Mach.modSide_vds (m : Mach) (k : Nat) (f : Side → Side) : (m.modSide k f).dev.vds = m.dev.vds := rfl
@[simp] theorem Mach.modSide_parts (m : Mach) (k : Nat) (f : Side → Side) : (m.modSide k f).dev.parts = m.dev.parts := rfl
@[simp] theorem Mach.modSide_rollPend (m : Mach) (k : Nat) (f : Side → Side) : (m.modSide k f).dev.rollPend = m.dev.rollPend := rfl
@[simp] theorem Mach.modSide_lcReq (m : Mach) (k : Nat) (f : Side → Side) : (m.modSide k f).dev.lcReq = m.dev.lcReq := rfl
@[simp] theorem Mach.modSide_rom (m : Mach) (k : Nat) (f : Side → Side) : (m.modSide k f).dev.rom = m.dev.rom := rfl
@[simp] theorem Mach.modSide_textPid (m : Mach) (k : Nat) (f : Side → Side) : (m.modSide k f).dev.textPid = m.dev.textPid := rfl
@[simp] theorem Mach.modSide_gangs (m : Mach) (k : Nat) (f : Side → Side) : (m.modSide k f).dev.gangs = m.dev.gangs := rfl
@[simp] theorem Mach.modSide_flashA (m : Mach) (k : Nat) (f : Side → Side) : (m.modSide k f).dev.flashA = m.dev.flashA := rfl
@[simp] theorem Mach.modSide_flashB (m : Mach) (k : Nat) (f : Side → Side) : (m.modSide k f).dev.flashB = m.dev.flashB := rfl
@[simp] theorem Mach.modSide_fuses (m : Mach) (k : Nat) (f : Side → Side) : (m.modSide k f).dev.fuses = m.dev.fuses := rfl
@[simp] theorem Mach.modSide_lcPend (m : Mach) (k : Nat) (f : Side → Side) : (m.modSide k f).dev.lcPend = m.dev.lcPend := rfl
@[simp] theorem Mach.modSide_quoteBlock (m : Mach) (k : Nat) (f : Side → Side) : (m.modSide k f).dev.quoteBlock = m.dev.quoteBlock := rfl
@[simp] theorem Mach.modSide_quoteLeaf (m : Mach) (k : Nat) (f : Side → Side) : (m.modSide k f).dev.quoteLeaf = m.dev.quoteLeaf := rfl
@[simp] theorem Mach.modSide_monEntry (m : Mach) (k : Nat) (f : Side → Side) : (m.modSide k f).dev.monEntry = m.dev.monEntry := rfl
@[simp] theorem Mach.modSide_monDigest (m : Mach) (k : Nat) (f : Side → Side) : (m.modSide k f).dev.monDigest = m.dev.monDigest := rfl
@[simp] theorem Mach.modSide_ended (m : Mach) (k : Nat) (f : Side → Side) : (m.modSide k f).dev.ended = m.dev.ended := rfl
@[simp] theorem Mach.modSide_given (m : Mach) (k : Nat) (f : Side → Side) : (m.modSide k f).dev.given = m.dev.given := rfl
@[simp] theorem Mach.modSide_cur (m : Mach) (k : Nat) (f : Side → Side) : (m.modSide k f).dev.cur = m.dev.cur := rfl
@[simp] theorem Mach.modSide_vqNow (m : Mach) (k : Nat) (f : Side → Side) : (m.modSide k f).dev.vqNow = m.dev.vqNow := rfl
@[simp] theorem Mach.modSide_head (m : Mach) (k : Nat) (f : Side → Side) : (m.modSide k f).dev.head = m.dev.head := rfl
@[simp] theorem Mach.modSide_fresh (m : Mach) (k : Nat) (f : Side → Side) : (m.modSide k f).dev.fresh = m.dev.fresh := rfl
@[simp] theorem Mach.modSide_stores (m : Mach) (k : Nat) (f : Side → Side) : (m.modSide k f).dev.stores = m.dev.stores := rfl
@[simp] theorem Mach.modSide_side (m : Mach) (k : Nat) (f : Side → Side) : (m.modSide k f).side k = f (m.side k) := Tbl.get_set_self _ _ _ _
theorem Mach.modSide_side_ne (m : Mach) (k j : Nat) (f : Side → Side) (h : j ≠ k) : (m.modSide k f).side j = m.side j := Tbl.get_set_ne _ _ _ _ _ h
@[simp] theorem Mach.modSide_core (m : Mach) (k j : Nat) (f : Side → Side) : (m.modSide k f).core j = m.core j := rfl
@[simp] theorem Mach.modSide_sup (m : Mach) (k j : Nat) (f : Side → Side) : (m.modSide k f).sup j = m.sup j := rfl
@[simp] theorem Mach.modSide_die (m : Mach) (k j : Nat) (f : Side → Side) : (m.modSide k f).die j = m.die j := rfl
@[simp] theorem Mach.modSide_cluster (m : Mach) (k j : Nat) (f : Side → Side) : (m.modSide k f).cluster j = m.cluster j := rfl
@[simp] theorem Mach.modSide_port (m : Mach) (k j : Nat) (f : Side → Side) : (m.modSide k f).port j = m.port j := rfl
@[simp] theorem Mach.modSide_part (m : Mach) (k j : Nat) (f : Side → Side) : (m.modSide k f).part j = m.part j := rfl
@[simp] theorem Mach.modCore_sides (m : Mach) (k : Nat) (f : Core → Core) : (m.modCore k f).dev.sides = m.dev.sides := rfl
@[simp] theorem Mach.modCore_sups (m : Mach) (k : Nat) (f : Core → Core) : (m.modCore k f).dev.sups = m.dev.sups := rfl
@[simp] theorem Mach.modCore_clusters (m : Mach) (k : Nat) (f : Core → Core) : (m.modCore k f).dev.clusters = m.dev.clusters := rfl
@[simp] theorem Mach.modCore_dies (m : Mach) (k : Nat) (f : Core → Core) : (m.modCore k f).dev.dies = m.dev.dies := rfl
@[simp] theorem Mach.modCore_poison (m : Mach) (k : Nat) (f : Core → Core) : (m.modCore k f).dev.poison = m.dev.poison := rfl
@[simp] theorem Mach.modCore_probes (m : Mach) (k : Nat) (f : Core → Core) : (m.modCore k f).dev.probes = m.dev.probes := rfl
@[simp] theorem Mach.modCore_arrivals (m : Mach) (k : Nat) (f : Core → Core) : (m.modCore k f).dev.arrivals = m.dev.arrivals := rfl
@[simp] theorem Mach.modCore_remote (m : Mach) (k : Nat) (f : Core → Core) : (m.modCore k f).dev.remote = m.dev.remote := rfl
@[simp] theorem Mach.modCore_ext (m : Mach) (k : Nat) (f : Core → Core) : (m.modCore k f).dev.ext = m.dev.ext := rfl
@[simp] theorem Mach.modCore_ports (m : Mach) (k : Nat) (f : Core → Core) : (m.modCore k f).dev.ports = m.dev.ports := rfl
@[simp] theorem Mach.modCore_bdown (m : Mach) (k : Nat) (f : Core → Core) : (m.modCore k f).dev.bdown = m.dev.bdown := rfl
@[simp] theorem Mach.modCore_throttle (m : Mach) (k : Nat) (f : Core → Core) : (m.modCore k f).dev.throttle = m.dev.throttle := rfl
@[simp] theorem Mach.modCore_windows (m : Mach) (k : Nat) (f : Core → Core) : (m.modCore k f).dev.windows = m.dev.windows := rfl
@[simp] theorem Mach.modCore_compls (m : Mach) (k : Nat) (f : Core → Core) : (m.modCore k f).dev.compls = m.dev.compls := rfl
@[simp] theorem Mach.modCore_jobs (m : Mach) (k : Nat) (f : Core → Core) : (m.modCore k f).dev.jobs = m.dev.jobs := rfl
@[simp] theorem Mach.modCore_vds (m : Mach) (k : Nat) (f : Core → Core) : (m.modCore k f).dev.vds = m.dev.vds := rfl
@[simp] theorem Mach.modCore_parts (m : Mach) (k : Nat) (f : Core → Core) : (m.modCore k f).dev.parts = m.dev.parts := rfl
@[simp] theorem Mach.modCore_rollPend (m : Mach) (k : Nat) (f : Core → Core) : (m.modCore k f).dev.rollPend = m.dev.rollPend := rfl
@[simp] theorem Mach.modCore_lcReq (m : Mach) (k : Nat) (f : Core → Core) : (m.modCore k f).dev.lcReq = m.dev.lcReq := rfl
@[simp] theorem Mach.modCore_rom (m : Mach) (k : Nat) (f : Core → Core) : (m.modCore k f).dev.rom = m.dev.rom := rfl
@[simp] theorem Mach.modCore_textPid (m : Mach) (k : Nat) (f : Core → Core) : (m.modCore k f).dev.textPid = m.dev.textPid := rfl
@[simp] theorem Mach.modCore_gangs (m : Mach) (k : Nat) (f : Core → Core) : (m.modCore k f).dev.gangs = m.dev.gangs := rfl
@[simp] theorem Mach.modCore_flashA (m : Mach) (k : Nat) (f : Core → Core) : (m.modCore k f).dev.flashA = m.dev.flashA := rfl
@[simp] theorem Mach.modCore_flashB (m : Mach) (k : Nat) (f : Core → Core) : (m.modCore k f).dev.flashB = m.dev.flashB := rfl
@[simp] theorem Mach.modCore_fuses (m : Mach) (k : Nat) (f : Core → Core) : (m.modCore k f).dev.fuses = m.dev.fuses := rfl
@[simp] theorem Mach.modCore_lcPend (m : Mach) (k : Nat) (f : Core → Core) : (m.modCore k f).dev.lcPend = m.dev.lcPend := rfl
@[simp] theorem Mach.modCore_quoteBlock (m : Mach) (k : Nat) (f : Core → Core) : (m.modCore k f).dev.quoteBlock = m.dev.quoteBlock := rfl
@[simp] theorem Mach.modCore_quoteLeaf (m : Mach) (k : Nat) (f : Core → Core) : (m.modCore k f).dev.quoteLeaf = m.dev.quoteLeaf := rfl
@[simp] theorem Mach.modCore_monEntry (m : Mach) (k : Nat) (f : Core → Core) : (m.modCore k f).dev.monEntry = m.dev.monEntry := rfl
@[simp] theorem Mach.modCore_monDigest (m : Mach) (k : Nat) (f : Core → Core) : (m.modCore k f).dev.monDigest = m.dev.monDigest := rfl
@[simp] theorem Mach.modCore_ended (m : Mach) (k : Nat) (f : Core → Core) : (m.modCore k f).dev.ended = m.dev.ended := rfl
@[simp] theorem Mach.modCore_given (m : Mach) (k : Nat) (f : Core → Core) : (m.modCore k f).dev.given = m.dev.given := rfl
@[simp] theorem Mach.modCore_cur (m : Mach) (k : Nat) (f : Core → Core) : (m.modCore k f).dev.cur = m.dev.cur := rfl
@[simp] theorem Mach.modCore_vqNow (m : Mach) (k : Nat) (f : Core → Core) : (m.modCore k f).dev.vqNow = m.dev.vqNow := rfl
@[simp] theorem Mach.modCore_head (m : Mach) (k : Nat) (f : Core → Core) : (m.modCore k f).dev.head = m.dev.head := rfl
@[simp] theorem Mach.modCore_fresh (m : Mach) (k : Nat) (f : Core → Core) : (m.modCore k f).dev.fresh = m.dev.fresh := rfl
@[simp] theorem Mach.modCore_stores (m : Mach) (k : Nat) (f : Core → Core) : (m.modCore k f).dev.stores = m.dev.stores := rfl
@[simp] theorem Mach.modCore_core (m : Mach) (k : Nat) (f : Core → Core) : (m.modCore k f).core k = f (m.core k) := Tbl.get_set_self _ _ _ _
theorem Mach.modCore_core_ne (m : Mach) (k j : Nat) (f : Core → Core) (h : j ≠ k) : (m.modCore k f).core j = m.core j := Tbl.get_set_ne _ _ _ _ _ h
@[simp] theorem Mach.modCore_side (m : Mach) (k j : Nat) (f : Core → Core) : (m.modCore k f).side j = m.side j := rfl
@[simp] theorem Mach.modCore_sup (m : Mach) (k j : Nat) (f : Core → Core) : (m.modCore k f).sup j = m.sup j := rfl
@[simp] theorem Mach.modCore_die (m : Mach) (k j : Nat) (f : Core → Core) : (m.modCore k f).die j = m.die j := rfl
@[simp] theorem Mach.modCore_cluster (m : Mach) (k j : Nat) (f : Core → Core) : (m.modCore k f).cluster j = m.cluster j := rfl
@[simp] theorem Mach.modCore_port (m : Mach) (k j : Nat) (f : Core → Core) : (m.modCore k f).port j = m.port j := rfl
@[simp] theorem Mach.modCore_part (m : Mach) (k j : Nat) (f : Core → Core) : (m.modCore k f).part j = m.part j := rfl
@[simp] theorem Mach.modSup_sides (m : Mach) (k : Nat) (f : Sup → Sup) : (m.modSup k f).dev.sides = m.dev.sides := rfl
@[simp] theorem Mach.modSup_cores (m : Mach) (k : Nat) (f : Sup → Sup) : (m.modSup k f).dev.cores = m.dev.cores := rfl
@[simp] theorem Mach.modSup_clusters (m : Mach) (k : Nat) (f : Sup → Sup) : (m.modSup k f).dev.clusters = m.dev.clusters := rfl
@[simp] theorem Mach.modSup_dies (m : Mach) (k : Nat) (f : Sup → Sup) : (m.modSup k f).dev.dies = m.dev.dies := rfl
@[simp] theorem Mach.modSup_poison (m : Mach) (k : Nat) (f : Sup → Sup) : (m.modSup k f).dev.poison = m.dev.poison := rfl
@[simp] theorem Mach.modSup_probes (m : Mach) (k : Nat) (f : Sup → Sup) : (m.modSup k f).dev.probes = m.dev.probes := rfl
@[simp] theorem Mach.modSup_arrivals (m : Mach) (k : Nat) (f : Sup → Sup) : (m.modSup k f).dev.arrivals = m.dev.arrivals := rfl
@[simp] theorem Mach.modSup_remote (m : Mach) (k : Nat) (f : Sup → Sup) : (m.modSup k f).dev.remote = m.dev.remote := rfl
@[simp] theorem Mach.modSup_ext (m : Mach) (k : Nat) (f : Sup → Sup) : (m.modSup k f).dev.ext = m.dev.ext := rfl
@[simp] theorem Mach.modSup_ports (m : Mach) (k : Nat) (f : Sup → Sup) : (m.modSup k f).dev.ports = m.dev.ports := rfl
@[simp] theorem Mach.modSup_bdown (m : Mach) (k : Nat) (f : Sup → Sup) : (m.modSup k f).dev.bdown = m.dev.bdown := rfl
@[simp] theorem Mach.modSup_throttle (m : Mach) (k : Nat) (f : Sup → Sup) : (m.modSup k f).dev.throttle = m.dev.throttle := rfl
@[simp] theorem Mach.modSup_windows (m : Mach) (k : Nat) (f : Sup → Sup) : (m.modSup k f).dev.windows = m.dev.windows := rfl
@[simp] theorem Mach.modSup_compls (m : Mach) (k : Nat) (f : Sup → Sup) : (m.modSup k f).dev.compls = m.dev.compls := rfl
@[simp] theorem Mach.modSup_jobs (m : Mach) (k : Nat) (f : Sup → Sup) : (m.modSup k f).dev.jobs = m.dev.jobs := rfl
@[simp] theorem Mach.modSup_vds (m : Mach) (k : Nat) (f : Sup → Sup) : (m.modSup k f).dev.vds = m.dev.vds := rfl
@[simp] theorem Mach.modSup_parts (m : Mach) (k : Nat) (f : Sup → Sup) : (m.modSup k f).dev.parts = m.dev.parts := rfl
@[simp] theorem Mach.modSup_rollPend (m : Mach) (k : Nat) (f : Sup → Sup) : (m.modSup k f).dev.rollPend = m.dev.rollPend := rfl
@[simp] theorem Mach.modSup_lcReq (m : Mach) (k : Nat) (f : Sup → Sup) : (m.modSup k f).dev.lcReq = m.dev.lcReq := rfl
@[simp] theorem Mach.modSup_rom (m : Mach) (k : Nat) (f : Sup → Sup) : (m.modSup k f).dev.rom = m.dev.rom := rfl
@[simp] theorem Mach.modSup_textPid (m : Mach) (k : Nat) (f : Sup → Sup) : (m.modSup k f).dev.textPid = m.dev.textPid := rfl
@[simp] theorem Mach.modSup_gangs (m : Mach) (k : Nat) (f : Sup → Sup) : (m.modSup k f).dev.gangs = m.dev.gangs := rfl
@[simp] theorem Mach.modSup_flashA (m : Mach) (k : Nat) (f : Sup → Sup) : (m.modSup k f).dev.flashA = m.dev.flashA := rfl
@[simp] theorem Mach.modSup_flashB (m : Mach) (k : Nat) (f : Sup → Sup) : (m.modSup k f).dev.flashB = m.dev.flashB := rfl
@[simp] theorem Mach.modSup_fuses (m : Mach) (k : Nat) (f : Sup → Sup) : (m.modSup k f).dev.fuses = m.dev.fuses := rfl
@[simp] theorem Mach.modSup_lcPend (m : Mach) (k : Nat) (f : Sup → Sup) : (m.modSup k f).dev.lcPend = m.dev.lcPend := rfl
@[simp] theorem Mach.modSup_quoteBlock (m : Mach) (k : Nat) (f : Sup → Sup) : (m.modSup k f).dev.quoteBlock = m.dev.quoteBlock := rfl
@[simp] theorem Mach.modSup_quoteLeaf (m : Mach) (k : Nat) (f : Sup → Sup) : (m.modSup k f).dev.quoteLeaf = m.dev.quoteLeaf := rfl
@[simp] theorem Mach.modSup_monEntry (m : Mach) (k : Nat) (f : Sup → Sup) : (m.modSup k f).dev.monEntry = m.dev.monEntry := rfl
@[simp] theorem Mach.modSup_monDigest (m : Mach) (k : Nat) (f : Sup → Sup) : (m.modSup k f).dev.monDigest = m.dev.monDigest := rfl
@[simp] theorem Mach.modSup_ended (m : Mach) (k : Nat) (f : Sup → Sup) : (m.modSup k f).dev.ended = m.dev.ended := rfl
@[simp] theorem Mach.modSup_given (m : Mach) (k : Nat) (f : Sup → Sup) : (m.modSup k f).dev.given = m.dev.given := rfl
@[simp] theorem Mach.modSup_cur (m : Mach) (k : Nat) (f : Sup → Sup) : (m.modSup k f).dev.cur = m.dev.cur := rfl
@[simp] theorem Mach.modSup_vqNow (m : Mach) (k : Nat) (f : Sup → Sup) : (m.modSup k f).dev.vqNow = m.dev.vqNow := rfl
@[simp] theorem Mach.modSup_head (m : Mach) (k : Nat) (f : Sup → Sup) : (m.modSup k f).dev.head = m.dev.head := rfl
@[simp] theorem Mach.modSup_fresh (m : Mach) (k : Nat) (f : Sup → Sup) : (m.modSup k f).dev.fresh = m.dev.fresh := rfl
@[simp] theorem Mach.modSup_stores (m : Mach) (k : Nat) (f : Sup → Sup) : (m.modSup k f).dev.stores = m.dev.stores := rfl
@[simp] theorem Mach.modSup_sup (m : Mach) (k : Nat) (f : Sup → Sup) : (m.modSup k f).sup k = f (m.sup k) := Tbl.get_set_self _ _ _ _
theorem Mach.modSup_sup_ne (m : Mach) (k j : Nat) (f : Sup → Sup) (h : j ≠ k) : (m.modSup k f).sup j = m.sup j := Tbl.get_set_ne _ _ _ _ _ h
@[simp] theorem Mach.modSup_side (m : Mach) (k j : Nat) (f : Sup → Sup) : (m.modSup k f).side j = m.side j := rfl
@[simp] theorem Mach.modSup_core (m : Mach) (k j : Nat) (f : Sup → Sup) : (m.modSup k f).core j = m.core j := rfl
@[simp] theorem Mach.modSup_die (m : Mach) (k j : Nat) (f : Sup → Sup) : (m.modSup k f).die j = m.die j := rfl
@[simp] theorem Mach.modSup_cluster (m : Mach) (k j : Nat) (f : Sup → Sup) : (m.modSup k f).cluster j = m.cluster j := rfl
@[simp] theorem Mach.modSup_port (m : Mach) (k j : Nat) (f : Sup → Sup) : (m.modSup k f).port j = m.port j := rfl
@[simp] theorem Mach.modSup_part (m : Mach) (k j : Nat) (f : Sup → Sup) : (m.modSup k f).part j = m.part j := rfl
@[simp] theorem Mach.modDie_sides (m : Mach) (k : Nat) (f : Die → Die) : (m.modDie k f).dev.sides = m.dev.sides := rfl
@[simp] theorem Mach.modDie_cores (m : Mach) (k : Nat) (f : Die → Die) : (m.modDie k f).dev.cores = m.dev.cores := rfl
@[simp] theorem Mach.modDie_sups (m : Mach) (k : Nat) (f : Die → Die) : (m.modDie k f).dev.sups = m.dev.sups := rfl
@[simp] theorem Mach.modDie_clusters (m : Mach) (k : Nat) (f : Die → Die) : (m.modDie k f).dev.clusters = m.dev.clusters := rfl
@[simp] theorem Mach.modDie_poison (m : Mach) (k : Nat) (f : Die → Die) : (m.modDie k f).dev.poison = m.dev.poison := rfl
@[simp] theorem Mach.modDie_probes (m : Mach) (k : Nat) (f : Die → Die) : (m.modDie k f).dev.probes = m.dev.probes := rfl
@[simp] theorem Mach.modDie_arrivals (m : Mach) (k : Nat) (f : Die → Die) : (m.modDie k f).dev.arrivals = m.dev.arrivals := rfl
@[simp] theorem Mach.modDie_remote (m : Mach) (k : Nat) (f : Die → Die) : (m.modDie k f).dev.remote = m.dev.remote := rfl
@[simp] theorem Mach.modDie_ext (m : Mach) (k : Nat) (f : Die → Die) : (m.modDie k f).dev.ext = m.dev.ext := rfl
@[simp] theorem Mach.modDie_ports (m : Mach) (k : Nat) (f : Die → Die) : (m.modDie k f).dev.ports = m.dev.ports := rfl
@[simp] theorem Mach.modDie_bdown (m : Mach) (k : Nat) (f : Die → Die) : (m.modDie k f).dev.bdown = m.dev.bdown := rfl
@[simp] theorem Mach.modDie_throttle (m : Mach) (k : Nat) (f : Die → Die) : (m.modDie k f).dev.throttle = m.dev.throttle := rfl
@[simp] theorem Mach.modDie_windows (m : Mach) (k : Nat) (f : Die → Die) : (m.modDie k f).dev.windows = m.dev.windows := rfl
@[simp] theorem Mach.modDie_compls (m : Mach) (k : Nat) (f : Die → Die) : (m.modDie k f).dev.compls = m.dev.compls := rfl
@[simp] theorem Mach.modDie_jobs (m : Mach) (k : Nat) (f : Die → Die) : (m.modDie k f).dev.jobs = m.dev.jobs := rfl
@[simp] theorem Mach.modDie_vds (m : Mach) (k : Nat) (f : Die → Die) : (m.modDie k f).dev.vds = m.dev.vds := rfl
@[simp] theorem Mach.modDie_parts (m : Mach) (k : Nat) (f : Die → Die) : (m.modDie k f).dev.parts = m.dev.parts := rfl
@[simp] theorem Mach.modDie_rollPend (m : Mach) (k : Nat) (f : Die → Die) : (m.modDie k f).dev.rollPend = m.dev.rollPend := rfl
@[simp] theorem Mach.modDie_lcReq (m : Mach) (k : Nat) (f : Die → Die) : (m.modDie k f).dev.lcReq = m.dev.lcReq := rfl
@[simp] theorem Mach.modDie_rom (m : Mach) (k : Nat) (f : Die → Die) : (m.modDie k f).dev.rom = m.dev.rom := rfl
@[simp] theorem Mach.modDie_textPid (m : Mach) (k : Nat) (f : Die → Die) : (m.modDie k f).dev.textPid = m.dev.textPid := rfl
@[simp] theorem Mach.modDie_gangs (m : Mach) (k : Nat) (f : Die → Die) : (m.modDie k f).dev.gangs = m.dev.gangs := rfl
@[simp] theorem Mach.modDie_flashA (m : Mach) (k : Nat) (f : Die → Die) : (m.modDie k f).dev.flashA = m.dev.flashA := rfl
@[simp] theorem Mach.modDie_flashB (m : Mach) (k : Nat) (f : Die → Die) : (m.modDie k f).dev.flashB = m.dev.flashB := rfl
@[simp] theorem Mach.modDie_fuses (m : Mach) (k : Nat) (f : Die → Die) : (m.modDie k f).dev.fuses = m.dev.fuses := rfl
@[simp] theorem Mach.modDie_lcPend (m : Mach) (k : Nat) (f : Die → Die) : (m.modDie k f).dev.lcPend = m.dev.lcPend := rfl
@[simp] theorem Mach.modDie_quoteBlock (m : Mach) (k : Nat) (f : Die → Die) : (m.modDie k f).dev.quoteBlock = m.dev.quoteBlock := rfl
@[simp] theorem Mach.modDie_quoteLeaf (m : Mach) (k : Nat) (f : Die → Die) : (m.modDie k f).dev.quoteLeaf = m.dev.quoteLeaf := rfl
@[simp] theorem Mach.modDie_monEntry (m : Mach) (k : Nat) (f : Die → Die) : (m.modDie k f).dev.monEntry = m.dev.monEntry := rfl
@[simp] theorem Mach.modDie_monDigest (m : Mach) (k : Nat) (f : Die → Die) : (m.modDie k f).dev.monDigest = m.dev.monDigest := rfl
@[simp] theorem Mach.modDie_ended (m : Mach) (k : Nat) (f : Die → Die) : (m.modDie k f).dev.ended = m.dev.ended := rfl
@[simp] theorem Mach.modDie_given (m : Mach) (k : Nat) (f : Die → Die) : (m.modDie k f).dev.given = m.dev.given := rfl
@[simp] theorem Mach.modDie_cur (m : Mach) (k : Nat) (f : Die → Die) : (m.modDie k f).dev.cur = m.dev.cur := rfl
@[simp] theorem Mach.modDie_vqNow (m : Mach) (k : Nat) (f : Die → Die) : (m.modDie k f).dev.vqNow = m.dev.vqNow := rfl
@[simp] theorem Mach.modDie_head (m : Mach) (k : Nat) (f : Die → Die) : (m.modDie k f).dev.head = m.dev.head := rfl
@[simp] theorem Mach.modDie_fresh (m : Mach) (k : Nat) (f : Die → Die) : (m.modDie k f).dev.fresh = m.dev.fresh := rfl
@[simp] theorem Mach.modDie_stores (m : Mach) (k : Nat) (f : Die → Die) : (m.modDie k f).dev.stores = m.dev.stores := rfl
@[simp] theorem Mach.modDie_die (m : Mach) (k : Nat) (f : Die → Die) : (m.modDie k f).die k = f (m.die k) := Tbl.get_set_self _ _ _ _
theorem Mach.modDie_die_ne (m : Mach) (k j : Nat) (f : Die → Die) (h : j ≠ k) : (m.modDie k f).die j = m.die j := Tbl.get_set_ne _ _ _ _ _ h
@[simp] theorem Mach.modDie_side (m : Mach) (k j : Nat) (f : Die → Die) : (m.modDie k f).side j = m.side j := rfl
@[simp] theorem Mach.modDie_core (m : Mach) (k j : Nat) (f : Die → Die) : (m.modDie k f).core j = m.core j := rfl
@[simp] theorem Mach.modDie_sup (m : Mach) (k j : Nat) (f : Die → Die) : (m.modDie k f).sup j = m.sup j := rfl
@[simp] theorem Mach.modDie_cluster (m : Mach) (k j : Nat) (f : Die → Die) : (m.modDie k f).cluster j = m.cluster j := rfl
@[simp] theorem Mach.modDie_port (m : Mach) (k j : Nat) (f : Die → Die) : (m.modDie k f).port j = m.port j := rfl
@[simp] theorem Mach.modDie_part (m : Mach) (k j : Nat) (f : Die → Die) : (m.modDie k f).part j = m.part j := rfl
@[simp] theorem Mach.modCluster_sides (m : Mach) (k : Nat) (f : Cluster → Cluster) : (m.modCluster k f).dev.sides = m.dev.sides := rfl
@[simp] theorem Mach.modCluster_cores (m : Mach) (k : Nat) (f : Cluster → Cluster) : (m.modCluster k f).dev.cores = m.dev.cores := rfl
@[simp] theorem Mach.modCluster_sups (m : Mach) (k : Nat) (f : Cluster → Cluster) : (m.modCluster k f).dev.sups = m.dev.sups := rfl
@[simp] theorem Mach.modCluster_dies (m : Mach) (k : Nat) (f : Cluster → Cluster) : (m.modCluster k f).dev.dies = m.dev.dies := rfl
@[simp] theorem Mach.modCluster_poison (m : Mach) (k : Nat) (f : Cluster → Cluster) : (m.modCluster k f).dev.poison = m.dev.poison := rfl
@[simp] theorem Mach.modCluster_probes (m : Mach) (k : Nat) (f : Cluster → Cluster) : (m.modCluster k f).dev.probes = m.dev.probes := rfl
@[simp] theorem Mach.modCluster_arrivals (m : Mach) (k : Nat) (f : Cluster → Cluster) : (m.modCluster k f).dev.arrivals = m.dev.arrivals := rfl
@[simp] theorem Mach.modCluster_remote (m : Mach) (k : Nat) (f : Cluster → Cluster) : (m.modCluster k f).dev.remote = m.dev.remote := rfl
@[simp] theorem Mach.modCluster_ext (m : Mach) (k : Nat) (f : Cluster → Cluster) : (m.modCluster k f).dev.ext = m.dev.ext := rfl
@[simp] theorem Mach.modCluster_ports (m : Mach) (k : Nat) (f : Cluster → Cluster) : (m.modCluster k f).dev.ports = m.dev.ports := rfl
@[simp] theorem Mach.modCluster_bdown (m : Mach) (k : Nat) (f : Cluster → Cluster) : (m.modCluster k f).dev.bdown = m.dev.bdown := rfl
@[simp] theorem Mach.modCluster_throttle (m : Mach) (k : Nat) (f : Cluster → Cluster) : (m.modCluster k f).dev.throttle = m.dev.throttle := rfl
@[simp] theorem Mach.modCluster_windows (m : Mach) (k : Nat) (f : Cluster → Cluster) : (m.modCluster k f).dev.windows = m.dev.windows := rfl
@[simp] theorem Mach.modCluster_compls (m : Mach) (k : Nat) (f : Cluster → Cluster) : (m.modCluster k f).dev.compls = m.dev.compls := rfl
@[simp] theorem Mach.modCluster_jobs (m : Mach) (k : Nat) (f : Cluster → Cluster) : (m.modCluster k f).dev.jobs = m.dev.jobs := rfl
@[simp] theorem Mach.modCluster_vds (m : Mach) (k : Nat) (f : Cluster → Cluster) : (m.modCluster k f).dev.vds = m.dev.vds := rfl
@[simp] theorem Mach.modCluster_parts (m : Mach) (k : Nat) (f : Cluster → Cluster) : (m.modCluster k f).dev.parts = m.dev.parts := rfl
@[simp] theorem Mach.modCluster_rollPend (m : Mach) (k : Nat) (f : Cluster → Cluster) : (m.modCluster k f).dev.rollPend = m.dev.rollPend := rfl
@[simp] theorem Mach.modCluster_lcReq (m : Mach) (k : Nat) (f : Cluster → Cluster) : (m.modCluster k f).dev.lcReq = m.dev.lcReq := rfl
@[simp] theorem Mach.modCluster_rom (m : Mach) (k : Nat) (f : Cluster → Cluster) : (m.modCluster k f).dev.rom = m.dev.rom := rfl
@[simp] theorem Mach.modCluster_textPid (m : Mach) (k : Nat) (f : Cluster → Cluster) : (m.modCluster k f).dev.textPid = m.dev.textPid := rfl
@[simp] theorem Mach.modCluster_gangs (m : Mach) (k : Nat) (f : Cluster → Cluster) : (m.modCluster k f).dev.gangs = m.dev.gangs := rfl
@[simp] theorem Mach.modCluster_flashA (m : Mach) (k : Nat) (f : Cluster → Cluster) : (m.modCluster k f).dev.flashA = m.dev.flashA := rfl
@[simp] theorem Mach.modCluster_flashB (m : Mach) (k : Nat) (f : Cluster → Cluster) : (m.modCluster k f).dev.flashB = m.dev.flashB := rfl
@[simp] theorem Mach.modCluster_fuses (m : Mach) (k : Nat) (f : Cluster → Cluster) : (m.modCluster k f).dev.fuses = m.dev.fuses := rfl
@[simp] theorem Mach.modCluster_lcPend (m : Mach) (k : Nat) (f : Cluster → Cluster) : (m.modCluster k f).dev.lcPend = m.dev.lcPend := rfl
@[simp] theorem Mach.modCluster_quoteBlock (m : Mach) (k : Nat) (f : Cluster → Cluster) : (m.modCluster k f).dev.quoteBlock = m.dev.quoteBlock := rfl
@[simp] theorem Mach.modCluster_quoteLeaf (m : Mach) (k : Nat) (f : Cluster → Cluster) : (m.modCluster k f).dev.quoteLeaf = m.dev.quoteLeaf := rfl
@[simp] theorem Mach.modCluster_monEntry (m : Mach) (k : Nat) (f : Cluster → Cluster) : (m.modCluster k f).dev.monEntry = m.dev.monEntry := rfl
@[simp] theorem Mach.modCluster_monDigest (m : Mach) (k : Nat) (f : Cluster → Cluster) : (m.modCluster k f).dev.monDigest = m.dev.monDigest := rfl
@[simp] theorem Mach.modCluster_ended (m : Mach) (k : Nat) (f : Cluster → Cluster) : (m.modCluster k f).dev.ended = m.dev.ended := rfl
@[simp] theorem Mach.modCluster_given (m : Mach) (k : Nat) (f : Cluster → Cluster) : (m.modCluster k f).dev.given = m.dev.given := rfl
@[simp] theorem Mach.modCluster_cur (m : Mach) (k : Nat) (f : Cluster → Cluster) : (m.modCluster k f).dev.cur = m.dev.cur := rfl
@[simp] theorem Mach.modCluster_vqNow (m : Mach) (k : Nat) (f : Cluster → Cluster) : (m.modCluster k f).dev.vqNow = m.dev.vqNow := rfl
@[simp] theorem Mach.modCluster_head (m : Mach) (k : Nat) (f : Cluster → Cluster) : (m.modCluster k f).dev.head = m.dev.head := rfl
@[simp] theorem Mach.modCluster_fresh (m : Mach) (k : Nat) (f : Cluster → Cluster) : (m.modCluster k f).dev.fresh = m.dev.fresh := rfl
@[simp] theorem Mach.modCluster_stores (m : Mach) (k : Nat) (f : Cluster → Cluster) : (m.modCluster k f).dev.stores = m.dev.stores := rfl
@[simp] theorem Mach.modCluster_cluster (m : Mach) (k : Nat) (f : Cluster → Cluster) : (m.modCluster k f).cluster k = f (m.cluster k) := Tbl.get_set_self _ _ _ _
theorem Mach.modCluster_cluster_ne (m : Mach) (k j : Nat) (f : Cluster → Cluster) (h : j ≠ k) : (m.modCluster k f).cluster j = m.cluster j := Tbl.get_set_ne _ _ _ _ _ h
@[simp] theorem Mach.modCluster_side (m : Mach) (k j : Nat) (f : Cluster → Cluster) : (m.modCluster k f).side j = m.side j := rfl
@[simp] theorem Mach.modCluster_core (m : Mach) (k j : Nat) (f : Cluster → Cluster) : (m.modCluster k f).core j = m.core j := rfl
@[simp] theorem Mach.modCluster_sup (m : Mach) (k j : Nat) (f : Cluster → Cluster) : (m.modCluster k f).sup j = m.sup j := rfl
@[simp] theorem Mach.modCluster_die (m : Mach) (k j : Nat) (f : Cluster → Cluster) : (m.modCluster k f).die j = m.die j := rfl
@[simp] theorem Mach.modCluster_port (m : Mach) (k j : Nat) (f : Cluster → Cluster) : (m.modCluster k f).port j = m.port j := rfl
@[simp] theorem Mach.modCluster_part (m : Mach) (k j : Nat) (f : Cluster → Cluster) : (m.modCluster k f).part j = m.part j := rfl
@[simp] theorem Mach.modPort_sides (m : Mach) (k : Nat) (f : GalePort → GalePort) : (m.modPort k f).dev.sides = m.dev.sides := rfl
@[simp] theorem Mach.modPort_cores (m : Mach) (k : Nat) (f : GalePort → GalePort) : (m.modPort k f).dev.cores = m.dev.cores := rfl
@[simp] theorem Mach.modPort_sups (m : Mach) (k : Nat) (f : GalePort → GalePort) : (m.modPort k f).dev.sups = m.dev.sups := rfl
@[simp] theorem Mach.modPort_clusters (m : Mach) (k : Nat) (f : GalePort → GalePort) : (m.modPort k f).dev.clusters = m.dev.clusters := rfl
@[simp] theorem Mach.modPort_dies (m : Mach) (k : Nat) (f : GalePort → GalePort) : (m.modPort k f).dev.dies = m.dev.dies := rfl
@[simp] theorem Mach.modPort_poison (m : Mach) (k : Nat) (f : GalePort → GalePort) : (m.modPort k f).dev.poison = m.dev.poison := rfl
@[simp] theorem Mach.modPort_probes (m : Mach) (k : Nat) (f : GalePort → GalePort) : (m.modPort k f).dev.probes = m.dev.probes := rfl
@[simp] theorem Mach.modPort_arrivals (m : Mach) (k : Nat) (f : GalePort → GalePort) : (m.modPort k f).dev.arrivals = m.dev.arrivals := rfl
@[simp] theorem Mach.modPort_remote (m : Mach) (k : Nat) (f : GalePort → GalePort) : (m.modPort k f).dev.remote = m.dev.remote := rfl
@[simp] theorem Mach.modPort_ext (m : Mach) (k : Nat) (f : GalePort → GalePort) : (m.modPort k f).dev.ext = m.dev.ext := rfl
@[simp] theorem Mach.modPort_bdown (m : Mach) (k : Nat) (f : GalePort → GalePort) : (m.modPort k f).dev.bdown = m.dev.bdown := rfl
@[simp] theorem Mach.modPort_throttle (m : Mach) (k : Nat) (f : GalePort → GalePort) : (m.modPort k f).dev.throttle = m.dev.throttle := rfl
@[simp] theorem Mach.modPort_windows (m : Mach) (k : Nat) (f : GalePort → GalePort) : (m.modPort k f).dev.windows = m.dev.windows := rfl
@[simp] theorem Mach.modPort_compls (m : Mach) (k : Nat) (f : GalePort → GalePort) : (m.modPort k f).dev.compls = m.dev.compls := rfl
@[simp] theorem Mach.modPort_jobs (m : Mach) (k : Nat) (f : GalePort → GalePort) : (m.modPort k f).dev.jobs = m.dev.jobs := rfl
@[simp] theorem Mach.modPort_vds (m : Mach) (k : Nat) (f : GalePort → GalePort) : (m.modPort k f).dev.vds = m.dev.vds := rfl
@[simp] theorem Mach.modPort_parts (m : Mach) (k : Nat) (f : GalePort → GalePort) : (m.modPort k f).dev.parts = m.dev.parts := rfl
@[simp] theorem Mach.modPort_rollPend (m : Mach) (k : Nat) (f : GalePort → GalePort) : (m.modPort k f).dev.rollPend = m.dev.rollPend := rfl
@[simp] theorem Mach.modPort_lcReq (m : Mach) (k : Nat) (f : GalePort → GalePort) : (m.modPort k f).dev.lcReq = m.dev.lcReq := rfl
@[simp] theorem Mach.modPort_rom (m : Mach) (k : Nat) (f : GalePort → GalePort) : (m.modPort k f).dev.rom = m.dev.rom := rfl
@[simp] theorem Mach.modPort_textPid (m : Mach) (k : Nat) (f : GalePort → GalePort) : (m.modPort k f).dev.textPid = m.dev.textPid := rfl
@[simp] theorem Mach.modPort_gangs (m : Mach) (k : Nat) (f : GalePort → GalePort) : (m.modPort k f).dev.gangs = m.dev.gangs := rfl
@[simp] theorem Mach.modPort_flashA (m : Mach) (k : Nat) (f : GalePort → GalePort) : (m.modPort k f).dev.flashA = m.dev.flashA := rfl
@[simp] theorem Mach.modPort_flashB (m : Mach) (k : Nat) (f : GalePort → GalePort) : (m.modPort k f).dev.flashB = m.dev.flashB := rfl
@[simp] theorem Mach.modPort_fuses (m : Mach) (k : Nat) (f : GalePort → GalePort) : (m.modPort k f).dev.fuses = m.dev.fuses := rfl
@[simp] theorem Mach.modPort_lcPend (m : Mach) (k : Nat) (f : GalePort → GalePort) : (m.modPort k f).dev.lcPend = m.dev.lcPend := rfl
@[simp] theorem Mach.modPort_quoteBlock (m : Mach) (k : Nat) (f : GalePort → GalePort) : (m.modPort k f).dev.quoteBlock = m.dev.quoteBlock := rfl
@[simp] theorem Mach.modPort_quoteLeaf (m : Mach) (k : Nat) (f : GalePort → GalePort) : (m.modPort k f).dev.quoteLeaf = m.dev.quoteLeaf := rfl
@[simp] theorem Mach.modPort_monEntry (m : Mach) (k : Nat) (f : GalePort → GalePort) : (m.modPort k f).dev.monEntry = m.dev.monEntry := rfl
@[simp] theorem Mach.modPort_monDigest (m : Mach) (k : Nat) (f : GalePort → GalePort) : (m.modPort k f).dev.monDigest = m.dev.monDigest := rfl
@[simp] theorem Mach.modPort_ended (m : Mach) (k : Nat) (f : GalePort → GalePort) : (m.modPort k f).dev.ended = m.dev.ended := rfl
@[simp] theorem Mach.modPort_given (m : Mach) (k : Nat) (f : GalePort → GalePort) : (m.modPort k f).dev.given = m.dev.given := rfl
@[simp] theorem Mach.modPort_cur (m : Mach) (k : Nat) (f : GalePort → GalePort) : (m.modPort k f).dev.cur = m.dev.cur := rfl
@[simp] theorem Mach.modPort_vqNow (m : Mach) (k : Nat) (f : GalePort → GalePort) : (m.modPort k f).dev.vqNow = m.dev.vqNow := rfl
@[simp] theorem Mach.modPort_head (m : Mach) (k : Nat) (f : GalePort → GalePort) : (m.modPort k f).dev.head = m.dev.head := rfl
@[simp] theorem Mach.modPort_fresh (m : Mach) (k : Nat) (f : GalePort → GalePort) : (m.modPort k f).dev.fresh = m.dev.fresh := rfl
@[simp] theorem Mach.modPort_stores (m : Mach) (k : Nat) (f : GalePort → GalePort) : (m.modPort k f).dev.stores = m.dev.stores := rfl
@[simp] theorem Mach.modPort_port (m : Mach) (k : Nat) (f : GalePort → GalePort) : (m.modPort k f).port k = f (m.port k) := Tbl.get_set_self _ _ _ _
theorem Mach.modPort_port_ne (m : Mach) (k j : Nat) (f : GalePort → GalePort) (h : j ≠ k) : (m.modPort k f).port j = m.port j := Tbl.get_set_ne _ _ _ _ _ h
@[simp] theorem Mach.modPort_side (m : Mach) (k j : Nat) (f : GalePort → GalePort) : (m.modPort k f).side j = m.side j := rfl
@[simp] theorem Mach.modPort_core (m : Mach) (k j : Nat) (f : GalePort → GalePort) : (m.modPort k f).core j = m.core j := rfl
@[simp] theorem Mach.modPort_sup (m : Mach) (k j : Nat) (f : GalePort → GalePort) : (m.modPort k f).sup j = m.sup j := rfl
@[simp] theorem Mach.modPort_die (m : Mach) (k j : Nat) (f : GalePort → GalePort) : (m.modPort k f).die j = m.die j := rfl
@[simp] theorem Mach.modPort_cluster (m : Mach) (k j : Nat) (f : GalePort → GalePort) : (m.modPort k f).cluster j = m.cluster j := rfl
@[simp] theorem Mach.modPort_part (m : Mach) (k j : Nat) (f : GalePort → GalePort) : (m.modPort k f).part j = m.part j := rfl
@[simp] theorem Mach.modPart_sides (m : Mach) (k : Nat) (f : Part → Part) : (m.modPart k f).dev.sides = m.dev.sides := rfl
@[simp] theorem Mach.modPart_cores (m : Mach) (k : Nat) (f : Part → Part) : (m.modPart k f).dev.cores = m.dev.cores := rfl
@[simp] theorem Mach.modPart_sups (m : Mach) (k : Nat) (f : Part → Part) : (m.modPart k f).dev.sups = m.dev.sups := rfl
@[simp] theorem Mach.modPart_clusters (m : Mach) (k : Nat) (f : Part → Part) : (m.modPart k f).dev.clusters = m.dev.clusters := rfl
@[simp] theorem Mach.modPart_dies (m : Mach) (k : Nat) (f : Part → Part) : (m.modPart k f).dev.dies = m.dev.dies := rfl
@[simp] theorem Mach.modPart_poison (m : Mach) (k : Nat) (f : Part → Part) : (m.modPart k f).dev.poison = m.dev.poison := rfl
@[simp] theorem Mach.modPart_probes (m : Mach) (k : Nat) (f : Part → Part) : (m.modPart k f).dev.probes = m.dev.probes := rfl
@[simp] theorem Mach.modPart_arrivals (m : Mach) (k : Nat) (f : Part → Part) : (m.modPart k f).dev.arrivals = m.dev.arrivals := rfl
@[simp] theorem Mach.modPart_remote (m : Mach) (k : Nat) (f : Part → Part) : (m.modPart k f).dev.remote = m.dev.remote := rfl
@[simp] theorem Mach.modPart_ext (m : Mach) (k : Nat) (f : Part → Part) : (m.modPart k f).dev.ext = m.dev.ext := rfl
@[simp] theorem Mach.modPart_ports (m : Mach) (k : Nat) (f : Part → Part) : (m.modPart k f).dev.ports = m.dev.ports := rfl
@[simp] theorem Mach.modPart_bdown (m : Mach) (k : Nat) (f : Part → Part) : (m.modPart k f).dev.bdown = m.dev.bdown := rfl
@[simp] theorem Mach.modPart_throttle (m : Mach) (k : Nat) (f : Part → Part) : (m.modPart k f).dev.throttle = m.dev.throttle := rfl
@[simp] theorem Mach.modPart_windows (m : Mach) (k : Nat) (f : Part → Part) : (m.modPart k f).dev.windows = m.dev.windows := rfl
@[simp] theorem Mach.modPart_compls (m : Mach) (k : Nat) (f : Part → Part) : (m.modPart k f).dev.compls = m.dev.compls := rfl
@[simp] theorem Mach.modPart_jobs (m : Mach) (k : Nat) (f : Part → Part) : (m.modPart k f).dev.jobs = m.dev.jobs := rfl
@[simp] theorem Mach.modPart_vds (m : Mach) (k : Nat) (f : Part → Part) : (m.modPart k f).dev.vds = m.dev.vds := rfl
@[simp] theorem Mach.modPart_rollPend (m : Mach) (k : Nat) (f : Part → Part) : (m.modPart k f).dev.rollPend = m.dev.rollPend := rfl
@[simp] theorem Mach.modPart_lcReq (m : Mach) (k : Nat) (f : Part → Part) : (m.modPart k f).dev.lcReq = m.dev.lcReq := rfl
@[simp] theorem Mach.modPart_rom (m : Mach) (k : Nat) (f : Part → Part) : (m.modPart k f).dev.rom = m.dev.rom := rfl
@[simp] theorem Mach.modPart_textPid (m : Mach) (k : Nat) (f : Part → Part) : (m.modPart k f).dev.textPid = m.dev.textPid := rfl
@[simp] theorem Mach.modPart_gangs (m : Mach) (k : Nat) (f : Part → Part) : (m.modPart k f).dev.gangs = m.dev.gangs := rfl
@[simp] theorem Mach.modPart_flashA (m : Mach) (k : Nat) (f : Part → Part) : (m.modPart k f).dev.flashA = m.dev.flashA := rfl
@[simp] theorem Mach.modPart_flashB (m : Mach) (k : Nat) (f : Part → Part) : (m.modPart k f).dev.flashB = m.dev.flashB := rfl
@[simp] theorem Mach.modPart_fuses (m : Mach) (k : Nat) (f : Part → Part) : (m.modPart k f).dev.fuses = m.dev.fuses := rfl
@[simp] theorem Mach.modPart_lcPend (m : Mach) (k : Nat) (f : Part → Part) : (m.modPart k f).dev.lcPend = m.dev.lcPend := rfl
@[simp] theorem Mach.modPart_quoteBlock (m : Mach) (k : Nat) (f : Part → Part) : (m.modPart k f).dev.quoteBlock = m.dev.quoteBlock := rfl
@[simp] theorem Mach.modPart_quoteLeaf (m : Mach) (k : Nat) (f : Part → Part) : (m.modPart k f).dev.quoteLeaf = m.dev.quoteLeaf := rfl
@[simp] theorem Mach.modPart_monEntry (m : Mach) (k : Nat) (f : Part → Part) : (m.modPart k f).dev.monEntry = m.dev.monEntry := rfl
@[simp] theorem Mach.modPart_monDigest (m : Mach) (k : Nat) (f : Part → Part) : (m.modPart k f).dev.monDigest = m.dev.monDigest := rfl
@[simp] theorem Mach.modPart_ended (m : Mach) (k : Nat) (f : Part → Part) : (m.modPart k f).dev.ended = m.dev.ended := rfl
@[simp] theorem Mach.modPart_given (m : Mach) (k : Nat) (f : Part → Part) : (m.modPart k f).dev.given = m.dev.given := rfl
@[simp] theorem Mach.modPart_cur (m : Mach) (k : Nat) (f : Part → Part) : (m.modPart k f).dev.cur = m.dev.cur := rfl
@[simp] theorem Mach.modPart_vqNow (m : Mach) (k : Nat) (f : Part → Part) : (m.modPart k f).dev.vqNow = m.dev.vqNow := rfl
@[simp] theorem Mach.modPart_head (m : Mach) (k : Nat) (f : Part → Part) : (m.modPart k f).dev.head = m.dev.head := rfl
@[simp] theorem Mach.modPart_fresh (m : Mach) (k : Nat) (f : Part → Part) : (m.modPart k f).dev.fresh = m.dev.fresh := rfl
@[simp] theorem Mach.modPart_stores (m : Mach) (k : Nat) (f : Part → Part) : (m.modPart k f).dev.stores = m.dev.stores := rfl
@[simp] theorem Mach.modPart_part (m : Mach) (k : Nat) (f : Part → Part) : (m.modPart k f).part k = f (m.part k) := Tbl.get_set_self _ _ _ _
theorem Mach.modPart_part_ne (m : Mach) (k j : Nat) (f : Part → Part) (h : j ≠ k) : (m.modPart k f).part j = m.part j := Tbl.get_set_ne _ _ _ _ _ h
@[simp] theorem Mach.modPart_side (m : Mach) (k j : Nat) (f : Part → Part) : (m.modPart k f).side j = m.side j := rfl
@[simp] theorem Mach.modPart_core (m : Mach) (k j : Nat) (f : Part → Part) : (m.modPart k f).core j = m.core j := rfl
@[simp] theorem Mach.modPart_sup (m : Mach) (k j : Nat) (f : Part → Part) : (m.modPart k f).sup j = m.sup j := rfl
@[simp] theorem Mach.modPart_die (m : Mach) (k j : Nat) (f : Part → Part) : (m.modPart k f).die j = m.die j := rfl
@[simp] theorem Mach.modPart_cluster (m : Mach) (k j : Nat) (f : Part → Part) : (m.modPart k f).cluster j = m.cluster j := rfl
@[simp] theorem Mach.modPart_port (m : Mach) (k j : Nat) (f : Part → Part) : (m.modPart k f).port j = m.port j := rfl

/-! ## Sequencers and their registers -/

@[simp] theorem Side.seq_setSeq (s : Side) (r : Role) (q : Seq) : (s.setSeq r q).seq r = q := by cases r <;> rfl
@[simp] theorem Side.setSeq_setSeq (s : Side) (r : Role) (q q' : Seq) : (s.setSeq r q).setSeq r q' = s.setSeq r q' := by cases r <;> rfl
theorem Side.seq_setSeq_ne (s : Side) (r r' : Role) (q : Seq) (h : r' ≠ r) : (s.setSeq r q).seq r' = s.seq r' := by
  cases r <;> cases r' <;> first | rfl | exact absurd rfl h

@[simp] theorem Side.setSeq_v (s : Side) (r : Role) (q : Seq) : (s.setSeq r q).v = s.v := by cases r <;> rfl
@[simp] theorem Side.setSeq_pr (s : Side) (r : Role) (q : Seq) : (s.setSeq r q).pr = s.pr := by cases r <;> rfl
@[simp] theorem Side.setSeq_mb (s : Side) (r : Role) (q : Seq) : (s.setSeq r q).mb = s.mb := by cases r <;> rfl
@[simp] theorem Side.setSeq_vl (s : Side) (r : Role) (q : Seq) : (s.setSeq r q).vl = s.vl := by cases r <;> rfl
@[simp] theorem Side.setSeq_vtype (s : Side) (r : Role) (q : Seq) : (s.setSeq r q).vtype = s.vtype := by cases r <;> rfl
@[simp] theorem Side.setSeq_vstart (s : Side) (r : Role) (q : Seq) : (s.setSeq r q).vstart = s.vstart := by cases r <;> rfl
@[simp] theorem Side.setSeq_exi (s : Side) (r : Role) (q : Seq) : (s.setSeq r q).exi = s.exi := by cases r <;> rfl
@[simp] theorem Side.setSeq_ffi (s : Side) (r : Role) (q : Seq) : (s.setSeq r q).ffi = s.ffi := by cases r <;> rfl
@[simp] theorem Side.setSeq_vdirty (s : Side) (r : Role) (q : Seq) : (s.setSeq r q).vdirty = s.vdirty := by cases r <;> rfl
@[simp] theorem Side.setSeq_vown (s : Side) (r : Role) (q : Seq) : (s.setSeq r q).vown = s.vown := by cases r <;> rfl
@[simp] theorem Side.setSeq_fflags (s : Side) (r : Role) (q : Seq) : (s.setSeq r q).fflags = s.fflags := by cases r <;> rfl
@[simp] theorem Side.setSeq_frm (s : Side) (r : Role) (q : Seq) : (s.setSeq r q).frm = s.frm := by cases r <;> rfl
@[simp] theorem Side.setSeq_fenable (s : Side) (r : Role) (q : Seq) : (s.setSeq r q).fenable = s.fenable := by cases r <;> rfl
@[simp] theorem Side.setSeq_bythr (s : Side) (r : Role) (q : Seq) : (s.setSeq r q).bythr = s.bythr := by cases r <;> rfl
@[simp] theorem Side.setSeq_stsup (s : Side) (r : Role) (q : Seq) : (s.setSeq r q).stsup = s.stsup := by cases r <;> rfl
@[simp] theorem Side.setSeq_oorct (s : Side) (r : Role) (q : Seq) : (s.setSeq r q).oorct = s.oorct := by cases r <;> rfl
@[simp] theorem Side.setSeq_poict (s : Side) (r : Role) (q : Seq) : (s.setSeq r q).poict = s.poict := by cases r <;> rfl
@[simp] theorem Side.setSeq_asn (s : Side) (r : Role) (q : Seq) : (s.setSeq r q).asn = s.asn := by cases r <;> rfl
@[simp] theorem Side.setSeq_pid (s : Side) (r : Role) (q : Seq) : (s.setSeq r q).pid = s.pid := by cases r <;> rfl
@[simp] theorem Side.setSeq_trap (s : Side) (r : Role) (q : Seq) : (s.setSeq r q).trap = s.trap := by cases r <;> rfl
@[simp] theorem Side.setSeq_vq (s : Side) (r : Role) (q : Seq) : (s.setSeq r q).vq = s.vq := by cases r <;> rfl
@[simp] theorem Side.setSeq_frame (s : Side) (r : Role) (q : Seq) : (s.setSeq r q).frame = s.frame := by cases r <;> rfl
@[simp] theorem Side.setSeq_open_ (s : Side) (r : Role) (q : Seq) : (s.setSeq r q).open_ = s.open_ := by cases r <;> rfl
@[simp] theorem Side.setSeq_strip (s : Side) (r : Role) (q : Seq) : (s.setSeq r q).strip = s.strip := by cases r <;> rfl
@[simp] theorem Side.setSeq_held (s : Side) (r : Role) (q : Seq) : (s.setSeq r q).held = s.held := by cases r <;> rfl
@[simp] theorem Side.setSeq_leaving (s : Side) (r : Role) (q : Seq) : (s.setSeq r q).leaving = s.leaving := by cases r <;> rfl
@[simp] theorem Side.setSeq_adds (s : Side) (r : Role) (q : Seq) : (s.setSeq r q).adds = s.adds := by cases r <;> rfl
@[simp] theorem Side.setSeq_bind (s : Side) (r : Role) (q : Seq) : (s.setSeq r q).bind = s.bind := by cases r <;> rfl
@[simp] theorem Side.setSeq_att (s : Side) (r : Role) (q : Seq) : (s.setSeq r q).att = s.att := by cases r <;> rfl
@[simp] theorem Side.setSeq_serial (s : Side) (r : Role) (q : Seq) : (s.setSeq r q).serial = s.serial := by cases r <;> rfl
@[simp] theorem Side.setSeq_marks (s : Side) (r : Role) (q : Seq) : (s.setSeq r q).marks = s.marks := by cases r <;> rfl
@[simp] theorem Side.setSeq_unwound (s : Side) (r : Role) (q : Seq) : (s.setSeq r q).unwound = s.unwound := by cases r <;> rfl
@[simp] theorem Side.setSeq_tick (s : Side) (r : Role) (q : Seq) : (s.setSeq r q).tick = s.tick := by cases r <;> rfl
@[simp] theorem Side.setSeq_unit (s : Side) (r : Role) (q : Seq) : (s.setSeq r q).unit = s.unit := by cases r <;> rfl
@[simp] theorem Side.setSeq_needImg (s : Side) (r : Role) (q : Seq) : (s.setSeq r q).needImg = s.needImg := by cases r <;> rfl
@[simp] theorem Side.setSeq_phase (s : Side) (r : Role) (q : Seq) : (s.setSeq r q).phase = s.phase := by cases r <;> rfl
@[simp] theorem Side.setSeq_arrived (s : Side) (r : Role) (q : Seq) : (s.setSeq r q).arrived = s.arrived := by cases r <;> rfl
@[simp] theorem Side.setSeq_vlast (s : Side) (r : Role) (q : Seq) : (s.setSeq r q).vlast = s.vlast := by cases r <;> rfl
@[simp] theorem Side.setSeq_text (s : Side) (r : Role) (q : Seq) : (s.setSeq r q).text = s.text := by cases r <;> rfl
@[simp] theorem Side.setSeq_tq (s : Side) (r : Role) (q : Seq) : (s.setSeq r q).tq = s.tq := by cases r <;> rfl
@[simp] theorem Side.setSeq_tstop (s : Side) (r : Role) (q : Seq) : (s.setSeq r q).tstop = s.tstop := by cases r <;> rfl
@[simp] theorem Side.setSeq_written (s : Side) (r : Role) (q : Seq) : (s.setSeq r q).written = s.written := by cases r <;> rfl
@[simp] theorem Side.setSeq_irq (s : Side) (r : Role) (q : Seq) : (s.setSeq r q).irq = s.irq := by cases r <;> rfl
@[simp] theorem Side.setSeq_preempt (s : Side) (r : Role) (q : Seq) : (s.setSeq r q).preempt = s.preempt := by cases r <;> rfl
@[simp] theorem Side.setSeq_cancelled (s : Side) (r : Role) (q : Seq) : (s.setSeq r q).cancelled = s.cancelled := by cases r <;> rfl
@[simp] theorem Side.setSeq_cancelTold (s : Side) (r : Role) (q : Seq) : (s.setSeq r q).cancelTold = s.cancelTold := by cases r <;> rfl
@[simp] theorem Side.setSeq_landed (s : Side) (r : Role) (q : Seq) : (s.setSeq r q).landed = s.landed := by cases r <;> rfl
@[simp] theorem Side.setSeq_vstale (s : Side) (r : Role) (q : Seq) : (s.setSeq r q).vstale = s.vstale := by cases r <;> rfl
@[simp] theorem Side.setSeq_saveFor (s : Side) (r : Role) (q : Seq) : (s.setSeq r q).saveFor = s.saveFor := by cases r <;> rfl
@[simp] theorem Side.setSeq_yielded (s : Side) (r : Role) (q : Seq) : (s.setSeq r q).yielded = s.yielded := by cases r <;> rfl
@[simp] theorem Seq.setReg_run (q : Seq) (r : BitVec 5) (x : XReg) : (q.setReg r x).run = q.run := by unfold Seq.setReg; split <;> rfl
@[simp] theorem Seq.setReg_level (q : Seq) (r : BitVec 5) (x : XReg) : (q.setReg r x).level = q.level := by unfold Seq.setReg; split <;> rfl
@[simp] theorem Seq.setReg_inU (q : Seq) (r : BitVec 5) (x : XReg) : (q.setReg r x).inU = q.inU := by unfold Seq.setReg; split <;> rfl
@[simp] theorem Seq.setReg_pc (q : Seq) (r : BitVec 5) (x : XReg) : (q.setReg r x).pc = q.pc := by unfold Seq.setReg; split <;> rfl
@[simp] theorem Seq.setReg_line (q : Seq) (r : BitVec 5) (x : XReg) : (q.setReg r x).line = q.line := by unfold Seq.setReg; split <;> rfl
@[simp] theorem Seq.setReg_ls (q : Seq) (r : BitVec 5) (x : XReg) : (q.setReg r x).ls = q.ls := by unfold Seq.setReg; split <;> rfl
@[simp] theorem Seq.setReg_capsel (q : Seq) (r : BitVec 5) (x : XReg) : (q.setReg r x).capsel = q.capsel := by unfold Seq.setReg; split <;> rfl
@[simp] theorem Seq.setReg_waiting (q : Seq) (r : BitVec 5) (x : XReg) : (q.setReg r x).waiting = q.waiting := by unfold Seq.setReg; split <;> rfl
@[simp] theorem Seq.setReg_due (q : Seq) (r : BitVec 5) (x : XReg) : (q.setReg r x).due = q.due := by unfold Seq.setReg; split <;> rfl
@[simp] theorem Seq.setReg_stopping (q : Seq) (r : BitVec 5) (x : XReg) : (q.setReg r x).stopping = q.stopping := by unfold Seq.setReg; split <;> rfl
@[simp] theorem Seq.setReg_barArrived (q : Seq) (r : BitVec 5) (x : XReg) : (q.setReg r x).barArrived = q.barArrived := by unfold Seq.setReg; split <;> rfl
@[simp] theorem Seq.setReg_iter (q : Seq) (r : BitVec 5) (x : XReg) : (q.setReg r x).iter = q.iter := by unfold Seq.setReg; split <;> rfl
@[simp] theorem Seq.setReg_yielding (q : Seq) (r : BitVec 5) (x : XReg) : (q.setReg r x).yielding = q.yielding := by unfold Seq.setReg; split <;> rfl

/-- x0 reads as zero, full and unpoisoned (R133). -/
@[simp] theorem Seq.reg_zero (q : Seq) : q.reg 0 = {} := rfl
/-- A write of x0 is discarded (R133). -/
@[simp] theorem Seq.setReg_zero (q : Seq) (x : XReg) : q.setReg 0 x = q := rfl
/-- What a register write does to every register. -/
theorem Seq.reg_setReg (q : Seq) (r r' : BitVec 5) (x : XReg) :
    (q.setReg r x).reg r' = if r ≠ 0 ∧ r' = r then x else q.reg r' := by
  by_cases h : r = 0
  · simp [Seq.setReg, h]
  · by_cases h' : r' = r
    · subst h'
      simp only [Seq.setReg, Seq.reg, ne_eq, h, not_false_eq_true, and_self, if_true, if_false, Tbl.get_set_self]
    · have hn : r'.toNat ≠ r.toNat := fun e => h' (BitVec.eq_of_toNat_eq e)
      simp only [Seq.setReg, h, if_false, Seq.reg, h', and_false, Tbl.get_set_ne _ _ _ _ _ hn]

@[simp] theorem Mach.setSeq_log (m : Mach) (q : SeqId) (x : Seq) : (m.setSeq q x).log = m.log := by cases q <;> rfl
@[simp] theorem Mach.setSeq_base (m : Mach) (q : SeqId) (x : Seq) : (m.setSeq q x).base = m.base := by cases q <;> rfl
@[simp] theorem Mach.setSeq_stall (m : Mach) (q : SeqId) (x : Seq) : (m.setSeq q x).stall = m.stall := by cases q <;> rfl
@[simp] theorem Mach.setSeq_sent (m : Mach) (q : SeqId) (x : Seq) : (m.setSeq q x).sent = m.sent := by cases q <;> rfl
@[simp] theorem Mach.setSeq_link (m : Mach) (q : SeqId) (x : Seq) : (m.setSeq q x).link = m.link := by cases q <;> rfl
@[simp] theorem Mach.modSeq_log (m : Mach) (q : SeqId) (f : Seq → Seq) : (m.modSeq q f).log = m.log := Mach.setSeq_log _ _ _
@[simp] theorem Mach.modMe_log (m : Mach) (f : Seq → Seq) : (m.modMe f).log = m.log := Mach.setSeq_log _ _ _
@[simp] theorem Mach.modMe_base (m : Mach) (f : Seq → Seq) : (m.modMe f).base = m.base := Mach.setSeq_base _ _ _
@[simp] theorem Mach.modMe_stall (m : Mach) (f : Seq → Seq) : (m.modMe f).stall = m.stall := Mach.setSeq_stall _ _ _
@[simp] theorem Mach.modMe_sent (m : Mach) (f : Seq → Seq) : (m.modMe f).sent = m.sent := Mach.setSeq_sent _ _ _
@[simp] theorem Mach.modMe_link (m : Mach) (f : Seq → Seq) : (m.modMe f).link = m.link := Mach.setSeq_link _ _ _

@[simp] theorem Mach.setSeq_cores (m : Mach) (q : SeqId) (x : Seq) : (m.setSeq q x).dev.cores = m.dev.cores := by cases q <;> rfl
@[simp] theorem Mach.modMe_cores (m : Mach) (f : Seq → Seq) : (m.modMe f).dev.cores = m.dev.cores := Mach.setSeq_cores _ _ _
@[simp] theorem Mach.setSeq_clusters (m : Mach) (q : SeqId) (x : Seq) : (m.setSeq q x).dev.clusters = m.dev.clusters := by cases q <;> rfl
@[simp] theorem Mach.modMe_clusters (m : Mach) (f : Seq → Seq) : (m.modMe f).dev.clusters = m.dev.clusters := Mach.setSeq_clusters _ _ _
@[simp] theorem Mach.setSeq_dies (m : Mach) (q : SeqId) (x : Seq) : (m.setSeq q x).dev.dies = m.dev.dies := by cases q <;> rfl
@[simp] theorem Mach.modMe_dies (m : Mach) (f : Seq → Seq) : (m.modMe f).dev.dies = m.dev.dies := Mach.setSeq_dies _ _ _
@[simp] theorem Mach.setSeq_poison (m : Mach) (q : SeqId) (x : Seq) : (m.setSeq q x).dev.poison = m.dev.poison := by cases q <;> rfl
@[simp] theorem Mach.modMe_poison (m : Mach) (f : Seq → Seq) : (m.modMe f).dev.poison = m.dev.poison := Mach.setSeq_poison _ _ _
@[simp] theorem Mach.setSeq_probes (m : Mach) (q : SeqId) (x : Seq) : (m.setSeq q x).dev.probes = m.dev.probes := by cases q <;> rfl
@[simp] theorem Mach.modMe_probes (m : Mach) (f : Seq → Seq) : (m.modMe f).dev.probes = m.dev.probes := Mach.setSeq_probes _ _ _
@[simp] theorem Mach.setSeq_arrivals (m : Mach) (q : SeqId) (x : Seq) : (m.setSeq q x).dev.arrivals = m.dev.arrivals := by cases q <;> rfl
@[simp] theorem Mach.modMe_arrivals (m : Mach) (f : Seq → Seq) : (m.modMe f).dev.arrivals = m.dev.arrivals := Mach.setSeq_arrivals _ _ _
@[simp] theorem Mach.setSeq_remote (m : Mach) (q : SeqId) (x : Seq) : (m.setSeq q x).dev.remote = m.dev.remote := by cases q <;> rfl
@[simp] theorem Mach.modMe_remote (m : Mach) (f : Seq → Seq) : (m.modMe f).dev.remote = m.dev.remote := Mach.setSeq_remote _ _ _
@[simp] theorem Mach.setSeq_ext (m : Mach) (q : SeqId) (x : Seq) : (m.setSeq q x).dev.ext = m.dev.ext := by cases q <;> rfl
@[simp] theorem Mach.modMe_ext (m : Mach) (f : Seq → Seq) : (m.modMe f).dev.ext = m.dev.ext := Mach.setSeq_ext _ _ _
@[simp] theorem Mach.setSeq_ports (m : Mach) (q : SeqId) (x : Seq) : (m.setSeq q x).dev.ports = m.dev.ports := by cases q <;> rfl
@[simp] theorem Mach.modMe_ports (m : Mach) (f : Seq → Seq) : (m.modMe f).dev.ports = m.dev.ports := Mach.setSeq_ports _ _ _
@[simp] theorem Mach.setSeq_bdown (m : Mach) (q : SeqId) (x : Seq) : (m.setSeq q x).dev.bdown = m.dev.bdown := by cases q <;> rfl
@[simp] theorem Mach.modMe_bdown (m : Mach) (f : Seq → Seq) : (m.modMe f).dev.bdown = m.dev.bdown := Mach.setSeq_bdown _ _ _
@[simp] theorem Mach.setSeq_throttle (m : Mach) (q : SeqId) (x : Seq) : (m.setSeq q x).dev.throttle = m.dev.throttle := by cases q <;> rfl
@[simp] theorem Mach.modMe_throttle (m : Mach) (f : Seq → Seq) : (m.modMe f).dev.throttle = m.dev.throttle := Mach.setSeq_throttle _ _ _
@[simp] theorem Mach.setSeq_windows (m : Mach) (q : SeqId) (x : Seq) : (m.setSeq q x).dev.windows = m.dev.windows := by cases q <;> rfl
@[simp] theorem Mach.modMe_windows (m : Mach) (f : Seq → Seq) : (m.modMe f).dev.windows = m.dev.windows := Mach.setSeq_windows _ _ _
@[simp] theorem Mach.setSeq_compls (m : Mach) (q : SeqId) (x : Seq) : (m.setSeq q x).dev.compls = m.dev.compls := by cases q <;> rfl
@[simp] theorem Mach.modMe_compls (m : Mach) (f : Seq → Seq) : (m.modMe f).dev.compls = m.dev.compls := Mach.setSeq_compls _ _ _
@[simp] theorem Mach.setSeq_jobs (m : Mach) (q : SeqId) (x : Seq) : (m.setSeq q x).dev.jobs = m.dev.jobs := by cases q <;> rfl
@[simp] theorem Mach.modMe_jobs (m : Mach) (f : Seq → Seq) : (m.modMe f).dev.jobs = m.dev.jobs := Mach.setSeq_jobs _ _ _
@[simp] theorem Mach.setSeq_vds (m : Mach) (q : SeqId) (x : Seq) : (m.setSeq q x).dev.vds = m.dev.vds := by cases q <;> rfl
@[simp] theorem Mach.modMe_vds (m : Mach) (f : Seq → Seq) : (m.modMe f).dev.vds = m.dev.vds := Mach.setSeq_vds _ _ _
@[simp] theorem Mach.setSeq_parts (m : Mach) (q : SeqId) (x : Seq) : (m.setSeq q x).dev.parts = m.dev.parts := by cases q <;> rfl
@[simp] theorem Mach.modMe_parts (m : Mach) (f : Seq → Seq) : (m.modMe f).dev.parts = m.dev.parts := Mach.setSeq_parts _ _ _
@[simp] theorem Mach.setSeq_rollPend (m : Mach) (q : SeqId) (x : Seq) : (m.setSeq q x).dev.rollPend = m.dev.rollPend := by cases q <;> rfl
@[simp] theorem Mach.modMe_rollPend (m : Mach) (f : Seq → Seq) : (m.modMe f).dev.rollPend = m.dev.rollPend := Mach.setSeq_rollPend _ _ _
@[simp] theorem Mach.setSeq_lcReq (m : Mach) (q : SeqId) (x : Seq) : (m.setSeq q x).dev.lcReq = m.dev.lcReq := by cases q <;> rfl
@[simp] theorem Mach.setSeq_rom (m : Mach) (q : SeqId) (x : Seq) : (m.setSeq q x).dev.rom = m.dev.rom := by cases q <;> rfl
@[simp] theorem Mach.setSeq_textPid (m : Mach) (q : SeqId) (x : Seq) : (m.setSeq q x).dev.textPid = m.dev.textPid := by cases q <;> rfl
@[simp] theorem Mach.setSeq_gangs (m : Mach) (q : SeqId) (x : Seq) : (m.setSeq q x).dev.gangs = m.dev.gangs := by cases q <;> rfl
@[simp] theorem Mach.modMe_lcReq (m : Mach) (f : Seq → Seq) : (m.modMe f).dev.lcReq = m.dev.lcReq := Mach.setSeq_lcReq _ _ _
@[simp] theorem Mach.modMe_rom (m : Mach) (f : Seq → Seq) : (m.modMe f).dev.rom = m.dev.rom := Mach.setSeq_rom _ _ _
@[simp] theorem Mach.modMe_textPid (m : Mach) (f : Seq → Seq) : (m.modMe f).dev.textPid = m.dev.textPid := Mach.setSeq_textPid _ _ _
@[simp] theorem Mach.modMe_gangs (m : Mach) (f : Seq → Seq) : (m.modMe f).dev.gangs = m.dev.gangs := Mach.setSeq_gangs _ _ _
@[simp] theorem Mach.setSeq_flashA (m : Mach) (q : SeqId) (x : Seq) : (m.setSeq q x).dev.flashA = m.dev.flashA := by cases q <;> rfl
@[simp] theorem Mach.modMe_flashA (m : Mach) (f : Seq → Seq) : (m.modMe f).dev.flashA = m.dev.flashA := Mach.setSeq_flashA _ _ _
@[simp] theorem Mach.setSeq_flashB (m : Mach) (q : SeqId) (x : Seq) : (m.setSeq q x).dev.flashB = m.dev.flashB := by cases q <;> rfl
@[simp] theorem Mach.modMe_flashB (m : Mach) (f : Seq → Seq) : (m.modMe f).dev.flashB = m.dev.flashB := Mach.setSeq_flashB _ _ _
@[simp] theorem Mach.setSeq_fuses (m : Mach) (q : SeqId) (x : Seq) : (m.setSeq q x).dev.fuses = m.dev.fuses := by cases q <;> rfl
@[simp] theorem Mach.modMe_fuses (m : Mach) (f : Seq → Seq) : (m.modMe f).dev.fuses = m.dev.fuses := Mach.setSeq_fuses _ _ _
@[simp] theorem Mach.setSeq_lcPend (m : Mach) (q : SeqId) (x : Seq) : (m.setSeq q x).dev.lcPend = m.dev.lcPend := by cases q <;> rfl
@[simp] theorem Mach.modMe_lcPend (m : Mach) (f : Seq → Seq) : (m.modMe f).dev.lcPend = m.dev.lcPend := Mach.setSeq_lcPend _ _ _
@[simp] theorem Mach.setSeq_quoteBlock (m : Mach) (q : SeqId) (x : Seq) : (m.setSeq q x).dev.quoteBlock = m.dev.quoteBlock := by cases q <;> rfl
@[simp] theorem Mach.modMe_quoteBlock (m : Mach) (f : Seq → Seq) : (m.modMe f).dev.quoteBlock = m.dev.quoteBlock := Mach.setSeq_quoteBlock _ _ _
@[simp] theorem Mach.setSeq_quoteLeaf (m : Mach) (q : SeqId) (x : Seq) : (m.setSeq q x).dev.quoteLeaf = m.dev.quoteLeaf := by cases q <;> rfl
@[simp] theorem Mach.modMe_quoteLeaf (m : Mach) (f : Seq → Seq) : (m.modMe f).dev.quoteLeaf = m.dev.quoteLeaf := Mach.setSeq_quoteLeaf _ _ _
@[simp] theorem Mach.setSeq_monEntry (m : Mach) (q : SeqId) (x : Seq) : (m.setSeq q x).dev.monEntry = m.dev.monEntry := by cases q <;> rfl
@[simp] theorem Mach.modMe_monEntry (m : Mach) (f : Seq → Seq) : (m.modMe f).dev.monEntry = m.dev.monEntry := Mach.setSeq_monEntry _ _ _
@[simp] theorem Mach.setSeq_monDigest (m : Mach) (q : SeqId) (x : Seq) : (m.setSeq q x).dev.monDigest = m.dev.monDigest := by cases q <;> rfl
@[simp] theorem Mach.modMe_monDigest (m : Mach) (f : Seq → Seq) : (m.modMe f).dev.monDigest = m.dev.monDigest := Mach.setSeq_monDigest _ _ _
@[simp] theorem Mach.setSeq_ended (m : Mach) (q : SeqId) (x : Seq) : (m.setSeq q x).dev.ended = m.dev.ended := by cases q <;> rfl
@[simp] theorem Mach.modMe_ended (m : Mach) (f : Seq → Seq) : (m.modMe f).dev.ended = m.dev.ended := Mach.setSeq_ended _ _ _
@[simp] theorem Mach.setSeq_given (m : Mach) (q : SeqId) (x : Seq) : (m.setSeq q x).dev.given = m.dev.given := by cases q <;> rfl
@[simp] theorem Mach.modMe_given (m : Mach) (f : Seq → Seq) : (m.modMe f).dev.given = m.dev.given := Mach.setSeq_given _ _ _
@[simp] theorem Mach.setSeq_cur (m : Mach) (q : SeqId) (x : Seq) : (m.setSeq q x).dev.cur = m.dev.cur := by cases q <;> rfl
@[simp] theorem Mach.modMe_cur (m : Mach) (f : Seq → Seq) : (m.modMe f).dev.cur = m.dev.cur := Mach.setSeq_cur _ _ _
@[simp] theorem Mach.setSeq_vqNow (m : Mach) (q : SeqId) (x : Seq) : (m.setSeq q x).dev.vqNow = m.dev.vqNow := by cases q <;> rfl
@[simp] theorem Mach.modMe_vqNow (m : Mach) (f : Seq → Seq) : (m.modMe f).dev.vqNow = m.dev.vqNow := Mach.setSeq_vqNow _ _ _
@[simp] theorem Mach.setSeq_head (m : Mach) (q : SeqId) (x : Seq) : (m.setSeq q x).dev.head = m.dev.head := by cases q <;> rfl
@[simp] theorem Mach.modMe_head (m : Mach) (f : Seq → Seq) : (m.modMe f).dev.head = m.dev.head := Mach.setSeq_head _ _ _
@[simp] theorem Mach.setSeq_fresh (m : Mach) (q : SeqId) (x : Seq) : (m.setSeq q x).dev.fresh = m.dev.fresh := by cases q <;> rfl
@[simp] theorem Mach.setSeq_stores (m : Mach) (q : SeqId) (x : Seq) : (m.setSeq q x).dev.stores = m.dev.stores := by cases q <;> rfl
@[simp] theorem Mach.modMe_fresh (m : Mach) (f : Seq → Seq) : (m.modMe f).dev.fresh = m.dev.fresh := Mach.setSeq_fresh _ _ _
@[simp] theorem Mach.modMe_stores (m : Mach) (f : Seq → Seq) : (m.modMe f).dev.stores = m.dev.stores := Mach.setSeq_stores _ _ _

@[simp] theorem Mach.seq_setSeq (m : Mach) (q : SeqId) (x : Seq) : (m.setSeq q x).seq q = x := by
  cases q <;> simp [Mach.setSeq, Mach.seq]
@[simp] theorem Mach.setSeq_setSeq (m : Mach) (q : SeqId) (x y : Seq) : (m.setSeq q x).setSeq q y = m.setSeq q y := by
  cases q <;> simp [Mach.setSeq, Mach.modSide, Mach.setSide, Mach.side, Mach.modSup, Mach.setSup, Mach.sup]
/-- What the sequencer that moves is after a change of it. -/
@[simp] theorem Mach.me_modMe (m : Mach) (f : Seq → Seq) : (m.modMe f).me = f m.me := by
  unfold Mach.me
  rw [Mach.modMe_cur]
  simp [Mach.modMe, Mach.modSeq]
/-- Two changes of the sequencer that moves are one. -/
theorem Mach.modMe_modMe (m : Mach) (f g : Seq → Seq) : (m.modMe f).modMe g = m.modMe (fun q => g (f q)) := by
  unfold Mach.modMe Mach.modSeq
  simp
/-- No other sequencer changes. -/
theorem Mach.seq_modMe_ne (m : Mach) (f : Seq → Seq) (q : SeqId) (h : q ≠ m.dev.cur) : (m.modMe f).seq q = m.seq q := by
  unfold Mach.modMe Mach.modSeq
  generalize m.dev.cur = c at h
  cases c with
  | sup n =>
    cases q with
    | side k r => rfl
    | sup j =>
      have : j.toNat ≠ n.toNat := fun e => h (by rw [BitVec.eq_of_toNat_eq e])
      simp [Mach.setSeq, Mach.seq, Mach.modSup_sup_ne _ _ _ _ this]
  | side k r =>
    cases q with
    | sup j => rfl
    | side j r' =>
      by_cases e : j = k
      · subst e
        have hr : r' ≠ r := fun e => h (by rw [e])
        simp [Mach.setSeq, Mach.seq, Side.seq_setSeq_ne _ _ _ _ hr]
      · have : j.toNat ≠ k.toNat := fun x => e (BitVec.eq_of_toNat_eq x)
        simp [Mach.setSeq, Mach.seq, Mach.modSide_side_ne _ _ _ _ this]

end Sys2Proof.Machine
end

