-- ==== Sys2Proof/Laws/Ops.lean ====
section
/-! SUPPORT. One law for each shared operation: what it does when its checks pass, and what stops it. -/

namespace Sys2Proof.Machine
open Sys2Proof

/-! ## Issue (R250) -/

/-- An instruction whose operands can be had acts. -/
theorem Mach.issue_ready {m : Mach} {d : Option Reg} {ss carry : List Src} (h : m.ready d ss carry = true) (k : Mach → Mach) :
    m.issue true true d ss carry k = k m := by
  simp only [Mach.ready, Bool.and_eq_true, List.all_eq_true] at h
  obtain ⟨⟨⟨h0, h1⟩, h2⟩, h3⟩ := h
  have e1 : ∀ w, m.emptySrc w (ss ++ carry) = none := by
    intro w
    simp only [Mach.emptySrc, List.find?_eq_none]
    intro x hx
    simp [h1 x hx]
  have e2 : (ss.find? fun s => (m.x s.r).pois) = none := by
    simp only [List.find?_eq_none]
    intro x hx
    simpa using h3 x hx
  have e0 : m.due (ss ++ carry) = none := by
    simp only [Option.isNone_iff_eq_none] at h0
    simp [Mach.due, h0, e1]
  unfold Mach.issue
  rw [e0]
  cases d with
  | none => simp [e1, e2]
  | some r =>
    have e3 : (m.x r).full = true := by simpa using h2
    simp [e1, e2, e3]

/-- An unprivileged instruction whose operands can be had acts. -/
theorem Mach.plain_ready {m : Mach} {d : Option Reg} {ss : List Src} (h : m.ready d ss [] = true) (k : Mach → Mach) :
    m.plain d ss k = k m := Mach.issue_ready h k

/-- A system instruction at level S or M whose operands can be had acts. -/
theorem Mach.priv_ready {m : Mach} {d : Option Reg} {ss : List Src} (hl : m.me.level ≠ .U) (h : m.ready d ss [] = true) (k : Mach → Mach) :
    m.priv d ss k = k m := by
  have : (m.me.level != .U) = true := by simpa using hl
  unfold Mach.priv
  rw [this]
  exact Mach.issue_ready h k

/-- A scalar instruction whose operands can be had writes its value and falls through. -/
theorem Mach.alu_ready {m : Mach} {d : Reg} {ss : List Src} (h : m.ready (some d) ss [] = true) (f : Mach → Word) :
    m.alu d ss f = m.completes d (f m) := Mach.plain_ready h _

/-- At level U a system instruction takes cause 0x04 with its head (R78, R295). -/
theorem Mach.priv_user {m : Mach} {d : Option Reg} {ss : List Src} (h : m.me.level = .U) (k : Mach → Mach) :
    m.priv d ss k = m.trapHead 0x04 := by
  have : (m.me.level != .U) = false := by simp [h]
  unfold Mach.priv Mach.issue
  simp [this]

/-- An engine instruction whose checks pass acts. -/
theorem Mach.engine_ok {m : Mach} {r : Role} {pipe : Nat} {d : Option Reg} {ss : List Src} {wait : BitVec 8}
    (h : m.engineOk r pipe d ss wait = true) (k : Mach → Mach) : m.engine r pipe true d ss wait k = k m := by
  simp only [Mach.engineOk, Mach.waitOk, Bool.and_eq_true, Bool.or_eq_true, beq_iff_eq, bne_iff_ne] at h
  obtain ⟨⟨⟨⟨h1, h2⟩, h3⟩, h4, h5⟩, h6⟩ := h
  have e1 : (decide (wait ≠ 0) && !m.owns m.myNo 7) = false := by
    rcases h4 with h | h <;> simp [h]
  have e2 : (decide (pipe = 6) && !m.mySide.vowner) = false := by
    rcases h6 with h | h <;> simp [h]
  unfold Mach.engine Mach.roleOnly
  simp only [h1, if_true, Mach.issue_ready h2, h3, Bool.not_true, Bool.false_eq_true, if_false, h5, e1, e2]

/-! ## The vector queue -/

/-- The head of a queue whose checks pass acts (R250, R251). -/
theorem Mach.leave_acts {m : Mach} {k : Nat} {e : VqEntry} {p : Pipe} {wait : BitVec 8} {zero : Option (Mach → Mach)}
    (h1 : m.leaves k e p wait = true) (h2 : m.acts k zero.isSome = true) (act : Mach → Mach) :
    m.leave k e p wait zero act = act (m.left k) := by
  simp only [Mach.leaves, Mach.waitOk, Mach.acts, Bool.and_eq_true, Bool.or_eq_true, beq_iff_eq, Option.isNone_iff_eq_none,
    bne_iff_ne, Bool.not_eq_true'] at h1 h2
  obtain ⟨⟨a1, a2, a3⟩, a4⟩ := h1
  obtain ⟨b1, b2⟩ := h2
  have e1 : (decide (wait ≠ 0) && !m.owns k 7) = false := by
    rcases a2 with h | h <;> simp [h]
  have e2 : (if (m.side k).vl = 0 then zero else none) = none := by
    rcases b2 with h | h
    · cases zero <;> simp_all
    · rw [if_neg h]
  unfold Mach.leave
  simp only [a1, a3, beq_iff_eq, a4, e2, b1, e1, Bool.false_eq_true, if_false, Bool.not_true, Mach.left]

/-- An instruction that R252 names, with `vl` = 0: its own effect, and the queue advances without the vector owner being asked. -/
theorem Mach.leave_zero {m : Mach} {k : Nat} {e : VqEntry} {p : Pipe} {wait : BitVec 8} {z act : Mach → Mach}
    (h1 : m.leaves k e p wait = true) (h2 : (m.side k).vl = 0) : m.leave k e p wait (some z) act = (z m).vfin k false := by
  simp only [Mach.leaves, Mach.waitOk, Bool.and_eq_true, Bool.or_eq_true, beq_iff_eq, Option.isNone_iff_eq_none, Bool.not_eq_true'] at h1
  obtain ⟨⟨a1, a2, a3⟩, a4⟩ := h1
  have e1 : (decide (wait ≠ 0) && !m.owns k 7) = false := by
    rcases a2 with h | h <;> simp [h]
  unfold Mach.leave
  simp only [a1, a3, beq_iff_eq, a4, h2, e1, Bool.false_eq_true, if_false, if_true]

/-- A vector instruction at the head of the queue is performed. -/
theorem Mach.vec_head {m : Mach} {k : BitVec 10} {e : VqEntry} (h : m.headIs k e = true) (i : Instr) (capOk : Bool) (dst : Option Reg)
    (ss carry : List Src) (f : Nat → VqEntry → Mach → Mach) : m.vec i capOk dst ss carry f = f k.toNat e m := by
  simp only [Mach.headIs, beq_iff_eq] at h
  simp [Mach.vec, h]

/-- A vector instruction whose operands can be had enters the queue (R143). -/
theorem Mach.vec_issue {m : Mach} {dst : Option Reg} {ss carry : List Src} (h0 : m.dev.vqNow = none) (h1 : m.isRole .P = true)
    (h2 : m.ready dst ss carry = true) (i : Instr) (f : Nat → VqEntry → Mach → Mach) :
    m.vec i true dst ss carry f = m.enqueue i ((ss ++ carry).map fun s => ((m.x s.r).val, (m.x s.r).pois)) dst id := by
  simp [Mach.vec, h0, Mach.roleOnly, h1, Mach.issue_ready h2]

/-- Elements that do not trap are written with their flags. -/
theorem Mach.settle_settles {m0 m1 : Mach} {k : Nat} {rs : List (Nat × ERes)} (h : m0.settles k rs = true) (b : Nat)
    (fin : List El → Mach → Mach) : m0.settle m1 k rs b fin = fin (m0.settled m1 k rs b).1 (m0.settled m1 k rs b).2 := by
  unfold Mach.settle Mach.settled
  rw [Mach.settles, Bool.and_eq_true] at h
  replace h := h.2
  by_cases hu : (m0.side k).unresolved = true
  · simp [hu]
  · simp only [hu, Bool.false_or, Bool.and_eq_true, List.all_eq_true] at h
    have e1 : (rs.find? (·.2.bad)) = none := by
      simp only [List.find?_eq_none]
      intro x hx
      simpa using h.1 x hx
    have e2 : (rs.find? fun x => x.2.fl &&& (m0.side k).fenable != 0) = none := by
      simp only [List.find?_eq_none]
      intro x hx
      have := h.2 x hx
      simpa using this
    simp only [if_neg hu, e1, e2]

/-- An instruction of a legal type whose sources can be read acts (R174, R302). -/
theorem Mach.vop_ok {m m1 : Mach} {k n : Nat} {d : Option VR} {vs : List VR} {src : List (VR × VReg)}
    (h1 : (d.isSome && (m.side k).stripFull) = false) (h2 : m.vsrcs k n vs [] = .ok (src, m1))
    (f : List (VR × VReg) → Mach → Mach → Mach) : m.vop k true d n vs f = f src m (m1.modSide k (·.seeGroup n src d)) := by
  simp only [Mach.vop, h1, h2]
  rfl

/-- With every source readable by its lane an instruction of the lanes is a plain one (R155). -/
theorem Mach.lop_read {m m1 : Mach} {k n : Nat} {d : Option VR} {vs : List VR} {src : List (VR × VReg)} (h0 : (m.unread k).isEmpty = true)
    (h1 : (d.isSome && (m.side k).stripFull) = false) (h2 : m.vsrcs k n vs [] = .ok (src, m1))
    (f : List (VR × VReg) → Mach → Mach → Mach) : m.lop k true d n vs f = f src m (m1.modSide k (·.seeGroup n src d)) := by
  unfold Mach.lop
  rw [Mach.vop_ok h1 h2, if_pos h0]

/-! ## Completion (R288) -/

/-- What completing does to the sequencer that moves: its loops and PC follow R288, it no longer waits, and no trap of it
is due. -/
theorem Mach.goto_me (m : Mach) (q : Word) :
    (m.goto q).me = { m.me with ls := (loopGo m.me.ctx q m.me.ls).1, pc := (loopGo m.me.ctx q m.me.ls).2,
                                      waiting := false, due := none, stopping := false,
                                      iter := loopEnds m.me.ctx q m.me.ls } := by
  simp [Mach.goto]

/-- With no loop of its context a sequencer goes where its instruction says. -/
theorem loopGo_none {c : BitVec 2} (q : Word) : ∀ {l : List LoopEnt}, l.all (fun e => e.ctx != c) = true → loopGo c q l = (l, q)
  | [], _ => rfl
  | e :: r, h => by
    simp only [List.all_cons, Bool.and_eq_true, bne_iff_ne, ne_eq] at h
    have ih : loopGo c q r = (r, q) := loopGo_none q h.2
    simp [loopGo, h.1, ih]

/-- The register that an instruction writes, and every other register as it was. -/
theorem Mach.completes_reg (m : Mach) (d : Reg) (v : Word) (r : BitVec 5) :
    (m.completes d v).me.reg r = if d ≠ 0 ∧ r = d then ⟨v, true, false⟩ else m.me.reg r := by
  unfold Mach.completes Mach.retire Mach.wx
  rw [Mach.goto_me]
  have := Seq.reg_setReg m.me d r ⟨v, true, false⟩
  simpa [Seq.reg] using this

@[simp] theorem Mach.completes_log (m : Mach) (d : Reg) (v : Word) : (m.completes d v).log = m.log := by
  simp [Mach.completes, Mach.retire, Mach.goto, Mach.wx]

/-! ## Traps (R206) -/

/-- Entering a level above U (R206, R210). -/
theorem Mach.enter_me (m : Mach) (l : Level) (t : TrapReq) (epc : Word) (vq : Bool) :
    (m.enter l t epc vq).me.level = l ∧ (m.enter l t epc vq).me.pc = ((m.trapOf m.dev.cur).get l).tvec &&& ~~~1#64 := by
  unfold Mach.enter
  simp

end Sys2Proof.Machine
end

