-- ==== Sys2Proof/Tests/Slice0.lean ====
section
/-! SUPPORT. Tests: words written out from the encodings of the spec, an ill-formed instruction for each check, results of single steps from
the spec's tables and examples, and for each statement a state and operands that meet its hypotheses. -/

namespace Sys2Proof.Tests
open Sys2Proof Sys2Proof.Machine Sys2Proof.Claims
set_option Elab.async false

/-- A full source. -/
def r (n : Nat) : Src := ⟨true, BitVec.ofNat 5 n⟩
/-- A source with W = 0. -/
def r0 (n : Nat) : Src := ⟨false, BitVec.ofNat 5 n⟩
/-- All of some checks hold. -/
def ok (l : List Bool) : Bool := l.all id

/-! ## Decoding (R245 to R248, R266): words written out from the tables and the examples of the spec -/

theorem test_decode_scalar :
    decode ⟨0x4086, 0x9a50⟩ = some (.add 6 (r 6) (r 5)) ∧ decode ⟨0x8405, 0x97ffffff⟩ = some (.addi 5 (r 5) (-1))
    ∧ decode ⟨0x8a47, 0xa29a8000⟩ = some (.sel 7 (r 8) (r 9) (r 10)) ∧ decode ⟨0xc605, 0xa00⟩ = some (.li 5 10) := by decide +kernel
theorem test_decode_memory :
    decode ⟨0x900c, 0xd0100000⟩ = some (.ld 12 (r 20) 2 false 0) ∧ decode ⟨0x90e6, 0xd6180000⟩ = some (.stl (r 6) (r 21) 3 .dev 0)
    ∧ decode ⟨0x9105, 0xa29aa700⟩ = some (.amo 5 (r 8) (r 9) (r 10) .cas true) := by decide +kernel
theorem test_decode_control :
    decode ⟨0x9401, 0x96000003⟩ = some (.b .ne (r 5) (r 0) 0 3) ∧ decode ⟨0x1a40, 0⟩ = some .endUnit ∧ decode ⟨0x0040, 0⟩ = some .nop := by
  decide +kernel
theorem test_decode_order :
    decode ⟨0x9980, 0x5⟩ = some (.qfence 5) ∧ decode ⟨0x194a, 0⟩ = some (.fence .cl .acq) ∧ decode ⟨0x195d, 0⟩ = some (.fence .sys .full)
    ∧ decode ⟨0x1976, 0⟩ = some .fenceCommit := by decide +kernel
theorem test_decode_vector :
    decode ⟨0xf082, 0xa01a40000800⟩ = some (.vldx 2 (r 8) 1 (r 9) 0 none 0 .zero false false)
    ∧ decode ⟨0xf1c2, 0xa01a43800000⟩ = some (.vscadd (r 8) 1 2 (r 9) 0 (some .f32) 0 .poison .add)
    ∧ decode ⟨0x6005, 0xa80c⟩ = some (.setvl 5 (r 10) .f32) ∧ decode ⟨0xe809, 0x0420c3800000⟩ = some (.vfma 9 1 2 3 0 (some .f32) .dyn)
    ∧ decode ⟨0xe102, 0x040000000000⟩ = some (.vbrk 2 1 0 false) := by decide +kernel
theorem test_decode_matrix :
    decode ⟨0xf800, 0xa80020000001⟩ = some (.mld (r 10) .e4m3 0 true)
    ∧ decode ⟨0xf840, 0xb00020000006⟩ = some (.mmacStaged 0 (r 12) .e4m3 0 false 1) := by decide +kernel
theorem test_decode_stream :
    decode ⟨0xfa28, 0x000001100000⟩ = some (.cpy (.x (r 8)) 1 2 none 0) ∧ decode ⟨0xfa2c, 0x000001a00005⟩ = some (.cpy (.x (r 12)) 2 3 (some 1) 0)
    ∧ decode ⟨0xfa82, 0xaabb18c00408⟩ = some (.sgath (.cb 2) 4 1 (r 10) (r 11) (r 12) .n32 0 .zero false)
    ∧ decode ⟨0xfb47, 0xa42000000000⟩ = some (.cbinit 7 2 (r 9) 0) ∧ decode ⟨0xfc00, 0xac0000300000⟩ = some (.lyset 3 (r 11) 0 0) := by
  decide +kernel
theorem test_decode_index :
    decode ⟨0xf404, 0x042002600000⟩ = some (.xins 4 1 2 0 (some .i64)) ∧ decode ⟨0xf642, 0x040003600000⟩ = some (.vtint 2 1 0 (some .bf16) .dyn)
    ∧ decode ⟨0xf600, 0xaabb00000000⟩ = some (.tbset (r 10) (r 11) (r 12) .bf16) ∧ decode ⟨0xfd40, 0xa40000000001⟩ = some (.txdec (r 9) true) := by
  decide +kernel

/-- Heads that R245 and R250 reject: a wrong tail length, an unassigned opcode, a set bit in an unassigned field. -/
theorem test_decode_rejects :
    decode ⟨0x8086, 0x9a50⟩ = none ∧ decode ⟨0x0000, 0⟩ = none ∧ decode ⟨0x4086, 0x9a51⟩ = none ∧ decode ⟨0x0041, 0⟩ = none := by decide +kernel

/-! ## Ill-formed instructions: each check of R250 step 5 refuses one -/

theorem test_wf_fields :
    Instr.wf (.bfx 1 (r 2) 63 1) = false ∧ Instr.wf (.bfx 1 (r 2) 63 0) = true ∧ Instr.wf (.bfi 1 (r 2) (r 3) 1 63) = false := by decide +kernel
theorem test_wf_types :
    Instr.wf (.fadd 1 (r 2) (r 3) .i32 .rne) = false ∧ Instr.wf (.fcvt 1 (r 2) .mx8 .f32 .rne) = false
    ∧ Instr.wf (.fcvt 1 (r 2) .i32 .i64 .rne) = false ∧ Instr.wf (.fclass 1 (r 2) .e4m3) = false := by decide +kernel
theorem test_wf_memory :
    Instr.wf (.ld 1 (r 2) 3 true 0) = false ∧ Instr.wf (.amo 1 (r 2) (r 3) (r 4) .add true) = false
    ∧ Instr.wf (.amo 1 (r 2) (r 3) (r 4) .cas true) = true ∧ Instr.wf (.qfence 1) = false ∧ Instr.wf (.qfence 0x21) = false := by decide +kernel
theorem test_wf_control :
    Instr.wf (.lix 1 6) = false ∧ Instr.wf (.lix 1 5) = true ∧ Instr.wf (.cancel 1 (r 2) 5) = false ∧ Instr.wf (.crd 1 7) = false
    ∧ Instr.wf (.crd 1 0x126) = false ∧ Instr.wf (.crd 1 0x125) = true := by decide +kernel
theorem test_wf_predicates :
    Instr.wf (.pset 0 0 true) = false ∧ Instr.wf (.vcmp 0 1 2 0 none .eq) = false ∧ Instr.wf (.vcmp 1 1 2 0 (some .i8) .un) = false
    ∧ Instr.wf (.xins 0 1 2 0 none) = false ∧ Instr.wf (.xlkp 1 1 0 0 none) = false ∧ Instr.wf (.vbrk 0 1 0 true) = false := by decide +kernel
theorem test_wf_others :
    Instr.wf (.vpf (r 1) (some Src.none) 0 none 0 true) = false ∧ Instr.wf (.lyset 0 (r 1) 41 0) = false ∧ Instr.wf (.lyset 0 (r 1) 40 0) = true
    ∧ Instr.wf (.attest 65) = false ∧ Instr.wf (.notifyWrite 65 0) = false ∧ Instr.wf (.writeBack true 4 0) = false
    ∧ Instr.wf (.sramError (.l1 544 0) true) = false := by decide +kernel
theorem test_wf_reserved_codes : ETy.ofBits 15 = none ∧ Rm.ofBits 6 = none ∧ Cond.ofBits 7 = none ∧ Scope.ofBits 7 = none ∧ FKind.ofBits 0 = none
    ∧ Wid.ofBits 3 = none ∧ AmoOp.ofBits 11 = none ∧ VcmpOp.ofBits 7 = none ∧ RedOp.ofBits 6 = none ∧ SpOp.ofBits 7 = none := by decide

/-! ## Small states -/

/-- A running sequencer at slot 1 of a line at address 0. -/
def q0 (l : Level) (x : Tbl XReg) : Seq := { run := .run, level := l, pc := 2, line := some ⟨0, Line.ofEnc ⟨0, 0⟩⟩, x := x }
/-- Registers: x1 is 1, x2 5, x3 0, x4 64, x5 4096, x6 poisoned, x7 empty, x8 all ones, x9 1.0, x10 66, x11 65. -/
def regs : Tbl XReg :=
  [(1, ⟨1, true, false⟩), (2, ⟨5, true, false⟩), (3, ⟨0, true, false⟩), (4, ⟨64, true, false⟩), (5, ⟨4096, true, false⟩), (6, ⟨9, true, true⟩),
   (7, ⟨0, false, false⟩), (8, ⟨-1, true, false⟩), (9, ⟨0x3f800000, true, false⟩), (10, ⟨66, true, false⟩), (11, ⟨65, true, false⟩)]
/-- A unit whose context owns the vector registers. -/
def unit0 : UnitInfo := { rec_ := 0, launch := 0, gang := false, rank := 0, size := 1, bar := 0, join := 0, vd := 0, cls := 0, img := 0, started := 0 }
/-- Side 0 with no partition: its accesses are physical (DEDUCED, unsafe, log 26). -/
def sd : Side := { p := q0 .M regs, m := q0 .M regs, s := q0 .M regs, vl := 4, vtype := 12, vown := 1, unit := some unit0 }
/-- A state with one side, on which a sequencer of role `o` moves. -/
def stOf (x : Side) (o : Role := .P) (mem : List Host.Cell := []) : State :=
  { mem := mem, dev := { Dev.reset with sides := [(0, x)], cur := .side 0 o }, turns := [] }
/-- A state with one supervisor core at level `l`. -/
def supSt (l : Level) : State := { mem := [], dev := { Dev.reset with sups := [(0, { seq := q0 l regs })], cur := .sup 0 }, turns := [] }
/-- The state with its device changed. -/
def dv (s : State) (f : Dev → Dev) : State := { s with dev := f s.dev }
/-- The result of an instruction as seen by `f`. -/
def after (i : Instr) (s : State) (f : Mach → Bool) : Bool := match exec i s with | .next t => f t.mach | _ => false
/-- The state in which an entry of an instruction with operands stands at the head of side 0's queue. -/
def headSt (x : Side) (i : Instr) (ops : List (Word × Bool)) (mem : List Host.Cell := []) : State :=
  let e : VqEntry := { pc := 2, head := 0, ins := i, ops := ops, tick := 0, lvl := .M }
  { mem := mem, dev := { Dev.reset with sides := [(0, { x with vq := [e] })], cur := .side 0 .P, vqNow := some (0, e) }, turns := [] }
/-- Its entry. -/
def headE (i : Instr) (ops : List (Word × Bool)) : VqEntry := { pc := 2, head := 0, ins := i, ops := ops, tick := 0, lvl := .M }

/-! ## Results of single instructions (R279 to R289) -/

theorem test_add_wraps : after (.add 1 (r 8) (r 2)) (stOf sd) (fun m => m.me.reg 1 == ⟨4, true, false⟩ && m.me.pc == 66) = true := by decide +kernel
theorem test_x0_discards : after (.add 0 (r 8) (r 2)) (stOf sd) (fun m => m.me.reg 0 == {}) = true := by decide +kernel
theorem test_div_by_zero : after (.div 1 (r 2) (r 3)) (stOf sd) (fun m => (m.me.reg 1).val == -1) = true
    ∧ after (.rem 1 (r 2) (r 3)) (stOf sd) (fun m => (m.me.reg 1).val == 5) = true := by decide +kernel
theorem test_mulh_signs : after (.mulh 1 (r 8) (r 8)) (stOf sd) (fun m => (m.me.reg 1).val == 0) = true
    ∧ after (.mulhn 1 (r 8) (r 8)) (stOf sd) (fun m => (m.me.reg 1).val == -2) = true := by decide +kernel
theorem test_sra_sign : after (.srai 1 (r 8) 63) (stOf sd) (fun m => (m.me.reg 1).val == -1) = true := by decide +kernel
theorem test_sel_zero : after (.sel 1 (r 3) (r 2) (r 4)) (stOf sd) (fun m => (m.me.reg 1).val == 64) = true := by decide +kernel
theorem test_mv_poison : after (.mv 1 (r 6)) (stOf sd) (fun m => m.me.reg 1 == ⟨9, true, true⟩) = true := by decide +kernel
theorem test_poison_traps : after (.add 1 (r 6) (r 2)) (stOf sd) (fun m => (m.trapOf (.side 0 .P)).m.cause == 0x0c && (m.trapOf (.side 0 .P)).m.tval == 6)
    = true := by decide +kernel
/-- Steps 8 and 9 of R250 with R136: W = 0 traps with the register number and 256 times the sequencer's number. -/
theorem test_empty_traps : after (.add 1 (r0 7) (r 2)) (stOf sd .S) (fun m => (m.trapOf (.side 0 .S)).m.cause == 0x03
    && (m.trapOf (.side 0 .S)).m.tval == 519) = true := by decide +kernel
/-- The values that R284 names. -/
theorem test_fclass : classWord .f32 0x80000000 = 0x101 ∧ classWord .f32 0x7f800000 = 0x008 ∧ classWord .f32 0xbf800000 = 0x104
    ∧ classWord .f32 0x7fc00000 = 0x020 ∧ fClass .f32 0x80000000 = 0x101 ∧ fClass .f32 0x7fc00000 = 0x020 := by decide +kernel
theorem test_fadd_one : after (.fadd 1 (r 9) (r 9) .f32 .rne) (stOf sd) (fun m => (m.me.reg 1).val == 0x40000000 && m.fflags == 0) = true := by decide +kernel
theorem test_branch_taken : after (.b .ne (r 1) (r 2) 1 1) (stOf sd) (fun m => m.me.pc == 66 && m.me.line == none) = true := by decide +kernel
theorem test_branch_odd_target : after (.jr (r 11)) (stOf sd) (fun m => (m.trapOf (.side 0 .P)).m.cause == 0x02 && (m.trapOf (.side 0 .P)).m.tval == 65)
    = true := by decide +kernel
/-- A line at address 0 with a loop and one more instruction, so that the body of a loop to slot 3 has one instruction. -/
def lineMem : List Host.Cell := [(1, 0x18), (2, 0x40), (4, 0x40), (6, 0x40)]
/-- Three full lines of `nop`. -/
def lineSd : Side := { sd with p := { sd.p with line := some ⟨0, 0x0040004000401800⟩ } }
theorem test_loopi_enters : after (.loopi 3 0 3) (stOf lineSd .P lineMem) (fun m => m.me.pc == 4 && m.me.ls == [⟨4, 6, 3, 0, 2⟩]) = true := by decide +kernel
theorem test_loop_zero : after (.loopi 0 0 3) (stOf lineSd .P lineMem) (fun m => m.me.pc == 6 && m.me.ls == []) = true := by decide +kernel
/-- R289: the end of the inner loop's last iteration ends the outer loop's iteration too. -/
theorem test_nested_end : ((stOf { sd with p := { sd.p with ls := [⟨6, 8, 3, 2, 2⟩, ⟨4, 8, 2, 0, 2⟩] } }).mach.goto 8).me.pc = 4 := by decide +kernel
theorem test_ld_sign : after (.ld 1 (r 4) 0 false 0) (stOf sd .P [(64, 0xff)]) (fun m => m.dev.arrivals == [⟨.side 0 .P, 1, -1, false⟩]
    && (m.me.reg 1).full == false) = true := by decide +kernel
theorem test_st_bytes : (match exec (.st (r 8) (r 4) 1 0) (stOf sd) with | .next t => t.mem == [(64, 0xff), (65, 0xff)] | _ => false) = true := by decide +kernel
theorem test_amo_add : (match exec (.amo 1 (r 4) (r 2) Src.none .add true) (stOf sd .P [(64, 7)]) with
    | .next t => t.mem == [(64, 12)] && t.dev.arrivals == [⟨.side 0 .P, 1, 7, false⟩] | _ => false) = true := by decide +kernel
/-- R295 and R206: cause 0x16, tval the immediate, epc the trap, tvec with its bit 0 clear. -/
theorem test_trap_entry : after (.trap 5) (stOf { sd with trap := { m := { tvec := 0x1001 } } }) (fun m => (m.trapOf (.side 0 .P)).m.cause == 0x16
    && (m.trapOf (.side 0 .P)).m.tval == 5 && (m.trapOf (.side 0 .P)).m.epc == 2 && m.me.pc == 0x1000 && (m.trapOf (.side 0 .P)).m.tstat == 6)
    = true := by decide +kernel
theorem test_eret : after .eret (stOf { sd with trap := { m := { epc := 0x82, tstat := 5 } } }) (fun m => m.me.pc == 0x82 && m.me.level == .S
    && (m.trapOf (.side 0 .P)).m.tstat == 1) = true := by decide +kernel
theorem test_crw_old : after (.crw 1 0x0b (r 5)) (stOf { sd with bythr := 7 }) (fun m => (m.me.reg 1).val == 7 && m.mySide.bythr == 4096) = true := by decide +kernel
/-- R300: 0, 6 and 7 are no rounding modes. -/
theorem test_frm_illegal : after (.crw 1 0x09 (r 3)) (stOf sd) (fun m => (m.trapOf (.side 0 .P)).m.cause == 0x01) = true := by decide +kernel
theorem test_mbput_mbget : after (.mbput 3 (r 6)) (stOf sd) (fun m => m.mySide.mb == [(3, { val := 9, full := true, pois := true, getters := [] })]) = true
    ∧ after (.mbget 1 3) (stOf { sd with mb := [(3, { val := 9, full := true, pois := true, getters := [] })] })
        (fun m => m.dev.arrivals == [⟨.side 0 .P, 1, 9, true⟩] && !(m.me.reg 1).full && m.mySide.mb == [(3, { val := 9, full := false, pois := false, getters := [] })]) = true := by decide +kernel

/-! ## Vector, matrix and stream results -/

/-- A side whose element type is i8. -/
def sd8 : Side := { sd with vtype := ETy.i8.toBits.setWidth 8 }
theorem test_vadd : after (.vadd 1 2 2 0 (some .i8) .dyn) (headSt { sd8 with v := [(2, ⟨0x04030281, 0⟩)] } (.vadd 1 2 2 0 (some .i8) .dyn) [])
    (fun m => (m.side 0).vreg 1 == ⟨0x08060402, 0⟩ && (m.side 0).vdirty == 2 && (m.side 0).vq == []) = true := by decide +kernel
theorem test_vmax_predicated : after (.vmax 1 2 3 1 (some .i8)) (headSt { sd8 with v := [(2, ⟨0x04030281, 0⟩)], pr := [(1, 5)] } (.vmax 1 2 3 1 (some .i8)) [])
    (fun m => (m.side 0).vreg 1 == ⟨0x00030000, 0⟩) = true := by decide +kernel
/-- R248: an explicit type of another size than vtype's element is illegal. -/
theorem test_vadd_size : after (.vadd 1 2 2 0 (some .i8) .dyn) (headSt { sd with trap := { m := { qframe := 0x4000 } } } (.vadd 1 2 2 0 (some .i8) .dyn) [])
    (fun m => (m.trapOf (.side 0 .P)).m.cause == 0x01) = true := by decide +kernel
theorem test_pcnt : after (.pcnt 1 1 0) (headSt { sd with pr := [(1, 0xd)] } (.pcnt 1 1 0) []) (fun m => (m.me.reg 1).val == 3) = true := by decide +kernel
theorem test_setvl : after (.setvl 1 (r 5) .f32) (stOf sd) (fun m => (m.me.reg 1).val == 256 && m.mySide.vq.length == 1) = true := by decide +kernel
theorem test_vcompress : after (.vcompress 1 2 1 (some .i8)) (headSt { sd8 with v := [(2, ⟨0x04030201, 0⟩)], pr := [(1, 0xa)] } (.vcompress 1 2 1 (some .i8)) [])
    (fun m => (m.side 0).vreg 1 == ⟨0x0402, 0⟩) = true := by decide +kernel
theorem test_vred : after (.vred 1 2 3 0 (some .i8) .add .dyn) (headSt { sd8 with v := [(2, ⟨0x04030201, 0⟩), (3, ⟨5, 0⟩)] } (.vred 1 2 3 0 (some .i8) .add .dyn) [])
    (fun m => (m.side 0).vreg 1 == ⟨15, 0⟩) = true := by decide +kernel
theorem test_mcfg : after (.mcfg 1 (r 4) 0) (stOf sd .M) (fun m => (m.trapOf (.side 0 .M)).m.cause == 0x01) = true
    ∧ after (.mcfg 1 (r 3) 0) (stOf sd .M) (fun m => (m.me.reg 1).val == 0xff1f && m.myCore.mx.shape == 0) = true := by decide +kernel
theorem test_token_word : ({ oor := 1, pois := 2, done := 3, status := 2, pend := 4 } : Token).word0 = 0x0001000200032004 := by decide +kernel
theorem test_xcnt : after (.xcnt 1) (dv (stOf sd) fun d => { d with cores := [(0, { ix := { ents := [(3, ⟨7, 9⟩)] } })] })
    (fun m => (m.me.reg 1).val == 1) = true := by decide +kernel

/-! ## Witnesses: for each statement a state and operands that meet its hypotheses, one for each of its clauses -/

/-- The machine of a state with one side. -/
def mOf (x : Side) (o : Role := .P) : Mach := (stOf x o).mach
/-- The side at level U. -/
def atU (x : Side) : Side := { x with p := { x.p with level := .U }, m := {}, s := {} }
/-- A side of partition 1, which nothing translates. -/
def pSd : Side := { sd with pid := some 1 }
/-- The enabled flags that an instruction raises. -/
def enFl (i : Instr) (m : Mach) : Fl := match floatValue i with | some (_, _, f) => (f m).2 &&& m.fenable | none => 0
/-- A result is there. -/
def got {α : Type} (o : Option α) : Bool := o.isSome
/-- Die 0 has heard more of die 2 than die 1 has, so that a read from die 1 waits there. -/
def farSt (x : Side := sd) : State :=
  dv (stOf { x with p := { x.p with x := (14, ⟨2 ^ 37 + 64, true, false⟩) :: x.p.x } }) fun d => { d with dies := [(0, { vc := [(2, 1)] })] }
/-- Its machine. -/
def far : Mach := (farSt).mach
/-- A store is made. -/
def made : StRes → Bool
  | .done _ => true
  | _ => false

theorem witness_IntegerResults : ok [got (intValue (.sel 1 (r 2) (r 3) (r 4))), (mOf sd).ready (some 1) [r 2, r 3, r 4] [],
    got (intValue (.lpc 0 (-1) 31)), (mOf sd).ready (some 0) [] []] = true := by decide +kernel
theorem witness_IntegerFrame : ok [got (intValue (.addi 31 (r 8) (-1))), (mOf sd).ready (some 31) [r 8] []] = true := by decide +kernel
theorem witness_BitsAndMoves : ok [(mOf sd).ready (some 1) [r 2, r 3] [], (mOf sd).ready (some 1) [] [r 6],
    decide ((63#6).toNat + (0#6).toNat < 64)] = true := by decide +kernel
theorem witness_FloatResults : ok [(mOf sd).ready (some 1) [r 9, r 3] [], enFl (.fdiv 1 (r 9) (r 3) .f32 .rne) (mOf sd) == 0,
    enFl (.fdiv 1 (r 9) (r 3) .f32 .rne) (mOf { sd with fenable := 31 }) != 0] = true := by decide +kernel
theorem witness_ClassWord : ok [ETy.isF .f16, ETy.isF .f64, (mOf sd).ready (some 1) [r 8] []] = true := by decide +kernel
theorem witness_BranchResults : ok [(mOf sd).ready none [r 1, r 2] [], (mOf sd).ready (some 1) [r 10] [], decide ((mOf sd).val (r 1) ≠ (mOf sd).val (r 2)),
    ((mOf sd).legal 66).1 == some true, ((mOf sd).legal 65).1 == some false, ((mOf sd).legal 64).1 == some false,
    (far.legal (2 ^ 37 + 66)).1 == none] = true := by decide +kernel
/-- The body of a loop to a slot of line 0. -/
def body (x : Side) (slot : BitVec 5) : Option Nat :=
  let m := (stOf x .P lineMem).mach
  let e := relTarget m.me.pc 0 slot
  if (m.legal e).1 == some true then (match (m.legal e).2.bodyCount m.me.next e 130 (lineBase m.me.next) 0 with | (.ok b, _) => some b | _ => none) else none
theorem witness_LoopResults : ok [body lineSd 3 == some 1, body lineSd 2 == some 0, ((stOf lineSd .P lineMem).mach.legal (relTarget 2 0 31)).1 == some false, (far.legal (2 ^ 37 + 66)).1 == none,
    decide (2 ^ 62 ≤ ((mOf sd).val (r 8)).toNat), ((mOf sd).val (r 3)).toNat == 0, (mOf sd).ready none [r 2] [],
    got ((mOf { sd with p := { sd.p with ls := [⟨4, 6, 3, 0, 2⟩] } }).me.ls.find? (·.ctx == (mOf sd).me.ctx)),
    ((mOf sd).me.ls.find? (·.ctx == (mOf sd).me.ctx)) == none, (mOf sd).ready (some 1) [] [],
    ((mOf { sd with p := { sd.p with ls := List.replicate 6 ⟨4, 6, 3, 0, 2⟩ } }).me.ls.filter (·.ctx == 2)).length == 6] = true := by decide +kernel
theorem witness_LoadResults : (let m := mOf sd
    let va : Word := 2 ^ 37 + 64
    ok [m.ready (some 1) [r 4] [], m.val (r 4) == 64, !m.stripOpen, !m.behindAcq, match m.check m.myAcc 64 .read with
      | (.ok x, m1) => got (readsNow m1 64 x 8 false) && got (readsNow (m1.acquireData m.myAcc .dev) 64 x 8 true)
      | _ => false,
      far.ready (some 1) [r 14] [], far.val (r 14) == va, !far.behindAcq, match far.check far.myAcc va .read with
      | (.ok x, m1) => got (readsLater m1 va x false) && got (readsLater (m1.acquireData far.myAcc .dev) va x true)
      | _ => false]) = true := by decide +kernel
theorem witness_ScalarAccessTraps : ok [(mOf sd).ready (some 1) [r 10] [], (mOf sd).ready none [r 10] [r 6], ((mOf sd).val (r 10)).toNat % 4 != 0,
    !(mOf sd).stripOpen, (mOf sd).ready (some 1) [r 10, r 2, r 4] [], (mOf pSd).ready (some 1) [r 4] [],
    !(mOf pSd).behindAcq, storeFree (mOf pSd) 64, settledBefore (mOf pSd), (mOf pSd).ownUpdsDone, !(mOf pSd).behindRead 64,
    (match (mOf pSd).check (mOf pSd).myAcc 64 .read with | (.fault .., _) => true | _ => false),
    (match (mOf (atU pSd)).store (mOf (atU pSd)).myAcc 2 8 [⟨0, 0x8000000000000000, 1, false⟩] with | .fault .. => true | _ => false),
    (match (mOf pSd).checkWrite (mOf pSd).myAcc 64 with | (.fault .., _) => true | _ => false)] = true := by decide +kernel
theorem witness_StoreResults : (let m := mOf sd
    ok [m.ready none [r 4] [r 6], made (m.store m.myAcc m.me.pc 8 [⟨0, 64, 9, true⟩]), settledBefore m, m.ownUpdsDone, noPending m,
      storeFree m 64, (m.releaseData m.myAcc (m.scopeOf .dev)).releaseDone (m.scopeOf .dev) false, (match (m.pageSt m.myAcc 64).1.st with | .conf _ => true | _ => false),
      decide (scopeRank .core < 2), decide (2 ≤ scopeRank .cl)]) = true := by decide +kernel
theorem witness_FenceResults : (let m := mOf pSd
    let m2 := (dv (stOf pSd) fun d => { d with parts := [(1, { caps := [0x15000000000000#64] })], dies := [(0, { frostOn := true, frostLimit := 0xffff0000, ctx := [(1, { en := true })] })], vds := [(0, { commit := true })] }).mach
    ok [settledBefore m, noPending m, m.caughtUp m.myAcc.die, (m.releaseData m.myAcc (m.scopeOf .sys)).releaseDone (m.scopeOf .sys) false,
      (m.releaseData m.myAcc (m.scopeOf .sys)).caughtUp m.myAcc.die, m.ready none [r 4] [], m2.hasCap 0x15, m2.mayCommit,
      (m2.releaseData m2.myAcc .rc).releaseDone .rc true, ((m2.releaseData m2.myAcc .rc).die
        ((m2.releaseData m2.myAcc .rc).pctx m2.myAcc.die m2.myAcc.tagPid).home.toNat).hasFrost]) = true := by decide +kernel
/-- A mark that a continuation has run with a machine that meets a condition. -/
def mark (m : Mach) (b : Bool) : Mach := m.withDev fun d => { d with fresh := if b then 777 else 778 }
/-- The mark is there. -/
def marked (m : Mach) : Bool := m.dev.fresh == 777
/-- An `amo` at address 64 may be made and its channel takes the write. -/
def amoHere (m : Mach) : Bool :=
  match m.checkWrite m.myAcc 64 with
  | (.ok x, m1) => x.rd && marked (m1.home m.myAcc 64 id fun a frost m2 =>
      let c := m2.chanRead a
      mark m2 (!c.1.2 && got (c.2.chanWrite a 5 (byteMask (a % 128) 8) false frost m.myAcc.tagPid false)))
  | _ => false
theorem witness_AtomicResults : (let m := mOf sd
    let lost := (dv (stOf { sd with p := { sd.p with x := [(14, ⟨2 ^ 37, true, false⟩), (2, ⟨5, true, false⟩)] } }) fun d => { d with bdown := 0xf }).mach
    ok [m.ready (some 1) [r 4, r 2, r 3] [], !m.behindRead 64, !m.behindAcq, amoHere m,
      (dv (stOf sd) fun d => { d with poison := [0] }).mach.poisonAt 64, lost.ready (some 1) [r 14, r 2] [],
      (match lost.checkWrite lost.myAcc (2 ^ 37) with
        | (.ok x, m1) => x.rd && marked (m1.home lost.myAcc (2 ^ 37) (mark · true) fun _ _ m => m)
        | _ => false)]) = true := by decide +kernel
/-- A gang member's unit, on barrier 3. -/
def gangU : UnitInfo := { unit0 with gang := true, size := 2, bar := 3 }
/-- Barrier 3 of cluster 0 with its participants and its count. -/
def bar3 (parts n : Nat) : Tbl Cluster := [(0, { bars := [(3, { used := true, parts := parts, arr := { cnt := ⟨n, n, n⟩ } })] })]
/-- Registers that are all full; x12 is 3 and x13 is the operand of a byte barrier with target 1. -/
def regs2 : Tbl XReg := (12, ⟨3, true, false⟩) :: (13, ⟨0x100000040, true, false⟩) :: regs.filter (·.2.full)
/-- A side in a gang. -/
def gSd : Side := { sd with unit := some gangU, pid := some 1, p := q0 .M regs2 }
/-- Its machine with counters. -/
def gM (c : Tbl Cluster) (x : Side := gSd) : Mach := (dv (stOf x) fun d => { d with clusters := c }).mach
/-- Semaphore 3 of partition 1 with a count. -/
def sem3 (n : Nat) : Tbl Cluster := [(0, { sems := [(3, { pid := some 1, cnt := { cnt := ⟨n, n, n⟩ } })] })]
/-- A counter can be used now and holds `n`. -/
def votes (m : Mach) (j n : Nat) : Bool := match votedNow m 0 j with | some (c, _) => c == n | none => false
/-- The release goes through, and the counter can be used behind it. -/
def relVotes (m : Mach) (j n : Nat) : Bool := match releasedCl m with | some m1 => votes m1 j n | none => false

theorem witness_ForkRendezvous : (let m := mOf { gSd with m := {}, s := {} }
    ok [m.isRole .P, m.ready none [r 4, r 5] [], !m.stripOpen, m.mySide.m.run == .idle, m.mySide.s.run == .idle, m.mySide.p.allFull, noPending m,
      m.mySide.p.allFull, (mOf sd .M).isRole .M, !(mOf sd .M).owed (.side 0 .M), (mOf sd .S).isRole .S, (mOf sd .S).mySide.tstop == none, !(mOf sd .S).owed (.side 0 .S)])
    = true := by decide +kernel
theorem witness_BarrierResults : (let m := gM (bar3 2 1)
    let m2 := gM (bar3 2 0) { gSd with arrived := true, p := { gSd.p with barArrived := true } }
    let v := m.val (r 13)
    ok [ownBar m (r 12) 3, relVotes m 3 1, votes m 3 1, !m.mySide.arrived, !m.me.barArrived, ownBar m2 (r 12) 3, votes m2 3 0, m2.me.barArrived,
      (m2.bar 0 3).phase == m2.mySide.phase, m.ready none [r 12, r 4] [], m.ready none [r 12, r 13] [], m.owns 0 7, v.toNat / 2 ^ 21 % 2 ^ 8 == 0,
      v.toNat % 4 == 0, v.toNat % 2 ^ 21 / 2 ^ 18 == 0, (m.spOwn 0).has 64, !(m.core 0).sx.bars.any (·.tk == 0), v.toNat / 2 ^ 32 == 1,
      (m.val (r 4)).toNat / 2 ^ 32 == 0, (m.bar 0 3).parts == 2]) = true := by decide +kernel
theorem witness_SemaphoreMailbox : (let m := gM (sem3 2)
    let f := fun (b : Mailbox) => mOf { sd with mb := [(3, b)] }
    let full : Mailbox := { val := 9, full := true, pois := true, getters := [(.P, 1)] }
    ok [ownSem m (r 12) 3, votes m 67 2, relVotes m 67 2, (m.voted 0 67).waiters == [], votes (gM (sem3 0)) 67 0, votes (gM (sem3 (2 ^ 32 - 1))) 67 (2 ^ 32 - 1),
      !(f full).stripOpen, (f {}).ready none [] [r 6], (f {}).loadsDone, (f full).onSide, (f full).ready none [] [],
      (f {}).ready (some 1) [] [], ({} : Mailbox).getters == [], full.getters.head?.map (·.1) == some .P]) = true := by decide +kernel
/-! A partition: its PPAs are MPAs by a stage 2 page of 1 GiB, a VA of address space 0 is the PPA by an entry of the rights cache and of the
translation cache, and the records of a unit's chain lie at 0x2000. -/

/-- The tables and the counter records. -/
def partMem : List Host.Cell :=
  [(0x2007, 0x20), (0x2010, 0x40), (0x2011, 0x20), (0x2047, 0x40), (0x2050, 0x80), (0x2051, 0x20), (0x2087, 0x60), (0x2090, 0xc0), (0x2091, 0x20),
   (0x20c7, 0x80), (0x10000, 3), (0x10001, 0x10), (0x10002, 1), (0x11000, 3), (0x11001, 0x20), (0x11002, 1), (0x12000, 9), (0x12006, 0xe0)]
/-- A side of the partition. -/
def ptSd : Side := { gSd with unit := some { unit0 with launch := 0x2000 } }
/-- A state with it. -/
def ptSt (x : Side := ptSd) (o : Role := .P) : State := dv (stOf x o partMem) fun d => { d with
  cores := [(0, { rc := [⟨1, 0, 0, 16, true, true, true, true, true, 0, false, 0, 16⟩] })]
  dies := [(0, { ctx := [(1, { root2 := 0x10000, en := true, asnCount := 4 })], tc := [⟨1, 0, 0, 0, true, true, true, true, 0, false, 16, 0, 16⟩] })]
  parts := [(1, { on := true, caps := [0x10000000000000, 0x11000000000000, 0x15000000000000] })]
  vds := [(0, { pid := some 1, weight := 1, commit := true })] }

theorem witness_WorkResults : (let m := (ptSt).mach
    ok [m.ready (some 1) [r 4, r 2] [], (m.val (r 4)).toNat % 32 == 0, !m.behindAcq, !m.behindRead 4096, (match m.loadWords m.myAcc 64 20 with | (.ok _, _) => true | _ => false),
      (m.val (r 3)).toNat == 0, decide (64 < (m.val (r 5)).toNat), m.ready (some 1) [r 5] [], m.me.level != .U, m.pidOf (.side 0 .P) == some 1,
      match m.checkWrite m.myAcc 4096 with
      | (.ok x, m1) => x.rd && marked (m1.home m.myAcc 4096 id fun a f m2 => mark m2 (got (m2.contAt a f)))
      | _ => false,
      (match m.chain 0 1 0x2000 with | (some c, _) => c.length == 4 | _ => false)]) = true := by decide +kernel
theorem witness_EndYield : (let m := (ptSt (atU ptSd)).mach
    ok [m.isRole .P, !m.stripOpen, m.mySide.m.run == .idle, m.mySide.s.run == .idle, noPending m, m.tokensOf 0 == (false, none), m.mySide.tq == [],
      m.mySide.tstop == none, (m.core 0).mx.mq == [], (m.core 0).mx.slots == [], m.queueDone, m.loadsDone, !m.owed (.side 0 .P),
      (m.releaseData m.myAcc .dev).releaseDone .dev false, (mOf sd).me.level != .U, noPending (mOf sd), !(mOf sd).mySide.deciding, m.mySide.unit.isSome,
      !(mOf { sd with m := q0 .U regs } .M).isRole .P, (mOf { sd with m := q0 .U regs } .M).me.level == .U]) = true := by decide +kernel
theorem witness_StripForbids : (let m := mOf { sd with open_ := true }
    let u := mOf (atU { sd with open_ := true })
    ok [m.isRole .P, m.ready none [] [], m.stripOpen, m.ready none [r 1, r 2] [], m.ready none [] [r 6], m.ready (some 1) [r 4] [], m.ready none [r 4] [r 6],
      m.ready (some 1) [] [], m.owns m.myNo 7, m.typeCap (some .f32), m.dev.vqNow.isNone, u.stripOpen, u.me.level == .U, u.ready none [] [],
      ((dv (stOf { pSd with open_ := true }) fun d => { d with parts := [(1, { caps := [0x15000000000000] })] }).mach).hasCap 0x15])
    = true := by decide +kernel
theorem witness_TokenResults : (let m := mOf sd
    let f := fun (t : Token) => (dv (stOf sd) fun d => { d with cores := [(0, { sx := { tok := [(2, t)] } })] }).mach
    ok [m.onSide, m.ready (some 1) [] [], m.owns 0 7, !m.stripOpen, (m.token 0 2).status != 3, (m.token 0 2).pend == 0,
      ((f { status := 3 }).token 0 2).status == 3, ((f { status := 1, pend := 2 }).token 0 2).pend == 2, decide (1 ≤ 2 ∧ 2 ≤ 255)]) = true := by decide +kernel
theorem witness_VectorIssue : (let m := mOf sd
    let full := mOf { sd with vq := List.replicate 32 (headE (.vspec) []) }
    ok [got (vecForm (.vslide 1 2 (r 2) 0 (some .i8) true)), got (vecForm (.pcnt 1 1 0)), (stOf sd).dev.vqNow == none, m.isRole .P,
      m.typeCap (some .i8), m.ready none [r 2] [], m.ready (some 1) [] [], decide (m.mySide.vq.length < 32), decide (32 ≤ full.mySide.vq.length),
      full.ready none [r 2] [], m.typeCap (some .f32), m.ready (some 1) [r 2] [], !m.stripOpen, decide ((12#8 &&& 0x7f) < 14), !m.mySide.open_,
      m.mySide.strip == none, (mOf { sd with open_ := true }).mySide.open_]) = true := by decide +kernel
/-- An entry of side 0 has come to its turn on its pipe. -/
def atH (x : Side) (i : Instr) (ops : List (Word × Bool)) (p : Pipe) (named : Bool) : Bool := atHead (headSt x i ops) 0 (headE i ops) p 0 named
theorem witness_ConfigResults : (let st := fun (t : Strip) => ((headSt { sd with strip := some t } .vcommit []).mach.left 0).side 0
    let m := (headSt sd (.vsetvt 12) []).mach.left 0
    ok [atH sd (.setvl 1 (r 2) .f32) [(4, false)] .none false, m.vtypeOk 12, !m.vtypeOk 14, atH sd .vspec [] .none false,
      atH { sd with strip := some { lim := some 2 } } .vcommit [] .none false, (st { lim := some 2, fl := [(1, 0)] }).strip == some { lim := some 2, fl := [(1, 0)] },
      (st {}).strip == some {}, (st { lim := some 2, pe := some 1 }).strip == some { lim := some 2, pe := some 1 },
      ([(1, 0)] : Tbl Nat).all fun y => !sd.fenable.getLsbD y.1, atH sd (.vbind 3 1) [] .ld false, m.owns 0 7,
      !(dv (headSt sd (.vbind 3 1) []) fun d => { d with cores := [(0, { pipeown := 0x80 })] }).mach.owns 0 7, atH sd (.vbrk 2 1 0 false) [] .perm true,
      sd.strip.isNone]) = true := by decide +kernel
/-- A side with elements in v2 and v3, predicate p1, and level M's flags enabled or not. -/
def vSd : Side := { sd with v := [(2, ⟨0x3f8000003f80000004030201, 0⟩), (3, ⟨0x3f8000003f80000001010001, 0⟩)], pr := [(1, 5)] }
/-- The same with elements of type i8. -/
def v8 : Side := { vSd with vtype := ETy.i8.toBits.setWidth 8 }
/-- An entry with a tsel field has come to its turn on its pipe. -/
def atT (x : Side) (i : Instr) (ts : Option ETy) (ops : List (Word × Bool)) (p : Pipe) : Bool := atHeadT (headSt x i ops) 0 (headE i ops) ts p 0
/-- The machine in which an entry of side 0 has left its pipe's queue. -/
def lft (x : Side) (i : Instr) (ops : List (Word × Bool)) (mem : List Host.Cell := []) : Mach := (headSt x i ops mem).mach.left 0
/-- The sources of an instruction can be taken, as many bytes as its type needs. -/
def takes (m : Mach) (es : Nat) (vs : List VR) (d : Option VR := some 1) : Bool := got (m.reads 0 ((m.side 0).vl.toNat * es) vs d)
/-- What the sources of an instruction are. -/
def srcs (m : Mach) (es : Nat) (vs : List VR) : List (VR × VReg) := match m.reads 0 ((m.side 0).vl.toNat * es) vs none with | some (l, _) => l | none => []
/-- The elements of an element-wise instruction settle. -/
def elSettles (x : Side) (i : Instr) : Bool :=
  match vecValue i with
  | some (ts, tOk, _, pg, vs, f) =>
    let m := lft x i []
    let t := (m.side 0).ty ts
    tOk t && atT x i ts [] .fma && !(m.side 0).stripFull && takes m t.size vs && m.settles 0 (elemRes m 0 t pg vs (srcs m t.size vs) (f t (m.side 0).frm))
  | none => false

theorem witness_PredicateResults : ok [got (predValue (.plog 2 1 1 0 .xnor)), got (predValue (.pset 3 0 true)), atH vSd (.plog 2 1 1 0 .xnor) [] .perm true,
    atH vSd (.pset 3 0 true) [] .perm true, atH vSd (.pfirst 1 1 0) [] .perm true, atH vSd (.pcnt 1 1 0) [] .perm true,
    ((lft vSd (.pfirst 1 1 0) []).side 0).active 0 0 && (((lft vSd (.pfirst 1 1 0) []).side 0).pred 1).getLsbD 0,
    (List.range 1024).all fun j => !((lft sd (.pfirst 1 1 0) []).side 0).active 0 j || !(((lft sd (.pfirst 1 1 0) []).side 0).pred 1).getLsbD j]
    = true := by decide +kernel
theorem witness_ArithmeticResults : (let i : Instr := .vadd 1 2 3 0 none .dyn
    let bad := lft { vSd with v := [(2, ⟨1, 0xf0⟩)] } i []
    let fl := lft { vSd with v := [(2, ⟨0x7f7fffff, 0⟩)], fenable := 31 } (.vmul 1 2 2 0 none .dyn) []
    ok [elSettles vSd i, elSettles vSd (.vfma 1 2 3 2 1 (some .f32) .rtz), elSettles v8 (.vsadd 1 2 3 1 (some .i8)), atH vSd i [] .fma true,
      (match vecValue (.vdiv 1 2 3 0 none) with | some (ts, tOk, _) => !tOk ((lft vSd i []).side 0 |>.ty ts) | none => false),
      !((lft vSd i []).side 0).sized (some .i8), ((lft vSd i []).side 0).sized none,
      ((lft { vSd with strip := some { nwrites := 16 } } i []).side 0).stripFull, takes bad 4 [2, 3], takes fl 4 [2, 2],
      (elemRes bad 0 .f32 0 [2, 3] (srcs bad 4 [2, 3]) fun _ => (0, 0)).any (·.2.bad), bad.mySide.strip.isNone,
      (elemRes fl 0 .f32 0 [2, 2] (srcs fl 4 [2, 2]) fun l => fMul .f32 .rne (el1 l) (el2 l)).any (fun y => y.2.fl &&& 31 != 0)]) = true := by decide +kernel
theorem witness_ZeroLength : (let x := { sd with vl := 0, vown := 0 }
    ok [got (zeroLength (.vld 1 (r 4) 0 none 0 false)), got (zeroLength (.pcnt 1 1 0)), got (zeroLength (.vfdiv 1 2 3 0 none .dyn)),
      (headSt x (.pcnt 1 1 0) []).mach.headIs 0 (headE (.pcnt 1 1 0) []), (headSt x (.pcnt 1 1 0) []).mach.leaves 0 (headE (.pcnt 1 1 0) []) .perm 0,
      (headSt x (.vld 1 (r 4) 0 none 0 false) [(64, false)]).mach.leaves 0 (headE (.vld 1 (r 4) 0 none 0 false) [(64, false)]) .ld 0]) = true := by decide +kernel
theorem witness_MoveCompare : (let s := fun (i : Instr) (ops : List (Word × Bool)) => lft vSd i ops
    ok [got (moveValue (.vslide 1 2 (r 2) 0 none true)), atT vSd (.vslide 1 2 (r 2) 0 none true) none [(1, false)] .perm,
      takes (s (.vslide 1 2 (r 2) 0 none true) [(1, false)]) 4 [2], got (moveValue (.vsel 1 2 3 1 0 none)), atT vSd (.vsel 1 2 3 1 0 none) none [] .fma,
      atH vSd (.vcmp 2 2 3 0 none .lt) [] .fma true, takes (s (.vcmp 2 2 3 0 none .lt) []) 4 [2, 3], elSettles vSd (.vsub 1 2 3 0 none .dyn),
      atH vSd (.vcvt 1 2 0 (some .i32) .f32 .rtz) [] .fma true, decide (4 ≤ vlmax .i32), vdotOk .f32 .bf16, vdotOk .i32 .i8,
      atH vSd (.vdot 1 2 2 3 0 (some .i32) .i8 .dyn) [] .fma true, !((s (.vcmp 2 2 3 0 none .lt) []).side 0).stripFull,
      (s (.vcmp 2 2 3 0 none .lt) []).settles 0 [(0, { val := 1 })]]) = true := by decide +kernel
theorem witness_PermutationResults : ok [atT v8 (.vperm 1 2 3 0 (some .i8)) (some .i8) [] .perm, takes (lft v8 (.vperm 1 2 3 0 (some .i8)) []) 1 [2, 3],
    (lft v8 (.vperm 1 2 3 0 (some .i8)) []).settles 0 [(0, { val := 1 })], !((lft vSd (.vcompress 1 2 1 none) []).side 0).stripFull,
    atT vSd (.vcompress 1 2 1 none) none [] .perm, atT vSd (.vins 1 (r 2) (r 3) none) none [(0, false), (9, true)] .perm,
    (match (lft vSd (.vins 1 (r 2) (r 3) none) []).reads 0 0 [] (some 1) with | some ([], _) => true | _ => false),
    atT vSd (.vext 1 2 (r 3) none) none [(3, false)] .perm, takes (lft vSd (.vext 1 2 (r 3) none) [(3, false)]) 4 [2] none,
    atT vSd (.vrank 1 1 (r 2) 0 (some .i32)) (some .i32) [(5, false)] .perm, ETy.isInt .i32] = true := by decide +kernel
theorem witness_ReductionResults : (let m := lft v8 (.vred 1 2 3 0 (some .i8) .add .dyn) []
    ok [atT v8 (.vred 1 2 3 0 (some .i8) .add .dyn) (some .i8) [] .perm, (m.side 0).strip.isNone, redOk .add .i8, redOk .max .f32, takes m 1 [2, 3],
      !(srcOf (srcs m 1 [2, 3]) 3).bad 1 0, ((m.side 0).actives 0).all fun j => !(srcOf (srcs m 1 [2, 3]) 2).bad 1 j, (m.side 0).fenable == 0,
      atT vSd (.vscan 1 2 0 none .add true .dyn) none [] .perm]) = true := by decide +kernel
/-- A load reads its places. -/
def ldGoes (x : Side) (i : Instr) (ops : List (Word × Bool)) : Bool :=
  match loadForm i with
  | some (ts, _, _, pg, vs, dec, dotp, _, form) =>
    let m := lft x i ops
    let y := m.side 0
    let t := y.ty ts
    let e := headE i ops
    let f := form y e (srcs m t.size vs)
    atT x i ts ops .ld && !y.stripFull && takes m t.size vs && !m.vmWait 0 e && (f.1.misaligned (e.op 0).1 t dec (y.actives pg)).isNone
      && (match m.readerOf (m.vacc 0 e) (e.op 0).1 t dec f.2 y.seen (f.1.item t) (places m 0 e pg t f.1) with
        | (some (rd, pl), m2) => (match m2.loadGo t.size rd y.unresolved dotp (formPol f.1) pl {} with | .done _ _ => true | _ => false)
        | _ => false)
  | none => false
/-- What `vldff` finds. -/
def ffGoes (x : Side) (i : Instr) (ops : List (Word × Bool)) : Option (Option Nat) :=
  let m := lft x i ops
  let e := headE i ops
  match m.readerOf (m.vacc 0 e) (e.op 0).1 .f32 false false (m.side 0).seen (VForm.unit.item .f32) (places m 0 e 0 .f32 .unit) with
  | (some (rd, pl), m2) => (m2.trim rd pl {} 4).toOption.map fun y => y.1.1.map (·.1)
  | _ => none
/-- A side whose second page nobody translates: it has the rights of page 0 alone. -/
def edge : Side := { ptSd with vl := 4, v := vSd.v }
theorem witness_VectorLoads : (let l : List (Word × Bool) := [(64, false), (8, false)]
    let p := (dv (ptSt edge) fun d => { d with vqNow := some (0, headE (.vldff 1 (r 4) 0 none 0) [(65528, false)]) }).mach
    let e := headE (.vldff 1 (r 4) 0 none 0) [(65528, false)]
    let ff := fun (a : Word) (e : VqEntry) => match p.readerOf (p.vacc 0 e) a .f32 false false [] (VForm.unit.item .f32)
        ((List.range 4).map fun j => (j, VForm.unit.place a .f32 j)) with
      | (some (rd, pl), m2) => (m2.trim rd pl {} 4).toOption.map fun y => y.1.1.map (·.1)
      | _ => none
    ok [atT vSd (.vld 1 (r 4) 0 none 0 false) none l .ld, atT vSd (.vldff 1 (r 4) 0 none 0) none l .ld, ldGoes vSd (.vld 1 (r 4) 0 none 0 false) l, ldGoes vSd (.vlds 1 (r 4) (r 2) 1 none 0 false) l,
      ldGoes v8 (.vldx 1 (r 4) 3 (r 2) 0 (some .i8) 0 .zero false false) l,
      got (VForm.unit.misaligned 66 .f32 false [0]), ffGoes vSd (.vldff 1 (r 4) 0 none 0) l == some none, ff 65528 e == some (some 2),
      ff 65536 e == some (some 0), !p.vmWait 0 e,
      (match (lft vSd (.vldff 1 (r 4) 0 none 0) l).reads 0 0 [] (some 1) with | some ([], _) => true | _ => false)]) = true := by decide +kernel
/-- A store's elements go to the store path. -/
def stGoes (x : Side) (i : Instr) (ops : List (Word × Bool)) : Bool :=
  match storeForm i with
  | some (ts, _, v, vs, pg, nf, form) =>
    let m := lft x i ops
    let t := (m.side 0).ty ts
    let e := headE i ops
    let f := form e (srcs m t.size (v :: vs))
    let z := storeEls (srcOf (srcs m t.size (v :: vs)) v) t.size (m.spoils 0 t.size) (places m 0 e pg t f)
    atT x i ts ops .st && takes m t.size (v :: vs) none && (!nf || (e.op 1).1.toNat % 8 == 0) && (f.misaligned (e.op 0).1 t false ((m.side 0).actives pg)).isNone
      && z.1.isNone && (if (m.side 0).strip.isSome then true else !m.vmWait 0 e
        && (if nf then (match m.nfWord (m.vacc 0 e) (e.op 1).1 with | (.ok _, m2) => made (m2.store (m2.vacc 0 e) e.pc t.size z.2.1) | _ => false)
            else made (m.store (m.vacc 0 e) e.pc t.size z.2.1)))
  | none => false
theorem witness_VectorStores : (let l : List (Word × Bool) := [(64, false), (256, false)]
    let i : Instr := .vscadd (r 4) 3 2 (r 2) 0 none 0 .zero .add
    let m := lft vSd i l
    let els : List HeldEl := [⟨0, 64, 0x3f800000, false⟩]
    ok [stGoes vSd (.vst 2 (r 4) 0 none 0) l, stGoes vSd (.vstNf 2 (r 4) (r 2) 0 none 0) l, stGoes vSd (.vsts 2 (r 4) (r 2) 0 none 0) l,
      stGoes v8 (.vstx 2 (r 4) 3 (r 2) 0 (some .i8) 0 .zero) l, stGoes { vSd with strip := some {}, open_ := true } (.vst 2 (r 4) 0 none 0) l,
      atT vSd i none l .st, takes m 4 [3, 2] none, bankTy .f32, !m.vmWait 0 (headE i l),
      (match m.confirmAll (m.vacc 0 (headE i l)) els with | .ok m2 => got (m2.sendAll (m2.vacc 0 (headE i l)) .f32 .add (0, 0) els) | .error _ => false),
      atT vSd (.vpf (r 4) none 0 none 0 true) none l .ld]) = true := by decide +kernel
theorem witness_ScratchpadResults : (let l : List (Word × Bool) := [(128, false)]
    let m := lft v8 (.vspld 1 (r 4) 0 0 none 0) l
    let at2 := fun (x : Option VR) => match m.spPlaces 0 128 (x.map (srcOf (srcs m 1 [3]))) 1 [0, 1] with
      | .ok pl => pl.all fun y => match y.2 with | .at_ _ => true | _ => false
      | .error _ => false
    ok [atT v8 (.vspld 1 (r 4) 0 0 none 0) none l .ld, atT v8 (.vspst 2 (r 4) 0 0 none 0) none l .st, takes m 1 [] (some 1), takes m 1 [2] none,
      !m.vmWait 0 (headE (.vspld 1 (r 4) 0 0 none 0) l), at2 none, at2 (some 3), spOk .add .i8,
      atT v8 (.vspamo 1 (r 4) 3 2 0 (some .i8) 0 .add) (some .i8) l .st, takes m 1 [3, 2]]) = true := by decide +kernel
theorem witness_IndexResults : (let m := lft vSd (.xins 2 2 3 0 (some .i32)) []
    ok [atT vSd (.xins 2 2 3 0 (some .i32)) (some .i32) [] .idx, ixTy .i32, (m.side 0).strip.isNone, takes m 4 [2, 3] none, got (indexForm (.xins 2 2 3 0 (some .i32))), got (indexForm (.xlkp 1 2 3 0 (some .i32))), got (indexForm (.xacc 2 2 3 0 (some .f32) .dyn)),
      ((m.side 0).actives 0).all (fun j => !(srcOf (srcs m 4 [2]) 2).bad 4 j), m.settles 0 [(0, { val := 1 })],
      atT vSd (.xdrain 1 4 (some .i32)) (some .i32) [] .idx]) = true := by decide +kernel
/-- The same with a poisoned key, a poisoned value, or an uncorrectable entry of the set of key 5. -/
theorem witness_IndexStops : (let i : Instr := .xins 2 2 3 0 (some .i32)
    let f := fun (p q : PBits) => lft { vSd with v := [(2, ⟨5, p⟩), (3, ⟨7, q⟩)], vl := 1 } i []
    let bad := fun (m : Mach) (v : VR) => (srcOf (srcs m 4 [2, 3]) v).bad 4 0
    let n := 8 * ixSet 5
    let ix : IxState := { bad := [(n, 9)] }
    ok [((f 1 0).side 0).actives 0 == [0], bad (f 1 0) 2, bad (f 0 1) 3, !bad (f 0 1) 2, !((f 1 0).side 0).unresolved, ixBad ix 5 == some 9,
      ix.bad.find? (fun y => ix.cursor ≤ y.1 && y.1 < 4096) == some (n, 9)]) = true := by decide +kernel
theorem witness_IndexCount : ok [atH vSd .xclr [] .idx false, ((lft vSd .xclr []).side 0).strip.isNone, (mOf vSd).isRole .P, (mOf vSd).ready (some 1) [] [],
    (mOf vSd).owns 0 5, !(mOf vSd).mySide.vq.any (fun e => inX e.ins), (mOf { vSd with vq := [headE .xclr []] }).mySide.vq.any (fun e => inX e.ins)]
    = true := by decide +kernel
theorem witness_TableResults : (let l : List (Word × Bool) := [(64, false), (2, false), (0x3f80000000000000, false)]
    let i : Instr := .tbset (r 4) (r 2) (r 3) .f32
    let m := lft vSd i l
    let m2 := (dv (headSt vSd (.vtint 1 2 0 none .dyn) []) fun d => { d with cores := [(0, { ix := { knots := [0, 0x3f800000], h := 0x3f800000 } })] }).mach.left 0
    ok [atH vSd i l .idx false, finite32 0, (match floatVal .f32 0x3f800000 with | .fin false _ _ => true | _ => false), m.loadsDone,
      (match m.knots (m.vacc 0 (headE i l)) 64 .f32 2 0 [] with | .done _ _ => true | _ => false), (m.side 0).leaving == [], (m.side 0).strip.isNone,
      atT vSd (.vtint 1 2 0 none .dyn) none [] .idx, (m2.core 0).ix.knots.length == 2, takes m2 4 [2], m2.settles 0 [(0, { val := 1 })]]) = true := by decide +kernel
/-- A state of the test partition with its core changed. -/
def coreSt (s : State) (f : Core → Core) : State := dv s fun d => { d with cores := [(0, f (d.cores.get {} 0))] }
/-- The matrix engine with the shape of one row and one column. -/
def mx1 : MxState := { shape := 0 }
/-- A matrix command. -/
def mc (k : MKind) (a : Word) : MCmd := { kind := k, addr := a, m := 1, n := 1, slices := 1, asn := 0, lvl := .M, tick := 0, pc := 2 }
/-- The engine's machine with a command in its queue. -/
def mqM (k : MKind) (a : Word) : Mach := (coreSt (stOf sd .P) fun c => { c with mx := { mx1 with mq := [mc k a] } }).mach
/-- It is the head. -/
def mqHead (k : MKind) (a : Word) : Bool := (mqM k a).mHead 0 == some (mc k a)

/-- A side whose M has 128 in x14, with one slice. -/
def mSd (x : Side) : Side := { x with m := { x.m with x := (14, ⟨128, true, false⟩) :: regs2 }, vtype := 0x1c }
theorem witness_MatrixResults : (let m := (coreSt (stOf (mSd sd) .M) fun c => { c with mx := mx1 }).mach
    let p := (coreSt (ptSt (mSd ptSd) .M) fun c => { c with mx := mx1 }).mach
    let slot := fun (s : Slot) => (coreSt (stOf sd .M) fun c => { c with mx := { mx1 with slots := [(1, s)] } }).mach
    ok [m.engineOk .M 6 (some 1) [r 4] 0, m.val (r 3) &&& ~~~0xff1f#64 == 0, m.val (r 4) &&& ~~~0xff1f#64 != 0, m.engineOk .M 6 none [] 0, mFree m (.mzero 1),
      m.engineOk .M 6 none [r 14] 0, (m.val (r 14)).toNat % 128 == 0, marked (m.readPages (pagesOf 128 512) fun m1 => mark m1 (mFree m1 (.mld .bf16 true))),
      p.engineOk .M 6 none [r 14] 0, p.hasCap 0x11,
      (match m.viewSec m.myAcc 128 false with | (.ok _, m1) => marked (m1.readPages [0] fun m2 => mark m2 (mFree m2 (.mldFr true))) | _ => false),
      mReach m 128 128 256 1, mReach m 128 128 4 1, mFree m (.mmac 1 .bf16 true), mFree m (.mrd 1 .f32),
      marked (m.writePages (pagesOf 128 4) fun m1 => mark m1 (mFree m1 (.mst 1 .f32))), m.mySide.vtype.extractLsb' 4 3 != 0,
      m.myCore.mx.slots.get .empty 1 == .empty, (slot .armed).myCore.mx.slots.get .empty 1 == .armed,
      mFree ((slot .armed).modMx 0 fun x => { x with slots := x.slots.set 1 .empty }) (.mmac 1 .bf16 true),
      (slot (.staged (mc (.mmac 1 .bf16 true) 128))).myCore.mx.slots.get .empty 1 == .staged (mc (.mmac 1 .bf16 true) 128),
      mqHead (.mld .bf16 true) 128, got ((mqM (.mld .bf16 true) 128).mldPlain 0 (mc (.mld .bf16 true) 128) .bf16 true).toOption,
      mqHead (.mldFr true) 128, got ((mqM (.mldFr true) 128).mldFormatted 0 (mc (.mldFr true) 128) true).toOption, mqHead (.mmac 1 .bf16 true) 128,
      mqHead (.mst 1 .f32) 128, got ((mqM (.mst 1 .f32) 128).mstRun 0 (mc (.mst 1 .f32) 128) 1 .f32), mqHead (.mrd 1 .f32) 128, mqHead (.mzero 1) 0])
    = true := by decide +kernel

/-- A layout record: one element of 4 bytes at address 64, type f32. -/
def rec1 : BitVec 768 := BitVec.ofNat 768 (64 + 0xc * 2 ^ 57 + 2 ^ 64 + 2 ^ 444)
/-- A table of two rows of one element. -/
def rec2 : BitVec 768 := rec1 ||| BitVec.ofNat 768 (2 ^ 61 + 2 ^ 120 + 2 ^ 456)
/-- A stream engine with it in layout register 1. -/
def sx1 : SxState := { ly := [(1, rec1)] }
/-- A machine with a stream engine, on which a sequencer of side 0 moves. -/
def sxM (x : SxState) (o : Role := .S) : Mach := (coreSt (stOf { sd with s := { sd.s with x := (14, ⟨128, true, false⟩) :: regs2 } } o) fun c => { c with sx := x }).mach
theorem witness_StreamCommands : (let m := sxM sx1
    let g := (sxM { ly := [(1, rec2)] }).sCmd (.sgath true) (.x (r 4)) 1 2 none 64 1 1 .n32 .zero
    ok [got (streamForm (.cpy (.x (r 4)) 1 2 none 0)), m.engineOk .S 7 none [r 4] 0, m.engineOk .S 7 none [r 4, r 4, r 2, r 1] 0, idxTy .n32, !idxTy .f32,
      sFree m 1 (m.sCmd .cpy (.x (r 4)) 1 2 none 0 0 1 .i8 .poison), sFree (sxM { ly := [(1, rec2)] }) 1 g, m.owns 0 6,
      m.myCore.mx.slots.get .empty 1 == .empty, (m.sx 0).sq == [], sFree m 1 (m.sCmd .cpy (.x (r 4)) 1 2 (some 1) 0 0 1 .i8 .poison)])
    = true := by decide +kernel
/-- A circular buffer of one slot of 128 bytes with its counts. -/
def cb1 (f t e : Nat) : CBuf := { desc := 0x40000, claimed := f, filled := f, taken := t, freed := e }
/-- A word can be read, or stored. -/
def rdOk (m : Mach) (va : Word) (n : Nat) : Bool := match m.loadWords m.myAcc va n with | (.ok l, _) => l.all fun x => !x.2 | _ => false
theorem witness_StreamRegisters : (let f := fun (c : CBuf) => sxM { sx1 with cb := [(2, c)] }
    let m := f (cb1 1 0 0)
    ok [m.scalarsDone, m.engineOk .S 7 none [] 0, (lyReserved rec1 false).isNone, !lyInvalid rec1 true, (m.token 0 0).status != 3,
      m.cbOk 0 (m.cbuf 0 2), decide (((f (cb1 1 1 0)).cbuf 0 2).freed ≠ ((f (cb1 1 1 0)).cbuf 0 2).taken), (f (cb1 1 1 0)).cbOk 0 (cb1 1 1 0),
      (m.cbuf 0 2).freed == (m.cbuf 0 2).taken, m.engineOk .S 7 (some 1) [] 0, (m.cbuf 0 2).taken != (m.cbuf 0 2).filled,
      ((f (cb1 1 1 0)).cbuf 0 2).taken == ((f (cb1 1 1 0)).cbuf 0 2).filled, !m.cbOk 0 (m.cbuf 0 3), m.engineOk .S 7 (some 1) [r 5] 0, (m.sx 0).sq == [],
      m.engineOk .S 7 none [r 5] 0, got (lyField 0), got (lyField 40), rdOk m 4096 12, !m.sBlocked, marked (m.writePages (pagesOf 4096 96) fun m1 =>
        mark m1 (made (m1.store m1.myAcc m1.me.pc 8 ((List.range 12).map fun i => ⟨i, 4096 + BitVec.ofNat 64 (8 * i), 0, false⟩))))])
    = true := by decide +kernel
/-- An operation in the S queue. -/
def op1 (k : SKind) : SOp := { (sxM sx1).sCmd k (.x (r 4)) 1 2 none 64 1 1 .n32 .zero with lvl := .M }
theorem witness_StreamPerform : (let f := fun (o : SOp) => sxM { sx1 with sq := [o], tok := [(2, { status := 1, pend := 1 })] }
    let p := sxM { sx1 with sp := [(1, { pats := [⟨rec1, 0, .M, 0⟩] })] }
    ok [(f (op1 .cpy)).owns 0 7, (f (op1 .cpy)).mayStart 0 0 (op1 .cpy), (f (op1 .cpy)).mayLand 0 0 { op1 .cpy with started := true },
      (f (op1 .cpy)).mayLand 0 0 { op1 (.sgath true) with started := true }, (f (op1 .cpy)).mayLand 0 0 { op1 (.sgred .add) with started := true },
      (f (op1 .cpy)).mayLand 0 0 { op1 (.sscadd .add) with started := true }, !(f { op1 .cpy with started := true, landed := true }).updOpen (0, 2),
      !(op1 .cpy).faulted, decide ((op1 .cpy).ops ≤ 1), decide (1 < ({ op1 (.sgath true) with ops := 2 } : SOp).ops),
      decide ((((p.sx 0).sp.get {} 1).avail false).length < 4096), !(p.side 0).landed, !(p.side 0).cancelTold, got (p.portFill 0 1 1 false 1).toOption]) = true := by decide +kernel
/-- A layout record whose destination is memory, or scratchpad. -/
def dstRec (x : BitVec 768) (sp : Bool) : BitVec 768 := if sp then x ||| BitVec.ofNat 768 (2 ^ 545) else x
/-- An operation that has started, from a record and to a destination. -/
def opAt (k : SKind) (x : BitVec 768) (sp : Bool) (d : Word) : SOp :=
  { op1 k with rec_ := dstRec x sp, dst := some d, pos := 0, b := 0, n := 1, bsz := 1, idx := 64, started := true }
theorem witness_StreamBytes : (let f := fun (o : SOp) => sxM { sx1 with sq := [o] }
    let a := fun (o : SOp) => (f o).engAcc 0 o.asn o.lvl
    let c := opAt .cpy rec1 false 256
    let cs := opAt .cpy rec1 true 256
    let g := opAt (.sgath true) rec2 true 256
    let read := fun (o : SOp) => readEls (f o) (a o) 4 [winEl o.rec_ (winCoord o.rec_ 0)]
    let far := fun (p : Pol) => ({ g with pol := p, idx := 4096 } : SOp)
    let idx := fun (o : SOp) (m : Mach) => match m.rdAny (a o) [] o.idx 4 with | (.ok (v, false), c1, m1) => some (idxVal o.it v, c1, m1) | _ => none
    let big := { sxM {} with base := Memory.write (sxM {}).base 4096 9 }
    ok [(f c).owns 0 7, (f c).mayLand 0 0 c, (f cs).mayLand 0 0 cs, (f g).mayLand 0 0 g, (read c).isSome, (read cs).isSome,
      (match (f cs).sDest 0 cs with | .sp rg l0 => decide (lyGran cs.rec_ ≤ 6) && (List.range 4).all fun b => rg.has (lySwz cs.rec_ (l0 + b)) | _ => false),
      (match (f c).sDest 0 c, read c with
        | .mem d, some (vals, m1) => d == 256 && (let put := vals.zipIdx.map fun (v, j) => (⟨j, j * 4, v.1, v.2⟩ : Piece);
            match m1.dstCheck (a c) c.rec_ (.mem d) 4 put with
            | (none, m2) => made (m2.store (a c) 0 4 (put.map fun p => ⟨p.num, d + w64 p.off, w64 p.val, p.pois⟩))
            | _ => false)
        | _, _ => false),
      (tableRows (f g) (a g) g true g.cache [0]).isSome,
      (match (f g).sDest 0 g with | .sp rg l0 => (List.range 4).all fun b => rg.has (lySwz g.rec_ (l0 + b)) | _ => false), lyRank g.rec_ == 2,
      (match idx g (f g) with | some (x, c1, m1) => decide (0 ≤ x ∧ x < lyExt g.rec_ 1)
          && (match m1.rdEls (a g) 4 [winEl g.rec_ fun _ => 0] c1 [] with | .ok (.ok _, _) => true | _ => false) | none => false),
      [Pol.skip, .poison, .zero, .clamp].all fun p => (idx (far p) big).any (fun y => decide ((lyExt g.rec_ 1 : Int) ≤ y.1))]) = true := by decide +kernel

/-- A machine of the test partition, whose capabilities include the text engine, on which S moves. -/
def txM (x : Side := ptSd) : Mach := (dv (ptSt { x with s := { x.s with x := (14, ⟨0x400, true, false⟩) :: regs2 } } .S) fun d => { d with textPid := [(0, some 1)] }).mach
/-- A command of the T queue. -/
def tc1 : TCmd := { kind := .enc, final := true, block := 0x400, params := [], asn := 0, lvl := .M, tick := 0 }
theorem witness_TextResults : (let m := txM
    let b := m.val (r 14)
    let q := (stOf { sd with tq := [tc1] }).mach
    let put := fun (m : Mach) => (List.range 32).map fun i => (⟨i, b + BitVec.ofNat 64 (8 * i), BitVec.ofNat 64 (leNat m.mySide.text.image / 2 ^ (64 * i)), false⟩ : HeldEl)
    ok [m.textOk, m.engineOk .S 7 none [r 14] 0, m.mySide.tstop == none, b.toNat % 128 == 0, m.scalarsDone,
      marked (m.readPages [b] fun m1 => mark m1 (marked (m1.writePages [b] fun m2 => mark m2 (match m2.loadWords m2.myAcc b 8 with
        | (.ok l, m3) => l.all (fun x => !x.2) && made (m3.store m3.myAcc m3.me.pc 1 [⟨0, b + 127, 0, false⟩])
        | _ => false)))),
      m.mySide.tq == [], made (m.store m.myAcc m.me.pc 8 (put m)), rdOk m b 32,
      (match ctxOfImage (List.replicate 256 0) with | .ok _ => true | .error _ => false),
      (match ctxOfImage (List.replicate 256 0xff) with | .ok _ => false | .error _ => true),
      (q.side 0).tq == [tc1], q.textTurn 0, (match q.txRun (q.engAcc 0 0 .M) tc1 {} with
        | ((p, st), m1) => (match st with | some (.wait _) => false | _ => true) && got (m1.txResult (q.engAcc 0 0 .M) tc1 p (TxStop.report tc1 p st).1 (TxStop.report tc1 p st).2.1))])
    = true := by decide +kernel
/-- The level at which a trap is taken. -/
def takenAt (m : Mach) : Option Level := m.trapLevel { cause := 0x16, tval := 5 } false
theorem witness_TrapAndReturn : (let m := mOf (atU pSd)
    ok [m.dev.vqNow.isNone, m.dev.arrivals == [], !m.owed m.dev.cur, !m.othersOwed m.dev.cur, (takenAt m).any (· != .U), (takenAt (mOf sd)).any (· != .U),
      m.mySide.frame.isNone]) = true := by decide +kernel
theorem witness_TrapInstructions : (let irq := mOf { sd with irq := [0x11], trap := { m := { tstat := 0x100 }, s := { tstat := 0x100 } } }
    ok [(mOf sd).ready none [] [], (mOf sd).me.level != .U, (supSt .S).mach.me.level == .S, (supSt .M).mach.me.level == .M,
      (pickIrq (irq.trapOf (.side 0 .P)) .M (irq.irqOf (.side 0 .P))).isSome, irq.me.level == .M,
      (pickIrq ((mOf sd).trapOf (.side 0 .P)) .M ((mOf sd).irqOf (.side 0 .P))).isNone, (mOf (atU sd)).me.level == .U, (mOf (atU sd)).onSide,
      !(supSt .M).mach.onSide, crSide 0x06, !crReadable .S 0x41, !crWritable .S 0x40, crSide 0x41]) = true := by decide +kernel
theorem witness_ControlRegisters : (let m := mOf sd
    ok [crFree m 0x09 false, crFree m 0x09 true, crReadable .M 0x09, crWritable .M 0x09, m.ready (some 1) [] [], m.ready (some 1) [r 2] [], !crCounts 0x09,
      crCounts 0x12, crFree m 0x12 false, crReadable .M 0x12, got (crForm (.crset 1 0x09 (r 2))), (match m.crPut 0x09 3 with | .done _ => true | _ => false),
      m.crPut 0x09 0 == .bad, (match (mOf sd .M).withDev (fun d => { d with cores := (mqM (.mzero 1) 0).dev.cores }) |>.crPut 0x40 0xff with | .wait => true | _ => false),
      region (2 ^ 48 + 0x1000000) == .dev 0 0x100 0, pageAssigned 0 0x100, !m.pipeBusy 0 0, (mqM (.mzero 1) 0).pipeBusy 0 0xff, region 64 == .dram, region (2 ^ 48) == .dev 0 0 0, pageAssigned 0 0])
    = true := by decide +kernel
theorem witness_RegisterEvents : ok [got (eventReg (.frmWrite (.side 0 .P) 3)), got (eventReg (.capselWrite (.sup 0) 3)), !crSide 0x10, !crSide 0x09, crSide 0x01] = true := by decide +kernel
/-- A line and a page of stage 1 are not needed where the rights cache has the page: the leaf of stage 2 above is an entry to harvest too. -/
def leaf2 : Leaf := ⟨0x12000, 0xe0000000000009, 30, false⟩
theorem witness_SystemResults : (let m := (ptSt { ptSd with p := { ptSd.p with level := .S, x := (14, ⟨0x10000, true, false⟩) :: regs2 } }).mach
    let n := (ptSt { ptSd with p := { ptSd.p with x := (14, ⟨0x4000, true, false⟩) :: regs2 } }).mach
    let q : QFrame := ⟨2, [{ headE (.vadd 1 2 3 0 none .dyn) [] with head := ((encode (.vadd 1 2 3 0 none .dyn)).map (·.head)).getD 0 }]⟩
    let put := fun (m : Mach) => m.ppaPut 0 (some 1) 0x4000 112 (frameBits q.resume q.entries) 8
    let w0 := ptSt { ptSd with p := { ptSd.p with x := (14, ⟨0x3fffffc0, true, false⟩) :: regs2 } }
    let w := w0.mach
    let long := ({ w0 with mem := Memory.write w0.mem 0x3fffffc1 8 } : State).mach
    let u := (mOf { pSd with frame := some q })
    ok [m.me.level == .S, m.ready none [r 14, r 8] [], m.val (r 4) != 0xffff, (List.range 9).all (fun g => m.att g == []), (List.range 4).all (fun d => !(m.die d).hasFrost),
      (mOf { sd with p := { sd.p with x := (14, ⟨0x10000, true, false⟩) :: sd.p.x } }).ready none [r 14, r 14] [], leaf2.frost == false,
      !(BitVec.ofNat 64 (m.rdChan 0x10000 8)).getLsbD 3, (BitVec.ofNat 64 (m.rdChan leaf2.ea 8)).getLsbD 3,
      (u.mySide.frame == some q) && (u.ppaPut 0 u.mySide.pid 0x4000 112 (frameBits q.resume q.entries) 8).isNone, (u.ppaGet 0 u.mySide.pid 0x4000 64 18).isNone,
      (match long.ppaGet 0 (some 1) 0x3fffffc0 64 18 with
        | some (h, m1) => h.1 % 2 ^ 16 == 2048 && (m1.ppaGet 0 (some 1) 0x3fffffc0 (min (h.1 % 2 ^ 16) 2048) 18).isNone
        | none => false),
      (match w.ppaGet 0 (some 1) 0x3fffffc0 64 18 with
        | some (h, m1) => (match m1.ppaGet 0 (some 1) 0x3fffffc0 (min (h.1 % 2 ^ 16) 2048) 18 with | some (v, _) => frameOfBits v.1 == none | none => false)
        | none => false), (mOf sd).me.level == .M, (mOf sd).ready none [r 4, r 2] [],
      m.ready none [r 14, r 14] [], (m.val (r 14)).toNat % 65536 == 0, decide (0 < (m.val (r 14)).toNat), m.ready none [r 14] [],
      n.onSide, n.me.level != .U, n.ready none [r 14] [], (n.val (r 14)).toNat % 4096 == 0, (n.val (r 10)).toNat % 64 != 0, n.ready none [r 10] [],
      n.mySide.frame.isNone, (match put n with
        | some m1 => (match m1.ppaGet 0 (some 1) 0x4000 112 18 with | some ((v, _), _) => frameOfBits v == some q | none => false)
        | none => false), n.myCore.mx.mq == [], got (n.vsaveAt 0 0x4000), got (n.vrestAt 0 0x4000), ((mOf pSd).vsaveAt 0 0x4000).isNone,
      ((mOf pSd).vrestAt 0 0x4000).isNone]) = true := by decide +kernel
theorem witness_SourceTraps : (let m := mOf sd
    ok [m.me.due == none, !m.owed m.dev.cur, (mOf { sd with p := { sd.p with due := some 7 } }).me.due == some 7,
      (m.withDev fun d => { d with ext := [{ host := true, port := 0, addr := 64, n := 8, wr := false, val := 0, pid := 1, who := some (.side 0 .P, 1, true), issued := true, grp := 0, pc := 2, tick := 0 }] }).owed m.dev.cur,
      got (intValue (.add 1 (r0 7) (r 2))), ([r0 7, r 2].find? fun x => !x.w && !(m.x x.r).full) == some (r0 7), [r 7, r 2].all (fun x => x.w || (m.x x.r).full),
      [r 7, r 2].any (fun x => !(m.x x.r).full), [r 6, r 2].all (fun x => (m.x x.r).full), ([r 6, r 2].find? fun x => (m.x x.r).pois) == some (r 6),
      (m.x 1).full, !(m.x 7).full]) = true := by decide +kernel

/-- A sector in an L1 or L2 of partition 1. -/
def sec1 : L2Sec := { pid := 1, asn := 0, sec := 0x20, data := 0, have_ := fullMask, mask := 3, pois := false, tag := none, remote := false, imark := false, pinned := false }
/-- The test partition with its die changed. -/
def dieSt (f : Die → Die) : State := dv (ptSt) fun d => { d with dies := d.dies.map fun x => (x.1, f x.2) }
/-- A held store that leaves its strip. -/
def held1 : HeldStore := ⟨2, .M, 8, [⟨0, 64, 5, false⟩], none⟩
/-- An update for a bank adder and a batch with it. -/
def upd1 : BankUpd := { mpa := 256, ty := .i32, op := .add, val := 1, pois := false, tok := none, frost := false, pid := 1 }
def bat1 (n : Nat) : Batch := ⟨1, [0, n, 0, 0], [.upd upd1]⟩
theorem witness_MemoryEvents : (let m := (ptSt).mach
    let irq := (stOf { sd with irq := [0x11], trap := { m := { tstat := 0x104 } } }).mach
    let a := m.accOf (.side 0 .P)
    let l2 := (dieSt fun x => { x with l2 := [sec1] }).mach
    let lv := (stOf { sd with leaving := [held1] }).mach
    let lv1 := lv.withDev fun d => { d with cur := .side 0 .P }
    let u := (dieSt fun x => { x with upds := [upd1], batchAge := 1024, rx := [bat1 1, bat1 2] }).mach
    let rr := fun (c : Nat) (g : Option (Word × Bool)) => (dv (stOf sd) fun d => { d with
      remote := [{ die := 1, clock := [0, 0, c, 0], who := .side 0 .P, d := 1, sz := 8, zx := true, pid := none, asn := 0, va := 2 ^ 37 + 64, tick := 0, got := g }] }).mach
    let late := fun (x : Mach) => x.dev.remote.any fun y => (List.range 4).any fun k => k != 1 && !clockGe (x.vc 1 k) ((y.clock[k]?).getD 0)
    let opn := fun (x : Mach) => x.dev.remote.any fun y => let a := x.remoteAcc y
      (x.die 0).batch.any (·.line == match (x.frameOf 0 a.pid (asnTag y.asn (a.addr y.va)) (a.addr y.va)).1 with | some (mpa, _) => mpa / 1024 | none => 0)
    let cut := (rr 0 none).withDev fun d => { d with bdown := 0xf }
    let irqU := mOf (atU { sd with irq := [0x11], trap := { m := { tstat := 0x104 } } })
    let p := (dv (ptSt) fun d => { d with ports := [(0, { pid := some 1, up := true, en := true })] }).mach
    ok [(mOf (atU { sd with p := { sd.p with line := none } })).canMove (.side 0 .P), ({ sd.p with line := none } : Seq).needsLine,
      (irq.takeable (.side 0 .P)).isSome, irq.intrReady (.side 0 .P), (irqU.takeable (.side 0 .P)).isSome, irqU.intrReady (.side 0 .P),
      lv1.loadsDone, a.pid == some 1, ((m.core 0).rights 1 0 64).any (fun r => r.allows a.lvl .read && r.home != 3),
      canonical 64, (m.readReady a 64).1, sec1.mask != 0, got (l2.l2Down 0 sec1 false), (l2.frameOf 0 (some 1) 0 0x1000).1 == some (0x1000, false),
      (lv.side 0).leaving == [held1], made (lv1.storePath (lv1.lvlAcc 0 .M) 2 8 held1.els true), channelOf 256 == channelOf 256,
      got ((u.modDie 0 fun x => { x with upds := [] }).bankApply upd1), decide (1024 ≤ (u.die 0).batchAge), u.canClose 0, u.batchReady 0 (bat1 1),
      got (u.applyWrite (.upd upd1)), !u.batchReady 0 (bat1 2), (rr 0 none).reach 0 1, !late (rr 0 none), late (rr 1 none), !opn (rr 0 none),
      opn ((dv (ptSt) fun d => { d with remote := [{ die := 1, clock := [], who := .side 0 .P, d := 1, sz := 8, zx := true, pid := some 1, asn := 0, va := 64, tick := 0 }] }).mach.modDie 0
        fun x => { x with batch := [.upd { upd1 with mpa := 64 }] }), !cut.reach 0 1,
      (rr 0 (some (5, false))).acqReady 0 [0, 0, 0, 0], !(rr 1 (some (5, false))).acqReady 0 [0, 0, 1, 0],
      (p.peerAt 0 1 1 true).isNone, (p.peerAt 0 1 64 true).isSome, (p.peerAt 0 1 64 false).isSome]) = true := by decide +kernel
/-- A fetch by P of the test partition with its PC and its instruction cache. -/
def fetchM (pc : Word) (ic : List ISec := []) (x : Side := ptSd) : Mach :=
  (coreSt (ptSt { x with p := { x.p with pc := pc } }) fun c => { c with ic := ic }).mach
/-- What it fetches. -/
def fetches (m : Mach) : FetchRes := (m.fetchLine m.dev.cur m.me.pc).1
theorem witness_FetchesFills : (let sec := fun (d : Sector) (p : Bool) => [(⟨1, 0, 0, d, p⟩ : ISec)]
    let good : Sector := 0x0040004000401800
    let line := fun (m : Mach) (n : Nat) => match fetches m with
      | .line l => if n = 9 then !Line.valid l else Line.valid l && Line.count l == n
      | _ => false
    let m := (ptSt).mach
    let l2 := (dieSt fun x => { x with l2 := [sec1, { sec1 with sec := 0x21, have_ := fullMask, pois := true }] }).mach
    let r : Rights := ⟨1, 0, 0, 16, true, true, true, true, true, 0, false, 0, 16⟩
    let a := m.myAcc
    let l1 : L1Sec := ⟨1, 0, 0x20, 7, fullMask, 3, none, true, []⟩
    let w := (coreSt (dieSt fun x => { x with l2 := [sec1] }) fun c => { c with l1 := [l1] }).mach
    let wt := farSt { sd with p := { sd.p with pc := 2 ^ 37 + 66 } }
    ok [badTarget 65, !badTarget 66, fetches wt.mach == .wait,
      fetches (fetchM 66 (sec good true)) == .poison, (match fetches (fetchM (2 ^ 20 + 2)) with | .fault .. => true | _ => false),
      line (fetchM 2 (sec good false)) 3, line (fetchM 30 (sec good false)) 3, line (fetchM 2 (sec 7 false)) 9,
      (match (fetchM 2 (sec good false)).check m.myAcc 2 .fetch with | (.ok r, m1) => r.home != 3 && ((m1.codeDown a 2).core 0).ic.length == 1 | _ => false),
      (l2.die 0).l2.find? (·.is 1 0 0x20) == some sec1, sec1.have_ == fullMask, (m.die 0).l2 == [],
      (match m.frameOf 0 (some 1) 0 0x1000 with | (some (mpa, _), m0) => decide (mpa < 2 ^ 39) && m0.reach 0 0 && dieOfMpa mpa == 0 | _ => false),
      r.home == 0, (m.core 0).l1 == [], (match m.l2Read 0 1 0 0x20 0 true false with | ((_, _, t), m1) => t.isNone && (m1.l1Room 0 1 0 0x20).isSome),
      l1.mask != 0, l1.held.isNone, (w.core 0).l1 == [l1], (w.die 0).l2 == [sec1], sec1.mask != 0,
      (match m.frameOf 0 (some 1) 0 0x1000 with | (some (mpa, f), m0) => !f && (m0.combFlush mpa).dev == m0.dev | _ => false)]) = true := by decide +kernel
/-- Stage 1 tables of address space 0 behind those of stage 2: the first 1 GiB of VAs is the PPA, at every level, with all rights. -/
def vaMem : List Host.Cell :=
  [(0x13000, 1), (0x13001, 0x40), (0x13002, 1), (0x14000, 3), (0x14001, 0x50), (0x14002, 1), (0x15000, 3), (0x15001, 0x60), (0x15002, 1),
   (0x16000, 9), (0x16006, 0xe0), (0x16007, 1)]
theorem witness_ProbeReplies : (let s := dv (ptSt) fun d => { d with dies := [(0, { ctx := [(1, { root2 := 0x10000, asBase := 0x13000, en := true, asnCount := 4 })] })] }
    let f := fun (va : Word) => (({ s with mem := s.mem ++ vaMem } : State).mach.setAtt 0 [⟨0, 2, 0, 0, va, 16, 0, .U, 1, 0, none, false⟩])
    let e := fun (va : Word) => ((f va).att 0).head?
    ok [(e 64).any (·.onPage 1 0 16 0), ((f 64).att 0).length == 1, (match (f 64).confirm 0 1 0 .U 64 with | (.ok r, _) => r.home == 0 | _ => false),
      (match (f (2 ^ 30)).confirm 0 1 0 .U (2 ^ 30) with | (.error _, _) => true | _ => false), (e (2 ^ 30)).any (·.onPage 1 0 16 (2 ^ 14)),
      (⟨1, 0, 0x20, 7, fullMask, 3, some 0, true, [(0, 3)]⟩ : L1Sec).parts.all fun p => p.1 == 0]) = true := by decide +kernel
/-- Behind them a second GiB, which stage 2 maps to a reserved region, and a third, which it maps to an unassigned device page. -/
def farMem : List Host.Cell :=
  (partMem ++ [(0x12008, 9), (0x1200e, 0xe2), (0x12010, 9), (0x12013, 0x40), (0x12016, 0xe1)])
    ++ vaMem ++ [(0x16008, 9), (0x1600b, 0x40), (0x1600e, 0xe0), (0x1600f, 1), (0x16010, 9), (0x16013, 0x80), (0x16016, 0xe0), (0x16017, 1)]
theorem witness_AddressSpace : (let s := dv (ptSt) fun d => { d with dies := [(0, { ctx := [(1, { root2 := 0x10000, asBase := 0x13000, en := true, asnCount := 4 })] })] }
    let m := ({ s with mem := farMem } : State).mach
    let c := m.pctx 0 1
    let leaf := fun (va : Nat) => match m.root1 0 c 0 with
      | .ok root => (match descend (m.tab1 0 c) false 0 2 va walkLevels root with
        | .ok l1 => (match m.stage2 0 c (eaddr l1.ent + va % 2 ^ l1.sh) with | .ok (mpa, _) => some (region mpa) | .error _ => none)
        | .error _ => none)
      | .error _ => none
    ok [c.en, leaf (2 ^ 30) == some .reserved, (match leaf (2 ^ 31) with | some (.dev d p _) => !pageAssigned d p | _ => false),
      leaf 64 == some .dram, region (2 ^ 49) == .reserved, region (2 ^ 39) == .reserved]) = true := by decide +kernel
/-- A machine with a Gale port. -/
def gp (g : GalePort) : Mach := (dv (stOf sd) fun d => { d with ports := [(1, g)] }).mach
/-- An access of the host window. -/
def ext1 (i : Bool) (w : Bool) : ExtReq := { host := true, port := 0, addr := 64, n := 8, wr := w, val := 0, pid := 1, who := if w then none else some (.side 0 .P, 1, true), issued := i, grp := 0, pc := 2, tick := 0 }
theorem witness_LinkEvents : (let w := fun (h : Word) (e : ExtReq) => (dv (stOf sd) fun d => { d with windows := [(0, { hwbase := h })], ext := [e] }).mach
    let isl := fun (st : BitVec 8) => (dieSt fun x => { x with islState := st }).mach
    ok [((gp { up := true }).port 1).up, decide (8 ≤ ((gp { up := true, fails := 8 }).port 1).fails), ((gp { en := true, pid := some 1 }).port 1).en,
      !((gp { en := true, pid := some 1 }).port 1).up, !((gp { pid := some 1 }).port 1).en, (ext1 false true).host, (w 1 (ext1 false true)).hostOpen 0,
      !(w 0 (ext1 false true)).hostOpen 0, (ext1 true true).issued, (ext1 true true).ans == none, (ext1 true true).wr, !(ext1 true false).wr,
      ((gp {}).die 0).islState.getLsbD 4, ((gp {}).port 1).pid.isNone,
      !(mOf sd).dev.bdown.getLsbD 2, !((isl 0).die 0).islState.getLsbD 2, ((isl 0xff).die 0).islState.getLsbD 2, !(isl 0xff).islandRefuses 0 2,
      (isl 0xff).islandRefuses 0 4]) = true := by decide +kernel
/-! An image that verifies: each chain of a one-time signature starts at a secret of no bytes, and a chain that a signature leaves at a
digit goes on to the same end whatever the digit was. -/

theorem xChain_add (seed : List Byte) (ad : Adrs) (x : List Byte) (i d s : Nat) :
    xChain seed ad x i (d + s) = xChain seed ad (xChain seed ad x i d) (i + d) s := by
  induction s with
  | zero => rfl
  | succ s ih =>
    show xChain seed ad x i (d + s + 1) = _
    simp only [xChain, ih, Nat.add_assoc]

theorem xDigits_le (m : List Byte) : ∀ d ∈ xDigits m, d ≤ 15 := by
  intro d hd
  simp only [xDigits, List.mem_append, List.mem_cons, List.not_mem_nil, or_false] at hd
  rcases hd with hd | hd
  · obtain ⟨b, -, hb⟩ := List.mem_flatMap.1 (List.mem_of_mem_take hd)
    have := b.isLt
    simp only [List.mem_cons, List.not_mem_nil, or_false] at hb
    omega
  · omega

/-- The one-time signature of `m`. -/
def xOts (seed : List Byte) (ad : Adrs) (m : List Byte) : List (List Byte) :=
  (xDigits m).zipIdx.map fun x => xChain seed { ad with b := x.2 } [] 0 x.1

theorem xEnds_xOts (seed : List Byte) (ad : Adrs) (m : List Byte) :
    xEnds seed ad m (xOts seed ad m) = (List.range (xDigits m).length).map fun i => xChain seed { ad with b := i } [] 0 15 := by
  apply List.ext_getElem
  · simp [xEnds, xOts]
  · intro n h1 h2
    have hn : n < (xDigits m).length := by simpa using h2
    simp only [xEnds, xOts, List.getElem_map, List.getElem_zipIdx, List.getElem_zip, List.getElem_range, Nat.zero_add]
    have hd := xDigits_le m _ (List.getElem_mem hn)
    have h := xChain_add seed { ad with b := n } [] 0 ((xDigits m)[n]'hn) (15 - (xDigits m)[n]'hn)
    rw [Nat.zero_add, Nat.add_sub_cancel' hd] at h
    exact h.symm

theorem length_leBytes (v n : Nat) : (leBytes v n).length = n := by
  induction n generalizing v with
  | zero => rfl
  | succ n ih => simp [leBytes, ih]
theorem length_xDigits (m : List Byte) (h : m.length = 32) : (xDigits m).length = 67 := by
  have : ∀ l : List Byte, (l.flatMap fun b => [b.toNat / 16, b.toNat % 16]).length = 2 * l.length := by
    intro l; induction l with
    | nil => rfl
    | cons a l ih => simp [List.flatMap_cons, ih]; omega
  simp [xDigits, this, h]

/-- The root of the tree of a layer whose chains start so. -/
def xTree (layer : Nat) : List Byte :=
  xRoot [] { layer := layer, tree := 0, kind := 2 } 0 0 (xLtree [] { layer := layer, tree := 0, kind := 1, a := 0 } 0 8
    ((List.range 67).map fun i => xChain [] { layer := layer, tree := 0, kind := 0, a := 0, b := i } [] 0 15)) (List.replicate 10 [])
/-- The signature of `m` by leaf 0 of it. -/
def xLayer (layer : Nat) (m : List Byte) : XmssLayer := ⟨xOts [] { layer := layer, tree := 0, kind := 0, a := 0 } m, List.replicate 10 []⟩

theorem xRootFrom_xLayer (layer : Nat) (m : List Byte) (h : m.length = 32) : xRootFrom [] layer 0 0 m (xLayer layer m) = xTree layer := by
  simp only [xRootFrom, xLayer, xEnds_xOts, length_xDigits m h, xTree]

theorem length_xRoot (seed : List Byte) (ad : Adrs) (idx : Nat) (l : List (List Byte)) : ∀ k node, node.length = 32 ∨ l ≠ [] →
    (xRoot seed ad idx k node l).length = 32 := by
  induction l with
  | nil => intro _ _ h; exact h.resolve_right fun h => h rfl
  | cons a r ih => intro k node _; refine ih _ _ (.inl ?_); split <;> exact length_leBytes _ _

theorem length_xTree (layer : Nat) : (xTree layer).length = 32 := length_xRoot _ _ _ _ _ _ (.inr (List.cons_ne_nil _ _))

/-- The hash that the signature signs. -/
def xMsg (msg : List Byte) : List Byte := xHash 2 ([] ++ xTree 1 ++ beBytes 0 32) msg
/-- A signer whose signature over `msg` verifies. -/
def xSigner (msg : List Byte) : Signer :=
  { oid := 0x29, root := xTree 1, seed := [], sig := { idx := 0, rand := [], layers := [xLayer 0 (xMsg msg), xLayer 1 (xTree 0)] } }

theorem xSigner_verifies (msg : List Byte) : (xSigner msg).verifies msg = true := by
  have h0 : (xMsg msg).length = 32 := length_leBytes _ _
  have e : xmssSet 0x29 = some (20, 2) := by decide
  have s : (xSigner msg).shaped 20 2 = true := by
    simp [Signer.shaped, xSigner, xLayer, xOts, length_xDigits _ h0, length_xDigits _ (length_xTree 0)]
  simp only [Signer.verifies, show (xSigner msg).oid = 0x29 from rfl, e, s, Bool.true_and, beq_iff_eq]
  show xTop [] 0 0 (xMsg msg) [xLayer 0 (xMsg msg), xLayer 1 (xTree 0)] = xTree 1
  simp only [xTop, Nat.zero_div, Nat.zero_mod, Nat.zero_add, xRootFrom_xLayer _ _ h0, xRootFrom_xLayer _ _ (length_xTree 0)]

/-- An image of the flash that passes, and fuses with its key. -/
def img : FlashImg := { readable := true, headerOk := true, signer := xSigner [], version := 0, kind := .manufacturing, copyOk := true, bytes := [], entry := 64 }
def imgFuses : Fuses := { rootKey := shake256 (xSigner []).key }
theorem img_passes : slotCode imgFuses (some img) = 0 := by
  have e : xmssSet (xSigner []).oid = some (20, 2) := by decide
  simp [slotCode, img, imgFuses, Signer.code, e, xSigner_verifies, kindOk]

/-- The state behind a device reset, with images in the slots and the boot ROM at a stage. -/
def bootM (a b : Option FlashImg) (n : Nat) (f : Fuses := {}) : Mach := (dv State.reset fun d => { d with flashA := a, flashB := b, rom := n, fuses := f }).mach
theorem witness_bootRom_A : (bootM (some img) none 1 imgFuses).booting = true ∧ (bootM (some img) none 1 imgFuses).dev.dies.all (fun x => !x.2.wiping) = true
    ∧ (bootM (some img) none 1 imgFuses).dev.flashA = some img
    ∧ slotCode (bootM (some img) none 1 imgFuses).dev.fuses (bootM (some img) none 1 imgFuses).dev.flashA = 0 := ⟨rfl, rfl, rfl, img_passes⟩
theorem witness_bootRom_B : (bootM none (some img) 2 imgFuses).booting = true ∧ (bootM none (some img) 2 imgFuses).dev.dies.all (fun x => !x.2.wiping) = true
    ∧ (bootM none (some img) 2 imgFuses).dev.flashB = some img
    ∧ slotCode (bootM none (some img) 2 imgFuses).dev.fuses (bootM none (some img) 2 imgFuses).dev.flashB = 0 := ⟨rfl, rfl, rfl, img_passes⟩
/-- The monitor runs on supervisor core 0. -/
def upM (f : Die → Die) (g : Dev → Dev := id) : Mach := (dv (dieSt f) fun d => g { d with sups := [(0, { seq := { run := .run, level := .M } })] }).mach
theorem witness_ResetEvents : (let m := upM id
    let b := bootM none none
    let c := (coreSt (headSt vSd (.vadd 1 2 3 0 none .dyn) []) fun x => { x with
      l1 := [⟨1, 0, 0, 0, fullMask, 0, none, false, []⟩], laneEv := [(3, 0), (3, 0), (3, 0), (3, 0)], laneUnc := [3] }).mach
    let held := fun (lane : Nat) (res : LaneEnd) => ((coreSt (headSt { vSd with vlast := [(1, 255)] } (.vadd 1 2 3 0 none .dyn) []) fun x =>
      { x with holds := [⟨lane, 0, res⟩], nchk := 1 }).mach)
    let res := upM fun x => { x with resetting := true }
    let w := fun (b : Bool) => (dv State.reset fun d => { d with lcPend := if b then some 1 else none, dies := [(0, { wiping := true, resetting := true })] }).mach
    let lc := fun (t : Word) => upM id fun d => { d with lcReq := t }
    ok [!m.booting, (lc 1).dev.lcReq.extractLsb' 0 2 == 1, lcAllowed m.dev.fuses.lcs 1, !lcAllowed m.dev.fuses.lcs 2, (m.deviceReset none).booting,
      ((m.deviceReset none).die 1).wiping, (m.deviceReset none).dev.lcPend.isNone, ((w false).die 0).wiping, (w false).dev.lcPend.isNone, (w true).booting,
      (w true).dev.lcPend == some 1, ((w true).modDie 0 fun x => { x with wiping := false, resetting := false }).dev.dies.all (fun x => !x.2.wiping),
      (b 4).dev.rom == 4, (b 0).booting, (b 0).dev.rom == 0, (b 1).dev.dies.all (fun x => !x.2.wiping), slotCode {} none != 0, (b 2).dev.rom == 2,
      (b 3).dev.rom == 3, !(m.die 1).resetting, !(m.die 1).rstReq, ((upM fun x => { x with rstReq := true }).die 0).rstReq, !m.monitorElsewhere 0,
      (dv (stOf sd) fun d => { d with sups := [(8, { seq := { run := .run, level := .M } })] }).mach.monitorElsewhere 0, (res.die 0).resetting,
      !(res.die 0).wiping, !res.booting, (c.core 0).l1[0]?.isSome, !(c.die 0).resetting, (c.side 0).vq != [], (c.core 0).retired.isNone,
      (c.core 0).laneFails 3, (held 1 .agree).holdsOf 0 == [⟨1, 0, .agree⟩], (held 1 .differ).holdsOf 0 == [⟨1, 0, .differ⟩], (held 1 .unread).holdsOf 0 == [⟨1, 0, .unread⟩],
      ((held 1 .differ).core 0).checks, (held 0 .unread).holdsOf 0 == [⟨0, 0, .unread⟩],
      ((held 1 .differ).side 0).vlast == [(1, 255)], (dv (ptSt) fun d => { d with rollPend := [1] }).dev.rollPend.contains 1,
      (ptSt).dev.dies.all (fun x => !x.2.resetting), ((ptSt).mach.part 1).outst == []]) = true := by decide +kernel

/-- The queue block of virtual device 0 at 0x3000: class 0 with a ring of 4096 records at 0x5000, and one record whose ctx and gang bits are given. -/
def ring (bits : Byte) : List Host.Cell :=
  [(0x2007, 0x20), (0x2010, 0x40), (0x2011, 0x20), (0x2047, 0x40), (0x2050, 0x80), (0x2051, 0x20), (0x2087, 0x60), (0x2090, 0xc0), (0x2091, 0x20),
   (0x20c7, 0x80), (0x3000, 0x0c), (0x3001, 0x50), (0x3010, 1), (0x3018, 1), (0x5001, 0x40)] ++ (if bits = 0 then [] else [(0x5018, bits)]) ++
  [(0x5019, 0x20), (0x10000, 3), (0x10001, 0x10), (0x10002, 1), (0x11000, 3), (0x11001, 0x20), (0x11002, 1), (0x12000, 9), (0x12006, 0xe0)]
/-- An idle side of the partition, and a record in its ring. -/
def idleM (bits : Byte) : Mach := ({ dv (ptSt { pid := some 1 }) fun d => { d with
  dies := d.dies.map fun x => (x.1, { x.2 with cyc := 2000000, sched := { vds := [(0, { allow := 5, boostEnd := some 7 })], nextRefill := 9 } })
  vds := [(0, { pid := some 1, weight := 1, qblock := 0x3000 })] } with mem := ring bits } : State).mach
/-- The side chooses a record with these bits. -/
def chooses (m : Mach) (c g : Bool) (k : Front → Mach → Bool) : Bool :=
  match m.choose 0 with | (some f, m1) => recCtx f.rec_ == c && recGang f.rec_ == g && k f m1 | _ => false
theorem witness_Chosen : (let m := idleM 0
    let f := (m.fronts 0 1).1
    let m1 := (m.fronts 0 1).2
    let can := fun (x : Front) => decide (0 < (m1.vds 0 x.v).allow) && decide (m1.running x.v 0 < m1.capsides x.v 0)
    let none_ := ((idleM 0).modVds 0 0 fun x => { x with allow := 0 })
    ok [(m.side 0).pid == some 1, f.length == 1, f.all can, (m1.die 0).sched.gwait == [], (none_.choose 0).1.isNone,
      (match m.choose 0 with
        | (some g, _) => (match m.qdesc 0 1 g.v g.cls with
          | (some q, m2) => (match m2.pop 0 1 g.v g.cls q g.idx 1 with
            | ([x], m3) => !recBad x && (recJoin x).toNat % 64 == 0 && (match m3.chain 0 1 (recLaunch x) with
              | (some (l :: up), _) => (l :: up).all (fun y => y.state != 2)
              | _ => false)
            | _ => false)
          | _ => false)
        | _ => false)]) = true := by decide +kernel
/-- The same partition on a running unit with join records at 0x6000, 0x6080 and 0x6100, whose counts are 2, 1 and 0, and a cancelled launch at 0x2100. -/
def workM (x : List Host.Cell := []) : Mach := ({ dv (ptSt) fun d => { d with vds := [(0, { pid := some 1, weight := 1, qblock := 0x3000 })] } with
  mem := (ring 0).filter (·.1 < 0x2100) ++ [(0x2107, 0x30)] ++ (ring 0).filter (fun c => 0x2100 ≤ c.1 && c.1 < 0x6000)
    ++ [(0x6000, 2), (0x6039, 0x20), (0x6080, 1), (0x60b9, 0x20)] ++ x ++ (ring 0).filter (0x6000 ≤ ·.1) } : State).mach
/-- A record of launch 0x2000, with the bits of its fourth doubleword added. -/
def wrec (n : Nat) : BitVec 256 := BitVec.ofNat 256 ((0x2000 + n) * 2 ^ 192)
theorem witness_WorkRecords : (let m := workM
    let join := fun (a : Nat) => (m.chanRead a).1.1.toNat / 2 ^ (8 * (a % 128))
    let rec_ := fun (a : Nat) => BitVec.ofNat 256 (join a / 2 ^ 256)
    let put := fun (a : Nat) => ((m.chanRead a).2.chanWrite a 0 (byteMask (a % 128) 4) false false 1 false).isSome
    let word := fun (a : Nat) => (m.crec 0 1 a).map fun x => (x.1.level, x.1.state, x.1.bad)
    ok [m.home0 == (0, some 1), recBad (wrec 16), !recBad (wrec 0), (wrec 0 |> recLaunch) == 0x2000, (m.chain 0 1 0x1000).1.isNone,
      (match m.chain 0 1 0x2000 with | (some (l :: _), m1) => l.state == 0 && !l.bad && (m1.vd l.vd).pid == some 1 && decide (l.gsize < 2)
          && (m1.pushBack 0 1 l.vd l.cls [wrec 0]).1 == 0 | _ => false),
      (match m.qdesc 0 1 0 0 with | (some q, _) => decide (q.len + 1 + 1024 ≤ 2 ^ q.k) && decide (2 ^ q.k < q.len + 4000 + 1024) | _ => false),
      (m.qdesc 0 1 0 2).1.isNone, join 0x6000 % 2 ^ 256 == 2, join 0x6080 % 2 ^ 256 == 1, join 0x6100 == 0, !recBad (rec_ 0x6000), !recBad (rec_ 0x6080),
      put 0x6000, put 0x6080, ((m.chanRead 0x6080).2.pushNamed 0 1 (rec_ 0x6080)).1 == 0, (m.contAt 0x6080 false).map (·.1) == some 7,
      (m.contAt 0x6000 false).map (·.1) == some 0, (m.contAt 0x6100 false).map (·.1) == some 2, word 0x2000 == some (1, 0, false),
      (word 0x1000).any (·.1 == 0), word 0x2100 == some (1, 2, false), (m.crec 0 1 (2 ^ 52)).isNone, m.dev.sides.length == 1,
      m.dev.sides.all (fun y => y.2.unit.isSome && y.2.pid == some 1)]) = true := by decide +kernel
theorem witness_SchedulerEvents : (let m := idleM 0
    let u := { atU ptSd with preempt := true, tq := [] }
    let l := (ptSt u).mach
    let l1 := (l.settleSeqs 0).asSeq (.side 0 .P) fun x => x.releaseData x.myAcc .dev
    let two := fun (b : Byte) (x : Option (Nat × Bool)) => (idleM b).withDev fun d => { d with sides := d.sides ++ [(2, { pid := some 1, vown := 0x4001, saveFor := x })] }
    let full := (idleM 2).withDev fun d => { d with clusters := [(0, { bars := (List.range 64).map fun n => (n, { used := true }) })] }
    let gang := fun (m : Mach) (k : Nat → Mach → Front → Bool) => m.choose 0 |> fun x => match x with
      | (some f, m1) => let n := m1.takes 0 (m1.pid0 0) f; k n.1 n.2 f
      | _ => false
    let imgs := fun (n : Nat) (m2 : Mach) (f : Front) => match m2.qdesc 0 (m2.pid0 0) f.v f.cls with
      | (some q, m3) => ((List.range n).filterMap fun j => (m3.ringGet 0 (m2.pid0 0) q (f.idx + j)).1).map recImg
      | _ => []
    let place := fun (n : Nat) (m2 : Mach) (f : Front) => ((m2.gangPlace 0 (m2.pid0 0) f.v n).map (·.1)).getD []
    ok [m.idleSide 0, !(m.die 0).resetting, chooses m false false fun _ _ => true,
      chooses (idleM 1) true false fun f m1 => m1.unsaved [(0, recImg f.rec_)] == [],
      chooses (two 1 none) true false fun f m1 => m1.unsaved [(0, recImg f.rec_)] == [(2, 0x4000)],
      chooses (two 1 (some (0x4000, true))) true false fun f m1 => m1.unsaved [(0, recImg f.rec_)] == [],
      ((two 1 none).side 2).saveFor != some (0x4000, false), ((two 1 (some (0x4000, false))).side 2).saveFor == some (0x4000, false),
      chooses (idleM 2) false true fun _ _ => true, gang (idleM 2) fun n m2 f => n != 0 && place n m2 f != [] && m2.unsaved ((place n m2 f).zip []) == [],
      chooses full false true fun _ _ => true, gang full fun n m2 f => (m2.gangPlace 0 (m2.pid0 0) f.v n).isNone && decide (m2.running f.v 0 + n ≤ m2.capsides f.v 0),
      chooses (idleM 3) true true fun _ _ => true,
      gang (idleM 3) fun n m2 f => n != 0 && place n m2 f != [] && imgs n m2 f != [] && m2.unsaved ((place n m2 f).zip (imgs n m2 f)) == [],
      gang (two 3 none) fun n m2 f => place n m2 f != [] && m2.unsaved ((place n m2 f).zip (imgs n m2 f)) != [], (m.vdsOf 1).contains 0,
      decide ((m.die 0).sched.nextRefill ≤ (m.die 0).cyc.toNat), ((m.vdsOf 1).map fun u => (m.vd u).weight).foldl (· + ·) 0 != 0,
      (m.vds 0 0).boostEnd.any fun e => decide (e ≤ (m.die 0).cyc.toNat), decide ((l.vds 0 0).allow ≤ 0), (l.side 0).unit.isSome, (l.side 0).preempt,
      !(l.side 0).cancelled, l.landReady 0, l.imageFits 0, (l.side 0).att.all (fun e => e.lvl != .U), (l.side 0).tstop.isNone,
      (l1.withDev fun d => { d with cur := .side 0 .P }).releaseDone .die false, ((l.settleSeqs 0).side 0).vq == [],
      (ptSt { u with cancelled := true }).mach.landReady 0, ((ptSt { u with cancelled := true, cancelTold := true }).mach.side 0).lowU]) = true := by decide +kernel

/-- The window of virtual device 0 with one request; the bytes of the request are given by offset. -/
def win0 (bs : Tbl Byte) : Window := { unassigned := false, ready := true, rqtail := 1, mem := bs.map fun x => (0x1000 + x.1, x.2) }
/-- The test partition with a window. -/
def winM (w : Window) (n : Nat := 0) (f : Dev → Dev := id) : Mach := (dv (ptSt) fun d => f { d with windows := [(n, w)] }).mach
/-- The next request. -/
def req (m : Mach) (n : Nat) (k : Nat → Mach → Bool) : Bool := match nextReq m n with | some (x, m1) => k x m1 | none => false
/-- A job whose counter record is at 0x20c0 of partition 1; its launch lies 192 bytes behind. -/
def job1 : Job := { id := 64, vd := 0, pid := 1, ppa := 0x2000, tag := 5, noIrq := false, epoch := 0, full := true, mute := false, cancels := [] }
theorem witness_HostEvents : (let m := winM (win0 [])
    let x := m.win 0
    let given := fun (d : Dev) => { d with given := [(0, 1)] }
    let open_ := fun (d : Dev) => { d with given := [(0, 1)], jobs := [job1] }
    let lc := fun (d : Dev) => { d with fuses := { d.fuses with lcs := 1 } }
    ok [m.hostWrites 0, x.ready, !x.halted, decide (127 - (x.rqtail.toNat + 128 - x.reqhead.toNat) % 128 ≥ (5 + 128 - x.rqtail.toNat % 128) % 128),
      decide ((x.cpltail.toNat + 256 - x.cphead.toNat % 256) % 256 < (7 + 256 - x.cphead.toNat % 256) % 256),
      req (winM (win0 [(0, 1)])) 0 (fun r _ => rqF r 0 1 == 1 && submitBad r), req (winM (win0 [(0, 1), (2, 1)])) 0 (fun r _ => rqF r 0 1 == 1 && !submitBad r),
      ((winM (win0 [])).vd 0).pid == some 1, decide ((m.pctx (m.partDie 1) 1).asnCount ≤ 4), decide (0 < (m.pctx (m.partDie 1) 1).asnCount),
      req (winM (win0 [(0, 2), (1, 1)])) 0 (fun r _ => rqF r 0 1 == 2 && jobReqBad r),
      req (winM (win0 [(0, 2), (8, 64)])) 0 (fun r _ => rqF r 0 1 == 2 && !jobReqBad r && !m.gaveJob 0 64),
      req (winM (win0 [(0, 2), (8, 64)]) 0 given) 0 (fun r m1 => !jobReqBad r && m1.gaveJob 0 64 && m1.dev.jobs == []),
      req (winM (win0 [(0, 2), (8, 64)]) 0 open_) 0 (fun r m1 => !jobReqBad r && m1.gaveJob 0 64 && m1.dev.jobs == [job1] && !m1.dev.ended.contains (1, 0x20c0)),
      req (winM (win0 [(0, 3), (8, 64)]) 0 open_) 0 (fun r m1 => rqF r 0 1 == 3 && got (m1.crec (m1.partDie 1) 1 (job1.ppa + 192))),
      req (winM (win0 [(0, 5)])) 0 (fun r _ => rqF r 0 1 == 5),
      req (winM (win0 [(0, 4)])) 0 (fun r m1 => rqF r 0 1 == 4 && rqF r 1 3 == 0 && rqF r 8 8 == 0 && rqF r 56 72 == 0 && !(m1.quoteOf 0).1),
      req (winM (win0 [(0, 4), (49, 0x70), (53, 0x20)]) 64 lc) 64 (fun r m1 => (m1.quoteOf 64).1 && decide (quoteLen (min 64 (m1.quoteOf 64).2.2.length) ≤ rqF r 52 4)
        && decide (0x7000 ≤ rqF r 48 4) && decide (rqF r 48 4 + rqF r 52 4 ≤ 0x10000) && (match m1.quote 0 0 [] with | .ok _ => true | .error _ => false)),
      (match m.quote 0 0 [] with | .ok _ => false | .error _ => true), !(m.withDev fun d => { d with windows := [(0, { ready := true, flr := true })] }).hostWrites 0,
      ({} : Window).ready == false, (winM (win0 []) 0 fun d => { d with compls := [⟨0, 5, 0, none, false, 0, 0, 0⟩] }).dev.compls.length == 1, (x.cpltail.toNat + 1) % 256 != x.cphead.toNat % 256, m.dev.jobs == []])
    = true := by decide +kernel

/-- A supervisor core in the monitor's handler of an `hcall` with a call number and arguments. -/
def hcM (x : Tbl XReg) (f : Part → Part := id) : Mach := (dv (ptSt) fun d => { d with
  sups := [(0, { seq := { run := .run, level := .M, x := x }, pid := some 1, trap := { m := { cause := 0x17, tstat := 5 } } })]
  ports := [(0, { pid := some 1 })]
  fuses := { d.fuses with lcs := 1 }
  parts := d.parts.map fun y => (y.1, f y.2) }).mach
/-- Registers by number. -/
def xs (l : List (Nat × Word)) : Tbl XReg := l.map fun y => (y.1, ⟨y.2, true, false⟩)
/-- The call in hand. -/
def calls (l : List (Nat × Word)) (n : Nat) : Bool := (hcM (xs l)).hcallOf (.sup 0) == some n && (hcM (xs l)).pidOf (.sup 0) == some 1
theorem witness_HypervisorCalls : (let m := hcM (xs [(10, 2), (11, 3), (12, 0), (13, 0), (14, 0x10000), (15, 1)])
    let q := hcM (xs [(10, 3), (12, 0x6000), (13, 8192)]) fun y => { y with quoteOk := true }
    let len := quoteLen 3
    ok [calls [(10, 0)] 0, calls [(10, 77)] 77, decide (Config.hcallCount ≤ 77), calls [(10, 1)] 1, calls [(10, 2), (11, 16)] 2, calls [(10, 2)] 2,
      !((m.part 1).fmtMask.getLsbD 3), ((hcM [] fun y => { y with fmtMask := 8 }).part 1).fmtMask.getLsbD 3, m.ownFrame 0 1 0 == some 0,
      m.ownFrame 0 1 0x10000 == some 0x10000, calls [(10, 3)] 3, !(m.part 1).quoteOk, (q.part 1).quoteOk, decide ((0 : Nat) < len), decide (len ≤ 8192),
      (match q.ppaGet 0 (some 1) 0 32 2 with
        | some ((n, _), m1) => (match m1.ppaPut 0 (some 1) 0x6000 len 0 (len / 1024 + 2) with
          | some m2 => (match m2.quote n 0 (q.part 1).caps with | .ok _ => true | .error _ => false)
          | none => false)
        | none => false),
      calls [(10, 4), (11, 16)] 4, calls [(10, 4), (11, 5)] 4, (m.port 5).pid != some 1, (m.port 0).pid == some 1, calls [(10, 5), (11, 64)] 5,
      (m.vd 7).pid != some 1, (m.vd 0).pid == some 1]) = true := by decide +kernel

/-- The first four bytes of SHAKE256 of the empty message, from FIPS 202's published test values: 46 b9 dd 2b. -/
theorem test_shake_empty : (shake256 []).extractLsb' 0 32 = 0x2bddb946 := by decide +kernel
/-- Side 0 at level U at the first slot of a line of `nop`. -/
def stepSt : State := { stOf (atU lineSd) with turns := [.seq (.side 0 .P)] }
theorem witness_StepRunsDecoded : (let m := stepSt.mach
    let v := headSt (atU vSd) (.vadd 1 2 2 0 none .dyn) []
    ok [(m.seq (.side 0 .P)).run != .boot, (m.takeable (.side 0 .P)).isNone, m.canMove (.side 0 .P), m.me.line == some ⟨0, 0x0040004000401800⟩,
      lineBase m.me.pc == 0, slotOf m.me.pc == 1, decide (1 ≤ Line.count (0x0040004000401800 : Line)), got (decode (Line.slot 0x0040004000401800 1)),
      decode ⟨0, 0⟩ == none, (v.mach.side 0).vq != [], !(v.mach.side 0).queueStops,
      (match exec (.vadd 1 2 2 0 none .dyn) v with | .next _ => true | _ => false), encode .deviceReset == none]) = true := by decide +kernel
theorem witness_StepKeepsBounds : (∀ k, vlKept (stepSt.mach.side k)) ∧ (∀ c n, pendKept (stepSt.mach.token c n))
    ∧ (∀ c n, countsKept ((stepSt.mach.core c).sx.cb.get {} n)) ∧ (match step stepSt with | .next _ => true | _ => false) = true := by
  refine ⟨fun k => ?_, fun c n => (by unfold pendKept; decide +kernel : pendKept {}), fun c n => (by unfold countsKept; decide +kernel : countsKept {}), by decide +kernel⟩
  cases k with
  | zero => exact (by unfold vlKept; decide +kernel : vlKept (atU lineSd))
  | succ k => exact (by unfold vlKept; decide +kernel : vlKept {})
theorem witness_LevelUProtects : (let s := stOf (atU sd)
    let i : Instr := .add 1 (r 4) (r 2)
    ok [got (encode i), !stores i, s.dev.vqNow.isNone, s.mach.me.level == .U, after i s fun m => m.me.level == .U,
      after (.trap 5) s fun m => m.me.level != .U]) = true := by decide +kernel
theorem witness_StepKeepsMemory : Memory.wf State.reset.mem = true ∧ (match step State.reset with | .next _ => true | _ => false) = true := by decide +kernel
theorem witness_DecodeEncode : Instr.wf (.add 6 (r 6) (r 5)) = true ∧ encode (.add 6 (r 6) (r 5)) = some ⟨0x4086, 0x9a50⟩ := by decide +kernel
theorem witness_WordOfInstruction : decode ⟨0x4086, 0x9a50⟩ = some (.add 6 (r 6) (r 5)) ∧ (0x9a50 : Nat) < 2 ^ (16 * headTl 0x4086) := by decide +kernel
theorem witness_VectorFrame : (let m := lft vSd (.vadd 1 2 3 1 none .dyn) []
    ok [atT vSd (.vadd 1 2 3 1 none .dyn) none [] .fma, (m.core 0).holds == [], elSettles vSd (.vadd 1 2 3 1 none .dyn), !(m.side 0).active 1 1,
      (m.side 0).bind == []]) = true := by decide +kernel
theorem witness_StoreFrame : (let s := coreSt (ptSt) fun c => { c with l1 := [⟨1, 0, 0, 0, fullMask, 0, none, false, []⟩] }
    let m := s.mach
    let a := m.myAcc
    ok [m.ready none [r 4] [r 6], (m.val (r 4)).toNat % 8 == 0, storeFree m 64, (match m.pageSt a 64 with | (⟨16, 0, .conf x⟩, m1) => x.home != 3 && m1 == m | _ => false),
      !m.heldByOther a 64, (m.att a.grp).length == 0, (m.core a.core).l1.any (·.is a.tagPid (asnTag a.asn 64) 0)]) = true := by decide +kernel
end Sys2Proof.Tests
end

/-! The machine physical map (R39, R84). One lemma per row of the table of R84 gives `region` of an address by its number; DRAM is the
addresses below `2 ^ 39` and nothing else. Two lemmas say what the walk answers outside DRAM: reason 3 where nothing stands behind the leaf,
and home attribute 3 where it gives a translation. -/

namespace Sys2Proof.Machine

section
variable {mpa : Nat}

theorem region_eq_dram_iff : region mpa = .dram ↔ mpa < 2 ^ 39 := by
  constructor
  · intro h
    unfold region at h
    split at h
    next =>
      split at h
      next hlt => exact hlt
      next => contradiction
    next => split at h <;> contradiction
    all_goals contradiction
  · intro h
    have hhead : mpa / 2 ^ 48 = 0 := by omega
    simp only [region, hhead, h, if_true]

theorem region_of_head_zero (hhead : mpa / 2 ^ 48 = 0) (h : 2 ^ 39 ≤ mpa) : region mpa = .reserved := by
  simp only [region, hhead, Nat.not_lt.mpr h, if_false]

theorem region_of_head_one (hhead : mpa / 2 ^ 48 = 1) (h : mpa / 2 ^ 39 % 512 = 0) :
    region mpa = .dev (mpa / 2 ^ 37 % 4) (mpa / 2 ^ 16 % 2 ^ 21) (mpa % 2 ^ 16) := by
  simp only [region, hhead, h, if_true]

theorem region_of_head_one_far (hhead : mpa / 2 ^ 48 = 1) (h : mpa / 2 ^ 39 % 512 ≠ 0) : region mpa = .reserved := by
  simp only [region, hhead, h, if_false]

theorem region_of_head_four (hhead : mpa / 2 ^ 48 = 4) : region mpa = .gale (mpa / 2 ^ 44 % 16) (mpa % 2 ^ 44) := by
  simp only [region, hhead]

theorem region_of_head_eight (hhead : mpa / 2 ^ 48 = 8) : region mpa = .host (mpa / 2 ^ 42 % 64) (mpa % 2 ^ 42) := by
  simp only [region, hhead]

theorem region_of_head_unlisted (hhead : mpa / 2 ^ 48 ∉ [0, 1, 4, 8]) : region mpa = .reserved := by
  simp only [List.mem_cons, List.not_mem_nil, or_false, not_or] at hhead
  obtain ⟨h0, h1, h4, h8⟩ := hhead
  unfold region
  split
  next h => exact absurd h h0
  next h => exact absurd h h1
  next h => exact absurd h h4
  next h => exact absurd h h8
  next => rfl

end

/-- What the walk asks last (R84): DRAM that a die reaches, an assigned device page, or a window; a reserved address is not backed. -/
def Mach.backed (m : Mach) (die mpa : Nat) : Bool :=
  match region mpa with
  | .dram => m.reach die (dieOfMpa mpa)
  | .dev d p _ => pageAssigned d p
  | .reserved => false
  | _ => true

/-- The translation that two leaves make (R44): outside DRAM its home attribute is 3. -/
def leafTr (mpa : Nat) (l1 l2 : Leaf) : Tr :=
  let h1 := l1.ent.extractLsb' 57 2
  let h2 := l2.ent.extractLsb' 57 2
  { mpa := mpa, l1 := l1, l2 := l2
    home := if region mpa = .dram then (if h1.toNat < h2.toNat then h2 else h1) else 3
    frost := ebit l2.ent 59, sh := min l1.sh l2.sh }

theorem leafTr_home_outside_dram {mpa : Nat} (l1 l2 : Leaf) (h : region mpa ≠ .dram) : (leafTr mpa l1 l2).home = 3 :=
  if_neg h

section
variable {m : Mach} {die : Nat} {pid : BitVec 4} {asn : BitVec 16} {va root mpa : Nat} {l1 l2 : Leaf} {t : Tr}

theorem backed_of_reserved (h : region mpa = .reserved) : m.backed die mpa = false := by
  simp only [Mach.backed, h]

theorem backed_of_dev {d p o : Nat} (h : region mpa = .dev d p o) : m.backed die mpa = pageAssigned d p := by
  simp only [Mach.backed, h]

theorem walk_of_leaves (hen : (m.pctx die pid).en = true) (hroot : m.root1 die (m.pctx die pid) asn = .ok root)
    (hleaf1 : descend (m.tab1 die (m.pctx die pid)) false 0 2 va walkLevels root = .ok l1)
    (hleaf2 : m.stage2 die (m.pctx die pid) (eaddr l1.ent + va % 2 ^ l1.sh) = .ok (mpa, l2)) :
    m.walk die pid asn va =
      if m.backed die mpa then .ok (leafTr mpa l1 l2) else .error (if region mpa = .dram then 7 else 3) := by
  have hwalk : m.walk die pid asn va =
      if !m.backed die mpa then .error (if region mpa = .dram then 7 else 3) else .ok (leafTr mpa l1 l2) := by
    simp only [Mach.walk, hen, hroot, hleaf1, hleaf2]
    rfl
  cases hback : m.backed die mpa <;> simp [hwalk, hback]

/-- Inversion of the walk: a translation comes from an enabled context, a root, a leaf of each stage, and an address that is backed. -/
theorem leaves_of_walk_ok (hwalk : m.walk die pid asn va = .ok t) :
    (m.pctx die pid).en = true ∧ ∃ root l1 l2, m.root1 die (m.pctx die pid) asn = .ok root
      ∧ descend (m.tab1 die (m.pctx die pid)) false 0 2 va walkLevels root = .ok l1
      ∧ m.stage2 die (m.pctx die pid) (eaddr l1.ent + va % 2 ^ l1.sh) = .ok (t.mpa, l2)
      ∧ m.backed die t.mpa = true ∧ t = leafTr t.mpa l1 l2 := by
  cases hen : (m.pctx die pid).en with
  | false => simp [Mach.walk, hen] at hwalk
  | true =>
    cases hroot : m.root1 die (m.pctx die pid) asn with
    | error x => simp [Mach.walk, hen, hroot] at hwalk
    | ok root =>
      cases hleaf1 : descend (m.tab1 die (m.pctx die pid)) false 0 2 va walkLevels root with
      | error x => simp only [Mach.walk, hen, hroot, hleaf1] at hwalk; contradiction
      | ok l1 =>
        cases hleaf2 : m.stage2 die (m.pctx die pid) (eaddr l1.ent + va % 2 ^ l1.sh) with
        | error x => simp only [Mach.walk, hen, hroot, hleaf1, hleaf2] at hwalk; contradiction
        | ok r =>
          obtain ⟨mpa, l2⟩ := r
          rw [walk_of_leaves hen hroot hleaf1 hleaf2] at hwalk
          split at hwalk
          next hback =>
            obtain rfl := Except.ok.inj hwalk
            exact ⟨rfl, root, l1, l2, rfl, hleaf1, hleaf2, hback, rfl⟩
          next => contradiction

theorem walk_of_unbacked_leaf (hen : (m.pctx die pid).en = true) (hroot : m.root1 die (m.pctx die pid) asn = .ok root)
    (hleaf1 : descend (m.tab1 die (m.pctx die pid)) false 0 2 va walkLevels root = .ok l1)
    (hleaf2 : m.stage2 die (m.pctx die pid) (eaddr l1.ent + va % 2 ^ l1.sh) = .ok (mpa, l2))
    (hregion : region mpa = .reserved ∨ ∃ d p o, region mpa = .dev d p o ∧ pageAssigned d p = false) :
    m.walk die pid asn va = .error 3 := by
  rw [walk_of_leaves hen hroot hleaf1 hleaf2]
  rcases hregion with hres | ⟨d, p, o, hdev, hpage⟩
  · simp [backed_of_reserved hres, hres]
  · simp [backed_of_dev hdev, hpage, hdev]

theorem walk_home_outside_dram (hwalk : m.walk die pid asn va = .ok t) (hregion : region t.mpa ≠ .dram) : t.home = 3 := by
  obtain ⟨-, root, l1, l2, -, -, -, -, ht⟩ := leaves_of_walk_ok hwalk
  rw [ht]
  exact leafTr_home_outside_dram l1 l2 hregion

end

end Sys2Proof.Machine

section
open Sys2Proof Sys2Proof.Machine

/-- Settles O58: the fields of the statement are the head, the die and the offset of the address as a number, so each clause is a row of
the map; the clauses on the walk are its two lemmas. -/
theorem addressSpace : Obligations.AddressSpace := by
  intro a
  have hlt : a.toNat < 2 ^ 52 := a.isLt
  have hhead : a.toNat / 2 ^ 48 % 2 ^ 4 = a.toNat / 2 ^ 48 := by omega
  simp only [hhead]
  refine ⟨fun hz => ?dram, fun hz => ?notDram, fun h1 hz => ?dev, fun h4 => ?gale, fun h8 => ?host,
    fun hr => ?reserved, fun m die pid asn va => ?walk⟩
  case dram =>
    have hdram : a.toNat < 2 ^ 39 := by omega
    refine ⟨region_eq_dram_iff.mpr hdram, ?_, ?_⟩
    · unfold dieOfMpa
      omega
    · omega
  case notDram =>
    rw [ne_eq, region_eq_dram_iff]
    omega
  case dev => simpa using region_of_head_one h1 hz
  case gale => simpa using region_of_head_four h4
  case host => simpa using region_of_head_eight h8
  case reserved =>
    rcases hr with ⟨hlow, hz⟩ | hother
    · rcases Nat.le_one_iff_eq_zero_or_eq_one.mp hlow with h0 | h1
      · exact region_of_head_zero h0 (by omega)
      · exact region_of_head_one_far h1 hz
    · exact region_of_head_unlisted hother
  case walk =>
    exact ⟨fun _ _ _ _ hen hroot hleaf1 hleaf2 hregion => walk_of_unbacked_leaf hen hroot hleaf1 hleaf2 hregion,
      fun _ hwalk hregion => walk_home_outside_dram hwalk hregion⟩

end

/-! Scalar floating point (R280 to R284). Raising flags goes on when fenable enables none of them and traps when it enables one; every
instruction of `floatValue` is a `falu` of its value; and the class word of the model is the table of R284. -/

namespace Sys2Proof.Machine

/-! ## Raising flags (R253, R281) -/

@[simp] theorem Mach.orFlags_fenable (m : Mach) (f : Fl) : (m.orFlags f).fenable = m.fenable := by
  unfold Mach.orFlags
  cases h : m.dev.cur <;> simp [Mach.fenable, Mach.mySide, Mach.myNo, sideOf, h]

@[simp] theorem Mach.orFlags_stall (m : Mach) (f : Fl) : (m.orFlags f).stall = m.stall := by
  unfold Mach.orFlags
  cases m.dev.cur <;> rfl

@[simp] theorem Mach.completes_stall (m : Mach) (d : Reg) (v : Word) : (m.completes d v).stall = m.stall := by
  simp [Mach.completes, Mach.retire, Mach.goto, Mach.wx]

section
variable {m : Mach} {f : Fl} {k : Mach → Mach}

theorem Mach.raise_of_disabled (h : f &&& m.fenable = 0) : m.raise f k = k (m.orFlags f) := by
  simp [Mach.raise, h]

theorem Mach.raise_of_enabled (h : f &&& m.fenable ≠ 0) :
    m.raise f k = (m.orFlags f).trapV 0x0e ((f &&& m.fenable).setWidth 64) := by
  simp only [Mach.raise, Mach.orFlags_fenable, if_neg h]

end

/-- A scalar floating-point instruction whose operands can be had: its flags are raised, and then its result is written. -/
theorem Mach.falu_ready {m : Mach} {d : Reg} {ss : List Src} (h : m.ready (some d) ss [] = true) (f : Mach → Word × Fl) :
    m.falu d ss f = m.raise (f m).2 fun m' => m'.completes d (f m).1 := Mach.plain_ready h _

/-! ## The class word (R284) -/

/-- The formats of scalar arithmetic are those of `widths`, and their exponents have more than one value. -/
theorem fmtOf_of_isF {t : ETy} (ht : t.isF = true) :
    t ≠ .e4m3 ∧ 0 < 2 ^ (Claims.widths t).1 - 1 ∧ 0 < (Claims.widths t).2 ∧
      ∃ bias, fmtOf t = ((Claims.widths t).1, (Claims.widths t).2, bias) := by
  cases t <;> simp_all [ETy.isF, Claims.widths, fmtOf]

/-- The leading bit of a fraction of `n` bits. -/
theorem testBit_pred_eq_false_iff {f n : Nat} (hn : 0 < n) (hf : f < 2 ^ n) : f.testBit (n - 1) = false ↔ f < 2 ^ (n - 1) := by
  obtain ⟨k, rfl⟩ := Nat.exists_eq_add_one_of_ne_zero (Nat.ne_of_gt hn)
  have hq : f / 2 ^ k < 2 := Nat.div_lt_of_lt_mul (by rwa [← Nat.pow_succ])
  rw [Nat.add_sub_cancel, Nat.testBit_eq_decide_div_mod_eq, decide_eq_false_iff_not, ← Nat.div_eq_zero_iff_lt (Nat.two_pow_pos k)]
  generalize f / 2 ^ k = q at *
  omega

theorem nb_testBit (p i : Nat) : nb (p.testBit i) = p / 2 ^ i % 2 := by
  rw [← Nat.toNat_testBit]
  cases p.testBit i <;> rfl

/-- The class of a pattern by its value is its class by its fields. -/
theorem fClass_eq_classWord {t : ETy} (ht : t.isF = true) (p : Nat) : fClass t p = Claims.classWord t p := by
  obtain ⟨hne, heb, hfb, bias, hfmt⟩ := fmtOf_of_isF ht
  unfold fClass floatVal Claims.classWord
  generalize Claims.widths t = w at *
  obtain ⟨eb, fb⟩ := w
  simp only [hfmt, if_neg hne, nb_testBit] at *
  have hx : p / 2 ^ fb % 2 ^ eb < 2 ^ eb := Nat.mod_lt _ (Nat.two_pow_pos _)
  have hf : p % 2 ^ fb < 2 ^ fb := Nat.mod_lt _ (Nat.two_pow_pos _)
  generalize p / 2 ^ fb % 2 ^ eb = x at *
  generalize p % 2 ^ fb = f at *
  rw [Nat.mul_comm 256]
  congr 1
  -- The exponent is the least, the greatest (with the leading bit of the fraction telling the NaNs apart), or between.
  by_cases hx0 : x = 0
  · by_cases hf0 : f = 0 <;> simp [hx0, hf0, Nat.ne_of_lt heb]
  by_cases htop : x = 2 ^ eb - 1
  · by_cases hf0 : f = 0
    · simp [← htop, hx0, hf0]
    · have hlead := testBit_pred_eq_false_iff hfb hf
      cases hb : f.testBit (fb - 1) <;> simp_all
  · have hlt : x < 2 ^ eb - 1 := by omega
    simp [hx0, htop, hlt]

/-! ## The instructions -/

/-- An instruction whose meaning gives a machine in which nothing has to wait answers next with that machine. -/
theorem does_of_run {i : Instr} {s : State} {g : Mach → Mach} {m : Mach} (hexec : exec i s = run g s) (hrun : g s.mach = m)
    (hstall : m.stall = false) : Claims.Does i s m := by
  subst hrun
  rw [Claims.Does, hexec, run_answer hstall]

theorem w64_nb (b : Bool) : w64 (nb b) = if b then 1 else 0 := by
  cases b <;> rfl

/-- Every instruction of `floatValue` is a `falu` of its value. -/
theorem exec_of_floatValue {i : Instr} {d : Reg} {ss : List Src} {f : Mach → Word × Fl} (h : Claims.floatValue i = some (d, ss, f))
    (s : State) : exec i s = run (fun m => m.falu d ss f) s := by
  unfold Claims.floatValue at h
  split at h
  case h_9 =>
    cases h
    simp only [exec, execFcmp, w64_nb]
  case h_11 => contradiction
  all_goals
    cases h
    rfl

theorem exec_fclass (d : Reg) (a : Src) (t : ETy) (s : State) :
    exec (.fclass d a t) s = run (fun m => m.falu d [a] fun m => (w64 (fClass t (m.fsrc t a)), 0)) s := rfl

end Sys2Proof.Machine

section
open Sys2Proof Sys2Proof.Machine

/-- Settles O4: a ready instruction raises its flags and then writes its result; fenable says which of the two answers that is. `fclass` raises
none. -/
theorem floatResults : Obligations.FloatResults := by
  refine ⟨fun i d ss f hi s hready => ?arithmetic, fun s d a t ht hready => ?classWord⟩
  case arithmetic =>
    have hexec := exec_of_floatValue hi s
    have hfalu := Mach.falu_ready hready f
    constructor
    · intro hoff
      exact does_of_run hexec (hfalu.trans (Mach.raise_of_disabled hoff)) (by simp [State.mach])
    · intro hon hstall
      exact does_of_run hexec (hfalu.trans (Mach.raise_of_enabled hon)) hstall
  case classWord =>
    have hfalu := Mach.falu_ready hready fun m => (w64 (fClass t (m.fsrc t a)), 0)
    have hclass : w64 (fClass t (s.mach.fsrc t a)) = BitVec.ofNat 64 (Claims.classWord t ((s.mach.val a).toNat % 2 ^ (8 * t.size))) :=
      congrArg w64 (fClass_eq_classWord ht _)
    rw [← hclass]
    exact does_of_run (exec_fclass d a t s) (hfalu.trans (Mach.raise_of_disabled (by simp))) (by simp [State.mach])

end

/-! The loop stack (R286, R288). The rule of R288 acts on the entries of one context alone; and nothing that a trap, an interrupt or `eret` does,
down to the writes of a queue frame to DRAM, touches the loop stack of any sequencer: one lemma for each operation of the machine says
so, through `Mach.loops`. -/

namespace Sys2Proof.Machine

/-! ## The rule on one context -/

theorem loopRule_filter_ctx (c : BitVec 2) (q : Word) (ls : List LoopEnt) :
    Claims.loopRule q (ls.filter (·.ctx == c)) = ((loopGo c q ls).1.filter (·.ctx == c), (loopGo c q ls).2) := by
  induction ls with
  | nil => rfl
  | cons e r ih =>
    by_cases hc : e.ctx = c
    · simp only [List.filter_cons, hc, beq_self_eq_true, if_true, Claims.loopRule, loopGo, ne_eq, not_true, if_false]
      by_cases hfin : q = e.fin
      · simp only [if_pos hfin]
        by_cases hleft : e.index + 1 < e.count
        · simp only [if_pos hleft, List.filter_cons, beq_self_eq_true, if_true]
        · simp only [if_neg hleft, ih]
      · simp only [if_neg hfin]
        by_cases hout : q < e.start ∨ e.fin < q
        · simp only [if_pos hout, ih]
        · simp only [if_neg hout, List.filter_cons, hc, beq_self_eq_true, if_true]
    · simp [hc, loopGo, ih]

theorem loopGo_filter_other (c : BitVec 2) (q : Word) (ls : List LoopEnt) :
    (loopGo c q ls).1.filter (·.ctx != c) = ls.filter (·.ctx != c) := by
  induction ls with
  | nil => rfl
  | cons e r ih =>
    by_cases hc : e.ctx = c
    · simp only [List.filter_cons, hc, bne_self_eq_false, Bool.false_eq_true, loopGo, ne_eq, not_true, if_false]
      by_cases hfin : q = e.fin
      · simp only [if_pos hfin]
        by_cases hleft : e.index + 1 < e.count
        · simp only [if_pos hleft, List.filter_cons, bne_self_eq_false, Bool.false_eq_true, if_false]
        · simp only [if_neg hleft, ih]
      · simp only [if_neg hfin]
        by_cases hout : q < e.start ∨ e.fin < q
        · simp only [if_pos hout, ih]
        · simp only [if_neg hout, List.filter_cons, hc, bne_self_eq_false, Bool.false_eq_true, if_false]
    · simp [hc, loopGo, ih]

/-! ## The loop stacks of a machine -/

/-- The sequencer that moves, and the loop stack of every sequencer. -/
def Mach.loops (m : Mach) : SeqId × (SeqId → List LoopEnt) := (m.dev.cur, fun q => (m.seq q).ls)

section
variable {m m' : Mach} {α : Type}

theorem Mach.me_ls_of_loops (h : m'.loops = m.loops) : m'.me.ls = m.me.ls :=
  congrArg (fun p => p.2 p.1) h

theorem Mach.modSide_loops {k : Nat} {f : Side → Side} (h : ∀ r, ((f (m.side k)).seq r).ls = ((m.side k).seq r).ls) :
    (m.modSide k f).loops = m.loops := by
  refine Prod.ext rfl (funext fun q => ?_)
  cases q with
  | sup n => rfl
  | side j r =>
    by_cases hj : j.toNat = k
    · simp [Mach.loops, Mach.seq, hj, h]
    · simp [Mach.loops, Mach.seq, Mach.modSide_side_ne _ _ _ _ hj]

theorem Mach.modSide_loops_of_forall {k : Nat} {f : Side → Side} (h : ∀ s r, ((f s).seq r).ls = (s.seq r).ls) :
    (m.modSide k f).loops = m.loops := Mach.modSide_loops (h _)

theorem Mach.modSup_loops {n : Nat} {f : Sup → Sup} (h : (f (m.sup n)).seq.ls = (m.sup n).seq.ls) : (m.modSup n f).loops = m.loops := by
  refine Prod.ext rfl (funext fun q => ?_)
  cases q with
  | side j r => rfl
  | sup j =>
    by_cases hj : j.toNat = n
    · simp [Mach.loops, Mach.seq, hj, h]
    · simp [Mach.loops, Mach.seq, Mach.modSup_sup_ne _ _ _ _ hj]

theorem Mach.modSeq_loops {q : SeqId} {f : Seq → Seq} (h : (f (m.seq q)).ls = (m.seq q).ls) : (m.modSeq q f).loops = m.loops := by
  cases q with
  | sup n => exact Mach.modSup_loops h
  | side k r =>
    refine Mach.modSide_loops fun r' => ?_
    by_cases hr : r' = r
    · subst hr
      simpa [Mach.modSeq, Mach.seq] using h
    · rw [Side.seq_setSeq_ne _ _ _ _ hr]

theorem Mach.modMe_loops {f : Seq → Seq} (h : (f m.me).ls = m.me.ls) : (m.modMe f).loops = m.loops := Mach.modSeq_loops h

theorem Mach.foldl_loops {g : Mach → α → Mach} (h : ∀ m x, (g m x).loops = m.loops) (l : List α) (m : Mach) :
    (l.foldl g m).loops = m.loops :=
  List.foldlRecOn (motive := fun m1 => m1.loops = m.loops) l g rfl fun m1 ih x _ => (h m1 x).trans ih

theorem Mach.foldl_bind_loops {g : Mach → α → Option Mach} (h : ∀ m x m', g m x = some m' → m'.loops = m.loops) {l : List α}
    (hl : l.foldl (fun o x => o.bind (g · x)) (some m) = some m') : m'.loops = m.loops := by
  refine List.foldlRecOn (motive := fun o => ∀ m', o = some m' → m'.loops = m.loops) l _ ?start ?next m' hl
  case start => exact fun m1 h1 => by rw [Option.some.inj h1]
  case next =>
    intro o ih x _ m2 h2
    obtain ⟨m1, h1, hg⟩ := Option.bind_eq_some_iff.mp h2
    exact (h m1 x m2 hg).trans (ih m1 h1)

@[simp] theorem Mach.ite_loops {p : Prop} [Decidable p] : (if p then m else m').loops = if p then m.loops else m'.loops :=
  apply_ite Mach.loops p m m'

theorem Mach.must_loops {o : Option Mach} (h : ∀ m', o = some m' → m'.loops = m.loops) : (m.must o).loops = m.loops := by
  cases o with
  | none => rfl
  | some m' => exact h m' rfl

end

/-! ## DRAM and its channels -/

section
variable (m : Mach) {m' : Mach}

@[simp] theorem Mach.wr_loops (a n v : Nat) : (m.wr a n v).loops = m.loops := rfl
@[simp] theorem Mach.modDie_loops (d : Nat) (f : Die → Die) : (m.modDie d f).loops = m.loops := rfl
@[simp] theorem Mach.modCluster_loops (k : Nat) (f : Cluster → Cluster) : (m.modCluster k f).loops = m.loops := rfl
@[simp] theorem Mach.setPoison_loops (mpa : Nat) (p : Bool) : (m.setPoison mpa p).loops = m.loops := rfl
@[simp] theorem Mach.dropReads_loops (grp : Nat) : (m.dropReads grp).loops = m.loops := rfl
@[simp] theorem Mach.icDrop_loops (die : Nat) (pid : BitVec 4) (asn : BitVec 16) (line : Nat) : (m.icDrop die pid asn line).loops = m.loops := rfl

@[simp] theorem Mach.combFlush_loops (mpa : Nat) : (m.combFlush mpa).loops = m.loops := by
  unfold Mach.combFlush
  dsimp only
  split
  next => rfl
  next c _ =>
    refine (Mach.foldl_loops (fun m i => ?_) _ _).trans rfl
    split <;> rfl

@[simp] theorem Mach.logReclaim_loops (d n : Nat) : (m.logReclaim d n).loops = m.loops := by
  induction n generalizing m with
  | zero => rfl
  | succ n ih =>
    unfold Mach.logReclaim
    dsimp only
    split
    next => rfl
    next =>
      split
      next => rfl
      next => exact (ih _).trans rfl

@[simp] theorem Mach.logFree_loops (d : Nat) : (m.logFree d).loops = m.loops := Mach.logReclaim_loops m d _

variable {m}

theorem Mach.undoLog_loops {mpa : Nat} {pid : BitVec 4} {forced : Bool} (h : m.undoLog mpa pid forced = some m') : m'.loops = m.loops := by
  unfold Mach.undoLog at h
  dsimp only at h
  obtain ⟨-, hroom⟩ := Option.ite_none_left_eq_some.mp h
  rw [← Option.some.inj hroom]
  simp only [Mach.wr_loops, Mach.logFree_loops]

@[simp] theorem Mach.wrMask_loops (m : Mach) (a : Nat) (data : Sector) (mask : SMask) : (m.wrMask a data mask).loops = m.loops := by
  unfold Mach.wrMask
  split
  · rfl
  · refine Mach.foldl_loops (fun m i => ?_) _ _
    split <;> rfl

theorem Mach.chanWrite_loops {mpa : Nat} {data : Sector} {mask : SMask} {pois frost : Bool} {pid : BitVec 4} {forced : Bool}
    (h : m.chanWrite mpa data mask pois frost pid forced = some m') : m'.loops = m.loops := by
  obtain ⟨m1, hlog, rfl⟩ := Option.map_eq_some_iff.mp h
  have h1 : m1.loops = m.loops := by
    split at hlog
    · exact (Mach.undoLog_loops hlog).trans (by simp)
    · rw [← Option.some.inj hlog, Mach.combFlush_loops]
  dsimp only
  split
  next => rw [Mach.setPoison_loops, Mach.wrMask_loops, h1]
  next =>
    split
    next => rw [Mach.setPoison_loops, Mach.wrMask_loops, h1]
    next => rw [Mach.wrMask_loops, h1]

theorem Mach.chanPut_loops {mpa n v : Nat} {frost : Bool} {pid : BitVec 4} (h : m.chanPut mpa n v frost pid = some m') :
    m'.loops = m.loops :=
  Mach.foldl_bind_loops (fun _ _ _ => Mach.chanWrite_loops) h

end

/-! ## Translation, the error log and batches -/

section
variable (m : Mach) {m' : Mach}

@[simp] theorem Mach.irqSup_loops (n : Nat) (src : BitVec 8) : (m.irqSup n src).loops = m.loops := Mach.modSup_loops rfl

@[simp] theorem Mach.logErr_loops (d : Nat) (kind : BitVec 8) (place : BitVec 16) (addr detail : Word) :
    (m.logErr d kind place addr detail).loops = m.loops := by
  unfold Mach.logErr
  dsimp only
  split <;> simp

@[simp] theorem Mach.lostWrite_loops (die mpa : Nat) : (m.lostWrite die mpa).loops = m.loops := Mach.logErr_loops ..

@[simp] theorem Mach.goneEvent_loops (die : Nat) (pid : Option (BitVec 4)) (asn : BitVec 16) (va n : Nat) :
    (m.goneEvent die pid asn va n).loops = m.loops := by
  unfold Mach.goneEvent
  split
  · simp
  · split <;> simp

@[simp] theorem Mach.closeBatch_loops (d : Nat) : (m.closeBatch d).loops = m.loops := by
  unfold Mach.closeBatch
  dsimp only
  split
  next => rfl
  split
  next => rfl
  next =>
    refine (Mach.foldl_loops (fun m e => ?_) _ _).trans rfl
    simp only [Mach.ite_loops, Mach.logErr_loops, Mach.modDie_loops, ite_self]

@[simp] theorem Mach.batchPush_loops (d : Nat) (w : BWrite) : (m.batchPush d w).loops = m.loops := by
  unfold Mach.batchPush
  dsimp only
  split <;> simp

@[simp] theorem Mach.putEnt_loops (pid : BitVec 4) (l : Leaf) (v : Nat) : (m.putEnt pid l v).loops = m.loops := by
  unfold Mach.putEnt
  dsimp only
  split
  · simp [Mach.must_loops (fun _ => Mach.undoLog_loops)]
  · simp

@[simp] theorem Mach.orEnt_loops (pid : BitVec 4) (l : Leaf) (bits : Nat) : (m.orEnt pid l bits).loops = m.loops := by
  unfold Mach.orEnt
  dsimp only
  split <;> simp

variable {m}

theorem Mach.ownPair_loops {pid : BitVec 4} {asn : BitVec 16} {va : Nat} {t : Tr} (h : m.ownPair pid asn va t = .ok m') :
    m'.loops = m.loops := by
  unfold Mach.ownPair at h
  dsimp only at h
  split at h
  next => cases h; rfl
  split at h
  next => contradiction
  split at h
  next => contradiction
  next => cases h; rfl

theorem Mach.xlate_loops {die : Nat} {pid : BitVec 4} {asn : BitVec 16} {va : Nat} {t : Tr} (h : m.xlate die pid asn va = .ok (t, m')) :
    m'.loops = m.loops := by
  unfold Mach.xlate at h
  split at h
  next => contradiction
  next =>
    split at h
    next => contradiction
    next m1 hown =>
      cases h
      simp [Mach.ownPair_loops hown]

@[simp] theorem Mach.frameOf_loops (m : Mach) (die : Nat) (pid : Option (BitVec 4)) (asn : BitVec 16) (va : Nat) :
    (m.frameOf die pid asn va).2.loops = m.loops := by
  unfold Mach.frameOf
  split
  next => rfl
  next =>
    split
    next => rfl
    next =>
      split
      next h => exact Mach.xlate_loops h
      next => rfl

end

/-! ## L2 and the writes of a queue frame -/

section
variable {m m' : Mach}

theorem Mach.l2Down_loops {die : Nat} {s : L2Sec} {forced : Bool} (h : m.l2Down die s forced = some m') : m'.loops = m.loops := by
  have hframe := Mach.frameOf_loops m die (some s.pid) s.asn (s.sec * 128)
  unfold Mach.l2Down at h
  split at h
  next => rw [← Option.some.inj h]
  next =>
    dsimp only at h
    generalize m.frameOf die (some s.pid) s.asn (s.sec * 128) = p at h hframe
    obtain ⟨f, m1⟩ := p
    refine Eq.trans ?_ hframe
    cases f with
    | none => rw [← Option.some.inj h, Mach.goneEvent_loops]
    | some fr =>
      dsimp only at h
      split at h
      next => rw [← Option.some.inj h]
      split at h
      next => rw [← Option.some.inj h, Mach.lostWrite_loops]
      split at h
      next => exact Mach.chanWrite_loops h
      next => rw [← Option.some.inj h, Mach.batchPush_loops]

theorem Mach.l2Evict_loops {die : Nat} {pid : BitVec 4} {asn : BitVec 16} {line : Nat} {forced : Bool}
    (h : m.l2Evict die pid asn line forced = some m') : m'.loops = m.loops := by
  obtain ⟨m1, hdown, rfl⟩ := Option.map_eq_some_iff.mp h
  exact (Mach.modDie_loops ..).trans (Mach.foldl_bind_loops (fun _ _ _ => Mach.l2Down_loops) hdown)

theorem Mach.snoop_loops {mpa : Nat} {forced : Bool} (h : m.snoop mpa forced = some m') : m'.loops = m.loops := by
  refine Mach.foldl_bind_loops (fun m1 o m2 ho => ?_) h
  obtain ⟨m3, hevict, rfl⟩ := Option.map_eq_some_iff.mp ho
  rw [Mach.icDrop_loops, Mach.l2Evict_loops hevict]

@[simp] theorem Mach.clearLines_loops (m : Mach) (a n : Nat) : (m.clearLines a n).loops = m.loops :=
  Mach.foldl_loops (fun _ _ => (Mach.combFlush_loops _ _).trans (Mach.must_loops fun _ => Mach.snoop_loops)) _ m

@[simp] theorem Mach.physPut_loops (m : Mach) (a n v : Nat) (frost : Bool) (pid : BitVec 4) : (m.physPut a n v frost pid).loops = m.loops :=
  (Mach.must_loops fun _ => Mach.chanPut_loops).trans (Mach.clearLines_loops m a n)

@[simp] theorem Mach.putFrame_loops (m : Mach) (a : Nat × Bool) (pid : BitVec 4) (resume : Word) (es : List VqEntry) :
    (m.putFrame a pid resume es).loops = m.loops := Mach.physPut_loops ..

end

/-! ## Completion (R288) -/

theorem Mach.goto_log (m : Mach) (q : Word) : (m.goto q).log = m.log := by
  simp [Mach.goto]

/-- A taken branch completes as its target's successor does, with the line to be fetched anew. -/
theorem Mach.jump_me (m : Mach) (t : Word) : (m.jump t).me = { (m.goto t).me with line := none } :=
  Mach.me_modMe _ _

/-! ## The steps of a trap (R206) -/

/-- Steps that each keep the loop stack keep it together. -/
theorem Seq.foldl_ls {α : Type} {g : Seq → α → Seq} (h : ∀ q a, (g q a).ls = q.ls) (l : List α) (q : Seq) :
    (l.foldl g q).ls = q.ls :=
  List.foldlRecOn (motive := fun q1 => q1.ls = q.ls) l g rfl fun q1 ih a _ => (h q1 a).trans ih

@[simp] theorem Seq.markDsts_ls (q : Seq) (full : Bool) (es : List VqEntry) : (q.markDsts full es).ls = q.ls := by
  refine Seq.foldl_ls (fun q e => ?_) es q
  split <;> simp

theorem Side.unwind_ls (s : Side) (r : Role) : (s.unwind.seq r).ls = (s.seq r).ls := by
  cases r <;> simp [Side.unwind, Side.seq]

section
variable (m : Mach)

@[simp] theorem Mach.setTrap_loops (q : SeqId) (t : TrapSet) : (m.setTrap q t).loops = m.loops := by
  cases q with
  | side k r => exact Mach.modSide_loops fun r => by cases r <;> rfl
  | sup n => exact Mach.modSup_loops rfl

theorem Mach.modMySide_loops {f : Side → Side} (h : ∀ s r, ((f s).seq r).ls = (s.seq r).ls) : (m.modMySide f).loops = m.loops := by
  unfold Mach.modMySide
  split
  · exact Mach.modSide_loops_of_forall h
  · rfl

@[simp] theorem Mach.calm_loops : m.calm.loops = m.loops :=
  Mach.modMySide_loops m fun _ r => by cases r <;> rfl

@[simp] theorem Mach.drainArrivals_loops (q : SeqId) : (m.drainArrivals q).loops = m.loops := by
  refine (Mach.foldl_loops (fun m a => ?_) _ _).trans rfl
  exact Mach.modSeq_loops (Seq.setReg_ls ..)

@[simp] theorem Mach.drainSide_loops (q : SeqId) : (m.drainSide q).loops = m.loops := by
  cases q with
  | sup n => exact Mach.drainArrivals_loops m _
  | side k r => exact Mach.foldl_loops (fun m r => Mach.drainArrivals_loops m _) _ m

@[simp] theorem Mach.noteAlias_loops (va : Word) : (m.noteAlias va).loops = m.loops := by
  unfold Mach.noteAlias
  dsimp only
  split
  · rfl
  · split <;> rfl

@[simp] theorem Mach.forgetWaits_loops (q : SeqId) : (m.forgetWaits q).loops = m.loops := by
  cases q with
  | sup n => rfl
  | side k r =>
    refine (Mach.modCluster_loops ..).trans ((Mach.modSide_loops fun r => ?_).trans (Mach.modSeq_loops ?_))
    · cases r <;> rfl
    · exact Seq.foldl_ls (fun s d => Seq.setReg_ls ..) _ _

@[simp] theorem Mach.unwindSide_loops (k : Nat) : (m.unwindSide k).loops = m.loops :=
  (Mach.dropReads_loops ..).trans (Mach.modSide_loops (Side.unwind_ls _))

@[simp] theorem Mach.doubleFault_loops : m.doubleFault.loops = m.loops := by
  refine (Mach.modDie_loops ..).trans ((Mach.logErr_loops ..).trans ?_)
  split
  · exact Mach.modSide_loops fun r => by cases r <;> rfl
  · exact Mach.modSeq_loops rfl

@[simp] theorem Mach.enter_loops (l : Level) (t : TrapReq) (epc : Word) (vq : Bool) : (m.enter l t epc vq).loops = m.loops :=
  (Mach.modMe_loops rfl).trans (by simp)

@[simp] theorem Mach.enterU_loops (t : TrapReq) (epc : Word) : (m.enterU t epc).loops = m.loops :=
  (Mach.modMe_loops (by simp)).trans (Mach.calm_loops m)

@[simp] theorem Mach.enterIntr_loops (src : BitVec 8) (l : Level) (frame : Bool) : (m.enterIntr src l frame).loops = m.loops :=
  (Mach.setTrap_loops ..).trans (Mach.enter_loops ..)

/-! ## Traps, interrupts and the way back -/

theorem Mach.trap_loops (t : TrapReq) : (m.trap t).loops = m.loops := by
  unfold Mach.trap
  dsimp only
  -- The trap waits for values of its own, of the queue entry, or of the side's other sequencers.
  split
  next => exact Mach.modMe_loops rfl
  split
  next => rfl
  split
  next => exact Mach.modMe_loops rfl
  -- It is a double fault, it enters the handler of U, or it enters a level above U.
  split
  next => simp
  next => simp
  next =>
    split
    next =>
      -- A frame or a record goes to the trap area, which is there or not.
      split
      next => simp
      next => cases t.record <;> simp
    next => simp

theorem Mach.interrupt_loops (src : BitVec 8) (l : Level) : (m.interrupt src l).loops = m.loops := by
  unfold Mach.interrupt
  extract_lets q m1 es area
  have h1 : m1.loops = m.loops := Mach.drainSide_loops m q
  split
  next => rw [Mach.enterIntr_loops, h1]
  split
  next => rw [Mach.enter_loops, Mach.unwindSide_loops, h1]
  next => rw [Mach.enterIntr_loops, Mach.unwindSide_loops, Mach.putFrame_loops, h1]

theorem Mach.eret_loops : m.eret.loops = m.loops := by
  unfold Mach.eret
  dsimp only
  split
  next =>
    refine (Mach.modSide_loops_of_forall fun s r => ?_).trans ((Mach.modMe_loops rfl).trans (Mach.setTrap_loops ..))
    cases s.frame <;> cases r <;> dsimp only [Side.seq]
    case none.P => split <;> rfl
    case some.P => split <;> simp [Side.reissue]
    all_goals rfl
  next => exact (Mach.modMe_loops rfl).trans (Mach.setTrap_loops ..)

end

end Sys2Proof.Machine

section
open Sys2Proof Sys2Proof.Machine

/-- Settles O7: completing runs `loopGo` on the whole stack, which is the rule of R288 on the entries of the current context and the identity on
the others; traps, interrupts and `eret` keep every loop stack. -/
theorem loopRule : Obligations.LoopRule := by
  intro m q
  have hrule := loopRule_filter_ctx m.me.ctx q m.me.ls
  have hother := loopGo_filter_other m.me.ctx q m.me.ls
  simp only [Mach.goto_me, hrule, hother]
  refine ⟨trivial, trivial, trivial, trivial, trivial, trivial, trivial, Mach.goto_log m q,
    fun n => ?jump, fun t => ?trap, fun src l => ?interrupt, ?eret⟩
  case jump => simp only [Mach.retire, Mach.jump_me, Mach.goto_me, and_self]
  case trap => exact Mach.me_ls_of_loops (Mach.trap_loops m t)
  case interrupt => exact Mach.me_ls_of_loops (Mach.interrupt_loops m src l)
  case eret => exact Mach.me_ls_of_loops (Mach.eret_loops m)

end

/-! What an instruction at the head of the vector queue does when its checks pass: it acts on the machine that has left the queue, it reads its
sources, and as it completes nothing that the lanes do has to wait. The queue, the predicates and the permutations rest on these. -/

namespace Sys2Proof.Machine

/-! ## Leaving the queue (R250) -/

theorem atHead_iff {s : State} {k : BitVec 10} {e : VqEntry} {p : Pipe} {wait : BitVec 8} {named : Bool} :
    Claims.atHead s k e p wait named = true ↔ s.mach.headIs k e = true ∧ s.mach.leaves k.toNat e p wait = true
      ∧ s.mach.acts k.toNat named = true ∧ (s.mach.unread k.toNat).isEmpty = true := by
  simp only [Claims.atHead, Bool.and_eq_true, and_assoc]

theorem atHeadT_iff {s : State} {k : BitVec 10} {e : VqEntry} {ts : Option ETy} {p : Pipe} {wait : BitVec 8} :
    Claims.atHeadT s k e ts p wait = true ↔ Claims.atHead s k e p wait true = true ∧ (s.mach.side k.toNat).sized ts = true := by
  simp only [Claims.atHeadT, Bool.and_eq_true]

/-- Leaving the queue changes nothing that says whether the lanes can read a source. -/
@[simp] theorem Mach.left_unread (m : Mach) (k : Nat) : (m.left k).unread k = m.unread k := by
  simp only [Mach.unread, Mach.holdsOf, Mach.left, Mach.modSide_side, Mach.modSide_core]
  rfl

@[simp] theorem Mach.left_sized (m : Mach) (k : Nat) (ts : Option ETy) : ((m.left k).side k).sized ts = (m.side k).sized ts := by
  simp only [Mach.left, Mach.modSide_side]
  rfl

section
variable {s : State} {k : BitVec 10} {e : VqEntry} {p : Pipe} {wait : BitVec 8} {i : Instr} {capOk : Bool} {dst : Option Reg}
  {ss carry : List Src}

/-- An instruction that R252 names, at the head of the queue with its checks passed. -/
theorem vec_leave_of_atHead (h : Claims.atHead s k e p wait true = true) (zero : Nat → Mach → Mach) (act : Nat → VqEntry → Mach → Mach) :
    s.mach.vec i capOk dst ss carry (fun k e m => m.leave k e p wait (some (zero k)) (act k e)) = act k.toNat e (s.mach.left k.toNat) := by
  obtain ⟨hhead, hleaves, hacts, -⟩ := atHead_iff.mp h
  rw [Mach.vec_head hhead]
  exact Mach.leave_acts (zero := some (zero k.toNat)) hleaves hacts _

/-- The same with a tsel field (R248). -/
theorem vec_leaveT_of_atHeadT {ts : Option ETy} (h : Claims.atHeadT s k e ts p wait = true) (zero : Nat → Mach → Mach)
    (act : Nat → VqEntry → Mach → Mach) :
    s.mach.vec i capOk dst ss carry (fun k e m => m.leaveT k e ts p wait (some (zero k)) (act k e)) = act k.toNat e (s.mach.left k.toNat) := by
  obtain ⟨hhead, hsized⟩ := atHeadT_iff.mp h
  have hleft : ((s.mach.left k.toNat).side k.toNat).sized ts = true := by rw [Mach.left_sized, hsized]
  refine (vec_leave_of_atHead hhead zero fun k e m => if (m.side k).sized ts then act k e m else m.trapHead 0x01).trans ?_
  exact if_pos hleft

theorem left_unread_of_atHeadT {ts : Option ETy} (h : Claims.atHeadT s k e ts p wait = true) :
    ((s.mach.left k.toNat).unread k.toNat).isEmpty = true := by
  obtain ⟨-, -, -, hunread⟩ := atHead_iff.mp (atHeadT_iff.mp h).1
  rwa [Mach.left_unread]

end

/-- An instruction whose type is legal and whose sources can be read computes from what `reads` gives (R174, R155). -/
theorem Mach.lop_of_reads {m m1 : Mach} {k n : Nat} {ok : Bool} {d : Option VR} {vs : List VR} {src : List (VR × VReg)}
    (hunread : (m.unread k).isEmpty = true) (hok : ok = true) (hroom : (d.isSome && (m.side k).stripFull) = false)
    (hreads : m.reads k n vs d = some (src, m1)) (f : List (VR × VReg) → Mach → Mach → Mach) : m.lop k ok d n vs f = f src m m1 := by
  subst hok
  obtain ⟨⟨src', m'⟩, hsrc, hpair⟩ := Option.map_eq_some_iff.mp hreads
  obtain ⟨rfl, rfl⟩ := Prod.mk.inj hpair
  refine Mach.lop_read hunread hroom ?_ f
  cases hv : m.vsrcs k n vs [] with
  | error m2 => rw [hv] at hsrc; contradiction
  | ok x => rw [hv] at hsrc; rw [Option.some.inj hsrc]

/-! ## Completing (R152 to R156) -/

section
variable (m : Mach)

@[simp] theorem Mach.irqSup_stall (n : Nat) (src : BitVec 8) : (m.irqSup n src).stall = m.stall := rfl

@[simp] theorem Mach.logErr_stall (d : Nat) (kind : BitVec 8) (place : BitVec 16) (addr detail : Word) :
    (m.logErr d kind place addr detail).stall = m.stall := by
  unfold Mach.logErr
  dsimp only
  split <;> rfl

@[simp] theorem Mach.release_stall (k : Nat) (h : LaneHold) : (m.release k h).stall = m.stall := Mach.logErr_stall ..

@[simp] theorem Mach.fill_stall (q : SeqId) (d : Reg) (v : Word) (p : Bool) : (m.fill q d v p).stall = m.stall := Mach.setSeq_stall ..

@[simp] theorem Mach.lanes_stall (k : Nat) : (m.lanes k).stall = m.stall := by
  have hrelease : ((m.holdsOf k).foldl (fun m h => m.release k h) m).stall = m.stall :=
    List.foldlRecOn (motive := fun m1 => m1.stall = m.stall) _ _ rfl fun m1 ih h _ => (Mach.release_stall m1 k h).trans ih
  unfold Mach.lanes
  dsimp only
  rw [Mach.modCore_stall, ← hrelease]
  split
  · rfl
  split
  · split
    · exact Mach.setSeq_stall ..
    · rfl
  · rfl

@[simp] theorem Mach.vfin_stall (k : Nat) (lanes : Bool) : (m.vfin k lanes).stall = m.stall := by
  cases lanes
  · rfl
  · exact Mach.lanes_stall m k

end

end Sys2Proof.Machine

/-! The predicate instructions (R313, R314): what `putBits` leaves in each bit, and the scalars as facts about the active elements. -/

namespace Sys2Proof.Machine

section
variable {x : Side} {pg : PR} {j : Nat}

theorem Side.lt_vl_of_active (h : x.active pg j = true) : j < x.vl.toNat := by
  simp only [Side.active, Bool.and_eq_true, decide_eq_true_eq] at h
  obtain ⟨⟨⟨-, hlt⟩, -⟩, -⟩ := h
  exact hlt

theorem Side.mem_actives : j ∈ x.actives pg ↔ x.active pg j = true := by
  simp only [Side.actives, List.mem_filter, List.mem_range, and_iff_right_iff_imp]
  exact Side.lt_vl_of_active

end

/-- Writing one bit of a predicate. -/
theorem getLsbD_putBits_cons (b : PBits) (e : Nat) (v : Bool) (l : List El) {j : Nat} (hj : j < 1024) :
    ∃ b' : PBits, putBits b ((e, nb v, false) :: l) = putBits b' l ∧ b'.getLsbD j = if j = e then v else b.getLsbD j := by
  refine ⟨_, rfl, ?_⟩
  have hbit : (1#1024 <<< e).getLsbD j = decide (j = e) := by
    rw [← BitVec.twoPow_eq, BitVec.getLsbD_twoPow]
    by_cases he : e = j
    · simp [he, hj]
    · simp [he, Ne.symm he]
  dsimp only
  generalize 1#1024 <<< e = bit at hbit ⊢
  by_cases he : j = e
  · subst he
    cases v <;> simp [nb, hbit, hj]
  · cases v <;> simp [nb, hbit, he, hj, -BitVec.getLsbD_eq_getElem]

/-- Bits written from a function of their index: each one listed takes its value, and every other stays. -/
theorem getLsbD_putBits (f : Nat → Bool) {j : Nat} (hj : j < 1024) (l : List Nat) (b : PBits) :
    (putBits b (l.map fun e => (e, nb (f e), false))).getLsbD j = if j ∈ l then f j else b.getLsbD j := by
  induction l generalizing b with
  | nil => rfl
  | cons e r ih =>
    obtain ⟨b', hput, hbit⟩ := getLsbD_putBits_cons b e (f e) (r.map fun e => (e, nb (f e), false)) hj
    rw [List.map_cons, hput, ih, hbit]
    by_cases hr : j ∈ r
    · simp [hr]
    · by_cases he : j = e <;> simp [hr, he]

theorem plogBit_xor (a b : Bool) : plogBit .xor a b = (a ^^ b) := by
  cases a <;> cases b <;> rfl

theorem plogBit_xnor (a b : Bool) : plogBit .xnor a b = !(a ^^ b) := by
  cases a <;> cases b <;> rfl

theorem exec_plog (d a b pg : PR) (op : PlogOp) (s : State) : exec (.plog d a b pg op) s = execPlog d a b pg op s := rfl

/-- Every instruction of `predValue` is a `predOp` of its bit. -/
theorem exec_of_predValue {i : Instr} {d pg : PR} {f : Side → Nat → Bool} (h : Claims.predValue i = some (d, pg, f)) (s : State) :
    exec i s = run (fun m => m.predOp i d pg f) s := by
  unfold Claims.predValue at h
  split at h
  case h_2 op =>
    cases h
    refine (exec_plog ..).trans (congrArg (fun f => run (fun m => m.predOp _ d pg f) s) (funext fun x => funext fun j => ?_))
    cases op with
    | xor => exact plogBit_xor ..
    | xnor => exact plogBit_xnor ..
    | _ => rfl
  case h_5 => contradiction
  all_goals
    cases h
    rfl

theorem predOp_of_atHead {s : State} {k : BitVec 10} {e : VqEntry} (h : Claims.atHead s k e .perm 0 true = true) (i : Instr) (d pg : PR)
    (f : Side → Nat → Bool) :
    s.mach.predOp i d pg f = (s.mach.left k.toNat).pdone k.toNat d
      ((((s.mach.left k.toNat).side k.toNat).actives pg).map fun j => (j, nb (f ((s.mach.left k.toNat).side k.toNat) j), false)) :=
  vec_leave_of_atHead h _ _

theorem exec_pfirst (d : Reg) (a pg : PR) (s : State) : exec (.pfirst d a pg) s =
    run (fun m => m.scalarOut (.pfirst d a pg) d pg fun x l => (l.find? fun e => (x.pred a).getLsbD e).getD x.vl.toNat) s := rfl

theorem exec_pcnt (d : Reg) (a pg : PR) (s : State) : exec (.pcnt d a pg) s =
    run (fun m => m.scalarOut (.pcnt d a pg) d pg fun x l => (l.filter fun e => (x.pred a).getLsbD e).length) s := rfl

theorem scalarOut_of_atHead {s : State} {k : BitVec 10} {e : VqEntry} (h : Claims.atHead s k e .perm 0 true = true) (i : Instr) (d : Reg)
    (pg : PR) (f : Side → List Nat → Nat) :
    s.mach.scalarOut i d pg f = ((s.mach.left k.toNat).fill (.side k .P) d
      (w64 (f ((s.mach.left k.toNat).side k.toNat) (((s.mach.left k.toNat).side k.toNat).actives pg))) false).vfin k.toNat true := by
  refine (vec_leave_of_atHead h _ _).trans ?_
  simp only [BitVec.ofNat_toNat, BitVec.setWidth_eq]

section
variable (x : Side) (pg : PR) (q : Nat → Bool)

theorem Side.find?_actives :
    (x.actives pg).find? q = (List.range x.vl.toNat).find? fun j => x.active pg j && q j := by
  simp [Side.actives, List.find?_filter]

theorem Side.find?_actives_of_first {j : Nat} (hj : (x.active pg j && q j) = true) (hlow : ∀ i < j, (x.active pg i && q i) = false) :
    (x.actives pg).find? q = some j := by
  have hlt : j < x.vl.toNat := Side.lt_vl_of_active (Bool.and_eq_true_iff.mp hj).1
  rw [Side.find?_actives, List.find?_range_eq_some]
  exact ⟨hj, List.mem_range.mpr hlt, fun i hi => by simp [hlow i hi]⟩

theorem Side.find?_actives_of_none (hnone : ∀ j, (x.active pg j && q j) = false) : (x.actives pg).find? q = none := by
  rw [Side.find?_actives, List.find?_eq_none]
  exact fun j _ => by simp [hnone j]

theorem Side.length_filter_actives :
    ((x.actives pg).filter q).length = (List.range x.vl.toNat).countP fun j => x.active pg j && q j := by
  simp [Side.actives, List.filter_filter, List.countP_eq_length_filter, Bool.and_comm]

end

end Sys2Proof.Machine

section
open Sys2Proof Sys2Proof.Machine

/-- The first part of O21: the bits written are those of `putBits`. -/
theorem predicateWrites : Claims.PredicateWrites := by
  intro i d pg f hi s k e hhead
  refine ⟨_, does_of_run (exec_of_predValue hi s) (predOp_of_atHead hhead i d pg f) ?stall, fun j hj => ?bits⟩
  case stall => exact Mach.vfin_stall ..
  case bits =>
    rw [getLsbD_putBits _ hj]
    simp only [Side.mem_actives]

/-- The second part of O21: the scalars that the registers take are facts about the active elements. -/
theorem predicateScalars : Claims.PredicateScalars := by
  intro s k e d a pg hhead
  extract_lets m x on out
  have hstall : ∀ v, (out v).stall = false := fun v => by
    simp only [out, Mach.vfin_stall, Mach.fill_stall]
    rfl
  have hfirst : Claims.Does (.pfirst d a pg) s (out (w64 (((x.actives pg).find? fun j => (x.pred a).getLsbD j).getD x.vl.toNat))) :=
    does_of_run (exec_pfirst d a pg s) (scalarOut_of_atHead hhead _ d pg _) (hstall _)
  have hcount : Claims.Does (.pcnt d a pg) s (out (w64 ((x.actives pg).filter fun j => (x.pred a).getLsbD j).length)) :=
    does_of_run (exec_pcnt d a pg s) (scalarOut_of_atHead hhead _ d pg _) (hstall _)
  refine ⟨fun j hj hlow => ?first, fun hnone => ?none, ?count⟩
  case first => rwa [Side.find?_actives_of_first x pg _ hj hlow] at hfirst
  case none =>
    rw [Side.find?_actives_of_none x pg _ hnone] at hfirst
    rwa [← BitVec.ofNat_toNat]
  case count => rwa [Side.length_filter_actives] at hcount

/-- Settles O21: the bits of the active elements and the scalars that `pfirst` and `pcnt` fill. -/
theorem predicateResults : Obligations.PredicateResults := ⟨predicateWrites, predicateScalars⟩

end

/-! The permutations (R324 to R326). Each acts on what `reads` gives; the lists of elements that the model builds are those of the claim. -/

namespace Sys2Proof.Machine

/-- An element below vl, and 0 beyond it (R324, R326). -/
theorem elOf_below (src : List (VR × VReg)) (v : VR) (es i vl : Nat) :
    (if i < vl then elOf src v es i else (0, false))
      = (if i < vl then (srcOf src v).el es i else 0, decide (i < vl) && (srcOf src v).bad es i) := by
  by_cases hi : i < vl <;> simp [elOf, hi]

/-- The active elements first and zeros behind them, as one list over the indices (R325). -/
theorem compress_els (g : Nat → Nat × Bool) (act : List Nat) (vl : Nat) :
    ((act.map g ++ List.replicate (vl - (act.map g).length) ((0 : Nat), false)).zipIdx.map fun (x, i) => (i, x.1, x.2))
      = (List.range (max vl act.length)).map fun j => match act[j]? with | some i => (j, (g i).1, (g i).2) | none => (j, 0, false) := by
  refine List.ext_getElem ?length fun j h1 h2 => ?element
  case length =>
    simp only [List.length_map, List.length_zipIdx, List.length_append, List.length_replicate, List.length_range]
    omega
  case element =>
    by_cases hj : j < act.length
    · simp [hj]
    · simp [List.getElem_append, hj]

/-- A count carried from element to element is the count over the elements before each (R325). -/
theorem rank_els (q : Nat → Bool) (md : Nat) (l : List Nat) (out : List El) (n : Nat) :
    (l.foldl (fun (acc : List El × Nat) e => (acc.1 ++ [(e, acc.2 % md, false)], acc.2 + nb (q e))) (out, n)).1
      = out ++ l.zipIdx.map fun y => (y.1, (n + (l.take y.2).countP q) % md, false) := by
  induction l generalizing out n with
  | nil => simp
  | cons a r ih =>
    have hcount : ∀ i, n + nb (q a) + (r.take i).countP q = n + ((a :: r).take (i + 1)).countP q := by
      intro i
      cases h : q a <;> simp [nb, h]
      omega
    rw [List.foldl_cons, ih]
    simp only [hcount]
    simp [List.zipIdx_succ, Function.comp_def]

section
variable (s : State) (ts : Option ETy) (pg : PR)

theorem exec_vperm (d a b : VR) : exec (.vperm d a b pg ts) s = execVperm d a b pg ts s := rfl

theorem exec_vcompress (d a : VR) : exec (.vcompress d a pg ts) s = execVcompress d a pg ts s := rfl

theorem exec_vexpand (d a : VR) : exec (.vexpand d a pg ts) s = execVexpand d a pg ts s := rfl

theorem exec_vins (d : VR) (a b : Src) : exec (.vins d a b ts) s = execVins d a b ts s := rfl

theorem exec_vext (d : Reg) (a : VR) (b : Src) : exec (.vext d a b ts) s = execVext d a b ts s := rfl

theorem exec_vrank (d : VR) (a : PR) (b : Src) : exec (.vrank d a b pg ts) s = execVrank d a b pg ts s := rfl

end

/-- An instruction with a tsel field that computes in the lanes, at the head of the queue with its checks passed: it answers next with what it
computes from the sources that `reads` gives. -/
theorem goes_of_lop {s : State} {k : BitVec 10} {e : VqEntry} {ts : Option ETy} {p : Pipe} {wait : BitVec 8} {i : Instr} {dst : Option Reg}
    {ss carry : List Src} {d : Option VR} {vs : List VR} {src : List (VR × VReg)} {m1 m2 : Mach} {cap : Mach → Bool}
    {zero : Nat → Mach → Mach} {ok : Nat → Mach → Bool} {n : Nat → Mach → Nat}
    {f : Nat → VqEntry → Mach → List (VR × VReg) → Mach → Mach → Mach} {meaning : Host.Outcome State Fault Refusal}
    (hexec : exec i s = meaning) (hhead : Claims.atHeadT s k e ts p wait = true)
    (hmeaning : meaning = run (fun m => m.vec i (cap m) dst ss carry fun k e m => m.leaveT k e ts p wait (some (zero k)) fun m =>
      m.lop k (ok k m) d (n k m) vs (f k e m)) s)
    (hok : ok k.toNat (s.mach.left k.toNat) = true) (hroom : (d.isSome && ((s.mach.left k.toNat).side k.toNat).stripFull) = false)
    (hreads : (s.mach.left k.toNat).reads k.toNat (n k.toNat (s.mach.left k.toNat)) vs d = some (src, m1))
    (hres : f k.toNat e (s.mach.left k.toNat) src (s.mach.left k.toNat) m1 = m2) : Claims.Goes i s m2 := by
  refine does_of_run (hexec.trans hmeaning) ((vec_leaveT_of_atHeadT hhead zero fun k e m => m.lop k (ok k m) d (n k m) vs (f k e m)).trans ?_)
  exact (Mach.lop_of_reads (left_unread_of_atHeadT hhead) hok hroom hreads _).trans hres

end Sys2Proof.Machine

section
open Sys2Proof Sys2Proof.Machine

/-- Settles O25: with its checks passed each permutation computes from the sources that `reads` gives. -/
theorem permutationResults : Obligations.PermutationResults := by
  intro s k e ts pg src m1 hhead
  extract_lets m x t es vl act i
  refine ⟨fun d a b hroom hreads => ?vperm, fun d a hroom hreads => ⟨?vcompress, ?vexpand⟩, fun d a b hroom hreads => ?vins,
    fun d a b hreads => ?vext, fun d a b hint hroom hreads => ?vrank⟩
  case vperm =>
    intro rs hsettles
    refine goes_of_lop (exec_vperm ..) hhead rfl rfl hroom hreads ?_
    simp only [elOf_below]
    exact Mach.settle_settles hsettles 0 _
  case vcompress =>
    exact goes_of_lop (exec_vcompress ..) hhead rfl rfl hroom hreads (congrArg (m1.vdone k.toNat d es) (compress_els (elOf src a es) act vl))
  case vexpand => exact goes_of_lop (exec_vexpand ..) hhead rfl rfl hroom hreads rfl
  case vins => exact goes_of_lop (exec_vins ..) hhead rfl rfl hroom hreads rfl
  case vext =>
    intro v
    refine goes_of_lop (exec_vext ..) hhead rfl rfl rfl hreads ?_
    simp only [elOf_below, BitVec.ofNat_toNat, BitVec.setWidth_eq]
    rfl
  case vrank =>
    exact goes_of_lop (exec_vrank ..) hhead rfl hint hroom hreads
      (congrArg (m1.vdone k.toNat d es) (rank_els (fun j => (x.pred a).getLsbD j) (256 ^ es) act [] (e.op 0).1.toNat))

end

/-! The index scratchpad (R374 to R377). The meaning of the four element-wise instructions is cut into the element that stops them and the state
that they leave, and that of `xdrain` into the entries it takes and the state it leaves; each statement is then a fact about the first entry or
element that stops. -/

namespace Sys2Proof.Machine

theorem find?_eq_some_of_imp {α : Type} {p q : α → Bool} {l : List α} {a : α} (himp : ∀ b, q b = true → p b = true)
    (hp : l.find? p = some a) (hq : q a = true) : l.find? q = some a := by
  rw [List.find?_eq_some_iff_append] at hp ⊢
  obtain ⟨-, before, behind, rfl, hbefore⟩ := hp
  refine ⟨hq, before, behind, rfl, fun b hb => ?_⟩
  have hpb := hbefore b hb
  cases hqb : q b with
  | false => rfl
  | true => rw [himp b hqb] at hpb; contradiction

/-! ## Elements (R374) -/

/-- The value operand of an element of an index instruction. -/
def ixValue (src : List (VR × VReg)) (val : Option VR) (es j : Nat) : Nat × Bool :=
  match val with
  | some v => elOf src v es j
  | none => (0, false)

/-- An element traps: its key or value is poisoned outside an unresolved strip, or an entry that it reads is uncorrectable. -/
def ixStops (unresolved : Bool) (x : IxState) (kf vf : Nat → Nat × Bool) (j : Nat) : Bool :=
  if (kf j).2 || (vf j).2 then !unresolved else (ixBad x (kf j).1).isSome

/-- The trap of an element that stops. -/
def Mach.ixTrap (m : Mach) (k : Nat) (x : IxState) (kf vf : Nat → Nat × Bool) (j : Nat) : Mach :=
  if (kf j).2 || (vf j).2 then m.laneTrap k 0x0c (w64 ((if (kf j).2 then 0x5000 else 0x1000) + j % 1024))
  else m.laneTrap k 0x0d ((ixBad x (kf j).1).getD 0)

/-- The entries, the failure bits and the results stand. -/
def Mach.ixCommit (k es : Nat) (pd : PR) (wr : Option VR) (ents : Tbl IxEnt) (rs : List (Nat × ERes × Bool)) (l : List El) (m : Mach) : Mach :=
  ((m.modIx k fun y => { y with ents := ents, usedIx := true }).modSide k fun y =>
    let z := y.setPred pd (putBits (y.pred pd) (rs.map fun r => (r.1, nb r.2.2, false)))
    match wr with
    | some d => z.wv d es l
    | none => z).vfin k true

/-- The active elements act: the first that stops traps on `m0`, and otherwise what they give stands on `m1`. -/
def Mach.ixElements (m0 m1 : Mach) (k es : Nat) (pd : PR) (wr : Option VR) (step : IxStep) (kf vf : Nat → Nat × Bool) (act : List Nat) : Mach :=
  let x := (m1.core (k / 2)).ix
  match act.find? (ixStops (m0.side k).unresolved x kf vf) with
  | some j => m0.ixTrap k x kf vf j
  | none =>
    let r := ixGo step kf vf act x.ents []
    m0.settle m1 k (r.2.map fun y => (y.1, y.2.1)) 0 (Mach.ixCommit k es pd wr r.1 r.2)

section
variable {m0 m1 : Mach} {k es j : Nat} {pd : PR} {wr : Option VR} {step : IxStep} {kf vf : Nat → Nat × Bool} {act : List Nat}
  {x : IxState}

theorem Mach.ixTrap_of_key (hk : (kf j).2 = true) : m0.ixTrap k x kf vf j = m0.laneTrap k 0x0c (w64 (0x5000 + j % 1024)) := by
  simp [Mach.ixTrap, hk]

theorem Mach.ixTrap_of_value (hk : (kf j).2 = false) (hv : (vf j).2 = true) :
    m0.ixTrap k x kf vf j = m0.laneTrap k 0x0c (w64 (0x1000 + j % 1024)) := by
  simp [Mach.ixTrap, hk, hv]

theorem Mach.ixTrap_of_entry {w : Word} (hk : (kf j).2 = false) (hv : (vf j).2 = false) (hbad : ixBad x (kf j).1 = some w) :
    m0.ixTrap k x kf vf j = m0.laneTrap k 0x0d w := by
  simp [Mach.ixTrap, hk, hv, hbad]

theorem ixStops_of_poison {u : Bool} (h : ((kf j).2 || (vf j).2) = true) : ixStops u x kf vf j = !u := if_pos h

theorem ixStops_of_fit {u : Bool} (h : ((kf j).2 || (vf j).2) = false) : ixStops u x kf vf j = (ixBad x (kf j).1).isSome :=
  if_neg (Bool.not_eq_true _ ▸ h)

/-- What stops an element in an unresolved strip stops it outside one too. -/
theorem ixStops_imp {u : Bool} (h : ixStops u x kf vf j = true) : ((kf j).2 || (vf j).2 || (ixBad x (kf j).1).isSome) = true := by
  cases hp : (kf j).2 || (vf j).2 with
  | true => rfl
  | false => rwa [ixStops_of_fit hp] at h

/-- The first element whose operands or entries are unfit traps, if it stops where it stands. -/
theorem Mach.ixElements_of_stop
    (hfirst : act.find? (fun j => (kf j).2 || (vf j).2 || (ixBad (m1.core (k / 2)).ix (kf j).1).isSome) = some j)
    (hstops : ixStops (m0.side k).unresolved (m1.core (k / 2)).ix kf vf j = true) :
    m0.ixElements m1 k es pd wr step kf vf act = m0.ixTrap k (m1.core (k / 2)).ix kf vf j := by
  have hfind := find?_eq_some_of_imp (fun i hi => ixStops_imp hi) hfirst hstops
  simp only [Mach.ixElements, hfind]

/-- With no element that stops, and none whose result traps, the entries, failure bits and results stand. -/
theorem Mach.ixElements_of_settles {ents : Tbl IxEnt} {rs : List (Nat × ERes × Bool)}
    (hnone : act.all (fun j => if (kf j).2 || (vf j).2 then (m0.side k).unresolved else (ixBad (m1.core (k / 2)).ix (kf j).1).isNone) = true)
    (hgo : ixGo step kf vf act (m1.core (k / 2)).ix.ents [] = (ents, rs)) (hsettles : m0.settles k (rs.map fun y => (y.1, y.2.1)) = true) :
    m0.ixElements m1 k es pd wr step kf vf act = Mach.ixCommit k es pd wr ents rs (m0.settled m1 k (rs.map fun y => (y.1, y.2.1)) 0).1
      (m0.settled m1 k (rs.map fun y => (y.1, y.2.1)) 0).2 := by
  have hfind : act.find? (ixStops (m0.side k).unresolved (m1.core (k / 2)).ix kf vf) = none := by
    rw [List.find?_eq_none]
    intro j hj
    have hfit := List.all_eq_true.mp hnone j hj
    cases hp : (kf j).2 || (vf j).2 with
    | true =>
      rw [hp, if_pos rfl] at hfit
      simp [ixStops_of_poison hp, hfit]
    | false =>
      rw [hp, if_neg Bool.false_ne_true, Option.isNone_iff_eq_none] at hfit
      simp [ixStops_of_fit hp, hfit]
  simp only [Mach.ixElements, hfind, hgo]
  exact Mach.settle_settles hsettles 0 _

end

/-- Every instruction of `indexForm` is an `ixOp` of its step. -/
theorem exec_of_indexForm {i : Instr} {ts : Option ETy} {pg pd : PR} {wr : Option VR} {key : VR} {val : Option VR}
    {step : ETy → BitVec 3 → IxStep} (h : Claims.indexForm i = some (ts, pg, pd, wr, key, val, step)) (s : State) :
    exec i s = run (fun m => m.ixOp i ts pg pd wr key val step) s := by
  unfold Claims.indexForm at h
  split at h
  case h_5 => contradiction
  all_goals
    cases h
    rfl

/-- Such an instruction at the head of the queue, with its checks passed: its active elements act on what `reads` gives. -/
theorem ixOp_of_atHeadT {s : State} {k : BitVec 10} {e : VqEntry} {i : Instr} {ts : Option ETy} {pg pd : PR} {wr : Option VR} {key : VR}
    {val : Option VR} {step : ETy → BitVec 3 → IxStep} {src : List (VR × VReg)} {m1 : Mach} (hhead : Claims.atHeadT s k e ts .idx 0 = true)
    (hty : ixTy (((s.mach.left k.toNat).side k.toNat).ty ts) = true)
    (hstrip : wr = none → ((s.mach.left k.toNat).side k.toNat).strip = none)
    (hroom : ((s.mach.left k.toNat).side k.toNat).stripFull = false)
    (hreads : (s.mach.left k.toNat).reads k.toNat
      (((s.mach.left k.toNat).side k.toNat).vl.toNat * (((s.mach.left k.toNat).side k.toNat).ty ts).size) (key :: val.toList) wr = some (src, m1)) :
    let m := s.mach.left k.toNat
    let x := m.side k.toNat
    let t := x.ty ts
    s.mach.ixOp i ts pg pd wr key val step
      = m.ixElements m1 k.toNat t.size pd wr (step t x.frm) (elOf src key t.size) (ixValue src val t.size) (x.actives pg) := by
  have hopen : (ixTy (((s.mach.left k.toNat).side k.toNat).ty ts) && wr.isNone && ((s.mach.left k.toNat).side k.toNat).strip.isSome) = false := by
    cases wr with
    | none => simp [hstrip rfl]
    | some d => simp
  refine (vec_leaveT_of_atHeadT hhead (fun _ => id) _).trans ?_
  dsimp only
  rw [hopen, if_neg Bool.false_ne_true]
  exact Mach.lop_of_reads (left_unread_of_atHeadT hhead) hty (by simp [hroom]) hreads _

/-! ## Draining (R375, R169) -/

/-- The entries that `xdrain` takes. -/
def IxState.taken (x : IxState) (vl : Nat) : List (Nat × IxEnt) := (x.ents.filter fun y => x.cursor ≤ y.1).take vl

/-- The place behind the last entry taken. -/
def IxState.behind (x : IxState) (vl : Nat) : Nat :=
  match (x.taken vl).getLast? with
  | some y => y.1 + 1
  | none => x.cursor

/-- The end of the entries that `xdrain` reads: all of them where fewer than vl are left. -/
def IxState.readTo (x : IxState) (vl : Nat) : Nat := if (x.taken vl).length < vl then 4096 else x.behind vl

/-- The entries that are left. -/
def IxState.rest (x : IxState) (vl : Nat) : Tbl IxEnt := x.ents.filter fun z => !(x.taken vl).any (·.1 == z.1)

/-- The uncorrectable entry that `xdrain` reads first. -/
def IxState.drainBad (x : IxState) (vl : Nat) : Option (Nat × Word) := x.bad.find? fun y => x.cursor ≤ y.1 && y.1 < x.readTo vl

/-- A field of each entry taken, and zeros behind them. -/
def IxState.column (x : IxState) (vl : Nat) (f : IxEnt → Nat) : List El :=
  (List.range vl).map fun j => (j, (match (x.taken vl)[j]? with | some z => f z.2 | none => 0), false)

/-- The entries taken are gone and stand in the registers. -/
def Mach.drained (m : Mach) (n : Nat) (a b : VR) (t : ETy) : Mach :=
  let x := (m.core (n / 2)).ix
  let vl := (m.side n).vl.toNat
  ((m.modIx n fun y => { y with ents := x.rest vl, cursor := if (x.rest vl).any (fun z => x.behind vl ≤ z.1) then x.behind vl else 0,
                                usedIx := true }).modSide n fun y =>
    { (y.wv a t.size (x.column vl fun z => z.key.toNat)).wv b t.size (x.column vl fun z => ixRead t z.val)
      with ffi := BitVec.ofNat 11 (x.taken vl).length }).vfin n true

/-- `xdrain` once it has left the queue. -/
def Mach.ixDrain (m : Mach) (n : Nat) (a b : VR) (ts : Option ETy) : Mach :=
  if !ixTy ((m.side n).ty ts) then m.trapHead 0x01
  else if (m.side n).strip.isSome then m.trapHead 0x14
  else match (m.core (n / 2)).ix.drainBad (m.side n).vl.toNat with
    | some (_, w) => m.laneTrap n 0x0d w
    | none => m.drained n a b ((m.side n).ty ts)

theorem exec_xdrain (a b : VR) (ts : Option ETy) (s : State) : exec (.xdrain a b ts) s =
    run (fun m => m.vec (.xdrain a b ts) (m.typeCap ts) none [] [] fun n q m => m.leaveT n q ts .idx 0 (some id) fun m => m.ixDrain n a b ts) s := rfl

section
variable {m : Mach} {n : Nat} {a b : VR} {ts : Option ETy} (hty : ixTy ((m.side n).ty ts) = true) (hstrip : (m.side n).strip = none)
include hty hstrip

theorem Mach.ixDrain_of_bad {x : Nat} {w : Word} (hbad : (m.core (n / 2)).ix.drainBad (m.side n).vl.toNat = some (x, w)) :
    m.ixDrain n a b ts = m.laneTrap n 0x0d w := by
  simp [Mach.ixDrain, hty, hstrip, hbad]

theorem Mach.ixDrain_of_sound (hsound : (m.core (n / 2)).ix.drainBad (m.side n).vl.toNat = none) :
    m.ixDrain n a b ts = m.drained n a b ((m.side n).ty ts) := by
  simp [Mach.ixDrain, hty, hstrip, hsound]

end

theorem IxState.drainBad_eq_none {x : IxState} {vl : Nat}
    (h : x.bad.all (fun y => decide (y.1 < x.cursor ∨ x.readTo vl ≤ y.1)) = true) : x.drainBad vl = none := by
  rw [IxState.drainBad, List.find?_eq_none]
  intro y hy
  have houtside := of_decide_eq_true (List.all_eq_true.mp h y hy)
  simp only [Bool.and_eq_true, decide_eq_true_eq]
  omega

@[simp] theorem Mach.drained_stall (m : Mach) (n : Nat) (a b : VR) (t : ETy) : (m.drained n a b t).stall = m.stall := Mach.vfin_stall ..

theorem xdrain_of_atHeadT {s : State} {k : BitVec 10} {e : VqEntry} {ts : Option ETy} (hhead : Claims.atHeadT s k e ts .idx 0 = true)
    (a b : VR) :
    s.mach.vec (.xdrain a b ts) (s.mach.typeCap ts) none [] [] (fun n q m => m.leaveT n q ts .idx 0 (some id) fun m => m.ixDrain n a b ts)
      = (s.mach.left k.toNat).ixDrain k.toNat a b ts :=
  vec_leaveT_of_atHeadT hhead (fun _ => id) fun n _ m => m.ixDrain n a b ts

/-! ## Clearing and counting (R376) -/

/-- An instruction that R252 does not name, at the head of the queue with its checks passed. -/
theorem vec_leave_of_atHead_unnamed {s : State} {k : BitVec 10} {e : VqEntry} {p : Pipe} {wait : BitVec 8} {i : Instr} {capOk : Bool}
    {dst : Option Reg} {ss carry : List Src} (h : Claims.atHead s k e p wait false = true) (act : Nat → VqEntry → Mach → Mach) :
    s.mach.vec i capOk dst ss carry (fun k e m => m.leave k e p wait none (act k e)) = act k.toNat e (s.mach.left k.toNat) := by
  obtain ⟨hhead, hleaves, hacts, -⟩ := atHead_iff.mp h
  rw [Mach.vec_head hhead]
  exact Mach.leave_acts (zero := none) hleaves hacts _

theorem Mach.roleOnly_of_isRole {m : Mach} {r : Role} (h : m.isRole r = true) (k : Mach → Mach) : m.roleOnly r k = k m := if_pos h

theorem exec_xclr (s : State) : exec .xclr s = run (fun m => m.vec .xclr true none [] [] fun k q m => m.leave k q .idx 0 none fun m =>
    if (m.side k).strip.isSome then m.trapHead 0x14
    else (m.modIx k fun y => { y with ents := [], bad := [], cursor := 0, usedIx := true }).vpop k) s := rfl

/-- What `xcnt` does from issue on. -/
def Mach.ixCount (m : Mach) (d : Reg) : Mach :=
  m.roleOnly .P fun m => m.plain (some d) [] fun m =>
    if !m.owns m.myNo 5 then m.trapV 0x05 5
    else if m.mySide.vq.any fun e => inX e.ins then m.stay
    else m.completes d (w64 m.myCore.ix.ents.length)

theorem exec_xcnt (d : Reg) (s : State) : exec (.xcnt d) s = run (fun m => m.ixCount d) s := rfl

/-- On P of a side that owns its pipe `xcnt` waits while an X entry stands in the queue, and then completes. -/
theorem Mach.ixCount_of_ready {m : Mach} {d : Reg} (hrole : m.isRole .P = true) (hready : m.ready (some d) [] [] = true)
    (howns : m.owns m.myNo 5 = true) :
    m.ixCount d = if m.mySide.vq.any (fun e => inX e.ins) then m.stay else m.completes d (w64 m.myCore.ix.ents.length) := by
  rw [Mach.ixCount, Mach.roleOnly_of_isRole hrole, Mach.plain_ready hready]
  simp only [howns, Bool.not_true, Bool.false_eq_true, if_false]

end Sys2Proof.Machine

section
open Sys2Proof Sys2Proof.Machine

/-- The element-wise part of O30 and `xdrain`: the first unfit element or entry traps, and with none what they give stands. -/
theorem indexOps : Claims.IndexOps := by
  intro s k e m x
  refine ⟨fun i ts pg pd wr key val step src m1 hform hhead => ?elements, fun a b ts hhead => ?drain⟩
  case elements =>
    intro t kf vf hty hstrip hroom hreads ix stops
    have hgoes : ∀ m', m.ixElements m1 k.toNat t.size pd wr (step t x.frm) kf vf (x.actives pg) = m' → Claims.Goes i s m' :=
      fun m' h => does_of_run (exec_of_indexForm hform s) ((ixOp_of_atHeadT hhead hty hstrip hroom hreads).trans h)
    refine ⟨fun j hfirst => ⟨fun hk hu => ?key, fun hk hv hu => ?value, fun w hk hv hbad => ?entry⟩, fun hnone ents rs hgo => ?stand⟩
    case key =>
      have hstops : ixStops x.unresolved ix kf vf j = true := by rw [ixStops_of_poison (by simp [hk]), hu]; rfl
      exact hgoes _ ((Mach.ixElements_of_stop hfirst hstops).trans (Mach.ixTrap_of_key hk))
    case value =>
      have hstops : ixStops x.unresolved ix kf vf j = true := by rw [ixStops_of_poison (by simp [hv]), hu]; rfl
      exact hgoes _ ((Mach.ixElements_of_stop hfirst hstops).trans (Mach.ixTrap_of_value hk hv))
    case entry =>
      have hstops : ixStops x.unresolved ix kf vf j = true := by rw [ixStops_of_fit (by simp [hk, hv]), hbad]; rfl
      exact hgoes _ ((Mach.ixElements_of_stop hfirst hstops).trans (Mach.ixTrap_of_entry hk hv hbad))
    case stand =>
      intro ers hsettles
      exact hgoes _ (Mach.ixElements_of_settles hnone hgo hsettles)
  case drain =>
    intro t vl ix took rest behind upTo hty hstrip
    have hrun := xdrain_of_atHeadT hhead a b
    refine ⟨fun n w hbad => ?bad, fun hsound => ?sound⟩
    case bad => exact does_of_run (exec_xdrain a b ts s) (hrun.trans (Mach.ixDrain_of_bad hty hstrip hbad))
    case sound =>
      have hdrain := Mach.ixDrain_of_sound (a := a) (b := b) hty hstrip (IxState.drainBad_eq_none hsound)
      exact does_of_run (exec_xdrain a b ts s) (hrun.trans hdrain) (Mach.drained_stall ..)

/-- The last part of O30: `xclr` empties the entries whatever `vl`, and `xcnt` counts them once no older X entry is left. -/
theorem indexCount : Claims.IndexCount := by
  intro s
  refine ⟨fun k e hhead hstrip => ?clear, fun d hrole hready howns => ⟨fun hnone => ?count, fun hsome => ?wait⟩⟩
  case clear =>
    refine does_of_run (exec_xclr s) ((vec_leave_of_atHead_unnamed hhead fun k _ m => _).trans ?_) rfl
    simp [hstrip]
  case count =>
    refine does_of_run (exec_xcnt d s) ((Mach.ixCount_of_ready hrole hready howns).trans ?_) (Mach.completes_stall ..)
    rw [hnone]
    rfl
  case wait =>
    refine does_of_run (exec_xcnt d s) ((Mach.ixCount_of_ready hrole hready howns).trans ?_) (Mach.modMe_stall ..)
    rw [hsome]
    rfl

/-- Settles O30: the parts on the entries and on their count. -/
theorem indexResults : Obligations.IndexResults := ⟨indexOps, indexCount⟩

end
